-- ==== Sys2Proof/Word.lean ====
section
/-! DEFINITION. The word types of the PJON_ASK PHY (spec/10_state.md R21, R22; spec/46_common_semantics.md R340):
every quantity of the block is an unsigned bit vector of the width the spec names. -/

namespace Sys2Proof

/-- A byte: wire bytes, buffer bytes, the operand registers `A` and `B`, addresses of nodes (R340). -/
abbrev Byte := BitVec 8

/-- A host-bus word, also the width of `ARG`, `RESULT` and of the microsecond counter `now` (R65, R340). -/
abbrev Word := BitVec 32

/-- A host-bus byte address, `bus_addr[18:0]` (spec/20_memory.md R65). -/
abbrev BusAddr := BitVec 19

/-- A flag as the one-bit quantity 0 or 1 in bit 0 of a 32-bit word. -/
def Word.ofFlag (b : Bool) : Word := (BitVec.ofBool b).setWidth 32

end Sys2Proof
end

