-- ==== Sys2Proof/Config.lean ====
section
/-! DEFINITION. What an instance of the block fixes (spec/00_scope.md R8 to R12): the configuration constants, the
check that every constant is inside its legal range, the type of checked configurations, the places a byte can
stand in, and the one free value of the model (the content of a byte nothing has written, spec/20_memory.md R74). -/

namespace Sys2Proof

/-- The parameters of spec/00_scope.md R10. `NOW_WIDTH` is fixed at 32; `NOW0` belongs to the environment. -/
structure Config where
  /-- `OWN_ADDR`, this node's own address. -/
  ownAddr : Byte
  /-- `CA_EN`, collision avoidance on. -/
  caEn : Bool
  /-- `ENC_EN`, frames use the cipher. -/
  encEn : Bool
  /-- `SIMPLEX`, one-directional link. -/
  simplex : Bool
  /-- `BIT_WIDTH`, ticks of one bit. -/
  bitWidth : Nat
  /-- `BIT_SPACER`, ticks of the sync pulse. -/
  bitSpacer : Nat
  /-- `MAX_PACKETS`, number of queue slots. -/
  maxPackets : Nat
  /-- `MAX_FRAME_LEN`, capacity of `RXBUF` and exclusive bound of the length byte. -/
  maxFrameLen : Nat
  /-- `MAX_ATTEMPTS`, retry ceiling. -/
  maxAttempts : Nat
  /-- `ENCRYPTION_STRENGTH`, size of the cipher's table. -/
  encStrength : Nat
  /-- `KEY`, the pre-shared key. -/
  key : List Byte
  /-- `WHITEN`, the self-whitening step of the cipher is performed. -/
  whiten : Bool
  /-- `FLUSH_US`, ticks of the channel sensor's short pulse. -/
  flushUs : Nat
deriving DecidableEq, Repr

/-- Every parameter is inside its legal range (spec/00_scope.md R10, R12). -/
def Config.wf (c : Config) : Bool :=
  decide (c.ownAddr ≠ 0 ∧ c.ownAddr ≠ 124
    ∧ 1 ≤ c.bitWidth ∧ c.bitWidth ≤ 65535
    ∧ 1 ≤ c.bitSpacer ∧ c.bitSpacer ≤ 65535
    ∧ 1 ≤ c.maxPackets ∧ c.maxPackets ≤ 255
    ∧ 4 + c.encEn.toNat ≤ c.maxFrameLen ∧ c.maxFrameLen ≤ 256
    ∧ c.maxAttempts ≤ 254
    ∧ 1 ≤ c.encStrength ∧ c.encStrength ≤ 256
    ∧ 1 ≤ c.key.length ∧ c.key.length ≤ 256
    ∧ c.flushUs ≤ 65535)

/-- A checked configuration. The rules give a meaning only to well-formed configurations (R12), and an ill-formed one
is rejected where it is built (spec/93_implementation_defined.md U3, U4: "the model's constructor rejects it"). -/
abbrev Cfg := { c : Config // c.wf = true }

/-- The constructor that rejects an ill-formed configuration (U3, U4). -/
def Cfg.make (c : Config) : Option Cfg :=
  if h : c.wf = true then some ⟨c, h⟩ else none

/-- The example configuration: the column "example" of spec/00_scope.md R10 and the defaults the source gives
(`BIT_WIDTH = 350`, `BIT_SPACER = 750`). DESIGN CHOICE (log entry 1): the OPEN parameters have no value of their own;
statements range over every checked configuration, and only `State.reset` uses this one. Unsafe for a claim about
`State.reset` alone. -/
def Config.example : Config where
  ownAddr := 1
  caEn := false
  encEn := false
  simplex := false
  bitWidth := 350
  bitSpacer := 750
  maxPackets := 4
  maxFrameLen := 50
  maxAttempts := 2
  encStrength := 4
  key := [1, 2, 3, 4]
  whiten := true
  flushUs := 2

/-- `Config.example` as a checked configuration. -/
def Cfg.example : Cfg := ⟨Config.example, by decide⟩

/-- One byte of the block's storage (spec/20_memory.md R60 b, c): a buffer name and an index from 0. -/
inductive Loc where
  /-- `TXBUF[i]` (R61). -/
  | tx (i : Nat)
  /-- `RXBUF[i]` (R62). -/
  | rx (i : Nat)
  /-- `FBUF[i]` (R63). -/
  | fb (i : Nat)
  /-- `SBOX[i]` (spec/10_state.md R38). -/
  | sb (i : Nat)
  /-- `slot[k].payload[i]` (R64). -/
  | pay (k i : Nat)
deriving DecidableEq, Repr

/-- FREE VALUE (log entry 2): what a byte of a buffer holds that nothing has written since the latest reset
(spec/20_memory.md R74, spec/93_implementation_defined.md U6, U7: "a draw per byte, fixed once drawn; never assume 0").
The first argument counts the resets, so that a new reset makes new draws. DESIGN CHOICE (log entry 2): the draw depends on the
reset count and the place alone, not on the node, so that two nodes (two States) with the same reset count share their draws,
which R74 leaves open. Safe for a claim about one node, since nothing can be proved of a draw's value; unsafe for a claim that
compares the unwritten bytes of two nodes, since it can be proved that they are equal. -/
opaque Config.unwritten : Nat → Loc → Byte

end Sys2Proof
end

