-- ==== Sys2Proof/Machine/Params.lean ====
section
/-! DEFINITION. The fixed constants (spec/00_scope.md R9), the derived constants (R11) and the bus addresses the rules
name. -/

namespace Sys2Proof.Machine

/-- `BROADCAST` (R9). -/
def broadcastAddr : Byte := 124

/-- `ACK`, a response byte (R9). -/
def ackByte : Byte := 6

/-- `NAK`, a response byte (R9). -/
def nakByte : Byte := 21

/-- `MIN_FRAME = 3 + ENC_EN` (R11). -/
def minFrame (c : Config) : Nat := 3 + c.encEn.toNat

/-- `MAX_PAYLOAD = MAX_FRAME_LEN − 4 − ENC_EN` (R11). -/
def maxPayload (c : Config) : Nat := c.maxFrameLen - 4 - c.encEn.toNat

/-- `T_BYTE = BIT_SPACER + 9 × BIT_WIDTH`, the ticks of one symbol (R11). -/
def tByte (c : Config) : Nat := c.bitSpacer + 9 * c.bitWidth

/-- `LISTEN = BIT_SPACER + BIT_WIDTH`, the ticks of the listen window (R11). -/
def listenTicks (c : Config) : Nat := c.bitSpacer + c.bitWidth

/-- The bytes of `TXBUF` (spec/20_memory.md R61). -/
def txCapacity : Nat := 256

/-- The bytes of `FBUF`, `MAX_PAYLOAD + 1` (spec/20_memory.md R63). -/
def fbCapacity (c : Config) : Nat := maxPayload c + 1

/-- The address of `CMD` (spec/20_memory.md R70). -/
def cmdAddr : BusAddr := 0x00000

/-- The address of `STATUS` (spec/20_memory.md R70). -/
def statusAddr : BusAddr := 0x00008

end Sys2Proof.Machine
end

