-- ==== Sys2Proof/Machine/State.lean ====
section
/-! DEFINITION. The state of the machine (spec/10_state.md), as plain data: the block's registers, flags, slots,
buffers, pins and working registers; the configuration it was built with; the environment's side (clock, line, pending
host transactions, the reset pin); and what was observed so far (pin levels, events, host reads). -/

namespace Sys2Proof.Machine

/-- A byte buffer (spec/20_memory.md R60 b): the bytes something has written, by index, indices strictly rising. An
unlisted index holds NO value of its own; what a read of it answers is `State.byteAt` (the free value of R74). -/
abbrev Memory := List Host.Cell

/-- The state of a queue slot (spec/00_scope.md R16, spec/10_state.md R36). -/
inductive SlotState where
  | empty | pendingSend | delivered | rejected | failed | busy
deriving DecidableEq, Repr

/-- `Outcome` of the codec operations (spec/00_scope.md R16). -/
inductive TxOutcome where
  | ack | nak | fail | busy
deriving DecidableEq, Repr

/-- `ByteResult` of `receiveByte` (spec/00_scope.md R16). -/
inductive ByteResult where
  | byte (b : Byte)
  | fail
deriving DecidableEq, Repr

/-- The error conditions surfaced to the application (spec/60_exceptions.md R253). -/
inductive ErrKind where
  | connectionLost | bufferExhausted | allocationFailed
deriving DecidableEq, Repr

/-- One element of the send queue (spec/10_state.md R36). -/
structure Slot where
  state : SlotState
  destination : Byte
  length : Byte
  attempts : Byte
  registeredAt : Word
  repeatInterval : Word
  payload : Memory
deriving DecidableEq, Repr

/-- A slot at reset (spec/10_state.md R43); no payload byte has been written. -/
def Slot.blank : Slot where
  state := .empty
  destination := 0
  length := 0
  attempts := 0
  registeredAt := 0
  repeatInterval := 0
  payload := []

/-- The filter average `v` as the integer pair of spec/40_bit_layer.md R133: `v = 1/2 + e / (2 p)`. -/
structure Filter where
  e : Int
  p : Nat
deriving DecidableEq, Repr

/-- The working registers (spec/10_state.md R24). -/
structure Work where
  v : Filter
  k : Word
  h : BitVec 16
  r : Byte
  i8 : BitVec 4
  crc : Byte
  L : BitVec 9
  idx : BitVec 9
  n : BitVec 9
  m : BitVec 9
  ci : Byte
  cj : Byte
  iv : Byte
  t0 : Word
  resp : ByteResult
  cur : Byte
  cnt : Byte
deriving DecidableEq, Repr

/-- The working registers after reset. DESIGN CHOICE (log entry 3): the spec leaves them unspecified (R25, R43); every
operation writes each of them before it reads it. -/
def Work.blank : Work where
  v := ⟨0, 1⟩
  k := 0
  h := 0
  r := 0
  i8 := 0
  crc := 0
  L := 0
  idx := 0
  n := 0
  m := 0
  ci := 0
  cj := 0
  iv := 0
  t0 := 0
  resp := .fail
  cur := 0
  cnt := 0

/-- The pin registers as they stand during a tick (spec/10_state.md R40). -/
structure Pins where
  oe : Bool
  o : Bool
deriving DecidableEq, Repr

/-- A run of consecutive ticks with the same pin registers. -/
structure PinRun where
  pins : Pins
  ticks : Nat
deriving DecidableEq, Repr

/-- The levels the environment puts on the line (spec/60_exceptions.md R279, the other nodes and `ext`): runs of
(level, ticks) from time 0 on, and the constant level after the last run. -/
structure Wave where
  runs : List (Bool × Nat)
  rest : Bool
deriving DecidableEq, Repr

/-- An event output pulse with its side bands (spec/60_exceptions.md R262 to R264); for its time see `State.events`. -/
inductive Event where
  | rxFrame (len : Byte)
  | error (kind : ErrKind) (ctx : Byte)
deriving DecidableEq, Repr

/-- What the host side can do to the block: a bus write, a bus read (spec/20_memory.md R65), or holding the reset pin
for a number of ticks (spec/70_reset_and_hazards.md R290). -/
inductive BusOp where
  | wr (addr : BusAddr) (value : Word)
  | rd (addr : BusAddr)
  | rst (held : Nat)
deriving DecidableEq, Repr

/-- When a host action takes effect. -/
inductive When where
  /-- The host waits for `BUSY = 0` and then lets `ticks` ticks pass (spec/30_encoding.md R98, `IDLE` of R99). -/
  | idle (ticks : Nat)
  /-- The host acts between tick `tick − 1` and tick `tick`, whatever the block does; `first`: before the block's own
  zero-time actions between the same two ticks. -/
  | atTick (tick : Nat) (first : Bool)
deriving DecidableEq, Repr

/-- One pending host action. The list of them is in issue order (spec/20_memory.md R65). -/
structure HostAct where
  when : When
  op : BusOp
deriving DecidableEq, Repr

/-- A host read that was made: its time since the environment began, its address and the word `bus_rdata` answered. -/
structure BusRead where
  time : Nat
  addr : BusAddr
  data : Word
deriving DecidableEq, Repr

/-- The machine. Fields are in the order of INVENTORY.md. -/
structure State where
  /-- The configuration, fixed for the life of the instance (spec/00_scope.md R8). -/
  cfg : Cfg
  /-- `A` (R21). -/
  regA : Byte
  /-- `B` (R21). -/
  regB : Byte
  /-- `ARG` (R21). -/
  arg : Word
  /-- `RESULT` (R23). -/
  result : Word
  /-- `STATUS.BUSY` (R28, R31). -/
  busy : Bool
  /-- `STATUS.DONE` (R31). -/
  done : Bool
  /-- `STATUS.RX_DONE` (R31). -/
  rxDone : Bool
  /-- `STATUS.ERR` (R31). -/
  err : Bool
  /-- `STATUS.CMD_ERR` (R31). -/
  cmdErr : Bool
  /-- `RX_LEN` (R32). -/
  rxLen : Byte
  /-- `RX_COUNT` (R32). -/
  rxCount : Word
  /-- `ERR_KIND` (R32). -/
  errKind : BitVec 2
  /-- `ERR_CTX` (R32). -/
  errCtx : Byte
  /-- `ERR_COUNT` (R32). -/
  errCount : Word
  /-- The slot file (R35). -/
  slots : List Slot
  /-- `SBOX` (R38). -/
  sbox : Memory
  /-- `TXBUF` (R39). -/
  txbuf : Memory
  /-- `RXBUF` (R39). -/
  rxbuf : Memory
  /-- `FBUF` (R39). -/
  fbuf : Memory
  /-- `line_o` (R40). -/
  lineO : Bool
  /-- `line_oe` (R40). -/
  lineOe : Bool
  /-- The working registers (R24). -/
  work : Work
  /-- Environment: the clock input at time 0 (R41). -/
  clock0 : Word
  /-- Environment: ticks since it began. -/
  time : Nat
  /-- Environment: the time of the latest release of reset (tick 0 of spec/00_scope.md R14). -/
  released : Nat
  /-- Model: the number of resets so far; names the draws of unwritten bytes. -/
  resets : Nat
  /-- Environment: what the medium supplies. -/
  line : Wave
  /-- Environment: the node hears its own carrier (spec/60_exceptions.md R279). -/
  hearsSelf : Bool
  /-- Environment: the host actions not yet made. -/
  host : List HostAct
  /-- Model: `DONE` was set since the last tick (R31 "the set wins"). -/
  freshDone : Bool
  /-- Model: `RX_DONE` was set since the last tick. -/
  freshRx : Bool
  /-- Model: `ERR` was set since the last tick. -/
  freshErr : Bool
  /-- Model: `CMD_ERR` was set since the last tick. -/
  freshCmd : Bool
  /-- Observed: the pins during every tick so far, newest run first. -/
  trace : List PinRun
  /-- Observed: the event pulses so far, in order, each with `t_cur` at the pulse (spec/60_exceptions.md R264). DESIGN CHOICE (log
  entry 14): R264 does not say what becomes of the list over a reset, which restarts `t_cur`; here it goes on. -/
  events : List (Nat × Event)
  /-- Observed: the host reads so far, in order, each with its time since the environment began; the model's own list, which goes
  on over a reset (log entry 14). -/
  reads : List BusRead
deriving DecidableEq, Repr

/-- The reasons the machine stops. -/
inductive Fault where
  /-- Raised by `RECEIVE_FRAME_T` alone, when its time test can never hold again and the medium never yields `Ack`: the
  command never ends (spec/70_reset_and_hazards.md R318; spec/93_implementation_defined.md U17, treatment "stuck"). Safe:
  there is no state in which it has ended (log entry 9). -/
  | neverEnds
deriving DecidableEq, Repr

/-- The reasons the model has no answer. -/
inductive Refusal where
  /-- Raised by an arm of `exec` for an instruction with no meaning yet; no arm does. Safe. -/
  | notModelled (mnemonic : String)
deriving DecidableEq, Repr

/-- The machine at the release of reset, time 0, in an environment that has supplied nothing yet: every register, flag,
counter and slot field 0, pins 0, buffers unwritten (spec/10_state.md R43, spec/70_reset_and_hazards.md R290). -/
def State.blank (cfg : Cfg) : State where
  cfg := cfg
  regA := 0
  regB := 0
  arg := 0
  result := 0
  busy := false
  done := false
  rxDone := false
  err := false
  cmdErr := false
  rxLen := 0
  rxCount := 0
  errKind := 0
  errCtx := 0
  errCount := 0
  slots := List.replicate cfg.val.maxPackets Slot.blank
  sbox := []
  txbuf := []
  rxbuf := []
  fbuf := []
  lineO := false
  lineOe := false
  work := Work.blank
  clock0 := 1000
  time := 0
  released := 0
  resets := 0
  line := ⟨[], false⟩
  hearsSelf := true
  host := []
  freshDone := false
  freshRx := false
  freshErr := false
  freshCmd := false
  trace := []
  events := []
  reads := []

/-- The machine right after reset, with the example configuration, the example clock (`NOW0 = 1000`), an idle medium
and no host action pending (log entries 1, 5, 6, 7). -/
def State.reset : State := State.blank Cfg.example

end Sys2Proof.Machine
end

