-- ==== Sys2Proof/Syntax.lean ====
section
/-! DEFINITION. The commands of the block (spec/30_encoding.md R90 to R93): one constructor per row of
spec/opcode_table.json. A constructor carries every bit of the command word that is not fixed: the operand fields the
command uses under their names, and the ignored fields `a`, `b`, which acceptance still copies to the registers `A`
and `B` (R91, R94). The 32-bit third operand is not part of the word: it is the register `ARG` (R91). -/

namespace Sys2Proof

/-- A command word that passes the encoding checks of spec/30_encoding.md R95 (2) to (4). -/
inductive Instr where
  /-- `SEND_BIT level, dur` (R131); `a[7:1]` is fixed at 0, `b` ignored. -/
  | sendBit (level : Bool) (b : Byte)
  /-- `SAMPLE_BIT dur` (R132). -/
  | sampleBit (a b : Byte)
  /-- `SEND_BYTE byte` (R141). -/
  | sendByte (byte b : Byte)
  /-- `READ_BYTE` (R143). -/
  | readByte (a b : Byte)
  /-- `RECEIVE_BYTE` (R145). -/
  | receiveByte (a b : Byte)
  /-- `CAN_START` (R161). -/
  | canStart (a b : Byte)
  /-- `SEND_FRAME dest, len` (R171). -/
  | sendFrame (dest len : Byte)
  /-- `RECEIVE_FRAME` (R180). -/
  | receiveFrame (a b : Byte)
  /-- `RECEIVE_FRAME_T dur` (R187). -/
  | receiveFrameT (a b : Byte)
  /-- `CRYPT ivf, side, len` (R201); `a[7:2]` is fixed at 0. -/
  | crypt (ivf side : Bool) (len : Byte)
  /-- `GEN_IV len` (R207). -/
  | genIv (a len : Byte)
  /-- `ENQUEUE dest, len, interval` (R221). -/
  | enqueue (dest len : Byte)
  /-- `TICK` (R226). -/
  | tick (a b : Byte)
  /-- `REMOVE index` (R235). -/
  | remove (index b : Byte)
deriving DecidableEq, Repr

end Sys2Proof
end

