-- ==== Sys2Proof/Machine/Operands.lean ====
section
/-! DEFINITION. Operands and results: which register field each command reads (spec/30_encoding.md R93), which operand
values are legal (R93, R95 check 5), and the numeric codes and `RESULT` encodings (R96, R97). -/

namespace Sys2Proof.Machine

/-- The field `a` of the command word, which acceptance copies to `A` (R91, R94). -/
def fieldA : Instr → Byte
  | .sendBit level _ => 0#7 ++ BitVec.ofBool level
  | .sampleBit a _ => a
  | .sendByte byte _ => byte
  | .readByte a _ => a
  | .receiveByte a _ => a
  | .canStart a _ => a
  | .sendFrame dest _ => dest
  | .receiveFrame a _ => a
  | .receiveFrameT a _ => a
  | .crypt ivf side _ => 0#6 ++ (BitVec.ofBool side ++ BitVec.ofBool ivf)
  | .genIv a _ => a
  | .enqueue dest _ => dest
  | .tick a _ => a
  | .remove index _ => index

/-- The field `b` of the command word, which acceptance copies to `B` (R91, R94). -/
def fieldB : Instr → Byte
  | .sendBit _ b => b
  | .sampleBit _ b => b
  | .sendByte _ b => b
  | .readByte _ b => b
  | .receiveByte _ b => b
  | .canStart _ b => b
  | .sendFrame _ len => len
  | .receiveFrame _ b => b
  | .receiveFrameT _ b => b
  | .crypt _ _ len => len
  | .genIv _ len => len
  | .enqueue _ len => len
  | .tick _ b => b
  | .remove _ b => b

/-- The operand values R93 calls legal (R95 check 5): `SEND_FRAME` with `b ≤ MAX_PAYLOAD`; `CRYPT` encode with an IV
with `b ≤ 253`, decode with an IV with `b ≥ 1`; `GEN_IV` with `b ≤ 253`; `REMOVE` with `a < MAX_PACKETS`; every value of
the other commands. -/
def legalOperands (c : Config) : Instr → Bool
  | .sendFrame _ len => decide (len.toNat ≤ maxPayload c)
  | .crypt ivf side len =>
      if ivf then (if side then decide (1 ≤ len.toNat) else decide (len.toNat ≤ 253)) else true
  | .genIv _ len => decide (len.toNat ≤ 253)
  | .remove index _ => decide (index.toNat < c.maxPackets)
  | .sendBit _ _ => true
  | .sampleBit _ _ => true
  | .sendByte _ _ => true
  | .readByte _ _ => true
  | .receiveByte _ _ => true
  | .canStart _ _ => true
  | .receiveFrame _ _ => true
  | .receiveFrameT _ _ => true
  | .enqueue _ _ => true
  | .tick _ _ => true

/-- `level = A[0]` of `SEND_BIT` (R93). -/
def State.opLevel (s : State) : Bool := s.regA.getLsbD 0

/-- `ivf = A[0]` of `CRYPT` (R93). -/
def State.opIvf (s : State) : Bool := s.regA.getLsbD 0

/-- `side = A[1]` of `CRYPT`: 0 encode, 1 decode (R93). -/
def State.opSide (s : State) : Bool := s.regA.getLsbD 1

/-- The duration operand `ARG`, in ticks (R93). -/
def State.opDur (s : State) : Nat := s.arg.toNat

/-- The length operand `B` (R93). -/
def State.opLen (s : State) : Nat := s.regB.toNat

/-- The slot index operand `A` of `REMOVE` (R93). -/
def State.opIndex (s : State) : Nat := s.regA.toNat

/-- The code of a slot state (R97). -/
def SlotState.code : SlotState → BitVec 3
  | .empty => 0
  | .pendingSend => 1
  | .delivered => 2
  | .rejected => 3
  | .failed => 4
  | .busy => 5

/-- The code of an outcome (R97). -/
def TxOutcome.code : TxOutcome → BitVec 3
  | .ack => 2
  | .nak => 3
  | .fail => 4
  | .busy => 5

/-- The code of an error kind (R97). -/
def ErrKind.code : ErrKind → BitVec 2
  | .connectionLost => 1
  | .bufferExhausted => 2
  | .allocationFailed => 3

/-- `RESULT` of `READ_BYTE`, `GEN_IV`, `TICK`, and of `ENQUEUE` on success: bits [7:0] (R96). -/
def resultByte (b : Byte) : Word := b.setWidth 32

/-- `RESULT` of `RECEIVE_BYTE`: bit 8 set exactly for `ByteFail` (R96). -/
def resultByteResult : ByteResult → Word
  | .byte b => b.setWidth 32
  | .fail => 0x100

/-- `RESULT` of the codec commands: bits [2:0] the outcome code (R96). -/
def resultOutcome (o : TxOutcome) : Word := o.code.setWidth 32

/-- `RESULT` of `CRYPT`: bits [8:0] the new length (R96). -/
def resultLength (n : Nat) : Word := (BitVec.ofNat 9 n).setWidth 32

/-- `RESULT` of a failing `ENQUEUE`: bit 8 set, bits [1:0] the kind code (R96). -/
def resultFailure (k : ErrKind) : Word := 0x100 ||| k.code.setWidth 32

end Sys2Proof.Machine
end

