-- ==== Sys2Proof/Decode.lean ====
section
/-! DEFINITION. The decoder of command words, total, rejecting by name, and the encoder (spec/30_encoding.md R90 to R95;
opcode numbers of R92). The configuration-dependent check 5 of R95 is `legalOperands`. -/

namespace Sys2Proof

/-- Why a command word is refused whatever the configuration: the checks (2), (3), (4) of R95. -/
inductive DecodeError where
  /-- `rsv0 ≠ 0` or `rsv1 ≠ 0` (check 2). -/
  | reservedBits
  /-- `op = 0x0` or `op = 0xF` (check 3). -/
  | reservedOpcode
  /-- A "must be 0" bit of `SEND_BIT` or `CRYPT` is 1 (check 4). -/
  | mustBeZero
deriving DecidableEq, Repr

/-- The fields of the command word (R91). -/
def wordOp (w : Word) : BitVec 4 := w.extractLsb' 0 4
/-- `rsv0`, bits [7:4] (R91). -/
def wordRsv0 (w : Word) : BitVec 4 := w.extractLsb' 4 4
/-- `a`, bits [15:8] (R91). -/
def wordA (w : Word) : Byte := w.extractLsb' 8 8
/-- `b`, bits [23:16] (R91). -/
def wordB (w : Word) : Byte := w.extractLsb' 16 8
/-- `rsv1`, bits [31:24] (R91). -/
def wordRsv1 (w : Word) : Byte := w.extractLsb' 24 8

/-- The opcode map (R92) on the operand fields, with the "must be 0" bits of R93. -/
def decodeFields (op : BitVec 4) (a b : Byte) : Except DecodeError Instr :=
  match op.toNat with
  | 1 => if a.extractLsb' 1 7 = 0 then .ok (.sendBit (a.getLsbD 0) b) else .error .mustBeZero
  | 2 => .ok (.sampleBit a b)
  | 3 => .ok (.sendByte a b)
  | 4 => .ok (.readByte a b)
  | 5 => .ok (.receiveByte a b)
  | 6 => .ok (.canStart a b)
  | 7 => .ok (.sendFrame a b)
  | 8 => .ok (.receiveFrame a b)
  | 9 => .ok (.receiveFrameT a b)
  | 10 =>
      if a.extractLsb' 2 6 = 0 then .ok (.crypt (a.getLsbD 0) (a.getLsbD 1) b) else .error .mustBeZero
  | 11 => .ok (.genIv a b)
  | 12 => .ok (.enqueue a b)
  | 13 => .ok (.tick a b)
  | 14 => .ok (.remove a b)
  | _ => .error .reservedOpcode

/-- The decoder: the checks of R95 (2) to (4) in their order, then the opcode map. -/
def decode (w : Word) : Except DecodeError Instr :=
  if wordRsv0 w ≠ 0 ∨ wordRsv1 w ≠ 0 then .error .reservedBits
  else decodeFields (wordOp w) (wordA w) (wordB w)

/-- The opcode of a command (R92). -/
def opcodeOf : Instr → BitVec 4
  | .sendBit _ _ => 0x1
  | .sampleBit _ _ => 0x2
  | .sendByte _ _ => 0x3
  | .readByte _ _ => 0x4
  | .receiveByte _ _ => 0x5
  | .canStart _ _ => 0x6
  | .sendFrame _ _ => 0x7
  | .receiveFrame _ _ => 0x8
  | .receiveFrameT _ _ => 0x9
  | .crypt _ _ _ => 0xA
  | .genIv _ _ => 0xB
  | .enqueue _ _ => 0xC
  | .tick _ _ => 0xD
  | .remove _ _ => 0xE

/-- The command word of a command (R91): `rsv1`, `b`, `a`, `rsv0`, `op` from the high bits down. -/
def encode (i : Instr) : Word :=
  0#8 ++ (Machine.fieldB i ++ (Machine.fieldA i ++ (0#4 ++ opcodeOf i)))

/-- The instruction the decoder reads from the `nbits` low bits of `w`, every bit above them 0. A command is one 32-bit
word (R90), so there is no byte order to choose. -/
def decodeTableWord (nbits w : Nat) : Option Instr :=
  (decode (BitVec.ofNat 32 (w % 2 ^ nbits))).toOption

end Sys2Proof
end

