-- ==== Sys2Proof/Machine/Flags.lean ====
section
/-! DEFINITION. The flags (spec/10_state.md R30, R31): the word `STATUS` reads, the host's write-1-to-clear, the
interrupt request line, and the sets the block makes. No operation reads a flag (R30). -/

namespace Sys2Proof.Machine

/-- The word `STATUS` reads (R31): bit 0 `BUSY`, 1 `DONE`, 2 `RX_DONE`, 3 `ERR`, 4 `CMD_ERR`, 5 `LINE_OE`, 6 `LINE_O`;
every other bit reads 0. -/
def State.statusWord (s : State) : Word :=
  0#25 ++ (BitVec.ofBool s.lineO ++ (BitVec.ofBool s.lineOe ++ (BitVec.ofBool s.cmdErr ++ (BitVec.ofBool s.err ++
    (BitVec.ofBool s.rxDone ++ (BitVec.ofBool s.done ++ BitVec.ofBool s.busy))))))

/-- The level of `irq` (spec/60_exceptions.md R264). -/
def State.irq (s : State) : Bool := s.rxDone || s.err

/-- A write-1-to-clear flag after the host wrote `one` to its bit. `fresh`: the block set the flag between the same two
ticks, and "the set wins" (R31, spec/60_exceptions.md R268). -/
def clearFlag (flag fresh one : Bool) : Bool := flag && (!one || fresh)

/-- A host write to `STATUS` (R31): honoured whether the block is idle or busy; a 0 bit does nothing; read-only and
unlisted bits ignore it. The set wins for all four flags: a refusal is the block's set of `CMD_ERR` (log entry 8). -/
def State.writeStatus (v : Word) (s : State) : State :=
  { s with
    done := clearFlag s.done s.freshDone (v.getLsbD 1)
    rxDone := clearFlag s.rxDone s.freshRx (v.getLsbD 2)
    err := clearFlag s.err s.freshErr (v.getLsbD 3)
    cmdErr := clearFlag s.cmdErr s.freshCmd (v.getLsbD 4) }

/-- `DONE <- 1` at the end of a command (R29, R31). -/
def State.setDone (s : State) : State := { s with done := true, freshDone := true }

/-- `RX_DONE <- 1` at `emit RxFrame` (R31). -/
def State.setRxDone (s : State) : State := { s with rxDone := true, freshRx := true }

/-- `ERR <- 1` at `emit Error` (R31). -/
def State.setErr (s : State) : State := { s with err := true, freshErr := true }

/-- `CMD_ERR <- 1` at a refused command (R31, spec/30_encoding.md R95). -/
def State.setCmdErr (s : State) : State := { s with cmdErr := true, freshCmd := true }

end Sys2Proof.Machine
end

