-- ==== Sys2Proof/Machine/Ops.lean ====
section
/-! DEFINITION. The named operations every command is built from: the clock, the byte buffers, the host register space,
the line and the passing of ticks, the events (what stands in the place of taking an exception), acceptance, refusal and
the end of a command, and reset. -/

namespace Sys2Proof.Machine

/-! ### The clock -/

/-- The clock input `now` (spec/10_state.md R41): one more per tick, modulo 2^32. -/
def State.now (s : State) : Word := s.clock0 + BitVec.ofNat 32 s.time

/-- `t_cur`, the number of the next tick, counted from the latest release of reset (spec/00_scope.md R14). -/
def State.tcur (s : State) : Nat := s.time - s.released

/-- `NOW0`, the value of `now` at tick 0 (spec/00_scope.md R10, R14). -/
def State.now0 (s : State) : Word := s.clock0 + BitVec.ofNat 32 s.released

/-- `elapsed(t0) = (now − t0) mod 2^32` (spec/00_scope.md R15, spec/46_common_semantics.md R341 b). -/
def State.elapsed (s : State) (t0 : Word) : Nat := (s.now - t0).toNat

/-! ### Byte buffers -/

/-- The byte listed at an index, `none` when nothing has written it. -/
def Memory.find : Memory → Nat → Option Byte
  | [], _ => none
  | (a, v) :: rest, i => if a = i then some v else Memory.find rest i

/-- Write one byte, keeping the indices strictly rising. -/
def Memory.write : Memory → Nat → Byte → Memory
  | [], i, v => [(i, v)]
  | (a, w) :: rest, i, v =>
      if i < a then (i, v) :: (a, w) :: rest
      else if i = a then (i, v) :: rest
      else (a, w) :: Memory.write rest i v

/-- Every listed index is above `lo` and they rise strictly. -/
def Memory.risesFrom : Nat → Memory → Bool
  | _, [] => true
  | lo, (a, _) :: rest => decide (lo ≤ a) && Memory.risesFrom (a + 1) rest

/-- The canonical form: indices strictly rising. An unlisted index reads as no value, and no entry is "no value", so
that equal contents are equal lists. -/
def Memory.wf (m : Memory) : Bool := Memory.risesFrom 0 m

/-- Every listed index is inside the buffer's capacity. -/
def Memory.within (cap : Nat) (m : Memory) : Bool := m.all fun c => decide (c.1 < cap)

/-- The slot `k` of the slot file; outside it, a blank slot. -/
def State.slot (s : State) (k : Nat) : Slot := s.slots.getD k Slot.blank

/-- The host actions still pending. -/
def State.withHost (acts : List HostAct) (s : State) : State := { s with host := acts }

/-- `ARG` written (spec/10_state.md R22). -/
def State.withArg (v : Word) (s : State) : State := { s with arg := v }

/-- Replace slot `k`. -/
def State.setSlot (k : Nat) (q : Slot) (s : State) : State := { s with slots := s.slots.set k q }

/-- What the storage holds at a place, if anything was written there since reset. -/
def State.stored (s : State) : Loc → Option Byte
  | .tx i => s.txbuf.find i
  | .rx i => s.rxbuf.find i
  | .fb i => s.fbuf.find i
  | .sb i => s.sbox.find i
  | .pay k i => (s.slot k).payload.find i

/-- The read of one byte: what was written there, else the free value of the place (spec/20_memory.md R74: "a draw",
"fixed once drawn"). -/
def State.byteAt (s : State) (l : Loc) : Byte := (s.stored l).getD (Config.unwritten s.resets l)

/-- The write of one byte. -/
def State.setByte (l : Loc) (v : Byte) (s : State) : State :=
  match l with
  | .tx i => { s with txbuf := s.txbuf.write i v }
  | .rx i => { s with rxbuf := s.rxbuf.write i v }
  | .fb i => { s with fbuf := s.fbuf.write i v }
  | .sb i => { s with sbox := s.sbox.write i v }
  | .pay k i => s.setSlot k { s.slot k with payload := (s.slot k).payload.write i v }

/-- The bytes 0 to `n − 1` of a region of the storage. -/
def State.readBytes (s : State) (region : Nat → Loc) (n : Nat) : List Byte :=
  (List.range n).map fun i => s.byteAt (region i)

/-- Write bytes to a region in ascending index, from index `i` on (spec/46_common_semantics.md R346). -/
def State.writeBytes (region : Nat → Loc) : Nat → List Byte → State → State
  | _, [], s => s
  | i, b :: bs, s => State.writeBytes region (i + 1) bs (s.setByte (region i) b)

/-! ### The host register space -/

/-- The locations of the address map (spec/20_memory.md R70). -/
inductive Reg where
  | cmd | arg | status | result | rxLen | rxCount | errKind | errCtx | errCount | now | qlive
  | cfgAddr | cfgFlags | cfgBitWidth | cfgBitSpacer | cfgMaxAttempts | cfgMaxPackets | cfgMaxFrameLen
  | cfgEncStrength | cfgFlushUs
  | txbuf (i : Nat)
  | rxbuf (i : Nat)
  | qState (k : Nat)
  | qDest (k : Nat)
  | qLen (k : Nat)
  | qAttempts (k : Nat)
  | qRegAt (k : Nat)
  | qInterval (k : Nat)
  | payload (k i : Nat)
deriving DecidableEq, Repr

/-- The single registers of the map (R70), by byte address. -/
def fixedReg (a : Nat) : Option Reg :=
  match a with
  | 0x00 => some .cmd
  | 0x04 => some .arg
  | 0x08 => some .status
  | 0x0C => some .result
  | 0x10 => some .rxLen
  | 0x14 => some .rxCount
  | 0x18 => some .errKind
  | 0x1C => some .errCtx
  | 0x20 => some .errCount
  | 0x24 => some .now
  | 0x28 => some .qlive
  | 0x40 => some .cfgAddr
  | 0x44 => some .cfgFlags
  | 0x48 => some .cfgBitWidth
  | 0x4C => some .cfgBitSpacer
  | 0x50 => some .cfgMaxAttempts
  | 0x54 => some .cfgMaxPackets
  | 0x58 => some .cfgMaxFrameLen
  | 0x5C => some .cfgEncStrength
  | 0x60 => some .cfgFlushUs
  | _ => none

/-- The fields of a slot window (R70), by offset; 0x18 and 0x1C are reserved (R71). -/
def slotReg (k off : Nat) : Option Reg :=
  match off with
  | 0x00 => some (.qState k)
  | 0x04 => some (.qDest k)
  | 0x08 => some (.qLen k)
  | 0x0C => some (.qAttempts k)
  | 0x10 => some (.qRegAt k)
  | 0x14 => some (.qInterval k)
  | _ => none

/-- The address map (R70); `none` is void: misaligned (R69) or not listed (R71). -/
def regOf (c : Config) (addr : BusAddr) : Option Reg :=
  let a := addr.toNat
  if a % 4 ≠ 0 then none
  else if a < 0x400 then fixedReg a
  else if a < 0x800 then some (.txbuf ((a - 0x400) / 4))
  else if a < 0x1000 then
    let i := (a - 0x800) / 4
    if i < c.maxFrameLen then some (.rxbuf i) else none
  else if a < 0x10000 then
    let k := (a - 0x1000) / 0x20
    if k < c.maxPackets then slotReg k ((a - 0x1000) % 0x20) else none
  else
    let k := (a - 0x10000) / 0x400
    let i := ((a - 0x10000) % 0x400) / 4
    if k < c.maxPackets ∧ i < maxPayload c then some (.payload k i) else none

/-- `QLIVE`: the number of slots that are not `Empty` (spec/10_state.md R33). -/
def State.qlive (s : State) : Nat := (s.slots.filter fun q => decide (q.state ≠ .empty)).length

/-- `CFG_FLAGS`: bit 0 `CA_EN`, 1 `ENC_EN`, 2 `SIMPLEX`, 3 `WHITEN` (spec/10_state.md R34). -/
def cfgFlagsWord (c : Config) : Word :=
  0#28 ++ (BitVec.ofBool c.whiten ++ (BitVec.ofBool c.simplex ++ (BitVec.ofBool c.encEn ++ BitVec.ofBool c.caEn)))

/-- The word a register reads (spec/20_memory.md R68 d, R70; spec/10_state.md R31 to R36); no side effect (R72). -/
def State.readReg (s : State) : Reg → Word
  | .cmd => 0
  | .arg => s.arg
  | .status => s.statusWord
  | .result => s.result
  | .rxLen => s.rxLen.setWidth 32
  | .rxCount => s.rxCount
  | .errKind => s.errKind.setWidth 32
  | .errCtx => s.errCtx.setWidth 32
  | .errCount => s.errCount
  | .now => s.now
  | .qlive => BitVec.ofNat 32 s.qlive
  | .cfgAddr => s.cfg.val.ownAddr.setWidth 32
  | .cfgFlags => cfgFlagsWord s.cfg.val
  | .cfgBitWidth => BitVec.ofNat 32 s.cfg.val.bitWidth
  | .cfgBitSpacer => BitVec.ofNat 32 s.cfg.val.bitSpacer
  | .cfgMaxAttempts => BitVec.ofNat 32 s.cfg.val.maxAttempts
  | .cfgMaxPackets => BitVec.ofNat 32 s.cfg.val.maxPackets
  | .cfgMaxFrameLen => BitVec.ofNat 32 s.cfg.val.maxFrameLen
  | .cfgEncStrength => BitVec.ofNat 32 s.cfg.val.encStrength
  | .cfgFlushUs => BitVec.ofNat 32 s.cfg.val.flushUs
  | .txbuf i => (s.byteAt (.tx i)).setWidth 32
  | .rxbuf i => (s.byteAt (.rx i)).setWidth 32
  | .qState k => (s.slot k).state.code.setWidth 32
  | .qDest k => (s.slot k).destination.setWidth 32
  | .qLen k => (s.slot k).length.setWidth 32
  | .qAttempts k => (s.slot k).attempts.setWidth 32
  | .qRegAt k => (s.slot k).registeredAt
  | .qInterval k => (s.slot k).repeatInterval
  | .payload k i => (s.byteAt (.pay k i)).setWidth 32

/-- The answer of a host read, busy or idle (R67); a void read is 0 (R69). -/
def State.hostRead (s : State) (addr : BusAddr) : Word :=
  match regOf s.cfg.val addr with
  | some r => s.readReg r
  | none => 0

/-- A host read as it is made: only the observation grows (R72). -/
def State.busRead (addr : BusAddr) (s : State) : State :=
  { s with reads := s.reads ++ [⟨s.time, addr, s.hostRead addr⟩] }

/-- The one effect of a refused command: `STATUS.CMD_ERR <- 1` (spec/30_encoding.md R95, spec/60_exceptions.md R254). -/
def State.refuse (s : State) : State := s.setCmdErr

/-- A host write to a register that is not `CMD` while the block is idle: `ARG`, `STATUS` and `TXBUF` take it, in bits
[7:0] for a buffer byte (R68 d); read-only locations ignore it (R70). A write to `CMD` is a command, not this. -/
def State.writeReg (r : Reg) (v : Word) (s : State) : State :=
  match r with
  | .arg => s.withArg v
  | .status => s.writeStatus v
  | .txbuf i => s.setByte (.tx i) (v.setWidth 8)
  | _ => s

/-- A host write while `BUSY = 1` (spec/20_memory.md R66): `STATUS` takes it, `CMD` is refused, the rest is ignored. -/
def State.busyWrite (addr : BusAddr) (v : Word) (s : State) : State :=
  match regOf s.cfg.val addr with
  | some .status => s.writeStatus v
  | some .cmd => s.refuse
  | _ => s

/-- A host write to an address other than `CMD`'s (R66, R69, R70): a void write is ignored. -/
def State.hostWrite (addr : BusAddr) (v : Word) (s : State) : State :=
  if s.busy then s.busyWrite addr v
  else
    match regOf s.cfg.val addr with
    | some r => s.writeReg r v
    | none => s

/-! ### The line and the passing of ticks -/

/-- The level after `τ` ticks of a list of runs, `rest` beyond them. -/
def levelIn (rest : Bool) : List (Bool × Nat) → Nat → Bool
  | [], _ => rest
  | (b, n) :: runs, τ => if τ < n then b else levelIn rest runs (τ - n)

/-- The ticks the runs of a wave cover. -/
def Wave.length (w : Wave) : Nat := (w.runs.map Prod.snd).sum

/-- The level the environment supplies at time `τ`. -/
def Wave.level (w : Wave) (τ : Nat) : Bool := levelIn w.rest w.runs τ

/-- The block drives the medium HIGH (spec/10_state.md R40). -/
def Pins.drives (p : Pins) : Bool := p.oe && p.o

/-- The OR medium (spec/60_exceptions.md R279): HIGH when the environment's part is, or any of the drivers is. -/
def orMedium (ext : Bool) (drivers : List Pins) : Bool := ext || drivers.any Pins.drives

/-- The pin registers as they stand. -/
def State.pins (s : State) : Pins := ⟨s.lineOe, s.lineO⟩

/-- `line_i` at time `τ`, with the pins as they stand now (R40, R279). -/
def State.lineAt (s : State) (τ : Nat) : Bool :=
  orMedium (s.line.level τ) (if s.hearsSelf then [s.pins] else [])

/-- The samples of the next `d` ticks, one per tick (spec/00_scope.md R14, R15 `tickSample`). -/
def State.samples (s : State) (d : Nat) : List Bool :=
  (List.range d).map fun j => s.lineAt (s.time + j)

/-- The number of HIGH samples from time `τ` on, at most `n`. -/
def State.highRun (s : State) : Nat → Nat → Nat
  | 0, _ => 0
  | n + 1, τ => if s.lineAt τ then s.highRun n (τ + 1) + 1 else 0

/-- Extend the trace by `d` ticks with the pins `p`. -/
def pushRun (p : Pins) (d : Nat) (trace : List PinRun) : List PinRun :=
  if d = 0 then trace
  else
    match trace with
    | [] => [⟨p, d⟩]
    | r :: rest => if r.pins = p then ⟨p, r.ticks + d⟩ :: rest else ⟨p, d⟩ :: r :: rest

/-- The pins `back` ticks before the end of the trace. -/
def pinsBack : List PinRun → Nat → Option Pins
  | [], _ => none
  | r :: rest, back => if back < r.ticks then some r.pins else pinsBack rest (back - r.ticks)

/-- The pins during the tick at time `τ`, if that tick has passed. -/
def State.pinsDuring (s : State) (τ : Nat) : Option Pins :=
  if τ < s.time then pinsBack s.trace (s.time - 1 - τ) else none

/-- The ticks a trace covers. -/
def traceTicks (trace : List PinRun) : Nat := (trace.map PinRun.ticks).sum

/-- `d` ticks pass: the environment sees the pins as they stand during each of them (R40). -/
def State.pass (d : Nat) (s : State) : State :=
  { s with
    time := s.time + d
    trace := pushRun s.pins d s.trace
    freshDone := s.freshDone && decide (d = 0)
    freshRx := s.freshRx && decide (d = 0)
    freshErr := s.freshErr && decide (d = 0)
    freshCmd := s.freshCmd && decide (d = 0) }

/-! ### Reset -/

/-- What the host does while `rst` is held up to time `release` (spec/70_reset_and_hazards.md R290), from a state that holds the
reset values: an action timed (`When.atTick`) before the release is made at its tick and cannot change them. A write has no
effect, since every register keeps its reset value while `rst = 1`; a read answers as always (spec/20_memory.md R67), with the
reset values; another hold of the pin, which is low again only when both have ended, moves the release. An action that waits
holds back those behind it; one timed at the release or later is made after it. The hold as a host action and these readings of
R290 for one that lands in it: log entry 7. -/
def duringReset : List HostAct → Nat → State → State
  | [], release, s => s.pass (release - s.time)
  | act :: rest, release, s =>
      match act.when with
      | .idle _ => s.pass (release - s.time)
      | .atTick tick _ =>
          if max tick s.time < release then
            let s' := (s.withHost rest).pass (tick - s.time)
            match act.op with
            | .wr _ _ => duringReset rest release s'
            | .rd addr => duringReset rest release (s'.busRead addr)
            | .rst held => duringReset rest (max release (s'.time + held)) s'
          else s.pass (release - s.time)

/-- `rst` goes to 1 (spec/10_state.md R43, spec/70_reset_and_hazards.md R290, R291): every piece of state takes its reset value, the
buffers are unwritten anew, a running command is abandoned. The configuration, the clock, the medium and the host are the
environment's and go on (R290, R292); so do the records of events, reads and pins (log entry 14). -/
def State.assertReset (s : State) : State :=
  { State.blank s.cfg with
    clock0 := s.clock0
    time := s.time
    released := s.time
    resets := s.resets + 1
    line := s.line
    hearsSelf := s.hearsSelf
    host := s.host
    trace := s.trace
    events := s.events
    reads := s.reads }

/-- The state at the end of a hold of the reset pin that begins now and lasts at least `held` ticks. -/
def State.underReset (held : Nat) (s : State) : State := duringReset s.host (s.time + held) s.assertReset

/-- Reset (spec/70_reset_and_hazards.md R290): `rst` is held for `held` ticks (longer when another hold begins during them), with
every piece of state at its reset value and the pins at 0 all the while, and tick 0 is its release. Of what happens during the
hold only the time, the host's actions done with and its reads are left. -/
def State.resetPin (held : Nat) (s : State) : State :=
  { s.assertReset with
    time := (s.underReset held).time
    released := (s.underReset held).time
    host := (s.underReset held).host
    trace := pushRun ⟨false, false⟩ ((s.underReset held).time - s.time) s.trace
    reads := (s.underReset held).reads }

/-! ### Running commands -/

/-- How a command that does not end normally leaves it. -/
inductive Exit where
  /-- A reset abandoned it (spec/70_reset_and_hazards.md R291); the state after the reset. -/
  | cut (s : State)
  /-- It never ends (R318). -/
  | neverEnds
deriving DecidableEq, Repr

/-- A procedure of the block: from a state to a result and a state, unless it does not end normally. -/
abbrev Cmd (α : Type) := StateT State (Except Exit) α

/-- The host action is due before or at the end of the next `d` ticks of a running command: before the end, or at the end
and marked to come before the block's own actions there (log entry 5). -/
def dueWithin (time d tick : Nat) (first : Bool) : Bool :=
  decide (tick < time + d) || (first && decide (tick ≤ time + d))

/-- `d` ticks of a running command pass, the host's actions taking effect between them in issue order: reads answer,
writes act as they do while busy (spec/20_memory.md R65 to R67), a reset abandons the command (R291), and the first action
that waits for `BUSY = 0` holds back those behind it. -/
def advanceOver : List HostAct → Nat → State → Except Exit (Unit × State)
  | [], d, s => .ok ((), s.pass d)
  | act :: rest, d, s =>
      match act.when with
      | .idle _ => .ok ((), s.pass d)
      | .atTick tick first =>
          if dueWithin s.time d tick first then
            let gap := tick - s.time
            let s' := (s.withHost rest).pass gap
            match act.op with
            | .wr addr v => advanceOver rest (d - gap) (s'.busyWrite addr v)
            | .rd addr => advanceOver rest (d - gap) (s'.busRead addr)
            | .rst held => .error (.cut (s'.resetPin held))
          else .ok ((), s.pass d)

/-- `hold(d)` of spec/00_scope.md R15: consume `d` ticks; `d = 0` consumes none. -/
def hold (d : Nat) : Cmd Unit := fun s =>
  if d = 0 then .ok ((), s) else advanceOver s.host d s

/-- The next host action waits for the block (or there is none): nothing happens during a command but the command. -/
def State.undisturbed (s : State) : Bool :=
  match s.host with
  | [] => true
  | act :: _ =>
      match act.when with
      | .idle _ => true
      | .atTick _ _ => false

/-! ### Pin registers and working registers -/

/-- `line_o` written. -/
def State.withLineO (b : Bool) (s : State) : State := { s with lineO := b }

/-- `line_oe` written. -/
def State.withLineOe (b : Bool) (s : State) : State := { s with lineOe := b }

/-- Working registers written (spec/10_state.md R24). -/
def State.withWork (f : Work → Work) (s : State) : State := { s with work := f s.work }

/-- `line_o <- b` (spec/00_scope.md R15). -/
def setLineO (b : Bool) : Cmd Unit := modify (State.withLineO b)

/-- `line_oe <- b` (spec/00_scope.md R15). -/
def setLineOe (b : Bool) : Cmd Unit := modify (State.withLineOe b)

/-- Write working registers. -/
def setWork (f : Work → Work) : Cmd Unit := modify (State.withWork f)

/-- Read a value of the state. -/
def look {α : Type} (f : State → α) : Cmd α := do
  let s ← get
  pure (f s)

/-- Write one buffer byte. -/
def storeByte (l : Loc) (v : Byte) : Cmd Unit := modify (State.setByte l v)

/-! ### Events, acceptance, refusal, the end of a command -/

/-- The receive event (spec/60_exceptions.md R262): `RX_LEN`, `RX_COUNT`, `RX_DONE` and the pulse `evt_rx`, recorded with
`t_cur` (R264). -/
def State.rxEvent (len : Byte) (s : State) : State :=
  { s.setRxDone with
    rxLen := len
    rxCount := s.rxCount + 1
    events := s.events ++ [(s.tcur, .rxFrame len)] }

/-- The error event (spec/60_exceptions.md R263): `ERR_KIND`, `ERR_CTX`, `ERR_COUNT`, `ERR` and the pulse `evt_err`, recorded
with `t_cur` (R264). -/
def State.errorEvent (kind : ErrKind) (ctx : Byte) (s : State) : State :=
  { s.setErr with
    errKind := kind.code
    errCtx := ctx
    errCount := s.errCount + 1
    events := s.events ++ [(s.tcur, .error kind ctx)] }

/-- `emit RxFrame(len)`, one zero-time action (R262). -/
def emitRxFrame (len : Byte) : Cmd Unit := modify (State.rxEvent len)

/-- `emit Error(kind, ctx)`, one zero-time action (R263). -/
def emitError (kind : ErrKind) (ctx : Byte) : Cmd Unit := modify (State.errorEvent kind ctx)

/-- Acceptance (spec/30_encoding.md R94, spec/10_state.md R29): `A`, `B` loaded, `BUSY <- 1`, `DONE` cleared. -/
def State.accept (i : Instr) (s : State) : State :=
  { s with regA := fieldA i, regB := fieldB i, busy := true, done := false }

/-- The end of a command (R29, R23): `RESULT` written, `DONE <- 1`, `BUSY <- 0`, in one zero-time action. -/
def State.finish (r : Word) (s : State) : State := { s.setDone with result := r, busy := false }

/-- A write of the command word of `i` to `CMD` (R29, R94, R95): refused while busy (check 1) or with an illegal operand
(check 5); else accepted and run to its end. -/
def issue (i : Instr) (body : Cmd Word) (s : State) : Host.Outcome State Fault Refusal :=
  if s.busy || !legalOperands s.cfg.val i then .next s.refuse
  else
    match body (s.accept i) with
    | .ok (r, t) => .next (t.finish r)
    | .error (.cut t) => .next t
    | .error .neverEnds => .fault .neverEnds

end Sys2Proof.Machine
end

