-- ==== Sys2Proof/Machine/BitLayer.lean ====
section
/-! DEFINITION. The bit layer (spec/40_bit_layer.md): `SEND_BIT`, `SAMPLE_BIT` and the filter. -/

namespace Sys2Proof.Machine

/-! ### The filter -/

/-- The seed of the average, `v = 1/2` (R132; `E_0 = 0`, `P_0 = 1` of R133). -/
def Filter.half : Filter := ⟨0, 1⟩

/-- One sample enters the average: `v <- v * 999/1000 + s * 1/1000`, in the integer form of R133. -/
def Filter.step (v : Filter) (sample : Bool) : Filter :=
  ⟨999 * v.e + (if sample then (v.p : Int) else -(v.p : Int)), 1000 * v.p⟩

/-- The average after a sequence of samples. -/
def Filter.run (v : Filter) (samples : List Bool) : Filter := samples.foldl Filter.step v

/-- `v > 1/2` (R132, R133). -/
def Filter.aboveHalf (v : Filter) : Bool := decide (0 < v.e)

/-- What a window of samples reads: the seed, every sample, the strict comparison (R132). -/
def majority (samples : List Bool) : Bool := (Filter.half.run samples).aboveHalf

/-! ### The two operations -/

/-- `sendBit(level, d)` (R131): the level is written before the first tick and held for `d` ticks. -/
def sendBit (level : Bool) (d : Nat) : Cmd Unit := do
  setLineO level
  setWork fun w => { w with k := BitVec.ofNat 32 d }
  hold d
  setWork fun w => { w with k := 0 }

/-- `sampleBit(d)` (R132): one sample per tick for `d` ticks through the filter. The samples are those of the `d` ticks
that then pass; nothing that can happen between those ticks changes the line or the pins, but a reset, which abandons the
command. -/
def sampleBit (d : Nat) : Cmd Bool := do
  let samples ← look fun s => s.samples d
  setWork fun w => { w with k := BitVec.ofNat 32 d, v := Filter.half.run samples }
  hold d
  setWork fun w => { w with k := 0 }
  look fun s => s.work.v.aboveHalf

/-! ### The commands -/

/-- `SEND_BIT level, dur` (R131): `RESULT = 0`. -/
def execSendBit (level : Bool) (b : Byte) (s : State) : Host.Outcome State Fault Refusal :=
  issue (.sendBit level b) (do
    let l ← look State.opLevel
    let d ← look State.opDur
    sendBit l d
    pure 0) s

/-- `SAMPLE_BIT dur` (R132): `RESULT[0]` is the window's reading. -/
def execSampleBit (a b : Byte) (s : State) : Host.Outcome State Fault Refusal :=
  issue (.sampleBit a b) (do
    let d ← look State.opDur
    let bit ← sampleBit d
    pure (Word.ofFlag bit)) s

end Sys2Proof.Machine
end

