-- ==== Sys2Proof/Machine/ByteLayer.lean ====
section
/-! DEFINITION. The byte layer (spec/41_byte_layer.md): `SEND_BYTE`, `READ_BYTE`, `RECEIVE_BYTE`. -/

namespace Sys2Proof.Machine

/-- The data bits of a symbol at the listed positions, each for `BIT_WIDTH` ticks (R141). -/
def sendDataBits (x : Byte) : List Nat → Cmd Unit
  | [] => pure ()
  | j :: js => do
      setWork fun w => { w with i8 := BitVec.ofNat 4 j }
      let width ← look fun s => s.cfg.val.bitWidth
      sendBit (x.getLsbD j) width
      sendDataBits x js

/-- `sendByte(x)` (R141): direction output, sync pulse, sync gap, eight data bits, least significant first. -/
def sendByte (x : Byte) : Cmd Unit := do
  setLineOe true
  let pulse ← look fun s => s.cfg.val.bitSpacer
  sendBit true pulse
  let gap ← look fun s => s.cfg.val.bitWidth
  sendBit false gap
  sendDataBits x (List.range 8)
  setWork fun w => { w with i8 := 8 }

/-- The bit windows at the listed positions, accumulated in `r` (R143). -/
def readDataBits : List Nat → Cmd Unit
  | [] => pure ()
  | j :: js => do
      setWork fun w => { w with i8 := BitVec.ofNat 4 j }
      let width ← look fun s => s.cfg.val.bitWidth
      let bit ← sampleBit width
      setWork fun w => { w with r := if bit then w.r ||| BitVec.twoPow 8 j else w.r }
      readDataBits js

/-- `readByte()` (R143): eight consecutive windows, least significant bit first; it leaves the direction alone. -/
def readByte : Cmd Byte := do
  setWork fun w => { w with r := 0 }
  readDataBits (List.range 8)
  setWork fun w => { w with i8 := 8 }
  look fun s => s.work.r

/-- Stage 1 of `receiveByte` (R145): HIGH samples up to `BIT_SPACER`, each feeding the filter; the LOW sample that ends
the stage consumes its tick. Answers `v > 1/2`. -/
def syncPulse : Cmd Bool := do
  let pulse ← look fun s => s.cfg.val.bitSpacer
  let high ← look fun s => s.highRun pulse s.time
  setWork fun w => { w with v := Filter.half.run (List.replicate high true), h := BitVec.ofNat 16 high }
  hold (if high < pulse then high + 1 else high)
  look fun s => s.work.v.aboveHalf

/-- Stages 2 and 3 of `receiveByte` (R145): the gap window must read LOW, then the data bits. -/
def gapAndData : Cmd ByteResult := do
  let width ← look fun s => s.cfg.val.bitWidth
  let gapHigh ← sampleBit width
  if gapHigh then pure .fail
  else do
    let r ← readByte
    pure (.byte r)

/-- `receiveByte()` (R145): direction input, then the three stages. -/
def receiveByte : Cmd ByteResult := do
  setLineOe false
  let sync ← syncPulse
  if sync then gapAndData else pure .fail

/-! ### The commands -/

/-- `SEND_BYTE byte` (R141): `RESULT = 0`. -/
def execSendByte (byte b : Byte) (s : State) : Host.Outcome State Fault Refusal :=
  issue (.sendByte byte b) (do
    let x ← look State.regA
    sendByte x
    pure 0) s

/-- `READ_BYTE` (R143): `RESULT[7:0]` is the byte. -/
def execReadByte (a b : Byte) (s : State) : Host.Outcome State Fault Refusal :=
  issue (.readByte a b) (do
    let r ← readByte
    pure (resultByte r)) s

/-- `RECEIVE_BYTE` (R145): `RESULT` is the byte, or 0x100 for `ByteFail`. -/
def execReceiveByte (a b : Byte) (s : State) : Host.Outcome State Fault Refusal :=
  issue (.receiveByte a b) (do
    let r ← receiveByte
    pure (resultByteResult r)) s

end Sys2Proof.Machine
end

