-- ==== Sys2Proof/Machine/ChannelSensor.lean ====
section
/-! DEFINITION. The channel sensor (spec/42_channel_sensor.md): `CAN_START`. -/

namespace Sys2Proof.Machine

/-- `canStart()` (R161): direction input, the short pulse of level 0, then one `readByte`; true (idle) when every window
read LOW. -/
def canStart : Cmd Bool := do
  setLineOe false
  let flush ← look fun s => s.cfg.val.flushUs
  sendBit false flush
  let r ← readByte
  pure (r == 0)

/-- `CAN_START` (R161): `RESULT[0] = 1` when idle. -/
def execCanStart (a b : Byte) (s : State) : Host.Outcome State Fault Refusal :=
  issue (.canStart a b) (do
    let idle ← canStart
    pure (Word.ofFlag idle)) s

end Sys2Proof.Machine
end

