-- ==== Sys2Proof/Machine/Cipher.lean ====
section
/-! DEFINITION. The stream cipher (spec/44_cipher.md): key schedule, keystream, whitening, IV generation, `CRYPT`,
`GEN_IV`. Everything is zero-time. `N = ENCRYPTION_STRENGTH`. -/

namespace Sys2Proof.Machine

/-! ### Key schedule and keystream -/

/-- A table entry as a number. -/
def entry (table : List Byte) (i : Nat) : Nat := (table.getD i 0).toNat

/-- `swap SBOX[i], SBOX[j]`. -/
def swapEntries (table : List Byte) (i j : Nat) : List Byte :=
  (table.set i (table.getD j 0)).set j (table.getD i 0)

/-- The mixing loop of the key schedule, `left` iterations from index `i` (R202). -/
def mixKey (N : Nat) (key : List Byte) : (left i j : Nat) → List Byte → List Byte
  | 0, _, _, table => table
  | left + 1, i, j, table =>
      let j' := (j + entry table i + entry key (i % key.length)) % N
      mixKey N key left (i + 1) j' (swapEntries table i j')

/-- `keySchedule()` (R202): the table 0 to `N − 1`, mixed with the key. -/
def keySchedule (N : Nat) (key : List Byte) : List Byte :=
  mixKey N key N 0 0 ((List.range N).map (BitVec.ofNat 8))

/-- The keystream generator: the table and the two indices (R203; spec/10_state.md R24 `ci`, `cj`, R38). -/
structure Keystream where
  table : List Byte
  ci : Nat
  cj : Nat
deriving DecidableEq, Repr

/-- The generator after the key schedule, both indices 0 (R203). -/
def Keystream.start (N : Nat) (key : List Byte) : Keystream := ⟨keySchedule N key, 0, 0⟩

/-- One round of the generator: indices advance and the table entries are swapped (R203). -/
def Keystream.next (N : Nat) (g : Keystream) : Keystream :=
  let ci := (g.ci + 1) % N
  let cj := (g.cj + entry g.table ci) % N
  ⟨swapEntries g.table ci cj, ci, cj⟩

/-- The keystream byte of the round just made (R203). -/
def Keystream.output (N : Nat) (g : Keystream) : Byte :=
  g.table.getD ((entry g.table g.ci + entry g.table g.cj) % N) 0

/-- Exclusive-or of bytes with the generator's next bytes (R203), and the generator afterwards. -/
def xorStream (N : Nat) : Keystream → List Byte → List Byte × Keystream
  | g, [] => ([], g)
  | g, b :: bs =>
      let g' := g.next N
      let rest := xorStream N g' bs
      ((b ^^^ g'.output N) :: rest.1, rest.2)

/-! ### Whitening and IV -/

/-- Every byte but the last is XORed with the last, which stays (R204); its own inverse. -/
def whitenBytes (bs : List Byte) : List Byte :=
  match bs.getLast? with
  | none => []
  | some last => bs.dropLast.map (· ^^^ last) ++ [last]

/-- The candidate after `c` in the cyclic order 1, 2, ..., 254, 1 (R207). -/
def nextIv (c : Byte) : Byte := BitVec.ofNat 8 (c.toNat % 254 + 1)

/-- At most `tests` candidates from `c` on, the first that is not among the bytes (R207). -/
def searchIv (bs : List Byte) : (tests : Nat) → Byte → Byte
  | 0, c => c
  | tests + 1, c => if c ∈ bs then searchIv bs tests (nextIv c) else c

/-- `generateIV(buf, n)` on the bytes of the buffer, with one reading of the clock (R207). -/
def generateIv (now : Word) (bs : List Byte) : Byte :=
  searchIv bs 254 (BitVec.ofNat 8 (now.toNat % 254 + 1))

/-! ### The transform -/

/-- What one run of the cipher leaves: the bytes to store from index 0 on, the new length, the generator, and the IV. -/
structure CryptOut where
  bytes : List Byte
  len : Nat
  gen : Keystream
  iv : Byte
deriving DecidableEq, Repr

/-- The encoding side of `crypt` (R201, R205). -/
def encodeBytes (c : Config) (now : Word) (ivf : Bool) (bs : List Byte) : CryptOut :=
  let plain := if ivf && c.whiten then whitenBytes bs else bs
  let out := xorStream c.encStrength (Keystream.start c.encStrength c.key) plain
  if ivf then
    let iv := generateIv now out.1
    ⟨out.1.map (· ^^^ iv) ++ [iv], bs.length + 1, out.2, iv⟩
  else ⟨out.1, bs.length, out.2, 0⟩

/-- The decoding side of `crypt` (R201); with an IV the trailing IV byte is left in place, so it is not among the bytes
to store. -/
def decodeBytes (c : Config) (ivf : Bool) (bs : List Byte) : CryptOut :=
  if ivf then
    let iv := bs.getLastD 0
    let out := xorStream c.encStrength (Keystream.start c.encStrength c.key) (bs.dropLast.map (· ^^^ iv))
    ⟨if c.whiten then whitenBytes out.1 else out.1, bs.length - 1, out.2, iv⟩
  else
    let out := xorStream c.encStrength (Keystream.start c.encStrength c.key) bs
    ⟨out.1, bs.length, out.2, 0⟩

/-- `crypt(buf, n, ivf, side)` on a region of the storage (R201): the region's bytes and `SBOX` are written; answers the
new length. -/
def crypt (region : Nat → Loc) (n : Nat) (ivf side : Bool) : Cmd Nat := do
  let bs ← look fun s => s.readBytes region n
  let out ← look fun s =>
    if side then decodeBytes s.cfg.val ivf bs else encodeBytes s.cfg.val s.now ivf bs
  modify (State.writeBytes region 0 out.bytes)
  modify (State.writeBytes .sb 0 out.gen.table)
  setWork fun w => { w with
    n := BitVec.ofNat 9 n
    m := BitVec.ofNat 9 out.len
    idx := BitVec.ofNat 9 n
    ci := BitVec.ofNat 8 out.gen.ci
    cj := BitVec.ofNat 8 out.gen.cj
    iv := out.iv }
  pure out.len

/-! ### The commands -/

/-- `CRYPT ivf, side, len` (R201) on `TXBUF`, whatever `ENC_EN` is (R200): `RESULT[8:0]` is the new length. -/
def execCrypt (ivf side : Bool) (len : Byte) (s : State) : Host.Outcome State Fault Refusal :=
  issue (.crypt ivf side len) (do
    let n ← look State.opLen
    let iv ← look State.opIvf
    let decode ← look State.opSide
    let m ← crypt .tx n iv decode
    pure (resultLength m)) s

/-- `GEN_IV len` (R207) over `TXBUF[0 .. len − 1]`: `RESULT[7:0]` is the IV byte; no buffer is written. -/
def execGenIv (a len : Byte) (s : State) : Host.Outcome State Fault Refusal :=
  issue (.genIv a len) (do
    let n ← look State.opLen
    let c ← look fun s => generateIv s.now (s.readBytes .tx n)
    setWork fun w => { w with iv := c }
    pure (resultByte c)) s

end Sys2Proof.Machine
end

