-- ==== Sys2Proof/Machine/PacketCodec.lean ====
section
/-! DEFINITION. The packet codec (spec/43_packet_codec.md): `SEND_FRAME`, `RECEIVE_FRAME`, `RECEIVE_FRAME_T`. -/

namespace Sys2Proof.Machine

/-! ### Sending -/

/-- Step 1 of `sendFrame` (R172): with collision avoidance on, the channel must be found idle. -/
def mayTransmit : Cmd Bool := do
  let ca ← look fun s => s.cfg.val.caEn
  if ca then canStart else pure true

/-- Step 2 of `sendFrame` (R173): the payload is copied to `FBUF` and, with the cipher on, transformed there with an IV
requested; answers the number of bytes between the length byte and the CRC. Zero-time. -/
def loadFrame (src : Nat → Loc) (len : Nat) : Cmd Nat := do
  let bs ← look fun s => s.readBytes src len
  modify (State.writeBytes .fb 0 bs)
  let enc ← look fun s => s.cfg.val.encEn
  if enc then crypt .fb len true false else pure len

/-- Send a byte of the frame and accumulate it in the CRC (R174). -/
def sendChecked (x : Byte) : Cmd Unit := do
  sendByte x
  setWork fun w => { w with crc := w.crc ^^^ x }

/-- Step 4 of `sendFrame` (R174): `left` bytes of `FBUF` from index `i` on. -/
def sendPayload : (left i : Nat) → Cmd Unit
  | 0, _ => pure ()
  | left + 1, i => do
      setWork fun w => { w with idx := BitVec.ofNat 9 i }
      let x ← look fun s => s.byteAt (.fb i)
      sendChecked x
      sendPayload left (i + 1)

/-- Steps 3 to 5 of `sendFrame` (R174, R176, R177) and the release of the line (R178). -/
def sendSymbols (dest : Byte) (n : Nat) : Cmd Unit := do
  setWork fun w => { w with n := BitVec.ofNat 9 n, L := BitVec.ofNat 9 (n + 3), crc := 0 }
  sendChecked dest
  let L ← look fun s => s.work.L
  sendChecked (L.setWidth 8)
  sendPayload n 0
  let crc ← look fun s => s.work.crc
  sendByte crc
  setLineO false

/-- The loop of step 7 (R179): the deadline is tested before each attempt, bytes other than 6 and 21 are no response.
`fuel` bounds the attempts; each takes at least one tick, so `LISTEN` of them reach the deadline. -/
def listenLoop : (fuel : Nat) → Cmd Unit
  | 0 => pure ()
  | fuel + 1 => do
      let waiting ← look fun s =>
        decide (s.elapsed s.work.t0 < listenTicks s.cfg.val)
          && (s.work.resp != .byte ackByte) && (s.work.resp != .byte nakByte)
      if waiting then do
        let r ← receiveByte
        setWork fun w => { w with resp := r }
        listenLoop fuel
      else pure ()

/-- The outcome a response stands for (R179). -/
def outcomeOfResponse (r : ByteResult) : TxOutcome :=
  if r = .byte ackByte then .ack else if r = .byte nakByte then .nak else .fail

/-- Step 7 of `sendFrame` (R179): listen for the response. -/
def awaitResponse : Cmd TxOutcome := do
  let now ← look State.now
  setWork fun w => { w with t0 := now, resp := .fail }
  let window ← look fun s => listenTicks s.cfg.val
  listenLoop window
  look fun s => outcomeOfResponse s.work.resp

/-- Steps 2 to 7 of `sendFrame` (R171): the transmission, then `Ack` at once for a broadcast or a simplex link (step 6),
else the response. -/
def transmit (dest : Byte) (src : Nat → Loc) (len : Nat) : Cmd TxOutcome := do
  let n ← loadFrame src len
  sendSymbols dest n
  let noAnswer ← look fun s => (dest == broadcastAddr) || s.cfg.val.simplex
  if noAnswer then pure .ack else awaitResponse

/-- `sendFrame(dest, src, len)` (R171). -/
def sendFrame (dest : Byte) (src : Nat → Loc) (len : Nat) : Cmd TxOutcome := do
  let clear ← mayTransmit
  if clear then transmit dest src len else pure .busy

/-! ### Receiving -/

/-- The checks on byte `i` of a frame after it is stored (R180 checks 2 and 3, R181): the outcome that ends the reception,
if any. -/
def checkByte (c : Config) (i : Nat) (x : Byte) : Option TxOutcome :=
  if i = 0 ∧ x ≠ c.ownAddr ∧ x ≠ broadcastAddr then some .busy
  else if i = 1 ∧ ¬ (minFrame c ≤ x.toNat ∧ x.toNat < c.maxFrameLen) then some .fail
  else none

/-- The byte loop of `receiveFrame()` (R180): `some o` when a check ends it, `none` when all `L` bytes were read. `fuel`
bounds the bytes; `L` never exceeds `MAX_FRAME_LEN`. -/
def receiveBytes : (fuel : Nat) → Cmd (Option TxOutcome)
  | 0 => pure none
  | fuel + 1 => do
      let more ← look fun s => decide (s.work.idx.toNat < s.work.L.toNat)
      if more then do
        let r ← receiveByte
        match r with
        | .fail => pure (some .fail)
        | .byte x => do
            let i ← look fun s => s.work.idx.toNat
            storeByte (.rx i) x
            let verdict ← look fun s => checkByte s.cfg.val i x
            match verdict with
            | some o => pure (some o)
            | none => do
                setWork fun w => { w with
                  L := if i = 1 then x.setWidth 9 else w.L
                  crc := w.crc ^^^ x
                  idx := BitVec.ofNat 9 (i + 1) }
                receiveBytes fuel
      else pure none

/-- The response of a receiver (R184) and the release of the line (R178): sent only when the frame was not a broadcast
and the link is bidirectional. -/
def respond (x : Byte) : Cmd Unit := do
  let answer ← look fun s => (s.byteAt (.rx 0) != broadcastAddr) && !s.cfg.val.simplex
  if answer then do
    sendByte x
    setLineO false
  else pure ()

/-- The payload length of a validated frame, decoded in place when the cipher is on (R180, R183). -/
def unwrapPayload : Cmd Nat := do
  let L ← look fun s => s.work.L.toNat
  let enc ← look fun s => s.cfg.val.encEn
  if enc then crypt (fun i => .rx (2 + i)) (L - 3) true true
  else do
    setWork fun w => { w with m := BitVec.ofNat 9 (L - 3) }
    pure (L - 3)

/-- The end of `receiveFrame()` once all bytes were read (R180 check 4, R183 to R186): decode, respond, then the event. -/
def concludeFrame : Cmd TxOutcome := do
  let crc ← look fun s => s.work.crc
  if crc = 0 then do
    let m ← unwrapPayload
    respond ackByte
    emitRxFrame (BitVec.ofNat 8 m)
    pure .ack
  else do
    respond nakByte
    pure .nak

/-- `receiveFrame()` (R180). -/
def receiveFrame : Cmd TxOutcome := do
  let cap ← look fun s => s.cfg.val.maxFrameLen
  setWork fun w => { w with crc := 0, L := BitVec.ofNat 9 cap, idx := 0 }
  let early ← receiveBytes cap
  match early with
  | some o => pure o
  | none => concludeFrame

/-- The loop of `receiveFrame(d)` (R187). Out of `fuel` the loop never ends. -/
def receiveUntil (d : Nat) : (fuel : Nat) → Cmd TxOutcome
  | 0 => throw .neverEnds
  | fuel + 1 => do
      let o ← receiveFrame
      let late ← look fun s => decide (d < s.elapsed s.work.t0)
      if o = .ack ∨ late = true then pure o else receiveUntil d fuel

/-- The latest time a pending host action names. -/
def lastHostTick (acts : List HostAct) : Nat :=
  acts.foldl (fun n act => match act.when with | .idle _ => n | .atTick tick _ => max n tick) 0

/-- A number of invocations after which `receiveFrame(d)` never ends: every invocation takes at least one tick, so after
the first `lastHostTick + line.length` of them the line is constant and no host action is left; from then on every
invocation fails and takes the same number of ticks, and the elapsed time, a number modulo 2^32, repeats. -/
def State.receiveBound (s : State) : Nat := 2 ^ 32 + lastHostTick s.host + s.line.length + 1 + 1

/-- `receiveFrame(d)` (R187): at least one invocation; the time is tested after each, strictly. -/
def receiveFrameT (d : Nat) : Cmd TxOutcome := do
  let now ← look State.now
  setWork fun w => { w with t0 := now }
  let bound ← look State.receiveBound
  receiveUntil d bound

/-! ### The commands -/

/-- `SEND_FRAME dest, len` (R171) with the payload in `TXBUF`: `RESULT[2:0]` is the outcome. -/
def execSendFrame (dest len : Byte) (s : State) : Host.Outcome State Fault Refusal :=
  issue (.sendFrame dest len) (do
    let d ← look State.regA
    let n ← look State.opLen
    let o ← sendFrame d .tx n
    pure (resultOutcome o)) s

/-- `RECEIVE_FRAME` (R180): `RESULT[2:0]` is the outcome. -/
def execReceiveFrame (a b : Byte) (s : State) : Host.Outcome State Fault Refusal :=
  issue (.receiveFrame a b) (do
    let o ← receiveFrame
    pure (resultOutcome o)) s

/-- `RECEIVE_FRAME_T dur` (R187): `RESULT[2:0]` is the outcome of the last invocation. -/
def execReceiveFrameT (a b : Byte) (s : State) : Host.Outcome State Fault Refusal :=
  issue (.receiveFrameT a b) (do
    let d ← look State.opDur
    let o ← receiveFrameT d
    pure (resultOutcome o)) s

end Sys2Proof.Machine
end

