-- ==== Sys2Proof/Machine/Queue.lean ====
section
/-! DEFINITION. The send queue and scheduler (spec/45_queue_scheduler.md): `ENQUEUE`, `TICK`, `REMOVE`. -/

namespace Sys2Proof.Machine

/-- Update slot `k`. -/
def updateSlot (k : Nat) (f : Slot → Slot) : Cmd Unit := modify fun s => s.setSlot k (f (s.slot k))

/-- `remove(k)` on a slot (R235): every field at its reset value, the payload bytes left as they are. -/
def Slot.clear (q : Slot) : Slot := { Slot.blank with payload := q.payload }

/-- Re-arm a repeating entry (R231, R232): `attempts <- 0`, `registeredAt <- now`, `PendingSend`. -/
def Slot.rearm (now : Word) (q : Slot) : Slot :=
  { q with attempts := 0, registeredAt := now, state := .pendingSend }

/-- The least index of an `Empty` slot (R223). -/
def State.freeSlot (s : State) : Option Nat := s.slots.findIdx? fun q => decide (q.state = .empty)

/-- The due test (R227): `elapsed(registeredAt) > repeatInterval + attempts²`, the right-hand side exact. -/
def State.due (s : State) (q : Slot) : Bool :=
  decide (q.repeatInterval.toNat + q.attempts.toNat ^ 2 < s.elapsed q.registeredAt)

/-- `stateOf` (R229). -/
def stateOf : TxOutcome → SlotState
  | .ack => .delivered
  | .nak => .rejected
  | .fail => .failed
  | .busy => .busy

/-! ### ENQUEUE -/

/-- The entry that `enqueue` makes in a slot (R221, R224): `attempts` is not written, `registeredAt` only when
`interval > 0`. -/
def Slot.fill (dest len : Byte) (interval now : Word) (q : Slot) : Slot :=
  { q with
    destination := dest
    length := len
    repeatInterval := interval
    state := .pendingSend
    registeredAt := if interval.toNat = 0 then q.registeredAt else now }

/-- `enqueue(dest, len, interval)` (R221 to R224), answering the `RESULT` word (spec/30_encoding.md R96). -/
def enqueue (dest len : Byte) (interval : Word) : Cmd Word := do
  let room ← look fun s => maxPayload s.cfg.val
  if room < len.toNat then do
    emitError .allocationFailed len
    pure (resultFailure .allocationFailed)
  else do
    let free ← look State.freeSlot
    match free with
    | none => do
        let depth ← look fun s => BitVec.ofNat 8 s.cfg.val.maxPackets
        emitError .bufferExhausted depth
        pure (resultFailure .bufferExhausted)
    | some k => do
        let bs ← look fun s => s.readBytes .tx len.toNat
        modify (State.writeBytes (.pay k) 0 bs)
        let now ← look State.now
        updateSlot k (Slot.fill dest len interval now)
        pure (resultByte (BitVec.ofNat 8 k))

/-! ### TICK -/

/-- `remove(k)` (R235). -/
def removeSlot (k : Nat) : Cmd Unit := updateSlot k Slot.clear

/-- A one-shot entry is removed, a repeating one re-armed at the present time (R231, R232). -/
def retire (k : Nat) : Cmd Unit := do
  let oneShot ← look fun s => decide ((s.slot k).repeatInterval = 0)
  if oneShot then removeSlot k
  else do
    let now ← look State.now
    updateSlot k (Slot.rearm now)

/-- `handleAck(k)` (R231). -/
def handleAck (k : Nat) : Cmd Unit := retire k

/-- `handleFail(k)` (R232): count the failure; past the ceiling report the loss, then remove or re-arm. -/
def handleFail (k : Nat) : Cmd Unit := do
  updateSlot k fun q => { q with attempts := q.attempts + 1 }
  let exhausted ← look fun s => decide (s.cfg.val.maxAttempts < (s.slot k).attempts.toNat)
  if exhausted then do
    let dest ← look fun s => (s.slot k).destination
    emitError .connectionLost dest
    retire k
  else pure ()

/-- Store the outcome in the slot and handle it (R226, R229, R231 to R233). -/
def recordOutcome (k : Nat) (o : TxOutcome) : Cmd Unit := do
  updateSlot k fun q => { q with state := stateOf o }
  match o with
  | .ack => handleAck k
  | .fail => handleFail k
  | .nak => pure ()
  | .busy => pure ()

/-- The visit of slot `k` in the scan (R226): when it is not `Empty` and due, send it. -/
def visitSlot (k : Nat) : Cmd Unit := do
  setWork fun w => { w with cur := BitVec.ofNat 8 k }
  let q ← look fun s => s.slot k
  let send ← look fun s => decide (q.state ≠ .empty) && s.due q
  if send then do
    let o ← sendFrame q.destination (.pay k) q.length.toNat
    setWork fun w => { w with cnt := w.cnt + 1 }
    recordOutcome k o
  else pure ()

/-- The scan of the listed slots, in order (R226). -/
def scanSlots : List Nat → Cmd Unit
  | [] => pure ()
  | k :: ks => do
      visitSlot k
      scanSlots ks

/-- `tick()` (R226): every slot once, in ascending index. -/
def tick : Cmd Byte := do
  setWork fun w => { w with cnt := 0 }
  let slots ← look fun s => s.cfg.val.maxPackets
  scanSlots (List.range slots)
  look fun s => s.work.cnt

/-! ### The commands -/

/-- `ENQUEUE dest, len, interval` (R221). -/
def execEnqueue (dest len : Byte) (s : State) : Host.Outcome State Fault Refusal :=
  issue (.enqueue dest len) (do
    let d ← look State.regA
    let n ← look State.regB
    let interval ← look State.arg
    enqueue d n interval) s

/-- `TICK` (R226): `RESULT[7:0]` is the number of `sendFrame` invocations. -/
def execTick (a b : Byte) (s : State) : Host.Outcome State Fault Refusal :=
  issue (.tick a b) (do
    let n ← tick
    pure (resultByte n)) s

/-- `REMOVE index` (R235): `RESULT = 0`. -/
def execRemove (index b : Byte) (s : State) : Host.Outcome State Fault Refusal :=
  issue (.remove index b) (do
    let k ← look State.opIndex
    removeSlot k
    pure 0) s

end Sys2Proof.Machine
end

