-- ==== Sys2Proof/Machine/Dispatch.lean ====
section
/-! DEFINITION. Which meaning each command has: one arm per constructor of `Instr`. -/

namespace Sys2Proof.Machine

-- `exec i s`: the host writes the command word of `i` to `CMD` in the state `s`.
def exec (i : Instr) (s : State) : Host.Outcome State Fault Refusal :=
  match i with
  -- the bit layer
  | .sendBit level b => Sys2Proof.Machine.execSendBit level b s
  | .sampleBit a b => Sys2Proof.Machine.execSampleBit a b s
  -- the byte layer
  | .sendByte byte b => Sys2Proof.Machine.execSendByte byte b s
  | .readByte a b => Sys2Proof.Machine.execReadByte a b s
  | .receiveByte a b => Sys2Proof.Machine.execReceiveByte a b s
  -- the channel sensor
  | .canStart a b => Sys2Proof.Machine.execCanStart a b s
  -- the packet codec
  | .sendFrame dest len => Sys2Proof.Machine.execSendFrame dest len s
  | .receiveFrame a b => Sys2Proof.Machine.execReceiveFrame a b s
  | .receiveFrameT a b => Sys2Proof.Machine.execReceiveFrameT a b s
  -- the cipher
  | .crypt ivf side len => Sys2Proof.Machine.execCrypt ivf side len s
  | .genIv a len => Sys2Proof.Machine.execGenIv a len s
  -- the send queue and scheduler
  | .enqueue dest len => Sys2Proof.Machine.execEnqueue dest len s
  | .tick a b => Sys2Proof.Machine.execTick a b s
  | .remove index b => Sys2Proof.Machine.execRemove index b s

end Sys2Proof.Machine
end

