-- ==== Sys2Proof/Machine/Step.lean ====
section
/-! DEFINITION. One step of the machine: the next host action is made, or ticks pass while the block is idle. -/

namespace Sys2Proof.Machine

/-- A host write to `CMD` (spec/30_encoding.md R92, R94, R95): the word is decoded and its command run to its end; a word
the decoder rejects is refused. -/
def command (w : Word) (s : State) : Host.Outcome State Fault Refusal :=
  match decode w with
  | .ok i => exec i s
  | .error _ => .next s.refuse

/-- One host action (spec/20_memory.md R65, spec/70_reset_and_hazards.md R290). -/
def perform (op : BusOp) (s : State) : Host.Outcome State Fault Refusal :=
  match op with
  | .wr addr v => if addr = cmdAddr then command v s else .next (s.hostWrite addr v)
  | .rd addr => .next (s.busRead addr)
  | .rst held => .next (s.resetPin held)

/-- One step: with no host action pending one idle tick passes (spec/10_state.md R29); an action that is not due yet lets
the ticks before it pass; a due action is made. An action whose time is past when it comes to be the next one is made at
once (log entry 5); one timed inside a held reset is done with there (`duringReset`). -/
def step (s : State) : Host.Outcome State Fault Refusal :=
  match s.host with
  | [] => .next (s.pass 1)
  | act :: rest =>
      match act.when with
      | .idle 0 => perform act.op (s.withHost rest)
      | .idle (d + 1) => .next ((s.withHost (⟨.idle 0, act.op⟩ :: rest)).pass (d + 1))
      | .atTick tick _ =>
          if s.time < tick then .next (s.pass (tick - s.time))
          else perform act.op (s.withHost rest)

/-- `s` with the command word made of the `nbits` low bits of `w` as the host's next action: one write to `CMD`, the only
way a command reaches the block (spec/20_memory.md R78). -/
def State.withFetchWord (s : State) (nbits w : Nat) : State :=
  s.withHost (⟨.idle 0, .wr cmdAddr (BitVec.ofNat 32 (w % 2 ^ nbits))⟩ :: s.host)

end Sys2Proof.Machine
end

