-- ==== Sys2Proof/WellFormed.lean ====
section
/-! DEFINITION. Well-formed commands: the operand values of spec/30_encoding.md R93 that R95 check 5 does not refuse.
The reserved and "must be 0" bits (checks 2 to 4) need no check: the constructors of `Instr` hold none. Well-formed
configurations are `Config.wf` (Config.lean). -/

namespace Sys2Proof

/-- The command's operands are legal under the configuration (R93). -/
def Instr.wellFormed (c : Config) (i : Instr) : Bool := Machine.legalOperands c i

end Sys2Proof
end

