-- ==== Sys2Proof/Safety.lean ====
section
/-! DEFINITION. The terms the statements use: when a command runs alone, the wire formats as lists of levels
(spec/30_encoding.md R100 to R105), what the line carries, the invariant of the machine between two steps, and what a safe
step is. -/

namespace Sys2Proof.Machine

/-! ### Host actions -/

/-- The host's next action is `op` and it is due; `rest` are the actions behind it (log entry 5). -/
def State.dueNext (s : State) (op : BusOp) (rest : List HostAct) : Prop :=
  s.host = ⟨.idle 0, op⟩ :: rest ∨ ∃ tick first, s.host = ⟨.atTick tick first, op⟩ :: rest ∧ tick ≤ s.time

/-- The host's next action, if any, is not timed inside a hold of the reset pin that begins now and lasts `held` ticks. -/
def State.quietUnderReset (s : State) (held : Nat) : Prop :=
  ∀ act ∈ s.host.head?, ∀ tick first, act.when = .atTick tick first → s.time + held ≤ max tick s.time

/-! ### A command that runs alone -/

/-- The block is idle and the next host action, if any, waits for it: a command issued now is accepted when its operands
are legal and runs undisturbed. -/
def State.ready (s : State) : Bool := !s.busy && s.undisturbed

/-- What every command leaves that ran alone for `d` ticks and ended with the result `r` (spec/10_state.md R23, R29;
spec/30_encoding.md R94): `A`, `B` and `RESULT` loaded, `DONE` set, the block idle, the clock on by `d`. Everything else is
as it was; what a command changes besides is added to this in its statement. The fresh marks are the model's (log entry
8). -/
def State.after (i : Instr) (d : Nat) (r : Word) (s : State) : State :=
  { s with
    regA := fieldA i
    regB := fieldB i
    result := r
    busy := false
    done := true
    time := s.time + d
    freshDone := true
    freshRx := s.freshRx && decide (d = 0)
    freshErr := s.freshErr && decide (d = 0)
    freshCmd := s.freshCmd && decide (d = 0) }

/-- The filter average `v` after a sequence of samples, in exact rationals (spec/40_bit_layer.md R132). -/
def average (samples : List Bool) : ℚ :=
  samples.foldl (fun v sample => v * (999 / 1000) + (if sample then 1 else 0) * (1 / 1000)) (1 / 2)

/-! ### The cipher -/

/-- Keystream byte `k` under a configuration (spec/44_cipher.md R203): the generator after `k + 1` rounds. -/
def keystreamByte (c : Config) (k : Nat) : Byte :=
  ((Keystream.next c.encStrength)^[k + 1] (Keystream.start c.encStrength c.key)).output c.encStrength

/-- `c` is the first candidate at or after the one drawn from the clock, in the cyclic order 1, 2, ..., 254, 1, that is not
among the bytes (spec/44_cipher.md R207). -/
def firstUnused (now : Word) (bs : List Byte) (c : Byte) : Prop :=
  ∃ k, k < 254 ∧ c = BitVec.ofNat 8 ((now.toNat % 254 + k) % 254 + 1) ∧ c ∉ bs
    ∧ ∀ j, j < k → BitVec.ofNat 8 ((now.toNat % 254 + j) % 254 + 1) ∈ bs

/-! ### Wire formats -/

/-- The levels of one symbol with their durations (spec/30_encoding.md R101). -/
def symbolRuns (c : Config) (x : Byte) : List (Bool × Nat) :=
  (true, c.bitSpacer) :: (false, c.bitWidth) :: (List.range 8).map fun j => (x.getLsbD j, c.bitWidth)

/-- The levels of a sequence of symbols, with no tick between them (R101, R103). -/
def symbolsRuns (c : Config) (bytes : List Byte) : List (Bool × Nat) := bytes.flatMap (symbolRuns c)

/-- The exclusive-or of bytes (R105). -/
def xorAll (bytes : List Byte) : Byte := bytes.foldl (· ^^^ ·) 0

/-- The frame around `body`, the payload as sent and the IV byte when the cipher is on (R103 to R105): address, length
byte, body, CRC. -/
def frameBytes (dest : Byte) (body : List Byte) : List Byte :=
  let head := dest :: BitVec.ofNat 8 (body.length + 3) :: body
  head ++ [xorAll head]

/-- The body of the frame that `sendFrame` makes of a payload when the clock reads `now` (R103; spec/43_packet_codec.md
R173). -/
def frameBody (c : Config) (now : Word) (payload : List Byte) : List Byte :=
  if c.encEn then (encodeBytes c now true payload).bytes else payload

/-- The trace after runs of levels were driven with the line as output. -/
def driveRuns (runs : List (Bool × Nat)) (trace : List PinRun) : List PinRun :=
  runs.foldl (fun tr r => pushRun ⟨true, r.1⟩ r.2 tr) trace

/-- The ticks that step 1 of `sendFrame` takes (`c_ca` of spec/43_packet_codec.md R189). -/
def caTicks (c : Config) : Nat := if c.caEn then c.flushUs + 8 * c.bitWidth else 0

/-- The body of the frame that a `sendFrame` begun in `s` makes of a payload; the clock is read for the IV after the channel
sensor's ticks (spec/43_packet_codec.md R173). -/
def State.bodyFor (s : State) (payload : List Byte) : List Byte :=
  frameBody s.cfg.val (s.now + BitVec.ofNat 32 (caTicks s.cfg.val)) payload

/-- The frame that a `sendFrame` begun in `s` puts on the line for a payload (spec/30_encoding.md R103). -/
def State.frameFor (s : State) (dest : Byte) (payload : List Byte) : List Byte := frameBytes dest (s.bodyFor payload)

/-- `t` differs from `s` in the bytes that making a frame stores: `FBUF[0 ..]` holds the body, the table `SBOX` (its
`ENCRYPTION_STRENGTH` bytes) may be another when the cipher is on, and every other byte of storage reads as it did
(spec/20_memory.md R63, spec/43_packet_codec.md R173). -/
def State.storesBody (s t : State) (body : List Byte) : Prop :=
  (∀ j, j < body.length → some (t.byteAt (.fb j)) = body[j]?)
    ∧ ∀ l, (∀ j, j < body.length → l ≠ .fb j) →
        (s.cfg.val.encEn = true → ∀ j, j < s.cfg.val.encStrength → l ≠ .sb j) → t.byteAt l = s.byteAt l

/-- The pins of a `sendFrame` begun in `s` up to the last symbol of the frame: the channel sensor's ticks with nothing driven,
when there are any, then the frame's symbols (spec/43_packet_codec.md R172, R174). -/
def State.sentTrace (s : State) (frame : List Byte) : List PinRun :=
  driveRuns (symbolsRuns s.cfg.val frame) (pushRun ⟨false, false⟩ (caTicks s.cfg.val) s.trace)

/-- The ticks from the start of a `sendFrame` to the end of the frame's last symbol (`c_ca + F·T_BYTE` of
spec/43_packet_codec.md R189). -/
def frameTicks (c : Config) (frame : List Byte) : Nat := caTicks c + frame.length * tByte c

/-- The environment's waveform carries the runs from time `T` on. -/
def State.carries (s : State) (T : Nat) (runs : List (Bool × Nat)) : Prop :=
  ∀ j, j < (runs.map Prod.snd).sum → s.line.level (T + j) = levelIn false runs j

/-- The environment's waveform is LOW for `d` ticks from time `T` on. -/
def State.quietLine (s : State) (T d : Nat) : Prop := ∀ j, j < d → s.line.level (T + j) = false

/-- What a window of `d` ticks from time `T` on reads of the environment's waveform (spec/40_bit_layer.md R132). -/
def State.window (s : State) (T d : Nat) : Bool :=
  majority ((List.range d).map fun j => s.line.level (T + j))

/-- Step 1 of `sendFrame` lets the frame go: collision avoidance is off, or every window of the channel sensor reads LOW
(spec/42_channel_sensor.md R161, spec/43_packet_codec.md R172). -/
def State.channelClear (s : State) : Prop :=
  s.cfg.val.caEn = true →
    ∀ i, i < 8 → s.window (s.time + s.cfg.val.flushUs + s.cfg.val.bitWidth * i) s.cfg.val.bitWidth = false

/-- Slot `k` holds a live entry that is due, and no other live entry is due when the scan of a `TICK` that sends `k` for
`ticks` ticks visits it: before `k` at the present time, after `k` at the time the send ends (spec/45_queue_scheduler.md
R226, "`now` is read afresh at each slot's test"). -/
def State.onlyDue (s : State) (k ticks : Nat) : Prop :=
  (s.slot k).state ≠ .empty ∧ s.due (s.slot k) = true
    ∧ (∀ j, j < k → (s.slot j).state = .empty ∨ s.due (s.slot j) = false)
    ∧ ∀ j, k < j → (s.slot j).state = .empty ∨ ({ s with time := s.time + ticks } : State).due (s.slot j) = false

/-! ### Attempts to receive -/

/-- How a `receiveByte` ends in `ByteFail` (spec/41_byte_layer.md R145). -/
inductive SymbolFail where
  /-- Stage 1 reads no HIGH sample. -/
  | low
  /-- Stage 1 reads `high` HIGH samples; the levels of the gap window of stage 2 then read HIGH. -/
  | gap (high : Nat) (window : List Bool)
deriving DecidableEq, Repr

/-- The conditions under which a failure is what its constructor says. -/
def SymbolFail.legal (c : Config) : SymbolFail → Prop
  | .low => True
  | .gap high window => 1 ≤ high ∧ high ≤ c.bitSpacer ∧ window.length = c.bitWidth ∧ majority window = true

/-- The levels that the failing `receiveByte` meets; a LOW tick ends stage 1 before its `BIT_SPACER` ticks are over. -/
def SymbolFail.runs (c : Config) : SymbolFail → List (Bool × Nat)
  | .low => [(false, 1)]
  | .gap high window => (true, high) :: (if high < c.bitSpacer then [(false, 1)] else []) ++ window.map fun b => (b, 1)

/-- The ticks of the failing `receiveByte`: 1, or `h + c + W` (R145). -/
def SymbolFail.ticks (c : Config) : SymbolFail → Nat
  | .low => 1
  | .gap high _ => high + (if high < c.bitSpacer then 1 else 0) + c.bitWidth

/-- The symbols read so far belong to a frame for this node that is not complete: none yet, or the address of this node or the
broadcast address, then a legal length byte with more bytes to come (spec/43_packet_codec.md R180). -/
def State.unfinished (s : State) (read : List Byte) : Prop :=
  (∀ x ∈ read[0]?, x = s.cfg.val.ownAddr ∨ x = 124)
    ∧ ∀ n ∈ read[1]?,
        3 + s.cfg.val.encEn.toNat ≤ n.toNat ∧ n.toNat < s.cfg.val.maxFrameLen ∧ read.length < n.toNat

/-- What one invocation of `receiveFrame()` that does not yield `Ack` can meet on a line whose symbols are as `SEND_BYTE` drives
them, by the outcome it yields (spec/43_packet_codec.md R180, R181, R186). -/
inductive Attempt where
  /-- A frame for this node that breaks off after the symbols `read` (none of them: no frame at all): `Fail`. -/
  | broken (read : List Byte) (how : SymbolFail)
  /-- The address of another node: `Busy`. -/
  | other (x : Byte)
  /-- The address of this node and a declared length outside the legal range: `Fail`. -/
  | badLength (x n : Byte)
  /-- A complete frame for this node whose exclusive-or is not 0: `Nak`. -/
  | bad (x n : Byte) (xs : List Byte)
deriving DecidableEq, Repr

/-- The conditions under which an attempt of the node `s` is what its constructor says. -/
def Attempt.legal (s : State) : Attempt → Prop
  | .broken read how => s.unfinished read ∧ how.legal s.cfg.val
  | .other x => x ≠ s.cfg.val.ownAddr ∧ x ≠ 124
  | .badLength x n => (x = s.cfg.val.ownAddr ∨ x = 124)
      ∧ ¬ (3 + s.cfg.val.encEn.toNat ≤ n.toNat ∧ n.toNat < s.cfg.val.maxFrameLen)
  | .bad x n xs => (x = s.cfg.val.ownAddr ∨ x = 124) ∧ 3 + s.cfg.val.encEn.toNat ≤ n.toNat
      ∧ n.toNat < s.cfg.val.maxFrameLen ∧ 2 + xs.length = n.toNat ∧ xorAll (x :: n :: xs) ≠ 0

/-- The symbols an attempt reads; they are stored in `RXBUF` from index 0 on (spec/43_packet_codec.md R180). -/
def Attempt.bytes : Attempt → List Byte
  | .broken read _ => read
  | .other x => [x]
  | .badLength x n => [x, n]
  | .bad x n xs => x :: n :: xs

/-- What an attempt meets after the symbols it reads. -/
def Attempt.tail (c : Config) : Attempt → List (Bool × Nat)
  | .broken _ how => how.runs c
  | _ => []

/-- The levels that an attempt meets on the line. -/
def Attempt.runs (c : Config) (a : Attempt) : List (Bool × Nat) := symbolsRuns c a.bytes ++ a.tail c

/-- The ticks an attempt listens. -/
def Attempt.heard (c : Config) (a : Attempt) : Nat :=
  a.bytes.length * tByte c + match a with
    | .broken _ how => how.ticks c
    | _ => 0

/-- The attempt is answered with the symbol of 21: a bad frame, unless it was a broadcast or the link is simplex
(spec/43_packet_codec.md R184, R186). -/
def Attempt.answered (c : Config) : Attempt → Bool
  | .bad x _ _ => decide (x ≠ 124 ∧ c.simplex = false)
  | _ => false

/-- The ticks of an attempt, with the symbol that answers it. -/
def Attempt.ticks (c : Config) (a : Attempt) : Nat := a.heard c + if a.answered c then tByte c else 0

/-- The code of an attempt's outcome (spec/30_encoding.md R97): `Nak` 3, `Fail` 4, `Busy` 5. -/
def Attempt.code : Attempt → Word
  | .broken _ _ => 4
  | .other _ => 5
  | .badLength _ _ => 4
  | .bad _ _ _ => 3

/-- The pins after an attempt and the pins during every tick up to its end, from those before it: input while it listens, the
symbol of 21 driven and the level released when it answers. -/
def Attempt.drives (c : Config) (a : Attempt) (p : Pins × List PinRun) : Pins × List PinRun :=
  let listened := pushRun ⟨false, p.1.o⟩ (a.heard c) p.2
  if a.answered c then (⟨true, false⟩, driveRuns (symbolRuns c 21) listened) else (⟨false, p.1.o⟩, listened)

/-- A buffer after bytes were written to it from index `i` on. -/
def Memory.overwrite : Nat → List Byte → Memory → Memory
  | _, [], m => m
  | i, b :: bs, m => Memory.overwrite (i + 1) bs (m.write i b)

/-- The ticks of attempts made one after another. -/
def attemptsTicks (c : Config) (as : List Attempt) : Nat := (as.map (Attempt.ticks c)).sum

/-- The pins after attempts made one after another, and during every tick up to the last. -/
def attemptsPins (c : Config) (as : List Attempt) (p : Pins × List PinRun) : Pins × List PinRun :=
  as.foldl (fun p a => a.drives c p) p

/-- `RXBUF` after attempts made one after another. -/
def attemptsBytes (as : List Attempt) (m : Memory) : Memory := as.foldl (fun m a => m.overwrite 0 a.bytes) m

/-- From time `T` on, a node that attempts to receive meets these attempts one after another. -/
def State.meets (s : State) : Nat → List Attempt → Prop
  | _, [] => True
  | T, a :: as =>
      a.legal s ∧ s.carries T (a.runs s.cfg.val) ∧ s.meets (T + a.ticks s.cfg.val) as

/-- The invocations 0 to `n` of `receiveFrame()` that the accepted command `i`, a `RECEIVE_FRAME_T`, makes one after another,
whatever is on the line: invocation `k` begins in `u k`, yields `o k` and ends in `u (k + 1)`; the start time is in `t0`; none
before `n` yields `Ack` or ends later than `ARG` ticks after the start (spec/43_packet_codec.md R187). -/
def State.invokes (s : State) (i : Instr) (n : Nat) (u : Nat → State) (o : Nat → TxOutcome) : Prop :=
  u 0 = (s.accept i).withWork (fun w => { w with t0 := s.now })
    ∧ (∀ k, k ≤ n → receiveFrame (u k) = .ok (o k, u (k + 1)))
    ∧ ∀ k, k < n → o k ≠ .ack ∧ (u (k + 1)).elapsed s.now ≤ s.arg.toNat

/-! ### The invariant between two steps -/

/-- A slot as it is between commands (spec/10_state.md R37): an `Empty` slot has every field at its reset value, `Delivered`
never stands, the length fits the payload store, `attempts` is at most the ceiling, and the payload store is in canonical
form inside its capacity. -/
def Slot.ok (c : Config) (q : Slot) : Bool :=
  decide (q.state = .empty → q.destination = 0 ∧ q.length = 0 ∧ q.attempts = 0 ∧ q.registeredAt = 0 ∧ q.repeatInterval = 0)
    && decide (q.state ≠ .delivered)
    && decide (q.length.toNat ≤ maxPayload c)
    && decide (q.attempts.toNat ≤ c.maxAttempts)
    && q.payload.wf && q.payload.within (maxPayload c)

/-- The slot file: `MAX_PACKETS` slots, each as between commands (spec/10_state.md R35, R37). -/
def State.slotsOk (s : State) : Bool :=
  decide (s.slots.length = s.cfg.val.maxPackets) && s.slots.all (Slot.ok s.cfg.val)

/-- The buffers are in canonical form inside their capacities (spec/20_memory.md R61 to R63, spec/10_state.md R38). -/
def State.buffersOk (s : State) : Bool :=
  s.txbuf.wf && s.txbuf.within txCapacity
    && s.rxbuf.wf && s.rxbuf.within s.cfg.val.maxFrameLen
    && s.fbuf.wf && s.fbuf.within (fbCapacity s.cfg.val)
    && s.sbox.wf && s.sbox.within s.cfg.val.encStrength

/-- Time is consistent: the trace covers every tick so far, and the latest release of reset is past. -/
def State.timeOk (s : State) : Bool :=
  decide (traceTicks s.trace = s.time) && decide (s.released ≤ s.time)

/-- The invariant of the machine between two steps: the block is idle (spec/10_state.md R29: a command runs to its end),
and slots, buffers and time are as above. -/
def State.inv (s : State) : Bool := !s.busy && s.slotsOk && s.buffersOk && s.timeOk

/-- A safe step: it answers a next state. -/
def State.safeStep (s : State) : Prop := ∃ t, step s = .next t

end Sys2Proof.Machine
end

