-- ==== Sys2Proof/Certificates/Slice0/Obligations.lean ====
section
/-! DEFINITION. The statements for the provers, family by family. A statement about a command that runs alone gives its whole
next state: every register, flag, slot, pin and byte of storage that the equation does not name is as it was before. The
working registers are left open (spec/10_state.md R25 gives them no value between commands); where a command stores bytes a
further clause says which, and that every other byte reads as before (only the bytes of the table `SBOX` that a run of the
cipher rebuilds are left open, spec/10_state.md R38). -/

open Sys2Proof Sys2Proof.Machine

/-! ### Encoding -/

/-- No bit of a command is lost in its word (R91, R92). -/
def Obligations.DecodeEncode : Prop := ∀ i : Instr, decode (encode i) = .ok i

/-- Every word has one meaning: a word that decodes is the word of its command (R90, R91). -/
def Obligations.EncodeDecode : Prop := ∀ (w : Word) (i : Instr), decode w = .ok i → encode i = w

/-- The words that are refused whatever the configuration, with the check that refuses them (R95, checks 2 to 4), in the
arithmetic of the word as a number. -/
def Obligations.DecodeRefusals : Prop :=
  ∀ w : Word,
    (decode w = .error .reservedBits ↔ w.toNat / 16 % 16 ≠ 0 ∨ w.toNat / 2 ^ 24 ≠ 0)
    ∧ (decode w = .error .reservedOpcode ↔
        (w.toNat / 16 % 16 = 0 ∧ w.toNat / 2 ^ 24 = 0) ∧ (w.toNat % 16 = 0 ∨ w.toNat % 16 = 15))
    ∧ (decode w = .error .mustBeZero ↔
        (w.toNat / 16 % 16 = 0 ∧ w.toNat / 2 ^ 24 = 0)
          ∧ ((w.toNat % 16 = 1 ∧ w.toNat / 2 ^ 9 % 2 ^ 7 ≠ 0) ∨ (w.toNat % 16 = 10 ∧ w.toNat / 2 ^ 10 % 2 ^ 6 ≠ 0)))

/-- Words of every family written out from R91, R92 and R98 decode to their commands. -/
def Obligations.DecodeWords : Prop :=
  decode 0x00000101 = .ok (.sendBit true 0)
  ∧ decode 0x00000002 = .ok (.sampleBit 0 0)
  ∧ decode 0x00000603 = .ok (.sendByte 0x06 0)
  ∧ decode 0x00000006 = .ok (.canStart 0 0)
  ∧ decode 0x00020C07 = .ok (.sendFrame 12 2)
  ∧ decode 0x00000009 = .ok (.receiveFrameT 0 0)
  ∧ decode 0x0004030A = .ok (.crypt true true 4)
  ∧ decode 0x0003000B = .ok (.genIv 0 3)
  ∧ decode 0x00020C0C = .ok (.enqueue 12 2)
  ∧ decode 0x0000010E = .ok (.remove 1 0)

/-! ### Steps, commands, refusals -/

/-- A step whose due host action writes a command word to `CMD` runs the command the word decodes to, on the state with that
action taken off the list; `withFetchWord` places such an action (R78, R94). -/
def Obligations.StepRunsCommand : Prop :=
  ∀ (s : State) (w : Word) (rest : List HostAct) (i : Instr), decode w = .ok i →
    (s.host = ⟨.idle 0, .wr 0x00000 w⟩ :: rest → step s = exec i { s with host := rest })
    ∧ (∀ tick first, s.host = ⟨.atTick tick first, .wr 0x00000 w⟩ :: rest → tick ≤ s.time →
        step s = exec i { s with host := rest })
    ∧ step (s.withFetchWord 32 w.toNat) = exec i s

/-- With nothing pending a step is one idle tick; an action that is not due lets the ticks before it pass; nothing but the
clock, the pin trace and the fresh marks changes (R29, R281). The marks (log entry 8) and the host as a list of actions (log
entry 5) are the model's choices. -/
def Obligations.IdleTicks : Prop :=
  ∀ s : State,
    (s.host = [] → step s = .next { s with
        time := s.time + 1, trace := pushRun ⟨s.lineOe, s.lineO⟩ 1 s.trace
        freshDone := false, freshRx := false, freshErr := false, freshCmd := false })
    ∧ (∀ d op rest, s.host = ⟨.idle (d + 1), op⟩ :: rest → step s = .next { s with
        time := s.time + (d + 1), trace := pushRun ⟨s.lineOe, s.lineO⟩ (d + 1) s.trace
        host := ⟨.idle 0, op⟩ :: rest, freshDone := false, freshRx := false, freshErr := false, freshCmd := false })
    ∧ (∀ tick first op rest, s.host = ⟨.atTick tick first, op⟩ :: rest → s.time < tick → step s = .next { s with
        time := tick, trace := pushRun ⟨s.lineOe, s.lineO⟩ (tick - s.time) s.trace
        freshDone := false, freshRx := false, freshErr := false, freshCmd := false })

/-- A refused command has exactly one effect, `CMD_ERR` (R95, R254): while busy, with a reserved or must-be-zero bit, with a
reserved opcode, with an illegal operand. In the word `w`, `w % 16` is the opcode, `w / 2^8 % 2^8` is `a`, `w / 2^16 % 2^8`
is `b`. So does the step whose due host action writes such a word to `CMD`, which also takes that action off the list. The model's
choices: the mark `freshCmd`, that `CMD_ERR` was set since the last tick (log entry 8), and the host as a list of actions (log
entry 5). -/
def Obligations.RefusedCommand : Prop :=
  (∀ (s : State) (w : Word),
    (s.busy = true
      ∨ w.toNat / 16 % 16 ≠ 0 ∨ w.toNat / 2 ^ 24 ≠ 0
      ∨ w.toNat % 16 = 0 ∨ w.toNat % 16 = 15
      ∨ (w.toNat % 16 = 1 ∧ w.toNat / 2 ^ 9 % 2 ^ 7 ≠ 0)
      ∨ (w.toNat % 16 = 10 ∧ w.toNat / 2 ^ 10 % 2 ^ 6 ≠ 0)
      ∨ (w.toNat % 16 = 7 ∧ maxPayload s.cfg.val < w.toNat / 2 ^ 16 % 2 ^ 8)
      ∨ (w.toNat % 16 = 10 ∧ w.toNat / 2 ^ 8 % 2 ^ 8 = 1 ∧ 253 < w.toNat / 2 ^ 16 % 2 ^ 8)
      ∨ (w.toNat % 16 = 10 ∧ w.toNat / 2 ^ 8 % 2 ^ 8 = 3 ∧ w.toNat / 2 ^ 16 % 2 ^ 8 = 0)
      ∨ (w.toNat % 16 = 11 ∧ 253 < w.toNat / 2 ^ 16 % 2 ^ 8)
      ∨ (w.toNat % 16 = 14 ∧ s.cfg.val.maxPackets ≤ w.toNat / 2 ^ 8 % 2 ^ 8)) →
    command w s = .next { s with cmdErr := true, freshCmd := true }
    ∧ ∀ rest, s.dueNext (.wr 0x00000 w) rest →
        step s = .next { s with host := rest, cmdErr := true, freshCmd := true })
  ∧ (∀ (s : State) (w : Word), s.busyWrite 0x00000 w = { s with cmdErr := true, freshCmd := true })
  ∧ (∀ s : State, ({ s with cmdErr := true, freshCmd := true } : State).irq = s.irq)

/-- Every command comes to a next state from every state (R255), but `RECEIVE_FRAME_T`, which may never end; nothing is refused
by the model. The fault, which stands for a command that never ends, is the model's, and so is that this statement allows it
for every `ARG`: R318 names `ARG = 2^32 − 1` alone, and the smaller durations are log entry 9's deduction from the pseudocode
of R187. -/
def Obligations.CommandsEnd : Prop :=
  ∀ (i : Instr) (s : State),
    (∃ t, exec i s = .next t) ∨ (exec i s = .fault .neverEnds ∧ ∃ a b, i = .receiveFrameT a b)

/-- An accepted command that no reset cuts off, whatever the host does meanwhile: `A` and `B` are its fields, `ARG` is as it
was, the block is idle with `DONE` set (R22, R29, R66). -/
def Obligations.CommandEnd : Prop :=
  ∀ (i : Instr) (s t : State), s.busy = false → legalOperands s.cfg.val i = true → exec i s = .next t →
    t.resets = s.resets →
    t.busy = false ∧ t.done = true ∧ t.regA = fieldA i ∧ t.regB = fieldB i ∧ t.arg = s.arg

/-- A command that a reset cuts off leaves the reset values: no result, no flag, pins 0, every slot empty, and tick 0 is the
release of reset (R290, R291). The model's choices in the equation: the held reset as a host action (log entries 5 and 7), the
working registers at `Work.blank` (log entry 3) and the buffers as empty lists, which hold no byte (log entry 2), both of which
R43 and R290 leave unspecified, and the records that go on over the reset (log entry 14). -/
def Obligations.ResetCutsCommand : Prop :=
  ∀ (i : Instr) (s t : State), exec i s = .next t → t.resets ≠ s.resets →
    t = { State.blank s.cfg with
      clock0 := s.clock0, time := t.time, released := t.time, resets := s.resets + 1, line := s.line
      hearsSelf := s.hearsSelf, host := t.host, trace := t.trace, events := t.events, reads := t.reads }

/-- A reset that lands in a `SEND_BIT` (R291), while the host lets the hold pass (`ResetValues` says what it can do there): the
level is driven up to the reset, then nothing is; no event, no result. The model's choices in the equation: the held reset as a
host action (log entries 5 and 7), the working registers at `Work.blank` (log entry 3) and the buffers as empty lists (log entry
2), both of which R43 leaves unspecified, and the records that go on over the reset (log entry 14). -/
def Obligations.ResetDuringSendBit : Prop :=
  ∀ (s : State) (level : Bool) (b : Byte) (tick held : Nat) (first : Bool) (rest : List HostAct),
    s.busy = false → s.host = ⟨.atTick tick first, .rst held⟩ :: rest → s.time ≤ tick → tick < s.time + s.arg.toNat →
    ({ s with time := tick, host := rest } : State).quietUnderReset held →
    exec (.sendBit level b) s = .next { State.blank s.cfg with
      clock0 := s.clock0, time := tick + held, released := tick + held, resets := s.resets + 1, line := s.line
      hearsSelf := s.hearsSelf, host := rest
      trace := pushRun ⟨false, false⟩ held (pushRun ⟨s.lineOe, level⟩ (tick - s.time) s.trace)
      events := s.events, reads := s.reads }

/-- What the host does while a `SEND_BIT` runs (R65 to R67): a read is answered at its tick, from the state there, with the
level on the pin, `BUSY = 1`, and the previous `RESULT`; a write to `CMD` sets `CMD_ERR`; a write to `STATUS` clears the flags
whose bit is 1 (R31), but one before the first tick does not clear a flag that was set since the last tick; any other write is
ignored. The command ends as it would have. The model's choices in the clause on `STATUS` (log entry 8): the fresh marks
`freshRx`, `freshErr`, `freshCmd`, which are its way to say R31's "the set wins", and the deduced reading, not R31's own words,
that a refusal is the block's set of `CMD_ERR`, so that the set wins there too. The host as a list of timed actions is the
model's as well (log entry 5). -/
def Obligations.HostDuringSendBit : Prop :=
  ∀ (s : State) (level : Bool) (b : Byte) (tick : Nat) (first : Bool) (op : BusOp) (rest : List HostAct),
    s.busy = false → s.host = ⟨.atTick tick first, op⟩ :: rest → ({ s with host := rest } : State).undisturbed = true →
    s.time ≤ tick → tick < s.time + s.arg.toNat →
    let t : State := { s.after (.sendBit level b) s.arg.toNat 0 with
      lineO := level, trace := pushRun ⟨s.lineOe, level⟩ s.arg.toNat s.trace, host := rest }
    (∀ a, op = .rd a → ∃ w, exec (.sendBit level b) s = .next { t with
        work := w
        reads := s.reads ++ [⟨tick, a,
          ({ s with busy := true, done := false, lineO := level, time := tick } : State).hostRead a⟩] })
    ∧ (∀ v, op = .wr 0x00000 v → ∃ w, exec (.sendBit level b) s = .next { t with work := w, cmdErr := true })
    ∧ (∀ v, op = .wr 0x00008 v → ∃ w, exec (.sendBit level b) s = .next { t with
        work := w
        rxDone := s.rxDone && (!v.getLsbD 2 || (s.freshRx && decide (tick = s.time)))
        err := s.err && (!v.getLsbD 3 || (s.freshErr && decide (tick = s.time)))
        cmdErr := s.cmdErr && (!v.getLsbD 4 || (s.freshCmd && decide (tick = s.time))) })
    ∧ ∀ a v, op = .wr a v → a ≠ 0x00000 → a ≠ 0x00008 → ∃ w, exec (.sendBit level b) s = .next { t with work := w }

/-- The host cannot disturb a running command, whichever it is (R66, R67, R75; only a reset can, R291): compared with the run in
which the host does nothing, one host action that lands inside it changes this and nothing else. A read adds its answer,
given at its tick by a state that is busy and holds the previous `RESULT` and the same `ARG`; a write to `CMD` sets `CMD_ERR`; a
write to `STATUS` can only clear flags whose bit is 1 (R31), and clears `CMD_ERR` unless it was set since the last tick; any
other write is ignored. The model's choices in that "unless" (log entry 8): the fresh mark `freshCmd`, and the deduced reading,
not R31's own words, that a refusal is the block's set of `CMD_ERR`, so that R31's "the set wins" speaks of it. The host as a
list of timed actions is the model's as well (log entry 5). -/
def Obligations.HostCannotDisturb : Prop :=
  ∀ (i : Instr) (s t : State) (tick : Nat) (first : Bool),
    s.ready = true → exec i s = .next t → s.time ≤ tick → tick < t.time →
    let acting := fun op : BusOp => ({ s with host := ⟨.atTick tick first, op⟩ :: s.host } : State)
    (∀ a, ∃ u : State, exec i (acting (.rd a)) = .next { t with reads := s.reads ++ [⟨tick, a, u.hostRead a⟩] }
        ∧ u.time = tick ∧ u.busy = true ∧ u.cfg = s.cfg ∧ u.clock0 = s.clock0 ∧ u.result = s.result ∧ u.arg = s.arg)
    ∧ (∀ w, exec i (acting (.wr 0x00000 w)) = .next { t with cmdErr := true })
    ∧ (∀ v, ∃ rx er, exec i (acting (.wr 0x00008 v)) = .next { t with
          rxDone := rx, err := er
          cmdErr := s.cmdErr && (!v.getLsbD 4 || (s.freshCmd && decide (tick = s.time))) }
        ∧ (rx = true → t.rxDone = true) ∧ (v.getLsbD 2 = false → rx = t.rxDone)
        ∧ (er = true → t.err = true) ∧ (v.getLsbD 3 = false → er = t.err))
    ∧ ∀ a v, a ≠ 0x00000 → a ≠ 0x00008 → exec i (acting (.wr a v)) = .next t

/-- Which commands write what (R61, R62, R35; R262, R263 "sources"): whatever the host does meanwhile, a command that no reset
cuts off leaves `TXBUF` alone unless it is `CRYPT`; `RXBUF`, `RX_LEN`, `RX_COUNT` unless it receives a frame; the slots and
their payloads, `ERR_KIND`, `ERR_CTX`, `ERR_COUNT` unless it is a queue command. -/
def Obligations.WhoWritesWhat : Prop :=
  ∀ (i : Instr) (s t : State), exec i s = .next t → t.resets = s.resets →
    ((∀ ivf side len, i ≠ .crypt ivf side len) → ∀ k, t.byteAt (.tx k) = s.byteAt (.tx k))
    ∧ ((∀ a b, i ≠ .receiveFrame a b) → (∀ a b, i ≠ .receiveFrameT a b) →
        (∀ k, t.byteAt (.rx k) = s.byteAt (.rx k)) ∧ t.rxLen = s.rxLen ∧ t.rxCount = s.rxCount)
    ∧ ((∀ d n, i ≠ .enqueue d n) → (∀ a b, i ≠ .tick a b) → (∀ k b, i ≠ .remove k b) →
        t.slots = s.slots ∧ (∀ k j, t.byteAt (.pay k j) = s.byteAt (.pay k j))
          ∧ t.errKind = s.errKind ∧ t.errCtx = s.errCtx ∧ t.errCount = s.errCount)

/-! ### Reset and invariants -/

/-- Reset (R43, R290): its values, at power-on for every configuration and after every hold of the reset pin, which is what a step
makes of a due reset. The hold lasts as long as it says, or longer when another begins during it; the pins are 0 all the while,
and tick 0 is its end. No host action changes a value while `rst` is 1: one timed inside the hold is done with there, and only a
read of it is left, answered with the reset values; the last clauses say it of one action. The model's choices: the
configuration of `State.reset` (log entry 1), a buffer whose contents R43 leaves unspecified holds no byte, so that a read of it
is a free value (log entry 2), the working registers at `Work.blank` (log entry 3), the reset as a host action, what else the
host does during the hold, and that a read there is answered (log entries 5 and 7), the records that go on over the reset (log
entry 14). -/
def Obligations.ResetValues : Prop :=
  State.reset = State.blank Cfg.example
  ∧ (∀ (s : State) (held : Nat) (rest : List HostAct), s.dueNext (.rst held) rest →
      step s = .next (({ s with host := rest } : State).resetPin held))
  ∧ (∀ (s : State) (held : Nat),
      let t := s.resetPin held
      t = { State.blank s.cfg with
          clock0 := s.clock0, time := t.time, released := t.time, resets := s.resets + 1, line := s.line
          hearsSelf := s.hearsSelf, host := t.host, trace := pushRun ⟨false, false⟩ (t.time - s.time) s.trace
          events := s.events, reads := t.reads }
      ∧ s.time + held ≤ t.time
      ∧ (s.quietUnderReset held → t.time = s.time + held ∧ t.host = s.host ∧ t.reads = s.reads)
      ∧ (∀ τ, τ < s.time → t.pinsDuring τ = s.pinsDuring τ)
      ∧ (∀ τ, s.time ≤ τ → τ < t.time → t.pinsDuring τ = some ⟨false, false⟩)
      ∧ (∃ done, s.host = done ++ t.host ∧ ∀ act ∈ done, ∃ tick first, act.when = .atTick tick first)
      ∧ ∃ made, t.reads = s.reads ++ made ∧ ∀ r ∈ made, s.time ≤ r.time ∧ r.time < t.time
          ∧ r.data = ({ t with time := r.time } : State).hostRead r.addr)
  ∧ (∀ (s : State) (held tick : Nat) (first : Bool) (op : BusOp) (rest : List HostAct),
      s.host = ⟨.atTick tick first, op⟩ :: rest → max tick s.time < s.time + held →
      let s' : State := { s with host := rest }
      (∀ a v, op = .wr a v → s'.quietUnderReset held → s.resetPin held = s'.resetPin held)
      ∧ (∀ a, op = .rd a → s'.quietUnderReset held → s.resetPin held = { s'.resetPin held with
          reads := s.reads ++ [⟨max tick s.time, a,
            ({ s.resetPin held with time := max tick s.time } : State).hostRead a⟩] })
      ∧ ∀ held', op = .rst held' → s'.quietUnderReset (max held (max tick s.time - s.time + held')) →
          s.resetPin held = s'.resetPin (max held (max tick s.time - s.time + held')))
  ∧ ∀ (c : Cfg) (s : State) (held : Nat) (t : State), t = State.blank c ∨ t = s.resetPin held →
    t.regA = 0 ∧ t.regB = 0 ∧ t.arg = 0 ∧ t.result = 0 ∧ t.statusWord = 0
    ∧ t.rxLen = 0 ∧ t.rxCount = 0 ∧ t.errKind = 0 ∧ t.errCtx = 0 ∧ t.errCount = 0
    ∧ t.lineO = false ∧ t.lineOe = false ∧ t.irq = false ∧ t.tcur = 0 ∧ t.qlive = 0
    ∧ t.slots.length = t.cfg.val.maxPackets
    ∧ (∀ q ∈ t.slots, q.state = .empty ∧ q.destination = 0 ∧ q.length = 0 ∧ q.attempts = 0 ∧ q.registeredAt = 0
        ∧ q.repeatInterval = 0)
    ∧ ∀ l, t.stored l = none

/-- The invariant holds at reset, for every configuration (R37, R43). -/
def Obligations.InvAtReset : Prop := State.reset.inv = true ∧ ∀ c : Cfg, (State.blank c).inv = true

/-- Every step keeps the invariant, whatever the host and the line do (R37, R240 c): the block is idle between steps; an
`Empty` slot is all zero, `Delivered` never stands, lengths and attempts are in range; every buffer is canonical and inside its
capacity; the pin trace covers every tick. -/
def Obligations.StepKeepsInv : Prop := ∀ s t : State, s.inv = true → step s = .next t → t.inv = true

/-- A step changes neither the configuration nor what the environment is, and the clock goes on by one per tick (R8, R41). What was
observed stays observed; over a reset that is the model's choice (log entry 14: the records of events, reads and pins go on), as
are the reset as a host action and what the host does during its hold (log entry 7). -/
def Obligations.StepKeepsEnvironment : Prop :=
  ∀ s t : State, step s = .next t →
    t.cfg = s.cfg ∧ t.clock0 = s.clock0 ∧ t.line = s.line ∧ t.hearsSelf = s.hearsSelf
    ∧ s.time ≤ t.time ∧ t.now = s.now + BitVec.ofNat 32 (t.time - s.time)
    ∧ s.events <+: t.events ∧ s.reads <+: t.reads
    ∧ ∀ τ, τ < s.time → t.pinsDuring τ = s.pinsDuring τ

/-! ### The host's registers -/

/-- A host read changes nothing but the model's record of it, and answers the address map (R67, R69 to R72, R97): registers,
configuration mirrors, buffer windows, slot windows (`Q_STATE` by the codes 0 to 5 of R97); 0 for a misaligned or unlisted
address. -/
def Obligations.ReadMap : Prop :=
  (∀ (s : State) (a : BusAddr) (rest : List HostAct), s.dueNext (.rd a) rest →
    step s = .next { s with host := rest, reads := s.reads ++ [⟨s.time, a, s.hostRead a⟩] })
  ∧ ∀ s : State,
    s.hostRead 0x00000 = 0 ∧ s.hostRead 0x00004 = s.arg ∧ s.hostRead 0x00008 = s.statusWord
    ∧ s.hostRead 0x0000C = s.result ∧ s.hostRead 0x00010 = s.rxLen.setWidth 32 ∧ s.hostRead 0x00014 = s.rxCount
    ∧ s.hostRead 0x00018 = s.errKind.setWidth 32 ∧ s.hostRead 0x0001C = s.errCtx.setWidth 32
    ∧ s.hostRead 0x00020 = s.errCount ∧ s.hostRead 0x00024 = s.clock0 + BitVec.ofNat 32 s.time
    ∧ s.hostRead 0x00028 = BitVec.ofNat 32 ((s.slots.filter fun q => q.state ≠ .empty).length)
    ∧ s.hostRead 0x00040 = s.cfg.val.ownAddr.setWidth 32
    ∧ s.hostRead 0x00044 = BitVec.ofNat 32 (s.cfg.val.caEn.toNat + 2 * s.cfg.val.encEn.toNat + 4 * s.cfg.val.simplex.toNat
        + 8 * s.cfg.val.whiten.toNat)
    ∧ s.hostRead 0x00048 = BitVec.ofNat 32 s.cfg.val.bitWidth ∧ s.hostRead 0x0004C = BitVec.ofNat 32 s.cfg.val.bitSpacer
    ∧ s.hostRead 0x00050 = BitVec.ofNat 32 s.cfg.val.maxAttempts
    ∧ s.hostRead 0x00054 = BitVec.ofNat 32 s.cfg.val.maxPackets
    ∧ s.hostRead 0x00058 = BitVec.ofNat 32 s.cfg.val.maxFrameLen
    ∧ s.hostRead 0x0005C = BitVec.ofNat 32 s.cfg.val.encStrength
    ∧ s.hostRead 0x00060 = BitVec.ofNat 32 s.cfg.val.flushUs
    ∧ (∀ i, i < 256 → s.hostRead (BitVec.ofNat 19 (0x00400 + 4 * i)) = (s.byteAt (.tx i)).setWidth 32)
    ∧ (∀ i, i < s.cfg.val.maxFrameLen → s.hostRead (BitVec.ofNat 19 (0x00800 + 4 * i)) = (s.byteAt (.rx i)).setWidth 32)
    ∧ (∀ k, k < s.cfg.val.maxPackets →
        s.hostRead (BitVec.ofNat 19 (0x01000 + 0x20 * k)) = (match (s.slot k).state with
          | .empty => 0 | .pendingSend => 1 | .delivered => 2 | .rejected => 3 | .failed => 4 | .busy => 5)
        ∧ s.hostRead (BitVec.ofNat 19 (0x01004 + 0x20 * k)) = (s.slot k).destination.setWidth 32
        ∧ s.hostRead (BitVec.ofNat 19 (0x01008 + 0x20 * k)) = (s.slot k).length.setWidth 32
        ∧ s.hostRead (BitVec.ofNat 19 (0x0100C + 0x20 * k)) = (s.slot k).attempts.setWidth 32
        ∧ s.hostRead (BitVec.ofNat 19 (0x01010 + 0x20 * k)) = (s.slot k).registeredAt
        ∧ s.hostRead (BitVec.ofNat 19 (0x01014 + 0x20 * k)) = (s.slot k).repeatInterval
        ∧ s.hostRead (BitVec.ofNat 19 (0x01018 + 0x20 * k)) = 0 ∧ s.hostRead (BitVec.ofNat 19 (0x0101C + 0x20 * k)) = 0
        ∧ ∀ i, i < maxPayload s.cfg.val →
            s.hostRead (BitVec.ofNat 19 (0x10000 + 0x400 * k + 4 * i)) = (s.byteAt (.pay k i)).setWidth 32)
    ∧ ∀ a : BusAddr,
        (a.toNat % 4 ≠ 0
          ∨ (0x0002C ≤ a.toNat ∧ a.toNat < 0x00040) ∨ (0x00064 ≤ a.toNat ∧ a.toNat < 0x00400)
          ∨ (0x00800 + 4 * s.cfg.val.maxFrameLen ≤ a.toNat ∧ a.toNat < 0x01000)
          ∨ (0x01000 + 0x20 * s.cfg.val.maxPackets ≤ a.toNat ∧ a.toNat < 0x10000)
          ∨ (0x10000 ≤ a.toNat ∧ (s.cfg.val.maxPackets ≤ (a.toNat - 0x10000) / 0x400
              ∨ maxPayload s.cfg.val ≤ (a.toNat - 0x10000) % 0x400 / 4))) →
        s.hostRead a = 0

/-- Host writes (R65, R66, R68 d, R69, R70): the step whose due host action writes to an address other than `CMD`'s makes that
write and nothing else; while idle `ARG` and the bytes of `TXBUF` take the value, `STATUS` clears flags, and any other address
but `CMD` ignores it; while busy everything but `STATUS` and `CMD` ignores it. The mark `freshCmd` is the model's (log
entry 8). -/
def Obligations.HostWrites : Prop :=
  ∀ (s : State) (a : BusAddr) (v : Word),
    (∀ rest, s.dueNext (.wr a v) rest → a ≠ 0x00000 → step s = .next (({ s with host := rest } : State).hostWrite a v))
    ∧ (s.busy = false →
      (a = 0x00004 → s.hostWrite a v = { s with arg := v })
      ∧ (a = 0x00008 → s.hostWrite a v = s.writeStatus v)
      ∧ (∀ i, i < 256 → a.toNat = 0x00400 + 4 * i →
          s.hostWrite a v = { s with txbuf := (s.hostWrite a v).txbuf }
          ∧ (s.hostWrite a v).byteAt (.tx i) = v.setWidth 8
          ∧ ∀ l, l ≠ .tx i → (s.hostWrite a v).byteAt l = s.byteAt l)
      ∧ (a ≠ 0x00000 → a ≠ 0x00004 → a ≠ 0x00008 →
          (a.toNat % 4 ≠ 0 ∨ a.toNat < 0x00400 ∨ 0x00800 ≤ a.toNat) → s.hostWrite a v = s))
    ∧ (s.busy = true →
      (a = 0x00008 → s.hostWrite a v = s.writeStatus v)
      ∧ (a = 0x00000 → s.hostWrite a v = { s with cmdErr := true, freshCmd := true })
      ∧ (a ≠ 0x00000 → a ≠ 0x00008 → s.hostWrite a v = s))

/-- `STATUS` (R31, R264): where each flag reads, what a host write clears (a 1 clears `DONE`, `RX_DONE`, `ERR`, `CMD_ERR`, a 0
does nothing, other bits do nothing), and `irq`. Each of the four flags, when it was set since the last tick, stays set (the
set wins, R31): the fresh marks are the model's way to say so (log entry 8). A refusal and a clear of `CMD_ERR` between the
same two ticks leave it 1, which rests on the model's deduced reading that a refusal is the block's set of `CMD_ERR` (log entry
8); a clear after a tick clears it. -/
def Obligations.StatusFlags : Prop :=
  ∀ (s : State) (v : Word) (d : Nat),
    s.statusWord.toNat = s.busy.toNat + 2 * s.done.toNat + 4 * s.rxDone.toNat + 8 * s.err.toNat + 16 * s.cmdErr.toNat
      + 32 * s.lineOe.toNat + 64 * s.lineO.toNat
    ∧ s.writeStatus v = { s with
        done := s.done && (!v.getLsbD 1 || s.freshDone)
        rxDone := s.rxDone && (!v.getLsbD 2 || s.freshRx)
        err := s.err && (!v.getLsbD 3 || s.freshErr)
        cmdErr := s.cmdErr && (!v.getLsbD 4 || s.freshCmd) }
    ∧ (s.refuse.writeStatus v).cmdErr = true ∧ ((s.refuse.pass (d + 1)).writeStatus 0x10).cmdErr = false
    ∧ (s.irq = true ↔ s.rxDone = true ∨ s.err = true)

/-- The two events (R262, R263): the registers, the flag and the pulse of an `emit`, recorded with `t_cur` (R264); a clear between
the same two ticks does not undo its flag, a clear after a tick does (R31, R268). The model's choices: the fresh marks that say
so (log entry 8), and that the list of records goes on over a reset (log entry 14). -/
def Obligations.Events : Prop :=
  ∀ (s : State) (len : Byte) (kind : ErrKind) (ctx : Byte) (v : Word) (d : Nat),
    s.rxEvent len = { s with
      rxLen := len, rxCount := s.rxCount + 1, rxDone := true, freshRx := true
      events := s.events ++ [(s.time - s.released, .rxFrame len)] }
    ∧ s.errorEvent kind ctx = { s with
        errKind := kind.code, errCtx := ctx, errCount := s.errCount + 1, err := true, freshErr := true
        events := s.events ++ [(s.time - s.released, .error kind ctx)] }
    ∧ ((s.rxEvent len).writeStatus v).rxDone = true
    ∧ ((s.errorEvent kind ctx).writeStatus v).err = true
    ∧ (((s.rxEvent len).pass (d + 1)).writeStatus 4).rxDone = false
    ∧ (((s.errorEvent kind ctx).pass (d + 1)).writeStatus 8).err = false

/-! ### The bit layer -/

/-- `SEND_BIT` (R131): `line_o` takes the level before the first tick and holds it for `ARG` ticks, in whatever direction the
pin has; `RESULT = 0`. -/
def Obligations.SendBit : Prop :=
  ∀ (s : State) (level : Bool) (b : Byte), s.ready = true →
    ∃ w, exec (.sendBit level b) s = .next { s.after (.sendBit level b) s.arg.toNat 0 with
      lineO := level, trace := pushRun ⟨s.lineOe, level⟩ s.arg.toNat s.trace, work := w }

/-- `SAMPLE_BIT` (R132): one sample per tick for `ARG` ticks; `RESULT` bit 0 says whether the average, seeded at 1/2 and
computed in exact rationals, ends above 1/2. -/
def Obligations.SampleBit : Prop :=
  ∀ (s : State) (a b : Byte), s.ready = true →
    ∃ w, exec (.sampleBit a b) s = .next
      { s.after (.sampleBit a b) s.arg.toNat
          (if 1 / 2 < average ((List.range s.arg.toNat).map fun j => s.lineAt (s.time + j)) then 1 else 0) with
        trace := pushRun ⟨s.lineOe, s.lineO⟩ s.arg.toNat s.trace, work := w }

/-- The integer form of the filter (R133): the recurrence of `E` and `P`; `P = 1000^d`, `v − 1/2 = E / (2·1000^d)`, the reading is
`E > 0`, and it is the sign of the weighted vote. -/
def Obligations.FilterIntegerForm : Prop :=
  ∀ samples : List Bool,
    ((Filter.half.run []).e = 0 ∧ (Filter.half.run []).p = 1)
    ∧ (∀ sample : Bool,
        (Filter.half.run (samples ++ [sample])).e
          = 999 * (Filter.half.run samples).e + (2 * sample.toNat - 1) * (Filter.half.run samples).p
        ∧ (Filter.half.run (samples ++ [sample])).p = 1000 * (Filter.half.run samples).p)
    ∧ (Filter.half.run samples).p = 1000 ^ samples.length
    ∧ average samples - 1 / 2 = (Filter.half.run samples).e / (2 * 1000 ^ samples.length)
    ∧ (majority samples = true ↔ 0 < (Filter.half.run samples).e)
    ∧ (majority samples = true ↔ (1 / 2 : ℚ) < average samples)
    ∧ (majority samples = true ↔
        (0 : ℚ) < ((List.range samples.length).map fun k =>
          (999 / 1000) ^ (samples.length - 1 - k) * (if samples.getD k false then 1 else -1)).sum)

/-- No ties (R134): after at least one sample `E` is 1 or −1 modulo 999, and `P` is 1, so `v` is not
1/2. -/
def Obligations.NoTies : Prop :=
  ∀ samples : List Bool, samples ≠ [] →
    ((Filter.half.run samples).e % 999 = 1 ∨ (Filter.half.run samples).e % 999 = 998)
    ∧ (Filter.half.run samples).p % 999 = 1
    ∧ (Filter.half.run samples).e ≠ 0 ∧ average samples ≠ 1 / 2
    ∧ ((1 / 2 : ℚ) < average samples ↔ (1 / 2 : ℚ) ≤ average samples)

/-- The thresholds of R135: a run of `n` equal samples at the end, or at the start, of a window of 350, 750 or 10 decides it
exactly from the stated length on. -/
def Obligations.FilterThresholds : Prop :=
  ∀ b : Bool,
    (∀ n, n ≤ 350 → (majority (List.replicate (350 - n) (!b) ++ List.replicate n b) = b ↔ 160 ≤ n))
    ∧ (∀ n, n ≤ 350 → (majority (List.replicate n b ++ List.replicate (350 - n) (!b)) = b ↔ 191 ≤ n))
    ∧ (∀ n, n ≤ 750 → (majority (List.replicate (750 - n) (!b) ++ List.replicate n b) = b ↔ 307 ≤ n))
    ∧ (∀ n, n ≤ 750 → (majority (List.replicate n b ++ List.replicate (750 - n) (!b)) = b ↔ 444 ≤ n))
    ∧ (∀ n, n ≤ 10 → (majority (List.replicate (10 - n) (!b) ++ List.replicate n b) = b ↔ 5 ≤ n))
    ∧ (∀ n, n ≤ 10 → (majority (List.replicate n b ++ List.replicate (10 - n) (!b)) = b ↔ 6 ≤ n))

/-! ### The byte layer -/

/-- `SEND_BYTE` (R141, R101): output direction, then tick by tick the sync pulse, the gap and the eight bits; afterwards the pin
stays at bit 7; ticks before are as they were. -/
def Obligations.SendByte : Prop :=
  ∀ (s : State) (x b : Byte), s.ready = true →
    ∃ t, exec (.sendByte x b) s = .next t
      ∧ t = { s.after (.sendByte x b) (s.cfg.val.bitSpacer + 9 * s.cfg.val.bitWidth) 0 with
          lineOe := true, lineO := x.getLsbD 7, trace := t.trace, work := t.work }
      ∧ (∀ τ, τ < s.time → t.pinsDuring τ = s.pinsDuring τ)
      ∧ ∀ j, j < s.cfg.val.bitSpacer + 9 * s.cfg.val.bitWidth →
          t.pinsDuring (s.time + j) = some ⟨true,
            if j < s.cfg.val.bitSpacer then true
            else if j < s.cfg.val.bitSpacer + s.cfg.val.bitWidth then false
            else x.getLsbD ((j - s.cfg.val.bitSpacer - s.cfg.val.bitWidth) / s.cfg.val.bitWidth)⟩

/-- `READ_BYTE` (R143): bit `i` of `RESULT` is what window `i` reads, eight windows one after another; the direction is left
alone. -/
def Obligations.ReadByte : Prop :=
  ∀ (s : State) (a b : Byte), s.ready = true →
    ∃ (r : Byte) (w : Work), exec (.readByte a b) s = .next
        { s.after (.readByte a b) (8 * s.cfg.val.bitWidth) (r.setWidth 32) with
          trace := pushRun ⟨s.lineOe, s.lineO⟩ (8 * s.cfg.val.bitWidth) s.trace, work := w }
      ∧ ∀ i, i < 8 → r.getLsbD i =
          majority ((List.range s.cfg.val.bitWidth).map fun k => s.lineAt (s.time + s.cfg.val.bitWidth * i + k))

/-- `RECEIVE_BYTE` (R145), its three ends: no HIGH sample, `ByteFail` after one tick; `h` HIGH samples (`c = 1` when a LOW one
ended them) and a HIGH gap window, `ByteFail` after `h + c + W` ticks; a LOW gap window, the byte of the eight windows that
follow after `h + c + 9·W` ticks. -/
def Obligations.ReceiveByte : Prop :=
  ∀ (s : State) (a b : Byte), s.ready = true →
    (s.line.level s.time = false →
      ∃ w, exec (.receiveByte a b) s = .next { s.after (.receiveByte a b) 1 0x100 with
        lineOe := false, trace := pushRun ⟨false, s.lineO⟩ 1 s.trace, work := w })
    ∧ ∀ h c, 1 ≤ h → h ≤ s.cfg.val.bitSpacer → (∀ j, j < h → s.line.level (s.time + j) = true) →
        ((h = s.cfg.val.bitSpacer ∧ c = 0) ∨ (h < s.cfg.val.bitSpacer ∧ s.line.level (s.time + h) = false ∧ c = 1)) →
        (s.window (s.time + h + c) s.cfg.val.bitWidth = true →
          ∃ w, exec (.receiveByte a b) s = .next
            { s.after (.receiveByte a b) (h + c + s.cfg.val.bitWidth) 0x100 with
              lineOe := false, trace := pushRun ⟨false, s.lineO⟩ (h + c + s.cfg.val.bitWidth) s.trace, work := w })
        ∧ (s.window (s.time + h + c) s.cfg.val.bitWidth = false →
          ∃ (r : Byte) (w : Work), exec (.receiveByte a b) s = .next
              { s.after (.receiveByte a b) (h + c + 9 * s.cfg.val.bitWidth) (r.setWidth 32) with
                lineOe := false, trace := pushRun ⟨false, s.lineO⟩ (h + c + 9 * s.cfg.val.bitWidth) s.trace, work := w }
            ∧ ∀ i, i < 8 → r.getLsbD i =
                s.window (s.time + h + c + s.cfg.val.bitWidth * (i + 1)) s.cfg.val.bitWidth)

/-- One symbol from node to node (R101, R145, R146): a receiver that enters `RECEIVE_BYTE` with the first tick of what another
node's `SEND_BYTE x` drives, with the same bit width and spacer, reads `x`, after `T_BYTE` ticks. -/
def Obligations.SymbolRoundTrip : Prop :=
  ∀ (s t r : State) (x b a' b' : Byte), s.ready = true → r.ready = true →
    r.cfg.val.bitWidth = s.cfg.val.bitWidth → r.cfg.val.bitSpacer = s.cfg.val.bitSpacer →
    exec (.sendByte x b) s = .next t →
    (∀ j, j < tByte s.cfg.val →
      some (r.line.level (r.time + j)) = (t.pinsDuring (s.time + j)).map Pins.drives) →
    ∃ w, exec (.receiveByte a' b') r = .next { r.after (.receiveByte a' b') (tByte s.cfg.val) (x.setWidth 32) with
      lineOe := false, trace := pushRun ⟨false, r.lineO⟩ (tByte s.cfg.val) r.trace, work := w }

/-! ### The channel sensor -/

/-- `CAN_START` (R161): input direction, level 0, `FLUSH_US + 8·W` ticks with nothing driven; `RESULT` bit 0 is 1 exactly when
all eight windows after the short pulse read LOW. -/
def Obligations.CanStart : Prop :=
  ∀ (s : State) (a b : Byte), s.ready = true →
    ∃ (idle : Bool) (w : Work), exec (.canStart a b) s = .next
        { s.after (.canStart a b) (s.cfg.val.flushUs + 8 * s.cfg.val.bitWidth) (if idle then 1 else 0) with
          lineOe := false, lineO := false
          trace := pushRun ⟨false, false⟩ (s.cfg.val.flushUs + 8 * s.cfg.val.bitWidth) s.trace, work := w }
      ∧ (idle = true ↔ ∀ i, i < 8 →
          s.window (s.time + s.cfg.val.flushUs + s.cfg.val.bitWidth * i) s.cfg.val.bitWidth = false)

/-! ### Sending frames -/

/-- `SEND_FRAME` on a busy channel (R172): outcome `Busy` (code 5) after the channel sensor's ticks, nothing driven, no buffer
touched. -/
def Obligations.SendFrameBusy : Prop :=
  ∀ (s : State) (dest len : Byte), s.ready = true → len.toNat ≤ maxPayload s.cfg.val → ¬ s.channelClear →
    ∃ w, exec (.sendFrame dest len) s = .next
      { s.after (.sendFrame dest len) (s.cfg.val.flushUs + 8 * s.cfg.val.bitWidth) 5 with
        lineOe := false, lineO := false
        trace := pushRun ⟨false, false⟩ (s.cfg.val.flushUs + 8 * s.cfg.val.bitWidth) s.trace, work := w }

/-- `SEND_FRAME` to the broadcast address or on a simplex link (R171, R174 to R179, R189): the frame around the bytes of
`TXBUF` is driven symbol by symbol, the level is released, outcome `Ack` (code 2) at once; the body of the frame stands in
`FBUF`. -/
def Obligations.SendFrameUnanswered : Prop :=
  ∀ (s : State) (dest len : Byte), s.ready = true → len.toNat ≤ maxPayload s.cfg.val → s.channelClear →
    (dest = 124 ∨ s.cfg.val.simplex = true) →
    ∃ t, exec (.sendFrame dest len) s = .next t
      ∧ t = { s.after (.sendFrame dest len) (frameTicks s.cfg.val (s.frameFor dest (s.readBytes .tx len.toNat))) 2 with
          lineOe := true, lineO := false, trace := s.sentTrace (s.frameFor dest (s.readBytes .tx len.toNat))
          fbuf := t.fbuf, sbox := t.sbox, work := t.work }
      ∧ s.storesBody t (s.bodyFor (s.readBytes .tx len.toNat))
      ∧ (s.cfg.val.encEn = false → t.sbox = s.sbox)
      ∧ (s.frameFor dest (s.readBytes .tx len.toNat)).length = len.toNat + 3 + s.cfg.val.encEn.toNat

/-- `SEND_FRAME` to a node address on a bidirectional link (R179, R189, R316). When the line stays LOW for the listen window the
outcome is `Fail` (code 4), `LISTEN` ticks after the frame. When it stays LOW for fewer ticks (none, when `e = 0`) and the
symbol of a byte follows, the attempt that the symbol begins runs to its end: the outcome is `Ack` (code 2) for 6, `Nak` (code
3) for 21, and for any other byte, which is no response, `Fail`, since the window is over by then. -/
def Obligations.SendFrameAnswered : Prop :=
  ∀ (s : State) (dest len : Byte), s.ready = true → len.toNat ≤ maxPayload s.cfg.val → s.channelClear →
    dest ≠ 124 → s.cfg.val.simplex = false →
    let body := s.bodyFor (s.readBytes .tx len.toNat)
    let frame := s.frameFor dest (s.readBytes .tx len.toNat)
    let listen := s.time + frameTicks s.cfg.val frame
    (s.quietLine listen (s.cfg.val.bitSpacer + s.cfg.val.bitWidth) →
      ∃ t, exec (.sendFrame dest len) s = .next t
        ∧ t = { s.after (.sendFrame dest len) (frameTicks s.cfg.val frame + (s.cfg.val.bitSpacer + s.cfg.val.bitWidth)) 4 with
            lineOe := false, lineO := false
            trace := pushRun ⟨false, false⟩ (s.cfg.val.bitSpacer + s.cfg.val.bitWidth) (s.sentTrace frame)
            fbuf := t.fbuf, sbox := t.sbox, work := t.work }
        ∧ s.storesBody t body)
    ∧ ∀ (x : Byte) (e : Nat), e < s.cfg.val.bitSpacer + s.cfg.val.bitWidth → s.quietLine listen e →
        s.carries (listen + e) (symbolRuns s.cfg.val x) →
        ∃ t, exec (.sendFrame dest len) s = .next t
          ∧ t = { s.after (.sendFrame dest len) (frameTicks s.cfg.val frame + (e + tByte s.cfg.val))
                (if x = 6 then 2 else if x = 21 then 3 else 4) with
              lineOe := false, lineO := false
              trace := pushRun ⟨false, false⟩ (e + tByte s.cfg.val) (s.sentTrace frame)
              fbuf := t.fbuf, sbox := t.sbox, work := t.work }
          ∧ s.storesBody t body

/-- The frame (R103 to R105, R177): address, length byte, body, and a CRC byte that makes the exclusive-or of all bytes 0; the
length byte is the number of bytes, when that fits a byte. -/
def Obligations.FrameFormat : Prop :=
  ∀ (dest : Byte) (body : List Byte),
    (frameBytes dest body).length = body.length + 3
    ∧ xorAll (frameBytes dest body) = 0
    ∧ (frameBytes dest body)[0]? = some dest
    ∧ (body.length + 3 < 256 → ((frameBytes dest body)[1]?.map BitVec.toNat) = some (body.length + 3))
    ∧ (∀ i, i < body.length → (frameBytes dest body)[2 + i]? = body[i]?)
    ∧ (frameBytes dest body)[body.length + 2]? = some (xorAll (dest :: BitVec.ofNat 8 (body.length + 3) :: body))

/-- A single flipped bit anywhere in a list of bytes whose exclusive-or is 0 makes the exclusive-or nonzero (R325). So a frame for
this node with one flipped bit in a payload, IV or CRC byte, received by `RECEIVE_FRAME`, ends in `Nak` (code 3) with no event
(R188 c). -/
def Obligations.SingleBitError : Prop :=
  (∀ (bytes : List Byte) (k j : Nat), xorAll bytes = 0 → k < bytes.length → j < 8 →
    xorAll (bytes.set k (bytes.getD k 0 ^^^ BitVec.twoPow 8 j)) = BitVec.twoPow 8 j
    ∧ xorAll (bytes.set k (bytes.getD k 0 ^^^ BitVec.twoPow 8 j)) ≠ 0)
  ∧ ∀ (s : State) (a b x : Byte) (body : List Byte) (k j : Nat), s.ready = true →
      x = s.cfg.val.ownAddr ∨ x = 124 → s.cfg.val.encEn.toNat ≤ body.length → body.length + 3 < s.cfg.val.maxFrameLen →
      2 ≤ k → k < body.length + 3 → j < 8 →
      s.carries s.time (symbolsRuns s.cfg.val
        ((frameBytes x body).set k ((frameBytes x body).getD k 0 ^^^ BitVec.twoPow 8 j))) →
      ∃ t, exec (.receiveFrame a b) s = .next t ∧ t.result = 3
        ∧ t.rxLen = s.rxLen ∧ t.rxCount = s.rxCount ∧ t.rxDone = s.rxDone ∧ t.events = s.events

/-! ### Receiving frames -/

/-- `RECEIVE_FRAME` that no frame for this node reaches (R180, R181): a LOW line is `Fail` (code 4) after one tick; a symbol with
another address is `Busy` (code 5) after it, stored in `RXBUF[0]`; a declared length outside `MIN_FRAME .. MAX_FRAME_LEN − 1`
is `Fail` after two symbols; no event, no answer. -/
def Obligations.ReceiveFrameAbort : Prop :=
  ∀ (s : State) (a b : Byte), s.ready = true →
    (s.line.level s.time = false →
      ∃ w, exec (.receiveFrame a b) s = .next { s.after (.receiveFrame a b) 1 4 with
        lineOe := false, trace := pushRun ⟨false, s.lineO⟩ 1 s.trace, work := w })
    ∧ (∀ x : Byte, s.carries s.time (symbolRuns s.cfg.val x) → x ≠ s.cfg.val.ownAddr → x ≠ 124 →
      ∃ t, exec (.receiveFrame a b) s = .next t
        ∧ t = { s.after (.receiveFrame a b) (tByte s.cfg.val) 5 with
            lineOe := false, trace := pushRun ⟨false, s.lineO⟩ (tByte s.cfg.val) s.trace
            rxbuf := t.rxbuf, work := t.work }
        ∧ t.byteAt (.rx 0) = x ∧ ∀ l, l ≠ .rx 0 → t.byteAt l = s.byteAt l)
    ∧ ∀ x n : Byte, s.carries s.time (symbolsRuns s.cfg.val [x, n]) → x = s.cfg.val.ownAddr ∨ x = 124 →
      ¬ (3 + s.cfg.val.encEn.toNat ≤ n.toNat ∧ n.toNat < s.cfg.val.maxFrameLen) →
      ∃ t, exec (.receiveFrame a b) s = .next t
        ∧ t = { s.after (.receiveFrame a b) (2 * tByte s.cfg.val) 4 with
            lineOe := false, trace := pushRun ⟨false, s.lineO⟩ (2 * tByte s.cfg.val) s.trace
            rxbuf := t.rxbuf, work := t.work }
        ∧ t.byteAt (.rx 0) = x ∧ t.byteAt (.rx 1) = n ∧ ∀ l, l ≠ .rx 0 → l ≠ .rx 1 → t.byteAt l = s.byteAt l

/-- A frame for this node that breaks off after the symbols `read` (none of them, its address alone, or its address, a legal length
byte and fewer bytes than it says): the next symbol fails (R145: a LOW tick, or a HIGH gap window after the sync pulse), and the
outcome is `Fail` (code 4) when it has (R180 check 1, R291). The bytes read stand in `RXBUF`; no event, no answer. -/
def Obligations.ReceiveFrameCutOff : Prop :=
  ∀ (s : State) (a b : Byte) (read : List Byte) (how : SymbolFail), s.ready = true →
    (∀ x ∈ read[0]?, x = s.cfg.val.ownAddr ∨ x = 124) →
    (∀ n ∈ read[1]?,
      3 + s.cfg.val.encEn.toNat ≤ n.toNat ∧ n.toNat < s.cfg.val.maxFrameLen ∧ read.length < n.toNat) →
    how.legal s.cfg.val → s.carries s.time (symbolsRuns s.cfg.val read ++ how.runs s.cfg.val) →
    let ticks := read.length * tByte s.cfg.val + how.ticks s.cfg.val
    ∃ t, exec (.receiveFrame a b) s = .next t
      ∧ t = { s.after (.receiveFrame a b) ticks 4 with
          lineOe := false, trace := pushRun ⟨false, s.lineO⟩ ticks s.trace, rxbuf := t.rxbuf, work := t.work }
      ∧ (∀ i, i < read.length → some (t.byteAt (.rx i)) = read[i]?)
      ∧ ∀ l, (∀ i, i < read.length → l ≠ .rx i) → t.byteAt l = s.byteAt l

/-- A complete frame for this node whose exclusive-or is not 0 (R186, R184): outcome `Nak` (code 3), no event; the bytes stand in
`RXBUF` as received; the symbol of 21 is sent unless the frame was a broadcast or the link is simplex. -/
def Obligations.ReceiveFrameNak : Prop :=
  ∀ (s : State) (a b x n : Byte) (xs : List Byte), s.ready = true →
    x = s.cfg.val.ownAddr ∨ x = 124 → 3 + s.cfg.val.encEn.toNat ≤ n.toNat → n.toNat < s.cfg.val.maxFrameLen →
    2 + xs.length = n.toNat → s.carries s.time (symbolsRuns s.cfg.val (x :: n :: xs)) → xorAll (x :: n :: xs) ≠ 0 →
    ∃ t, exec (.receiveFrame a b) s = .next t
      ∧ (x ≠ 124 → s.cfg.val.simplex = false →
          t = { s.after (.receiveFrame a b) ((n.toNat + 1) * tByte s.cfg.val) 3 with
            lineOe := true, lineO := false
            trace := driveRuns (symbolRuns s.cfg.val 21) (pushRun ⟨false, s.lineO⟩ (n.toNat * tByte s.cfg.val) s.trace)
            rxbuf := t.rxbuf, work := t.work })
      ∧ (x = 124 ∨ s.cfg.val.simplex = true →
          t = { s.after (.receiveFrame a b) (n.toNat * tByte s.cfg.val) 3 with
            lineOe := false, trace := pushRun ⟨false, s.lineO⟩ (n.toNat * tByte s.cfg.val) s.trace
            rxbuf := t.rxbuf, work := t.work })
      ∧ (∀ i, i < n.toNat → some (t.byteAt (.rx i)) = (x :: n :: xs)[i]?)
      ∧ ∀ l, (∀ i, i < n.toNat → l ≠ .rx i) → t.byteAt l = s.byteAt l

/-- A valid frame for this node (R180, R183 to R185, R262): the payload, decoded when the cipher is on, stands in `RXBUF[2 ..]`
with the other bytes of the frame as received; the symbol of 6 is sent unless the frame was a broadcast or the link is
simplex; then `RX_LEN`, `RX_COUNT`, `RX_DONE` and the event, recorded with `t_cur` (R264); outcome `Ack` (code 2). The model's
choices: the fresh marks (log entry 8), and that the list of the events goes on over a reset (log entry 14). -/
def Obligations.ReceiveFrameAck : Prop :=
  ∀ (s : State) (a b x : Byte) (body : List Byte), s.ready = true →
    x = s.cfg.val.ownAddr ∨ x = 124 → s.cfg.val.encEn.toNat ≤ body.length → body.length + 3 < s.cfg.val.maxFrameLen →
    s.carries s.time (symbolsRuns s.cfg.val (frameBytes x body)) →
    let ticks := (body.length + 3) * tByte s.cfg.val
    let m := body.length - s.cfg.val.encEn.toNat
    ∃ t, exec (.receiveFrame a b) s = .next t
      ∧ (x ≠ 124 → s.cfg.val.simplex = false →
          t = { s.after (.receiveFrame a b) (ticks + tByte s.cfg.val) 2 with
            lineOe := true, lineO := false
            trace := driveRuns (symbolRuns s.cfg.val 6) (pushRun ⟨false, s.lineO⟩ ticks s.trace)
            rxLen := BitVec.ofNat 8 m, rxCount := s.rxCount + 1, rxDone := true, freshRx := true
            events := s.events ++ [(s.time + (ticks + tByte s.cfg.val) - s.released, .rxFrame (BitVec.ofNat 8 m))]
            rxbuf := t.rxbuf, sbox := t.sbox, work := t.work })
      ∧ (x = 124 ∨ s.cfg.val.simplex = true →
          t = { s.after (.receiveFrame a b) ticks 2 with
            lineOe := false, trace := pushRun ⟨false, s.lineO⟩ ticks s.trace
            rxLen := BitVec.ofNat 8 m, rxCount := s.rxCount + 1, rxDone := true, freshRx := true
            events := s.events ++ [(s.time + ticks - s.released, .rxFrame (BitVec.ofNat 8 m))]
            rxbuf := t.rxbuf, sbox := t.sbox, work := t.work })
      ∧ t.readBytes (fun i => .rx (2 + i)) m =
          (if s.cfg.val.encEn then (decodeBytes s.cfg.val true body).bytes else body)
      ∧ (∀ i, i < 2 ∨ (2 + m ≤ i ∧ i < body.length + 3) → some (t.byteAt (.rx i)) = (frameBytes x body)[i]?)
      ∧ (s.cfg.val.encEn = false → t.sbox = s.sbox)
      ∧ ∀ l, (∀ i, i < body.length + 3 → l ≠ .rx i) →
          (s.cfg.val.encEn = true → ∀ i, i < s.cfg.val.encStrength → l ≠ .sb i) → t.byteAt l = s.byteAt l

/-- From node to node (R188 a, R209): what one node's `SEND_FRAME` drives on a simplex link or as a broadcast, heard tick for tick
by another node of the same bit timing and the same cipher settings that the frame is for, whose buffer is large enough and
that enters `RECEIVE_FRAME` with its first tick, is received: outcome `Ack`, and `RXBUF[2 ..]` holds the sender's payload,
`RX_LEN` its length. -/
def Obligations.FrameRoundTrip : Prop :=
  ∀ (s t r : State) (dest len a b : Byte), s.ready = true → len.toNat ≤ maxPayload s.cfg.val → s.channelClear →
    (dest = 124 ∨ s.cfg.val.simplex = true) → exec (.sendFrame dest len) s = .next t →
    r.ready = true → (dest = r.cfg.val.ownAddr ∨ dest = 124) →
    r.cfg.val.bitWidth = s.cfg.val.bitWidth → r.cfg.val.bitSpacer = s.cfg.val.bitSpacer →
    r.cfg.val.encEn = s.cfg.val.encEn → r.cfg.val.encStrength = s.cfg.val.encStrength → r.cfg.val.key = s.cfg.val.key →
    r.cfg.val.whiten = s.cfg.val.whiten → len.toNat + 3 + s.cfg.val.encEn.toNat < r.cfg.val.maxFrameLen →
    (∀ j, j < (len.toNat + 3 + s.cfg.val.encEn.toNat) * tByte s.cfg.val →
      some (r.line.level (r.time + j)) = (t.pinsDuring (s.time + caTicks s.cfg.val + j)).map Pins.drives) →
    ∃ u, exec (.receiveFrame a b) r = .next u ∧ u.result = 2 ∧ u.rxLen = len ∧ u.rxCount = r.rxCount + 1
      ∧ u.rxDone = true ∧ u.readBytes (fun i => .rx (2 + i)) len.toNat = s.readBytes .tx len.toNat

/-- `RECEIVE_FRAME_T` without an `Ack` (R187, R318, R319). On a line that stays LOW: with `ARG = d < 2^32 − 1` it is `Fail` (code
4) after exactly `d + 1` ticks; with `ARG = 2^32 − 1` it never ends, which the model answers with its one fault (log entry 9,
the model's choice). On any line, whatever the host does: the time is tested between invocations of `receiveFrame()` only; the
first that ends later than `d` ticks after the start is the last, and its outcome is the result. On a line that it meets with a
sequence of the attempts that `Attempt` lists (asking that the elapsed time does not wrap): the whole next state; an earlier `Nak`
or `Busy` is overwritten, every bad frame for this node is answered, and every symbol read stands in `RXBUF`. -/
def Obligations.ReceiveFrameTIdle : Prop :=
  (∀ (s : State) (a b : Byte), s.ready = true →
    (s.arg.toNat < 2 ^ 32 - 1 → s.quietLine s.time (s.arg.toNat + 1) →
      ∃ w, exec (.receiveFrameT a b) s = .next { s.after (.receiveFrameT a b) (s.arg.toNat + 1) 4 with
        lineOe := false, trace := pushRun ⟨false, s.lineO⟩ (s.arg.toNat + 1) s.trace, work := w })
    ∧ (s.arg.toNat = 2 ^ 32 - 1 → (∀ τ, s.time ≤ τ → s.line.level τ = false) →
      exec (.receiveFrameT a b) s = .fault .neverEnds)
    ∧ ∀ (as : List Attempt) (last : Attempt),
        let ticks := attemptsTicks s.cfg.val as + last.ticks s.cfg.val
        let pins := attemptsPins s.cfg.val (as ++ [last]) (⟨s.lineOe, s.lineO⟩, s.trace)
        s.meets s.time (as ++ [last]) → attemptsTicks s.cfg.val as ≤ s.arg.toNat → s.arg.toNat < ticks → ticks < 2 ^ 32 →
        ∃ w, exec (.receiveFrameT a b) s = .next { s.after (.receiveFrameT a b) ticks last.code with
          lineOe := pins.1.oe, lineO := pins.1.o, trace := pins.2, rxbuf := attemptsBytes (as ++ [last]) s.rxbuf, work := w })
  ∧ ∀ (s : State) (a b : Byte) (n : Nat) (u : Nat → State) (o : Nat → TxOutcome),
      s.busy = false → n < 2 ^ 32 → s.invokes (.receiveFrameT a b) n u o →
      o n ≠ .ack → s.arg.toNat < (u (n + 1)).elapsed s.now →
      exec (.receiveFrameT a b) s = .next { u (n + 1) with
        result := (match o n with | .nak => 3 | .fail => 4 | _ => 5), busy := false, done := true, freshDone := true }

/-- `RECEIVE_FRAME_T` with an `Ack` (R187, R183 to R185, R262). On any line, whatever the host does: the first invocation of
`receiveFrame()` that yields `Ack`, if none before it ended later than `ARG` ticks after the start, is the last, and the result
is 2. After any sequence of the attempts that `Attempt` lists that take no longer than `ARG` ticks together (with none, at once), a
valid frame for this node ends it, with what `RECEIVE_FRAME` leaves of such a frame: the decoded payload in `RXBUF[2 ..]`, the
symbol of 6 sent unless the frame was a broadcast or the link is simplex, `RX_LEN`, `RX_COUNT`, `RX_DONE`, the event, recorded
with `t_cur` (R264). When the first invocation is an `Ack`, the state is the one `RECEIVE_FRAME` leaves, but for the working
registers. The model's choices: the fresh marks (log entry 8), and that the list of the events goes on over a reset (log entry
14). -/
def Obligations.ReceiveFrameTAck : Prop :=
  (∀ (s : State) (a b : Byte), s.ready = true →
    (∀ t, exec (.receiveFrame a b) s = .next t → t.result = 2 →
      ∃ w, exec (.receiveFrameT a b) s = .next { t with work := w })
    ∧ ∀ (as : List Attempt) (x : Byte) (body : List Byte),
        s.meets s.time as → attemptsTicks s.cfg.val as ≤ s.arg.toNat →
        x = s.cfg.val.ownAddr ∨ x = 124 → s.cfg.val.encEn.toNat ≤ body.length → body.length + 3 < s.cfg.val.maxFrameLen →
        s.carries (s.time + attemptsTicks s.cfg.val as) (symbolsRuns s.cfg.val (frameBytes x body)) →
        let ticks := attemptsTicks s.cfg.val as
          + ((body.length + 3) * tByte s.cfg.val + if x ≠ 124 ∧ s.cfg.val.simplex = false then tByte s.cfg.val else 0)
        let m := body.length - s.cfg.val.encEn.toNat
        let pins := attemptsPins s.cfg.val as (⟨s.lineOe, s.lineO⟩, s.trace)
        let read := pushRun ⟨false, pins.1.o⟩ ((body.length + 3) * tByte s.cfg.val) pins.2
        ∃ t u : State, exec (.receiveFrameT a b) s = .next t
          ∧ u = { s.after (.receiveFrameT a b) ticks 2 with
              rxLen := BitVec.ofNat 8 m, rxCount := s.rxCount + 1, rxDone := true, freshRx := true
              events := s.events ++ [(s.time + ticks - s.released, .rxFrame (BitVec.ofNat 8 m))]
              rxbuf := t.rxbuf, sbox := t.sbox, work := t.work }
          ∧ (x ≠ 124 → s.cfg.val.simplex = false →
              t = { u with lineOe := true, lineO := false, trace := driveRuns (symbolRuns s.cfg.val 6) read })
          ∧ (x = 124 ∨ s.cfg.val.simplex = true → t = { u with lineOe := false, lineO := pins.1.o, trace := read })
          ∧ t.readBytes (fun i => .rx (2 + i)) m =
              (if s.cfg.val.encEn then (decodeBytes s.cfg.val true body).bytes else body)
          ∧ (∀ i, i < 2 ∨ (2 + m ≤ i ∧ i < body.length + 3) → some (t.byteAt (.rx i)) = (frameBytes x body)[i]?)
          ∧ (s.cfg.val.encEn = false → t.sbox = s.sbox)
          ∧ ∀ l, (∀ i, i < body.length + 3 → l ≠ .rx i) →
              (s.cfg.val.encEn = true → ∀ i, i < s.cfg.val.encStrength → l ≠ .sb i) →
              t.byteAt l = ({ s with rxbuf := attemptsBytes as s.rxbuf } : State).byteAt l)
  ∧ ∀ (s : State) (a b : Byte) (n : Nat) (u : Nat → State) (o : Nat → TxOutcome),
      s.busy = false → n < 2 ^ 32 → s.invokes (.receiveFrameT a b) n u o → o n = .ack →
      exec (.receiveFrameT a b) s = .next { u (n + 1) with result := 2, busy := false, done := true, freshDone := true }

/-! ### The cipher -/

/-- The key schedule and the keystream only permute the table (R202): at every time it is a permutation of 0 to `N − 1`. -/
def Obligations.TableIsPermutation : Prop :=
  ∀ (N : Nat) (key : List Byte) (rounds : Nat), 1 ≤ N → N ≤ 256 →
    List.Perm ((Keystream.next N)^[rounds] (Keystream.start N key)).table ((List.range N).map (BitVec.ofNat 8))

/-- The keystream XOR (R203): byte `k` is XORed with keystream byte `k`, which depends on the key and on `k` only; done twice it
restores the bytes. -/
def Obligations.KeystreamXor : Prop :=
  ∀ (c : Config) (bs : List Byte),
    (∀ k, k < bs.length → (xorStream c.encStrength (Keystream.start c.encStrength c.key) bs).1[k]?
        = some (bs.getD k 0 ^^^ keystreamByte c k))
    ∧ (xorStream c.encStrength (Keystream.start c.encStrength c.key)
        (xorStream c.encStrength (Keystream.start c.encStrength c.key) bs).1).1 = bs

/-- `CRYPT`, encoding side (R201, R204, R205): every byte of `TXBUF[0 .. n − 1]` is whitened with the last one (with an IV and
`WHITEN`, the last excepted), XORed with the keystream and, with an IV, with the IV byte, which is the first unused candidate
over the bytes before that XOR and is stored at `TXBUF[n]`. No tick passes; only `TXBUF` and `SBOX` are written. -/
def Obligations.CryptEncode : Prop :=
  ∀ (s : State) (ivf : Bool) (len : Byte), s.busy = false → (ivf = true → len.toNat ≤ 253) →
    let n := len.toNat
    let stream := fun j => (if ivf = true ∧ s.cfg.val.whiten = true ∧ j + 1 < n then s.byteAt (.tx j) ^^^ s.byteAt (.tx (n - 1))
      else s.byteAt (.tx j)) ^^^ keystreamByte s.cfg.val j
    ∃ t, exec (.crypt ivf false len) s = .next t
      ∧ t = { s.after (.crypt ivf false len) 0 (BitVec.ofNat 32 (n + ivf.toNat)) with
          txbuf := t.txbuf, sbox := t.sbox, work := t.work }
      ∧ (ivf = false → ∀ j, j < n → t.byteAt (.tx j) = stream j)
      ∧ (ivf = true → firstUnused s.now ((List.range n).map stream) (t.byteAt (.tx n))
          ∧ ∀ j, j < n → t.byteAt (.tx j) = stream j ^^^ t.byteAt (.tx n))
      ∧ ∀ l, (∀ j, j < n + ivf.toNat → l ≠ .tx j) → (∀ j, j < s.cfg.val.encStrength → l ≠ .sb j) → t.byteAt l = s.byteAt l

/-- `CRYPT`, decoding side (R201, R204): with an IV the last of the `n` bytes is it and stays where it is; the bytes before it are
XORed with it, XORed with the keystream and, with `WHITEN`, un-whitened with the last of them. -/
def Obligations.CryptDecode : Prop :=
  ∀ (s : State) (ivf : Bool) (len : Byte), s.busy = false → (ivf = true → 1 ≤ len.toNat) →
    let m := len.toNat - ivf.toNat
    let stream := fun j => s.byteAt (.tx j) ^^^ (if ivf = true then s.byteAt (.tx m) else 0) ^^^ keystreamByte s.cfg.val j
    ∃ t, exec (.crypt ivf true len) s = .next t
      ∧ t = { s.after (.crypt ivf true len) 0 (BitVec.ofNat 32 m) with txbuf := t.txbuf, sbox := t.sbox, work := t.work }
      ∧ (∀ j, j < m → t.byteAt (.tx j) =
          if ivf = true ∧ s.cfg.val.whiten = true ∧ j + 1 < m then stream j ^^^ stream (m - 1) else stream j)
      ∧ ∀ l, (∀ j, j < m → l ≠ .tx j) → (∀ j, j < s.cfg.val.encStrength → l ≠ .sb j) → t.byteAt l = s.byteAt l

/-- The cipher's round trip (R209), by the commands: encode with an IV, then decode the longer buffer with an IV, restores every
byte of the message, for every message of at most 253 bytes; without an IV, either side done after either side restores it. -/
def Obligations.CipherRoundTrip : Prop :=
  ∀ (s t : State) (len : Byte), s.busy = false →
    (len.toNat ≤ 253 → exec (.crypt true false len) s = .next t →
      ∃ u, exec (.crypt true true (len + 1)) t = .next u ∧ t.result.toNat = len.toNat + 1 ∧ u.result.toNat = len.toNat
        ∧ ∀ j, j < len.toNat → u.byteAt (.tx j) = s.byteAt (.tx j))
    ∧ ∀ side side' : Bool, exec (.crypt false side len) s = .next t →
      ∃ u, exec (.crypt false side' len) t = .next u ∧ ∀ j, u.byteAt (.tx j) = s.byteAt (.tx j)

/-- `GEN_IV` (R207): the first unused candidate over `TXBUF[0 .. n − 1]`, in 1 to 254; nothing is written but `RESULT`. -/
def Obligations.GenIv : Prop :=
  ∀ (s : State) (a len : Byte), s.busy = false → len.toNat ≤ 253 →
    ∃ (c : Byte) (w : Work), exec (.genIv a len) s = .next { s.after (.genIv a len) 0 (c.setWidth 32) with work := w }
      ∧ firstUnused s.now (s.readBytes .tx len.toNat) c ∧ 1 ≤ c.toNat ∧ c.toNat ≤ 254

/-! ### The queue -/

/-- `ENQUEUE` into a queue with room (R221, R223, R224): the free slot of least index takes the destination, the length, the
interval, the state `PendingSend` and, with an interval, the present time; the payload bytes are copied; `RESULT` is the index;
no tick passes and nothing else changes. -/
def Obligations.Enqueue : Prop :=
  ∀ (s : State) (dest len : Byte) (k : Nat), s.busy = false → len.toNat ≤ maxPayload s.cfg.val →
    s.slots.length = s.cfg.val.maxPackets → k < s.slots.length → (s.slot k).state = .empty →
    (∀ j, j < k → (s.slot j).state ≠ .empty) →
    ∃ t, exec (.enqueue dest len) s = .next t
      ∧ t = { s.after (.enqueue dest len) 0 (BitVec.ofNat 32 k) with slots := t.slots }
      ∧ t.slots.length = s.slots.length ∧ (∀ j, j ≠ k → t.slot j = s.slot j)
      ∧ t.slot k = { s.slot k with
          state := .pendingSend, destination := dest, length := len, repeatInterval := s.arg
          registeredAt := if s.arg = 0 then (s.slot k).registeredAt else s.now, payload := (t.slot k).payload }
      ∧ (∀ j, j < len.toNat → t.byteAt (.pay k j) = s.byteAt (.tx j))
      ∧ ∀ l, (∀ j, j < len.toNat → l ≠ .pay k j) → t.byteAt l = s.byteAt l

/-- `ENQUEUE` that fails (R222, R223, R253): a payload longer than `MAX_PAYLOAD` reports `AllocationFailed` with the length,
whatever the queue; else a full queue reports `BufferExhausted` with the queue depth; nothing is queued. The pulse is recorded
with `t_cur` (R264), in a list that goes on over a reset (log entry 14, the model's choice); the fresh marks are the model's (log
entry 8). -/
def Obligations.EnqueueFails : Prop :=
  ∀ (s : State) (dest len : Byte), s.busy = false →
    (maxPayload s.cfg.val < len.toNat →
      exec (.enqueue dest len) s = .next { s.after (.enqueue dest len) 0 0x103 with
        errKind := 3, errCtx := len, errCount := s.errCount + 1, err := true, freshErr := true
        events := s.events ++ [(s.time - s.released, .error .allocationFailed len)] })
    ∧ (len.toNat ≤ maxPayload s.cfg.val → (∀ q ∈ s.slots, q.state ≠ .empty) →
      exec (.enqueue dest len) s = .next { s.after (.enqueue dest len) 0 0x102 with
        errKind := 2, errCtx := BitVec.ofNat 8 s.cfg.val.maxPackets, errCount := s.errCount + 1, err := true
        freshErr := true
        events := s.events ++ [(s.time - s.released, .error .bufferExhausted (BitVec.ofNat 8 s.cfg.val.maxPackets))] })

/-- `REMOVE` (R235): every field of the slot is at its reset value, whatever its state was; the other slots and every byte of
storage are as they were (the payload bytes too). -/
def Obligations.Remove : Prop :=
  ∀ (s : State) (k b : Byte), s.busy = false → k.toNat < s.cfg.val.maxPackets →
    s.slots.length = s.cfg.val.maxPackets →
    ∃ t, exec (.remove k b) s = .next t
      ∧ t = { s.after (.remove k b) 0 0 with slots := t.slots }
      ∧ t.slots.length = s.slots.length ∧ (∀ j, j ≠ k.toNat → t.slot j = s.slot j)
      ∧ t.slot k.toNat =
          { state := .empty, destination := 0, length := 0, attempts := 0, registeredAt := 0, repeatInterval := 0
            payload := (s.slot k.toNat).payload }
      ∧ ∀ l, t.byteAt l = s.byteAt l

/-- The due test (R227): strict, wrap-safe, the right-hand side exact, and below `2^33` for the attempts a slot can reach; an entry
with `repeatInterval + attempts² ≥ 2^32 − 1` is never due. -/
def Obligations.DueTest : Prop :=
  ∀ (s : State) (q : Slot),
    (s.due q = true ↔
      q.repeatInterval.toNat + q.attempts.toNat ^ 2 < (s.now.toNat + 2 ^ 32 - q.registeredAt.toNat) % 2 ^ 32)
    ∧ (2 ^ 32 - 1 ≤ q.repeatInterval.toNat + q.attempts.toNat ^ 2 → s.due q = false)
    ∧ (q.attempts.toNat ≤ 254 → q.repeatInterval.toNat + q.attempts.toNat ^ 2 < 2 ^ 33)

/-- What `TICK` makes of an entry's slot for each outcome of its `sendFrame` (R229, R231 to R233, R241), at the time the
`sendFrame` returned; `ConnectionLost` is reported exactly when the attempts are exhausted. -/
def Obligations.OutcomeTable : Prop :=
  ∀ (s : State) (k : Nat), k < s.slots.length → (s.slot k).attempts.toNat < 255 →
    let q := s.slot k
    let freed : Slot :=
      { state := .empty, destination := 0, length := 0, attempts := 0, registeredAt := 0, repeatInterval := 0
        payload := q.payload }
    let rearmed : Slot := { q with state := .pendingSend, attempts := 0, registeredAt := s.now }
    recordOutcome k .ack s = .ok ((), s.setSlot k (if q.repeatInterval = 0 then freed else rearmed))
    ∧ recordOutcome k .nak s = .ok ((), s.setSlot k { q with state := .rejected })
    ∧ recordOutcome k .busy s = .ok ((), s.setSlot k { q with state := .busy })
    ∧ (q.attempts.toNat + 1 ≤ s.cfg.val.maxAttempts →
        recordOutcome k .fail s = .ok ((), s.setSlot k { q with state := .failed, attempts := q.attempts + 1 }))
    ∧ (s.cfg.val.maxAttempts < q.attempts.toNat + 1 →
        recordOutcome k .fail s = .ok ((), (s.setSlot k (if q.repeatInterval = 0 then freed else rearmed)).errorEvent
          .connectionLost q.destination))

/-- `TICK` with no due entry (R226): `RESULT = 0`, no tick passes, nothing changes. -/
def Obligations.TickNothingDue : Prop :=
  ∀ (s : State) (a b : Byte), s.busy = false →
    (∀ k, k < s.cfg.val.maxPackets → (s.slot k).state = .empty ∨ s.due (s.slot k) = false) →
    ∃ w, exec (.tick a b) s = .next { s.after (.tick a b) 0 0 with work := w }

/-- `TICK` whatever the queue holds (R226): the slots are visited in ascending index, each once, `u k` being the state in which
slot `k` is visited; a slot is sent when it is live and due by the clock as it stands at the visit, and left alone otherwise;
the outcome of the send is handled in the slot (`OutcomeTable`) before the next visit; `RESULT` is the number of sends. -/
def Obligations.TickScan : Prop :=
  ∀ (s : State) (a b : Byte), s.ready = true →
    ∃ (u : Nat → State) (w : Work),
      let sends := fun k => decide (((u k).slot k).state ≠ .empty) && (u k).due ((u k).slot k)
      exec (.tick a b) s = .next { u s.cfg.val.maxPackets with
        result := BitVec.ofNat 32 ((List.range s.cfg.val.maxPackets).filter sends).length
        busy := false, done := true, freshDone := true, work := w }
      ∧ u 0 = { s with regA := a, regB := b, busy := true, done := false, work := (u 0).work }
      ∧ ∀ k, k < s.cfg.val.maxPackets →
          (sends k = false → ∃ w, u (k + 1) = { u k with work := w })
          ∧ (sends k = true → ∃ (o : TxOutcome) (v : State) (w w' : Work),
              sendFrame ((u k).slot k).destination (.pay k) ((u k).slot k).length.toNat { u k with work := w } = .ok (o, v)
              ∧ recordOutcome k o { v with work := w' } = .ok ((), u (k + 1)))

/-- `TICK` with one due entry, sent on a clear channel without an answer to wait for (R226, R231); any other live entry is not
due when the scan visits it: the frame around the slot's payload is driven, `RESULT = 1`; a one-shot entry is freed, a
repeating one re-armed at the time of the end. -/
def Obligations.TickDelivers : Prop :=
  ∀ (s : State) (a b : Byte) (k : Nat), s.ready = true → s.slots.length = s.cfg.val.maxPackets → k < s.slots.length →
    s.channelClear →
    ((s.slot k).destination = 124 ∨ s.cfg.val.simplex = true) →
    let q := s.slot k
    let body := s.bodyFor (s.readBytes (.pay k) q.length.toNat)
    let frame := s.frameFor q.destination (s.readBytes (.pay k) q.length.toNat)
    let ticks := frameTicks s.cfg.val frame
    s.onlyDue k ticks →
    ∃ t, exec (.tick a b) s = .next t
      ∧ t = { s.after (.tick a b) ticks 1 with
          lineOe := true, lineO := false, trace := s.sentTrace frame
          slots := s.slots.set k (if q.repeatInterval = 0 then
              { state := .empty, destination := 0, length := 0, attempts := 0, registeredAt := 0, repeatInterval := 0
                payload := q.payload }
            else { q with state := .pendingSend, attempts := 0, registeredAt := s.now + BitVec.ofNat 32 ticks })
          fbuf := t.fbuf, sbox := t.sbox, work := t.work }
      ∧ s.storesBody t body

/-- `TICK` with one due entry, sent to a node that does not answer (R232, R241); any other live entry is not due when the scan
visits it: `attempts` grows; past the ceiling the loss is reported with the destination, and the entry is freed (one-shot) or
re-armed (repeating). The pulse is recorded with `t_cur` (R264), in a list that goes on over a reset (log entry 14, the model's
choice); the fresh marks are the model's (log entry 8). -/
def Obligations.TickFails : Prop :=
  ∀ (s : State) (a b : Byte) (k : Nat), s.ready = true → s.slots.length = s.cfg.val.maxPackets → k < s.slots.length →
    s.channelClear →
    (s.slot k).destination ≠ 124 → s.cfg.val.simplex = false → (s.slot k).attempts.toNat ≤ s.cfg.val.maxAttempts →
    let q := s.slot k
    let body := s.bodyFor (s.readBytes (.pay k) q.length.toNat)
    let frame := s.frameFor q.destination (s.readBytes (.pay k) q.length.toNat)
    let ticks := frameTicks s.cfg.val frame + (s.cfg.val.bitSpacer + s.cfg.val.bitWidth)
    s.onlyDue k ticks →
    s.quietLine (s.time + frameTicks s.cfg.val frame) (s.cfg.val.bitSpacer + s.cfg.val.bitWidth) →
    ∃ t u, exec (.tick a b) s = .next t
      ∧ u = { s.after (.tick a b) ticks 1 with
          lineOe := false, lineO := false
          trace := pushRun ⟨false, false⟩ (s.cfg.val.bitSpacer + s.cfg.val.bitWidth) (s.sentTrace frame)
          fbuf := t.fbuf, sbox := t.sbox, work := t.work }
      ∧ s.storesBody t body
      ∧ (q.attempts.toNat + 1 ≤ s.cfg.val.maxAttempts →
          t = { u with slots := s.slots.set k { q with state := .failed, attempts := q.attempts + 1 } })
      ∧ (s.cfg.val.maxAttempts < q.attempts.toNat + 1 →
          t = { u with
            slots := s.slots.set k (if q.repeatInterval = 0 then
                { state := .empty, destination := 0, length := 0, attempts := 0, registeredAt := 0, repeatInterval := 0
                  payload := q.payload }
              else { q with state := .pendingSend, attempts := 0, registeredAt := s.now + BitVec.ofNat 32 ticks })
            errKind := 1, errCtx := q.destination, errCount := s.errCount + 1, err := true, freshErr := true
            events := s.events ++ [(s.time + ticks - s.released, .error .connectionLost q.destination)] })

/-- `TICK` with one due entry (R233), any other live entry not being due when the scan visits it: on a busy channel its state
becomes `Busy` and nothing is driven; when the node answers 21 it becomes `Rejected`; `attempts` and `registeredAt` are as they
were. -/
def Obligations.TickLeavesArmed : Prop :=
  ∀ (s : State) (a b : Byte) (k : Nat), s.ready = true → s.slots.length = s.cfg.val.maxPackets → k < s.slots.length →
    let q := s.slot k
    let body := s.bodyFor (s.readBytes (.pay k) q.length.toNat)
    let frame := s.frameFor q.destination (s.readBytes (.pay k) q.length.toNat)
    (¬ s.channelClear → s.onlyDue k (s.cfg.val.flushUs + 8 * s.cfg.val.bitWidth) →
      ∃ w, exec (.tick a b) s = .next { s.after (.tick a b) (s.cfg.val.flushUs + 8 * s.cfg.val.bitWidth) 1 with
        lineOe := false, lineO := false
        trace := pushRun ⟨false, false⟩ (s.cfg.val.flushUs + 8 * s.cfg.val.bitWidth) s.trace
        slots := s.slots.set k { q with state := .busy }, work := w })
    ∧ (s.channelClear → q.destination ≠ 124 → s.cfg.val.simplex = false →
      s.onlyDue k (frameTicks s.cfg.val frame + tByte s.cfg.val) →
      s.carries (s.time + frameTicks s.cfg.val frame) (symbolRuns s.cfg.val 21) →
      ∃ t, exec (.tick a b) s = .next t
        ∧ t = { s.after (.tick a b) (frameTicks s.cfg.val frame + tByte s.cfg.val) 1 with
            lineOe := false, lineO := false
            trace := pushRun ⟨false, false⟩ (tByte s.cfg.val) (s.sentTrace frame)
            slots := s.slots.set k { q with state := .rejected }
            fbuf := t.fbuf, sbox := t.sbox, work := t.work }
        ∧ s.storesBody t body)
end

