-- ==== Sys2Proof/Laws/State.lean ====
section
/-! SUPPORT. One lemma per field of the state and update of it, each true by definition, so that no later proof unfolds a
record update; and the normal form of nested updates. -/

namespace Sys2Proof.Machine

/-! ### `withWork` -/

@[simp] theorem State.withWork_cfg (f : Work → Work) (s : State) : (s.withWork f).cfg = s.cfg := rfl
@[simp] theorem State.withWork_regA (f : Work → Work) (s : State) : (s.withWork f).regA = s.regA := rfl
@[simp] theorem State.withWork_regB (f : Work → Work) (s : State) : (s.withWork f).regB = s.regB := rfl
@[simp] theorem State.withWork_arg (f : Work → Work) (s : State) : (s.withWork f).arg = s.arg := rfl
@[simp] theorem State.withWork_result (f : Work → Work) (s : State) : (s.withWork f).result = s.result := rfl
@[simp] theorem State.withWork_busy (f : Work → Work) (s : State) : (s.withWork f).busy = s.busy := rfl
@[simp] theorem State.withWork_done (f : Work → Work) (s : State) : (s.withWork f).done = s.done := rfl
@[simp] theorem State.withWork_rxDone (f : Work → Work) (s : State) : (s.withWork f).rxDone = s.rxDone := rfl
@[simp] theorem State.withWork_err (f : Work → Work) (s : State) : (s.withWork f).err = s.err := rfl
@[simp] theorem State.withWork_cmdErr (f : Work → Work) (s : State) : (s.withWork f).cmdErr = s.cmdErr := rfl
@[simp] theorem State.withWork_rxLen (f : Work → Work) (s : State) : (s.withWork f).rxLen = s.rxLen := rfl
@[simp] theorem State.withWork_rxCount (f : Work → Work) (s : State) : (s.withWork f).rxCount = s.rxCount := rfl
@[simp] theorem State.withWork_errKind (f : Work → Work) (s : State) : (s.withWork f).errKind = s.errKind := rfl
@[simp] theorem State.withWork_errCtx (f : Work → Work) (s : State) : (s.withWork f).errCtx = s.errCtx := rfl
@[simp] theorem State.withWork_errCount (f : Work → Work) (s : State) : (s.withWork f).errCount = s.errCount := rfl
@[simp] theorem State.withWork_slots (f : Work → Work) (s : State) : (s.withWork f).slots = s.slots := rfl
@[simp] theorem State.withWork_sbox (f : Work → Work) (s : State) : (s.withWork f).sbox = s.sbox := rfl
@[simp] theorem State.withWork_txbuf (f : Work → Work) (s : State) : (s.withWork f).txbuf = s.txbuf := rfl
@[simp] theorem State.withWork_rxbuf (f : Work → Work) (s : State) : (s.withWork f).rxbuf = s.rxbuf := rfl
@[simp] theorem State.withWork_fbuf (f : Work → Work) (s : State) : (s.withWork f).fbuf = s.fbuf := rfl
@[simp] theorem State.withWork_lineO (f : Work → Work) (s : State) : (s.withWork f).lineO = s.lineO := rfl
@[simp] theorem State.withWork_lineOe (f : Work → Work) (s : State) : (s.withWork f).lineOe = s.lineOe := rfl
@[simp] theorem State.withWork_work (f : Work → Work) (s : State) : (s.withWork f).work = f s.work := rfl
@[simp] theorem State.withWork_clock0 (f : Work → Work) (s : State) : (s.withWork f).clock0 = s.clock0 := rfl
@[simp] theorem State.withWork_time (f : Work → Work) (s : State) : (s.withWork f).time = s.time := rfl
@[simp] theorem State.withWork_released (f : Work → Work) (s : State) : (s.withWork f).released = s.released := rfl
@[simp] theorem State.withWork_resets (f : Work → Work) (s : State) : (s.withWork f).resets = s.resets := rfl
@[simp] theorem State.withWork_line (f : Work → Work) (s : State) : (s.withWork f).line = s.line := rfl
@[simp] theorem State.withWork_hearsSelf (f : Work → Work) (s : State) : (s.withWork f).hearsSelf = s.hearsSelf := rfl
@[simp] theorem State.withWork_host (f : Work → Work) (s : State) : (s.withWork f).host = s.host := rfl
@[simp] theorem State.withWork_freshDone (f : Work → Work) (s : State) : (s.withWork f).freshDone = s.freshDone := rfl
@[simp] theorem State.withWork_freshRx (f : Work → Work) (s : State) : (s.withWork f).freshRx = s.freshRx := rfl
@[simp] theorem State.withWork_freshErr (f : Work → Work) (s : State) : (s.withWork f).freshErr = s.freshErr := rfl
@[simp] theorem State.withWork_freshCmd (f : Work → Work) (s : State) : (s.withWork f).freshCmd = s.freshCmd := rfl
@[simp] theorem State.withWork_trace (f : Work → Work) (s : State) : (s.withWork f).trace = s.trace := rfl
@[simp] theorem State.withWork_events (f : Work → Work) (s : State) : (s.withWork f).events = s.events := rfl
@[simp] theorem State.withWork_reads (f : Work → Work) (s : State) : (s.withWork f).reads = s.reads := rfl

/-! ### `withLineO` -/

@[simp] theorem State.withLineO_cfg (b : Bool) (s : State) : (s.withLineO b).cfg = s.cfg := rfl
@[simp] theorem State.withLineO_regA (b : Bool) (s : State) : (s.withLineO b).regA = s.regA := rfl
@[simp] theorem State.withLineO_regB (b : Bool) (s : State) : (s.withLineO b).regB = s.regB := rfl
@[simp] theorem State.withLineO_arg (b : Bool) (s : State) : (s.withLineO b).arg = s.arg := rfl
@[simp] theorem State.withLineO_result (b : Bool) (s : State) : (s.withLineO b).result = s.result := rfl
@[simp] theorem State.withLineO_busy (b : Bool) (s : State) : (s.withLineO b).busy = s.busy := rfl
@[simp] theorem State.withLineO_done (b : Bool) (s : State) : (s.withLineO b).done = s.done := rfl
@[simp] theorem State.withLineO_rxDone (b : Bool) (s : State) : (s.withLineO b).rxDone = s.rxDone := rfl
@[simp] theorem State.withLineO_err (b : Bool) (s : State) : (s.withLineO b).err = s.err := rfl
@[simp] theorem State.withLineO_cmdErr (b : Bool) (s : State) : (s.withLineO b).cmdErr = s.cmdErr := rfl
@[simp] theorem State.withLineO_rxLen (b : Bool) (s : State) : (s.withLineO b).rxLen = s.rxLen := rfl
@[simp] theorem State.withLineO_rxCount (b : Bool) (s : State) : (s.withLineO b).rxCount = s.rxCount := rfl
@[simp] theorem State.withLineO_errKind (b : Bool) (s : State) : (s.withLineO b).errKind = s.errKind := rfl
@[simp] theorem State.withLineO_errCtx (b : Bool) (s : State) : (s.withLineO b).errCtx = s.errCtx := rfl
@[simp] theorem State.withLineO_errCount (b : Bool) (s : State) : (s.withLineO b).errCount = s.errCount := rfl
@[simp] theorem State.withLineO_slots (b : Bool) (s : State) : (s.withLineO b).slots = s.slots := rfl
@[simp] theorem State.withLineO_sbox (b : Bool) (s : State) : (s.withLineO b).sbox = s.sbox := rfl
@[simp] theorem State.withLineO_txbuf (b : Bool) (s : State) : (s.withLineO b).txbuf = s.txbuf := rfl
@[simp] theorem State.withLineO_rxbuf (b : Bool) (s : State) : (s.withLineO b).rxbuf = s.rxbuf := rfl
@[simp] theorem State.withLineO_fbuf (b : Bool) (s : State) : (s.withLineO b).fbuf = s.fbuf := rfl
@[simp] theorem State.withLineO_lineO (b : Bool) (s : State) : (s.withLineO b).lineO = b := rfl
@[simp] theorem State.withLineO_lineOe (b : Bool) (s : State) : (s.withLineO b).lineOe = s.lineOe := rfl
@[simp] theorem State.withLineO_work (b : Bool) (s : State) : (s.withLineO b).work = s.work := rfl
@[simp] theorem State.withLineO_clock0 (b : Bool) (s : State) : (s.withLineO b).clock0 = s.clock0 := rfl
@[simp] theorem State.withLineO_time (b : Bool) (s : State) : (s.withLineO b).time = s.time := rfl
@[simp] theorem State.withLineO_released (b : Bool) (s : State) : (s.withLineO b).released = s.released := rfl
@[simp] theorem State.withLineO_resets (b : Bool) (s : State) : (s.withLineO b).resets = s.resets := rfl
@[simp] theorem State.withLineO_line (b : Bool) (s : State) : (s.withLineO b).line = s.line := rfl
@[simp] theorem State.withLineO_hearsSelf (b : Bool) (s : State) : (s.withLineO b).hearsSelf = s.hearsSelf := rfl
@[simp] theorem State.withLineO_host (b : Bool) (s : State) : (s.withLineO b).host = s.host := rfl
@[simp] theorem State.withLineO_freshDone (b : Bool) (s : State) : (s.withLineO b).freshDone = s.freshDone := rfl
@[simp] theorem State.withLineO_freshRx (b : Bool) (s : State) : (s.withLineO b).freshRx = s.freshRx := rfl
@[simp] theorem State.withLineO_freshErr (b : Bool) (s : State) : (s.withLineO b).freshErr = s.freshErr := rfl
@[simp] theorem State.withLineO_freshCmd (b : Bool) (s : State) : (s.withLineO b).freshCmd = s.freshCmd := rfl
@[simp] theorem State.withLineO_trace (b : Bool) (s : State) : (s.withLineO b).trace = s.trace := rfl
@[simp] theorem State.withLineO_events (b : Bool) (s : State) : (s.withLineO b).events = s.events := rfl
@[simp] theorem State.withLineO_reads (b : Bool) (s : State) : (s.withLineO b).reads = s.reads := rfl

/-! ### `withLineOe` -/

@[simp] theorem State.withLineOe_cfg (b : Bool) (s : State) : (s.withLineOe b).cfg = s.cfg := rfl
@[simp] theorem State.withLineOe_regA (b : Bool) (s : State) : (s.withLineOe b).regA = s.regA := rfl
@[simp] theorem State.withLineOe_regB (b : Bool) (s : State) : (s.withLineOe b).regB = s.regB := rfl
@[simp] theorem State.withLineOe_arg (b : Bool) (s : State) : (s.withLineOe b).arg = s.arg := rfl
@[simp] theorem State.withLineOe_result (b : Bool) (s : State) : (s.withLineOe b).result = s.result := rfl
@[simp] theorem State.withLineOe_busy (b : Bool) (s : State) : (s.withLineOe b).busy = s.busy := rfl
@[simp] theorem State.withLineOe_done (b : Bool) (s : State) : (s.withLineOe b).done = s.done := rfl
@[simp] theorem State.withLineOe_rxDone (b : Bool) (s : State) : (s.withLineOe b).rxDone = s.rxDone := rfl
@[simp] theorem State.withLineOe_err (b : Bool) (s : State) : (s.withLineOe b).err = s.err := rfl
@[simp] theorem State.withLineOe_cmdErr (b : Bool) (s : State) : (s.withLineOe b).cmdErr = s.cmdErr := rfl
@[simp] theorem State.withLineOe_rxLen (b : Bool) (s : State) : (s.withLineOe b).rxLen = s.rxLen := rfl
@[simp] theorem State.withLineOe_rxCount (b : Bool) (s : State) : (s.withLineOe b).rxCount = s.rxCount := rfl
@[simp] theorem State.withLineOe_errKind (b : Bool) (s : State) : (s.withLineOe b).errKind = s.errKind := rfl
@[simp] theorem State.withLineOe_errCtx (b : Bool) (s : State) : (s.withLineOe b).errCtx = s.errCtx := rfl
@[simp] theorem State.withLineOe_errCount (b : Bool) (s : State) : (s.withLineOe b).errCount = s.errCount := rfl
@[simp] theorem State.withLineOe_slots (b : Bool) (s : State) : (s.withLineOe b).slots = s.slots := rfl
@[simp] theorem State.withLineOe_sbox (b : Bool) (s : State) : (s.withLineOe b).sbox = s.sbox := rfl
@[simp] theorem State.withLineOe_txbuf (b : Bool) (s : State) : (s.withLineOe b).txbuf = s.txbuf := rfl
@[simp] theorem State.withLineOe_rxbuf (b : Bool) (s : State) : (s.withLineOe b).rxbuf = s.rxbuf := rfl
@[simp] theorem State.withLineOe_fbuf (b : Bool) (s : State) : (s.withLineOe b).fbuf = s.fbuf := rfl
@[simp] theorem State.withLineOe_lineO (b : Bool) (s : State) : (s.withLineOe b).lineO = s.lineO := rfl
@[simp] theorem State.withLineOe_lineOe (b : Bool) (s : State) : (s.withLineOe b).lineOe = b := rfl
@[simp] theorem State.withLineOe_work (b : Bool) (s : State) : (s.withLineOe b).work = s.work := rfl
@[simp] theorem State.withLineOe_clock0 (b : Bool) (s : State) : (s.withLineOe b).clock0 = s.clock0 := rfl
@[simp] theorem State.withLineOe_time (b : Bool) (s : State) : (s.withLineOe b).time = s.time := rfl
@[simp] theorem State.withLineOe_released (b : Bool) (s : State) : (s.withLineOe b).released = s.released := rfl
@[simp] theorem State.withLineOe_resets (b : Bool) (s : State) : (s.withLineOe b).resets = s.resets := rfl
@[simp] theorem State.withLineOe_line (b : Bool) (s : State) : (s.withLineOe b).line = s.line := rfl
@[simp] theorem State.withLineOe_hearsSelf (b : Bool) (s : State) : (s.withLineOe b).hearsSelf = s.hearsSelf := rfl
@[simp] theorem State.withLineOe_host (b : Bool) (s : State) : (s.withLineOe b).host = s.host := rfl
@[simp] theorem State.withLineOe_freshDone (b : Bool) (s : State) : (s.withLineOe b).freshDone = s.freshDone := rfl
@[simp] theorem State.withLineOe_freshRx (b : Bool) (s : State) : (s.withLineOe b).freshRx = s.freshRx := rfl
@[simp] theorem State.withLineOe_freshErr (b : Bool) (s : State) : (s.withLineOe b).freshErr = s.freshErr := rfl
@[simp] theorem State.withLineOe_freshCmd (b : Bool) (s : State) : (s.withLineOe b).freshCmd = s.freshCmd := rfl
@[simp] theorem State.withLineOe_trace (b : Bool) (s : State) : (s.withLineOe b).trace = s.trace := rfl
@[simp] theorem State.withLineOe_events (b : Bool) (s : State) : (s.withLineOe b).events = s.events := rfl
@[simp] theorem State.withLineOe_reads (b : Bool) (s : State) : (s.withLineOe b).reads = s.reads := rfl

/-! ### `withHost` -/

@[simp] theorem State.withHost_cfg (l : List HostAct) (s : State) : (s.withHost l).cfg = s.cfg := rfl
@[simp] theorem State.withHost_regA (l : List HostAct) (s : State) : (s.withHost l).regA = s.regA := rfl
@[simp] theorem State.withHost_regB (l : List HostAct) (s : State) : (s.withHost l).regB = s.regB := rfl
@[simp] theorem State.withHost_arg (l : List HostAct) (s : State) : (s.withHost l).arg = s.arg := rfl
@[simp] theorem State.withHost_result (l : List HostAct) (s : State) : (s.withHost l).result = s.result := rfl
@[simp] theorem State.withHost_busy (l : List HostAct) (s : State) : (s.withHost l).busy = s.busy := rfl
@[simp] theorem State.withHost_done (l : List HostAct) (s : State) : (s.withHost l).done = s.done := rfl
@[simp] theorem State.withHost_rxDone (l : List HostAct) (s : State) : (s.withHost l).rxDone = s.rxDone := rfl
@[simp] theorem State.withHost_err (l : List HostAct) (s : State) : (s.withHost l).err = s.err := rfl
@[simp] theorem State.withHost_cmdErr (l : List HostAct) (s : State) : (s.withHost l).cmdErr = s.cmdErr := rfl
@[simp] theorem State.withHost_rxLen (l : List HostAct) (s : State) : (s.withHost l).rxLen = s.rxLen := rfl
@[simp] theorem State.withHost_rxCount (l : List HostAct) (s : State) : (s.withHost l).rxCount = s.rxCount := rfl
@[simp] theorem State.withHost_errKind (l : List HostAct) (s : State) : (s.withHost l).errKind = s.errKind := rfl
@[simp] theorem State.withHost_errCtx (l : List HostAct) (s : State) : (s.withHost l).errCtx = s.errCtx := rfl
@[simp] theorem State.withHost_errCount (l : List HostAct) (s : State) : (s.withHost l).errCount = s.errCount := rfl
@[simp] theorem State.withHost_slots (l : List HostAct) (s : State) : (s.withHost l).slots = s.slots := rfl
@[simp] theorem State.withHost_sbox (l : List HostAct) (s : State) : (s.withHost l).sbox = s.sbox := rfl
@[simp] theorem State.withHost_txbuf (l : List HostAct) (s : State) : (s.withHost l).txbuf = s.txbuf := rfl
@[simp] theorem State.withHost_rxbuf (l : List HostAct) (s : State) : (s.withHost l).rxbuf = s.rxbuf := rfl
@[simp] theorem State.withHost_fbuf (l : List HostAct) (s : State) : (s.withHost l).fbuf = s.fbuf := rfl
@[simp] theorem State.withHost_lineO (l : List HostAct) (s : State) : (s.withHost l).lineO = s.lineO := rfl
@[simp] theorem State.withHost_lineOe (l : List HostAct) (s : State) : (s.withHost l).lineOe = s.lineOe := rfl
@[simp] theorem State.withHost_work (l : List HostAct) (s : State) : (s.withHost l).work = s.work := rfl
@[simp] theorem State.withHost_clock0 (l : List HostAct) (s : State) : (s.withHost l).clock0 = s.clock0 := rfl
@[simp] theorem State.withHost_time (l : List HostAct) (s : State) : (s.withHost l).time = s.time := rfl
@[simp] theorem State.withHost_released (l : List HostAct) (s : State) : (s.withHost l).released = s.released := rfl
@[simp] theorem State.withHost_resets (l : List HostAct) (s : State) : (s.withHost l).resets = s.resets := rfl
@[simp] theorem State.withHost_line (l : List HostAct) (s : State) : (s.withHost l).line = s.line := rfl
@[simp] theorem State.withHost_hearsSelf (l : List HostAct) (s : State) : (s.withHost l).hearsSelf = s.hearsSelf := rfl
@[simp] theorem State.withHost_host (l : List HostAct) (s : State) : (s.withHost l).host = l := rfl
@[simp] theorem State.withHost_freshDone (l : List HostAct) (s : State) : (s.withHost l).freshDone = s.freshDone := rfl
@[simp] theorem State.withHost_freshRx (l : List HostAct) (s : State) : (s.withHost l).freshRx = s.freshRx := rfl
@[simp] theorem State.withHost_freshErr (l : List HostAct) (s : State) : (s.withHost l).freshErr = s.freshErr := rfl
@[simp] theorem State.withHost_freshCmd (l : List HostAct) (s : State) : (s.withHost l).freshCmd = s.freshCmd := rfl
@[simp] theorem State.withHost_trace (l : List HostAct) (s : State) : (s.withHost l).trace = s.trace := rfl
@[simp] theorem State.withHost_events (l : List HostAct) (s : State) : (s.withHost l).events = s.events := rfl
@[simp] theorem State.withHost_reads (l : List HostAct) (s : State) : (s.withHost l).reads = s.reads := rfl

/-! ### `withArg` -/

@[simp] theorem State.withArg_cfg (v : Word) (s : State) : (s.withArg v).cfg = s.cfg := rfl
@[simp] theorem State.withArg_regA (v : Word) (s : State) : (s.withArg v).regA = s.regA := rfl
@[simp] theorem State.withArg_regB (v : Word) (s : State) : (s.withArg v).regB = s.regB := rfl
@[simp] theorem State.withArg_arg (v : Word) (s : State) : (s.withArg v).arg = v := rfl
@[simp] theorem State.withArg_result (v : Word) (s : State) : (s.withArg v).result = s.result := rfl
@[simp] theorem State.withArg_busy (v : Word) (s : State) : (s.withArg v).busy = s.busy := rfl
@[simp] theorem State.withArg_done (v : Word) (s : State) : (s.withArg v).done = s.done := rfl
@[simp] theorem State.withArg_rxDone (v : Word) (s : State) : (s.withArg v).rxDone = s.rxDone := rfl
@[simp] theorem State.withArg_err (v : Word) (s : State) : (s.withArg v).err = s.err := rfl
@[simp] theorem State.withArg_cmdErr (v : Word) (s : State) : (s.withArg v).cmdErr = s.cmdErr := rfl
@[simp] theorem State.withArg_rxLen (v : Word) (s : State) : (s.withArg v).rxLen = s.rxLen := rfl
@[simp] theorem State.withArg_rxCount (v : Word) (s : State) : (s.withArg v).rxCount = s.rxCount := rfl
@[simp] theorem State.withArg_errKind (v : Word) (s : State) : (s.withArg v).errKind = s.errKind := rfl
@[simp] theorem State.withArg_errCtx (v : Word) (s : State) : (s.withArg v).errCtx = s.errCtx := rfl
@[simp] theorem State.withArg_errCount (v : Word) (s : State) : (s.withArg v).errCount = s.errCount := rfl
@[simp] theorem State.withArg_slots (v : Word) (s : State) : (s.withArg v).slots = s.slots := rfl
@[simp] theorem State.withArg_sbox (v : Word) (s : State) : (s.withArg v).sbox = s.sbox := rfl
@[simp] theorem State.withArg_txbuf (v : Word) (s : State) : (s.withArg v).txbuf = s.txbuf := rfl
@[simp] theorem State.withArg_rxbuf (v : Word) (s : State) : (s.withArg v).rxbuf = s.rxbuf := rfl
@[simp] theorem State.withArg_fbuf (v : Word) (s : State) : (s.withArg v).fbuf = s.fbuf := rfl
@[simp] theorem State.withArg_lineO (v : Word) (s : State) : (s.withArg v).lineO = s.lineO := rfl
@[simp] theorem State.withArg_lineOe (v : Word) (s : State) : (s.withArg v).lineOe = s.lineOe := rfl
@[simp] theorem State.withArg_work (v : Word) (s : State) : (s.withArg v).work = s.work := rfl
@[simp] theorem State.withArg_clock0 (v : Word) (s : State) : (s.withArg v).clock0 = s.clock0 := rfl
@[simp] theorem State.withArg_time (v : Word) (s : State) : (s.withArg v).time = s.time := rfl
@[simp] theorem State.withArg_released (v : Word) (s : State) : (s.withArg v).released = s.released := rfl
@[simp] theorem State.withArg_resets (v : Word) (s : State) : (s.withArg v).resets = s.resets := rfl
@[simp] theorem State.withArg_line (v : Word) (s : State) : (s.withArg v).line = s.line := rfl
@[simp] theorem State.withArg_hearsSelf (v : Word) (s : State) : (s.withArg v).hearsSelf = s.hearsSelf := rfl
@[simp] theorem State.withArg_host (v : Word) (s : State) : (s.withArg v).host = s.host := rfl
@[simp] theorem State.withArg_freshDone (v : Word) (s : State) : (s.withArg v).freshDone = s.freshDone := rfl
@[simp] theorem State.withArg_freshRx (v : Word) (s : State) : (s.withArg v).freshRx = s.freshRx := rfl
@[simp] theorem State.withArg_freshErr (v : Word) (s : State) : (s.withArg v).freshErr = s.freshErr := rfl
@[simp] theorem State.withArg_freshCmd (v : Word) (s : State) : (s.withArg v).freshCmd = s.freshCmd := rfl
@[simp] theorem State.withArg_trace (v : Word) (s : State) : (s.withArg v).trace = s.trace := rfl
@[simp] theorem State.withArg_events (v : Word) (s : State) : (s.withArg v).events = s.events := rfl
@[simp] theorem State.withArg_reads (v : Word) (s : State) : (s.withArg v).reads = s.reads := rfl

/-! ### `pass` -/

@[simp] theorem State.pass_cfg (d : Nat) (s : State) : (s.pass d).cfg = s.cfg := rfl
@[simp] theorem State.pass_regA (d : Nat) (s : State) : (s.pass d).regA = s.regA := rfl
@[simp] theorem State.pass_regB (d : Nat) (s : State) : (s.pass d).regB = s.regB := rfl
@[simp] theorem State.pass_arg (d : Nat) (s : State) : (s.pass d).arg = s.arg := rfl
@[simp] theorem State.pass_result (d : Nat) (s : State) : (s.pass d).result = s.result := rfl
@[simp] theorem State.pass_busy (d : Nat) (s : State) : (s.pass d).busy = s.busy := rfl
@[simp] theorem State.pass_done (d : Nat) (s : State) : (s.pass d).done = s.done := rfl
@[simp] theorem State.pass_rxDone (d : Nat) (s : State) : (s.pass d).rxDone = s.rxDone := rfl
@[simp] theorem State.pass_err (d : Nat) (s : State) : (s.pass d).err = s.err := rfl
@[simp] theorem State.pass_cmdErr (d : Nat) (s : State) : (s.pass d).cmdErr = s.cmdErr := rfl
@[simp] theorem State.pass_rxLen (d : Nat) (s : State) : (s.pass d).rxLen = s.rxLen := rfl
@[simp] theorem State.pass_rxCount (d : Nat) (s : State) : (s.pass d).rxCount = s.rxCount := rfl
@[simp] theorem State.pass_errKind (d : Nat) (s : State) : (s.pass d).errKind = s.errKind := rfl
@[simp] theorem State.pass_errCtx (d : Nat) (s : State) : (s.pass d).errCtx = s.errCtx := rfl
@[simp] theorem State.pass_errCount (d : Nat) (s : State) : (s.pass d).errCount = s.errCount := rfl
@[simp] theorem State.pass_slots (d : Nat) (s : State) : (s.pass d).slots = s.slots := rfl
@[simp] theorem State.pass_sbox (d : Nat) (s : State) : (s.pass d).sbox = s.sbox := rfl
@[simp] theorem State.pass_txbuf (d : Nat) (s : State) : (s.pass d).txbuf = s.txbuf := rfl
@[simp] theorem State.pass_rxbuf (d : Nat) (s : State) : (s.pass d).rxbuf = s.rxbuf := rfl
@[simp] theorem State.pass_fbuf (d : Nat) (s : State) : (s.pass d).fbuf = s.fbuf := rfl
@[simp] theorem State.pass_lineO (d : Nat) (s : State) : (s.pass d).lineO = s.lineO := rfl
@[simp] theorem State.pass_lineOe (d : Nat) (s : State) : (s.pass d).lineOe = s.lineOe := rfl
@[simp] theorem State.pass_work (d : Nat) (s : State) : (s.pass d).work = s.work := rfl
@[simp] theorem State.pass_clock0 (d : Nat) (s : State) : (s.pass d).clock0 = s.clock0 := rfl
@[simp] theorem State.pass_time (d : Nat) (s : State) : (s.pass d).time = s.time + d := rfl
@[simp] theorem State.pass_released (d : Nat) (s : State) : (s.pass d).released = s.released := rfl
@[simp] theorem State.pass_resets (d : Nat) (s : State) : (s.pass d).resets = s.resets := rfl
@[simp] theorem State.pass_line (d : Nat) (s : State) : (s.pass d).line = s.line := rfl
@[simp] theorem State.pass_hearsSelf (d : Nat) (s : State) : (s.pass d).hearsSelf = s.hearsSelf := rfl
@[simp] theorem State.pass_host (d : Nat) (s : State) : (s.pass d).host = s.host := rfl
@[simp] theorem State.pass_freshDone (d : Nat) (s : State) : (s.pass d).freshDone = (s.freshDone && decide (d = 0)) := rfl
@[simp] theorem State.pass_freshRx (d : Nat) (s : State) : (s.pass d).freshRx = (s.freshRx && decide (d = 0)) := rfl
@[simp] theorem State.pass_freshErr (d : Nat) (s : State) : (s.pass d).freshErr = (s.freshErr && decide (d = 0)) := rfl
@[simp] theorem State.pass_freshCmd (d : Nat) (s : State) : (s.pass d).freshCmd = (s.freshCmd && decide (d = 0)) := rfl
@[simp] theorem State.pass_trace (d : Nat) (s : State) : (s.pass d).trace = pushRun s.pins d s.trace := rfl
@[simp] theorem State.pass_events (d : Nat) (s : State) : (s.pass d).events = s.events := rfl
@[simp] theorem State.pass_reads (d : Nat) (s : State) : (s.pass d).reads = s.reads := rfl

/-! ### `setSlot` -/

@[simp] theorem State.setSlot_cfg (k : Nat) (q : Slot) (s : State) : (s.setSlot k q).cfg = s.cfg := rfl
@[simp] theorem State.setSlot_regA (k : Nat) (q : Slot) (s : State) : (s.setSlot k q).regA = s.regA := rfl
@[simp] theorem State.setSlot_regB (k : Nat) (q : Slot) (s : State) : (s.setSlot k q).regB = s.regB := rfl
@[simp] theorem State.setSlot_arg (k : Nat) (q : Slot) (s : State) : (s.setSlot k q).arg = s.arg := rfl
@[simp] theorem State.setSlot_result (k : Nat) (q : Slot) (s : State) : (s.setSlot k q).result = s.result := rfl
@[simp] theorem State.setSlot_busy (k : Nat) (q : Slot) (s : State) : (s.setSlot k q).busy = s.busy := rfl
@[simp] theorem State.setSlot_done (k : Nat) (q : Slot) (s : State) : (s.setSlot k q).done = s.done := rfl
@[simp] theorem State.setSlot_rxDone (k : Nat) (q : Slot) (s : State) : (s.setSlot k q).rxDone = s.rxDone := rfl
@[simp] theorem State.setSlot_err (k : Nat) (q : Slot) (s : State) : (s.setSlot k q).err = s.err := rfl
@[simp] theorem State.setSlot_cmdErr (k : Nat) (q : Slot) (s : State) : (s.setSlot k q).cmdErr = s.cmdErr := rfl
@[simp] theorem State.setSlot_rxLen (k : Nat) (q : Slot) (s : State) : (s.setSlot k q).rxLen = s.rxLen := rfl
@[simp] theorem State.setSlot_rxCount (k : Nat) (q : Slot) (s : State) : (s.setSlot k q).rxCount = s.rxCount := rfl
@[simp] theorem State.setSlot_errKind (k : Nat) (q : Slot) (s : State) : (s.setSlot k q).errKind = s.errKind := rfl
@[simp] theorem State.setSlot_errCtx (k : Nat) (q : Slot) (s : State) : (s.setSlot k q).errCtx = s.errCtx := rfl
@[simp] theorem State.setSlot_errCount (k : Nat) (q : Slot) (s : State) : (s.setSlot k q).errCount = s.errCount := rfl
@[simp] theorem State.setSlot_slots (k : Nat) (q : Slot) (s : State) : (s.setSlot k q).slots = s.slots.set k q := rfl
@[simp] theorem State.setSlot_sbox (k : Nat) (q : Slot) (s : State) : (s.setSlot k q).sbox = s.sbox := rfl
@[simp] theorem State.setSlot_txbuf (k : Nat) (q : Slot) (s : State) : (s.setSlot k q).txbuf = s.txbuf := rfl
@[simp] theorem State.setSlot_rxbuf (k : Nat) (q : Slot) (s : State) : (s.setSlot k q).rxbuf = s.rxbuf := rfl
@[simp] theorem State.setSlot_fbuf (k : Nat) (q : Slot) (s : State) : (s.setSlot k q).fbuf = s.fbuf := rfl
@[simp] theorem State.setSlot_lineO (k : Nat) (q : Slot) (s : State) : (s.setSlot k q).lineO = s.lineO := rfl
@[simp] theorem State.setSlot_lineOe (k : Nat) (q : Slot) (s : State) : (s.setSlot k q).lineOe = s.lineOe := rfl
@[simp] theorem State.setSlot_work (k : Nat) (q : Slot) (s : State) : (s.setSlot k q).work = s.work := rfl
@[simp] theorem State.setSlot_clock0 (k : Nat) (q : Slot) (s : State) : (s.setSlot k q).clock0 = s.clock0 := rfl
@[simp] theorem State.setSlot_time (k : Nat) (q : Slot) (s : State) : (s.setSlot k q).time = s.time := rfl
@[simp] theorem State.setSlot_released (k : Nat) (q : Slot) (s : State) : (s.setSlot k q).released = s.released := rfl
@[simp] theorem State.setSlot_resets (k : Nat) (q : Slot) (s : State) : (s.setSlot k q).resets = s.resets := rfl
@[simp] theorem State.setSlot_line (k : Nat) (q : Slot) (s : State) : (s.setSlot k q).line = s.line := rfl
@[simp] theorem State.setSlot_hearsSelf (k : Nat) (q : Slot) (s : State) : (s.setSlot k q).hearsSelf = s.hearsSelf := rfl
@[simp] theorem State.setSlot_host (k : Nat) (q : Slot) (s : State) : (s.setSlot k q).host = s.host := rfl
@[simp] theorem State.setSlot_freshDone (k : Nat) (q : Slot) (s : State) : (s.setSlot k q).freshDone = s.freshDone := rfl
@[simp] theorem State.setSlot_freshRx (k : Nat) (q : Slot) (s : State) : (s.setSlot k q).freshRx = s.freshRx := rfl
@[simp] theorem State.setSlot_freshErr (k : Nat) (q : Slot) (s : State) : (s.setSlot k q).freshErr = s.freshErr := rfl
@[simp] theorem State.setSlot_freshCmd (k : Nat) (q : Slot) (s : State) : (s.setSlot k q).freshCmd = s.freshCmd := rfl
@[simp] theorem State.setSlot_trace (k : Nat) (q : Slot) (s : State) : (s.setSlot k q).trace = s.trace := rfl
@[simp] theorem State.setSlot_events (k : Nat) (q : Slot) (s : State) : (s.setSlot k q).events = s.events := rfl
@[simp] theorem State.setSlot_reads (k : Nat) (q : Slot) (s : State) : (s.setSlot k q).reads = s.reads := rfl

/-! ### `refuse` -/

@[simp] theorem State.refuse_cfg (s : State) : (s.refuse).cfg = s.cfg := rfl
@[simp] theorem State.refuse_regA (s : State) : (s.refuse).regA = s.regA := rfl
@[simp] theorem State.refuse_regB (s : State) : (s.refuse).regB = s.regB := rfl
@[simp] theorem State.refuse_arg (s : State) : (s.refuse).arg = s.arg := rfl
@[simp] theorem State.refuse_result (s : State) : (s.refuse).result = s.result := rfl
@[simp] theorem State.refuse_busy (s : State) : (s.refuse).busy = s.busy := rfl
@[simp] theorem State.refuse_done (s : State) : (s.refuse).done = s.done := rfl
@[simp] theorem State.refuse_rxDone (s : State) : (s.refuse).rxDone = s.rxDone := rfl
@[simp] theorem State.refuse_err (s : State) : (s.refuse).err = s.err := rfl
@[simp] theorem State.refuse_cmdErr (s : State) : (s.refuse).cmdErr = true := rfl
@[simp] theorem State.refuse_rxLen (s : State) : (s.refuse).rxLen = s.rxLen := rfl
@[simp] theorem State.refuse_rxCount (s : State) : (s.refuse).rxCount = s.rxCount := rfl
@[simp] theorem State.refuse_errKind (s : State) : (s.refuse).errKind = s.errKind := rfl
@[simp] theorem State.refuse_errCtx (s : State) : (s.refuse).errCtx = s.errCtx := rfl
@[simp] theorem State.refuse_errCount (s : State) : (s.refuse).errCount = s.errCount := rfl
@[simp] theorem State.refuse_slots (s : State) : (s.refuse).slots = s.slots := rfl
@[simp] theorem State.refuse_sbox (s : State) : (s.refuse).sbox = s.sbox := rfl
@[simp] theorem State.refuse_txbuf (s : State) : (s.refuse).txbuf = s.txbuf := rfl
@[simp] theorem State.refuse_rxbuf (s : State) : (s.refuse).rxbuf = s.rxbuf := rfl
@[simp] theorem State.refuse_fbuf (s : State) : (s.refuse).fbuf = s.fbuf := rfl
@[simp] theorem State.refuse_lineO (s : State) : (s.refuse).lineO = s.lineO := rfl
@[simp] theorem State.refuse_lineOe (s : State) : (s.refuse).lineOe = s.lineOe := rfl
@[simp] theorem State.refuse_work (s : State) : (s.refuse).work = s.work := rfl
@[simp] theorem State.refuse_clock0 (s : State) : (s.refuse).clock0 = s.clock0 := rfl
@[simp] theorem State.refuse_time (s : State) : (s.refuse).time = s.time := rfl
@[simp] theorem State.refuse_released (s : State) : (s.refuse).released = s.released := rfl
@[simp] theorem State.refuse_resets (s : State) : (s.refuse).resets = s.resets := rfl
@[simp] theorem State.refuse_line (s : State) : (s.refuse).line = s.line := rfl
@[simp] theorem State.refuse_hearsSelf (s : State) : (s.refuse).hearsSelf = s.hearsSelf := rfl
@[simp] theorem State.refuse_host (s : State) : (s.refuse).host = s.host := rfl
@[simp] theorem State.refuse_freshDone (s : State) : (s.refuse).freshDone = s.freshDone := rfl
@[simp] theorem State.refuse_freshRx (s : State) : (s.refuse).freshRx = s.freshRx := rfl
@[simp] theorem State.refuse_freshErr (s : State) : (s.refuse).freshErr = s.freshErr := rfl
@[simp] theorem State.refuse_freshCmd (s : State) : (s.refuse).freshCmd = true := rfl
@[simp] theorem State.refuse_trace (s : State) : (s.refuse).trace = s.trace := rfl
@[simp] theorem State.refuse_events (s : State) : (s.refuse).events = s.events := rfl
@[simp] theorem State.refuse_reads (s : State) : (s.refuse).reads = s.reads := rfl

/-! ### `busRead` -/

@[simp] theorem State.busRead_cfg (a : BusAddr) (s : State) : (s.busRead a).cfg = s.cfg := rfl
@[simp] theorem State.busRead_regA (a : BusAddr) (s : State) : (s.busRead a).regA = s.regA := rfl
@[simp] theorem State.busRead_regB (a : BusAddr) (s : State) : (s.busRead a).regB = s.regB := rfl
@[simp] theorem State.busRead_arg (a : BusAddr) (s : State) : (s.busRead a).arg = s.arg := rfl
@[simp] theorem State.busRead_result (a : BusAddr) (s : State) : (s.busRead a).result = s.result := rfl
@[simp] theorem State.busRead_busy (a : BusAddr) (s : State) : (s.busRead a).busy = s.busy := rfl
@[simp] theorem State.busRead_done (a : BusAddr) (s : State) : (s.busRead a).done = s.done := rfl
@[simp] theorem State.busRead_rxDone (a : BusAddr) (s : State) : (s.busRead a).rxDone = s.rxDone := rfl
@[simp] theorem State.busRead_err (a : BusAddr) (s : State) : (s.busRead a).err = s.err := rfl
@[simp] theorem State.busRead_cmdErr (a : BusAddr) (s : State) : (s.busRead a).cmdErr = s.cmdErr := rfl
@[simp] theorem State.busRead_rxLen (a : BusAddr) (s : State) : (s.busRead a).rxLen = s.rxLen := rfl
@[simp] theorem State.busRead_rxCount (a : BusAddr) (s : State) : (s.busRead a).rxCount = s.rxCount := rfl
@[simp] theorem State.busRead_errKind (a : BusAddr) (s : State) : (s.busRead a).errKind = s.errKind := rfl
@[simp] theorem State.busRead_errCtx (a : BusAddr) (s : State) : (s.busRead a).errCtx = s.errCtx := rfl
@[simp] theorem State.busRead_errCount (a : BusAddr) (s : State) : (s.busRead a).errCount = s.errCount := rfl
@[simp] theorem State.busRead_slots (a : BusAddr) (s : State) : (s.busRead a).slots = s.slots := rfl
@[simp] theorem State.busRead_sbox (a : BusAddr) (s : State) : (s.busRead a).sbox = s.sbox := rfl
@[simp] theorem State.busRead_txbuf (a : BusAddr) (s : State) : (s.busRead a).txbuf = s.txbuf := rfl
@[simp] theorem State.busRead_rxbuf (a : BusAddr) (s : State) : (s.busRead a).rxbuf = s.rxbuf := rfl
@[simp] theorem State.busRead_fbuf (a : BusAddr) (s : State) : (s.busRead a).fbuf = s.fbuf := rfl
@[simp] theorem State.busRead_lineO (a : BusAddr) (s : State) : (s.busRead a).lineO = s.lineO := rfl
@[simp] theorem State.busRead_lineOe (a : BusAddr) (s : State) : (s.busRead a).lineOe = s.lineOe := rfl
@[simp] theorem State.busRead_work (a : BusAddr) (s : State) : (s.busRead a).work = s.work := rfl
@[simp] theorem State.busRead_clock0 (a : BusAddr) (s : State) : (s.busRead a).clock0 = s.clock0 := rfl
@[simp] theorem State.busRead_time (a : BusAddr) (s : State) : (s.busRead a).time = s.time := rfl
@[simp] theorem State.busRead_released (a : BusAddr) (s : State) : (s.busRead a).released = s.released := rfl
@[simp] theorem State.busRead_resets (a : BusAddr) (s : State) : (s.busRead a).resets = s.resets := rfl
@[simp] theorem State.busRead_line (a : BusAddr) (s : State) : (s.busRead a).line = s.line := rfl
@[simp] theorem State.busRead_hearsSelf (a : BusAddr) (s : State) : (s.busRead a).hearsSelf = s.hearsSelf := rfl
@[simp] theorem State.busRead_host (a : BusAddr) (s : State) : (s.busRead a).host = s.host := rfl
@[simp] theorem State.busRead_freshDone (a : BusAddr) (s : State) : (s.busRead a).freshDone = s.freshDone := rfl
@[simp] theorem State.busRead_freshRx (a : BusAddr) (s : State) : (s.busRead a).freshRx = s.freshRx := rfl
@[simp] theorem State.busRead_freshErr (a : BusAddr) (s : State) : (s.busRead a).freshErr = s.freshErr := rfl
@[simp] theorem State.busRead_freshCmd (a : BusAddr) (s : State) : (s.busRead a).freshCmd = s.freshCmd := rfl
@[simp] theorem State.busRead_trace (a : BusAddr) (s : State) : (s.busRead a).trace = s.trace := rfl
@[simp] theorem State.busRead_events (a : BusAddr) (s : State) : (s.busRead a).events = s.events := rfl
@[simp] theorem State.busRead_reads (a : BusAddr) (s : State) : (s.busRead a).reads = s.reads ++ [⟨s.time, a, s.hostRead a⟩] := rfl

/-! ### `writeStatus` -/

@[simp] theorem State.writeStatus_cfg (v : Word) (s : State) : (s.writeStatus v).cfg = s.cfg := rfl
@[simp] theorem State.writeStatus_regA (v : Word) (s : State) : (s.writeStatus v).regA = s.regA := rfl
@[simp] theorem State.writeStatus_regB (v : Word) (s : State) : (s.writeStatus v).regB = s.regB := rfl
@[simp] theorem State.writeStatus_arg (v : Word) (s : State) : (s.writeStatus v).arg = s.arg := rfl
@[simp] theorem State.writeStatus_result (v : Word) (s : State) : (s.writeStatus v).result = s.result := rfl
@[simp] theorem State.writeStatus_busy (v : Word) (s : State) : (s.writeStatus v).busy = s.busy := rfl
@[simp] theorem State.writeStatus_done (v : Word) (s : State) : (s.writeStatus v).done = clearFlag s.done s.freshDone (v.getLsbD 1) := rfl
@[simp] theorem State.writeStatus_rxDone (v : Word) (s : State) : (s.writeStatus v).rxDone = clearFlag s.rxDone s.freshRx (v.getLsbD 2) := rfl
@[simp] theorem State.writeStatus_err (v : Word) (s : State) : (s.writeStatus v).err = clearFlag s.err s.freshErr (v.getLsbD 3) := rfl
@[simp] theorem State.writeStatus_cmdErr (v : Word) (s : State) : (s.writeStatus v).cmdErr = clearFlag s.cmdErr s.freshCmd (v.getLsbD 4) := rfl
@[simp] theorem State.writeStatus_rxLen (v : Word) (s : State) : (s.writeStatus v).rxLen = s.rxLen := rfl
@[simp] theorem State.writeStatus_rxCount (v : Word) (s : State) : (s.writeStatus v).rxCount = s.rxCount := rfl
@[simp] theorem State.writeStatus_errKind (v : Word) (s : State) : (s.writeStatus v).errKind = s.errKind := rfl
@[simp] theorem State.writeStatus_errCtx (v : Word) (s : State) : (s.writeStatus v).errCtx = s.errCtx := rfl
@[simp] theorem State.writeStatus_errCount (v : Word) (s : State) : (s.writeStatus v).errCount = s.errCount := rfl
@[simp] theorem State.writeStatus_slots (v : Word) (s : State) : (s.writeStatus v).slots = s.slots := rfl
@[simp] theorem State.writeStatus_sbox (v : Word) (s : State) : (s.writeStatus v).sbox = s.sbox := rfl
@[simp] theorem State.writeStatus_txbuf (v : Word) (s : State) : (s.writeStatus v).txbuf = s.txbuf := rfl
@[simp] theorem State.writeStatus_rxbuf (v : Word) (s : State) : (s.writeStatus v).rxbuf = s.rxbuf := rfl
@[simp] theorem State.writeStatus_fbuf (v : Word) (s : State) : (s.writeStatus v).fbuf = s.fbuf := rfl
@[simp] theorem State.writeStatus_lineO (v : Word) (s : State) : (s.writeStatus v).lineO = s.lineO := rfl
@[simp] theorem State.writeStatus_lineOe (v : Word) (s : State) : (s.writeStatus v).lineOe = s.lineOe := rfl
@[simp] theorem State.writeStatus_work (v : Word) (s : State) : (s.writeStatus v).work = s.work := rfl
@[simp] theorem State.writeStatus_clock0 (v : Word) (s : State) : (s.writeStatus v).clock0 = s.clock0 := rfl
@[simp] theorem State.writeStatus_time (v : Word) (s : State) : (s.writeStatus v).time = s.time := rfl
@[simp] theorem State.writeStatus_released (v : Word) (s : State) : (s.writeStatus v).released = s.released := rfl
@[simp] theorem State.writeStatus_resets (v : Word) (s : State) : (s.writeStatus v).resets = s.resets := rfl
@[simp] theorem State.writeStatus_line (v : Word) (s : State) : (s.writeStatus v).line = s.line := rfl
@[simp] theorem State.writeStatus_hearsSelf (v : Word) (s : State) : (s.writeStatus v).hearsSelf = s.hearsSelf := rfl
@[simp] theorem State.writeStatus_host (v : Word) (s : State) : (s.writeStatus v).host = s.host := rfl
@[simp] theorem State.writeStatus_freshDone (v : Word) (s : State) : (s.writeStatus v).freshDone = s.freshDone := rfl
@[simp] theorem State.writeStatus_freshRx (v : Word) (s : State) : (s.writeStatus v).freshRx = s.freshRx := rfl
@[simp] theorem State.writeStatus_freshErr (v : Word) (s : State) : (s.writeStatus v).freshErr = s.freshErr := rfl
@[simp] theorem State.writeStatus_freshCmd (v : Word) (s : State) : (s.writeStatus v).freshCmd = s.freshCmd := rfl
@[simp] theorem State.writeStatus_trace (v : Word) (s : State) : (s.writeStatus v).trace = s.trace := rfl
@[simp] theorem State.writeStatus_events (v : Word) (s : State) : (s.writeStatus v).events = s.events := rfl
@[simp] theorem State.writeStatus_reads (v : Word) (s : State) : (s.writeStatus v).reads = s.reads := rfl

/-! ### `rxEvent` -/

@[simp] theorem State.rxEvent_cfg (n : Byte) (s : State) : (s.rxEvent n).cfg = s.cfg := rfl
@[simp] theorem State.rxEvent_regA (n : Byte) (s : State) : (s.rxEvent n).regA = s.regA := rfl
@[simp] theorem State.rxEvent_regB (n : Byte) (s : State) : (s.rxEvent n).regB = s.regB := rfl
@[simp] theorem State.rxEvent_arg (n : Byte) (s : State) : (s.rxEvent n).arg = s.arg := rfl
@[simp] theorem State.rxEvent_result (n : Byte) (s : State) : (s.rxEvent n).result = s.result := rfl
@[simp] theorem State.rxEvent_busy (n : Byte) (s : State) : (s.rxEvent n).busy = s.busy := rfl
@[simp] theorem State.rxEvent_done (n : Byte) (s : State) : (s.rxEvent n).done = s.done := rfl
@[simp] theorem State.rxEvent_rxDone (n : Byte) (s : State) : (s.rxEvent n).rxDone = true := rfl
@[simp] theorem State.rxEvent_err (n : Byte) (s : State) : (s.rxEvent n).err = s.err := rfl
@[simp] theorem State.rxEvent_cmdErr (n : Byte) (s : State) : (s.rxEvent n).cmdErr = s.cmdErr := rfl
@[simp] theorem State.rxEvent_rxLen (n : Byte) (s : State) : (s.rxEvent n).rxLen = n := rfl
@[simp] theorem State.rxEvent_rxCount (n : Byte) (s : State) : (s.rxEvent n).rxCount = s.rxCount + 1 := rfl
@[simp] theorem State.rxEvent_errKind (n : Byte) (s : State) : (s.rxEvent n).errKind = s.errKind := rfl
@[simp] theorem State.rxEvent_errCtx (n : Byte) (s : State) : (s.rxEvent n).errCtx = s.errCtx := rfl
@[simp] theorem State.rxEvent_errCount (n : Byte) (s : State) : (s.rxEvent n).errCount = s.errCount := rfl
@[simp] theorem State.rxEvent_slots (n : Byte) (s : State) : (s.rxEvent n).slots = s.slots := rfl
@[simp] theorem State.rxEvent_sbox (n : Byte) (s : State) : (s.rxEvent n).sbox = s.sbox := rfl
@[simp] theorem State.rxEvent_txbuf (n : Byte) (s : State) : (s.rxEvent n).txbuf = s.txbuf := rfl
@[simp] theorem State.rxEvent_rxbuf (n : Byte) (s : State) : (s.rxEvent n).rxbuf = s.rxbuf := rfl
@[simp] theorem State.rxEvent_fbuf (n : Byte) (s : State) : (s.rxEvent n).fbuf = s.fbuf := rfl
@[simp] theorem State.rxEvent_lineO (n : Byte) (s : State) : (s.rxEvent n).lineO = s.lineO := rfl
@[simp] theorem State.rxEvent_lineOe (n : Byte) (s : State) : (s.rxEvent n).lineOe = s.lineOe := rfl
@[simp] theorem State.rxEvent_work (n : Byte) (s : State) : (s.rxEvent n).work = s.work := rfl
@[simp] theorem State.rxEvent_clock0 (n : Byte) (s : State) : (s.rxEvent n).clock0 = s.clock0 := rfl
@[simp] theorem State.rxEvent_time (n : Byte) (s : State) : (s.rxEvent n).time = s.time := rfl
@[simp] theorem State.rxEvent_released (n : Byte) (s : State) : (s.rxEvent n).released = s.released := rfl
@[simp] theorem State.rxEvent_resets (n : Byte) (s : State) : (s.rxEvent n).resets = s.resets := rfl
@[simp] theorem State.rxEvent_line (n : Byte) (s : State) : (s.rxEvent n).line = s.line := rfl
@[simp] theorem State.rxEvent_hearsSelf (n : Byte) (s : State) : (s.rxEvent n).hearsSelf = s.hearsSelf := rfl
@[simp] theorem State.rxEvent_host (n : Byte) (s : State) : (s.rxEvent n).host = s.host := rfl
@[simp] theorem State.rxEvent_freshDone (n : Byte) (s : State) : (s.rxEvent n).freshDone = s.freshDone := rfl
@[simp] theorem State.rxEvent_freshRx (n : Byte) (s : State) : (s.rxEvent n).freshRx = true := rfl
@[simp] theorem State.rxEvent_freshErr (n : Byte) (s : State) : (s.rxEvent n).freshErr = s.freshErr := rfl
@[simp] theorem State.rxEvent_freshCmd (n : Byte) (s : State) : (s.rxEvent n).freshCmd = s.freshCmd := rfl
@[simp] theorem State.rxEvent_trace (n : Byte) (s : State) : (s.rxEvent n).trace = s.trace := rfl
@[simp] theorem State.rxEvent_events (n : Byte) (s : State) : (s.rxEvent n).events = s.events ++ [(s.tcur, .rxFrame n)] := rfl
@[simp] theorem State.rxEvent_reads (n : Byte) (s : State) : (s.rxEvent n).reads = s.reads := rfl

/-! ### `errorEvent` -/

@[simp] theorem State.errorEvent_cfg (e : ErrKind) (n : Byte) (s : State) : (s.errorEvent e n).cfg = s.cfg := rfl
@[simp] theorem State.errorEvent_regA (e : ErrKind) (n : Byte) (s : State) : (s.errorEvent e n).regA = s.regA := rfl
@[simp] theorem State.errorEvent_regB (e : ErrKind) (n : Byte) (s : State) : (s.errorEvent e n).regB = s.regB := rfl
@[simp] theorem State.errorEvent_arg (e : ErrKind) (n : Byte) (s : State) : (s.errorEvent e n).arg = s.arg := rfl
@[simp] theorem State.errorEvent_result (e : ErrKind) (n : Byte) (s : State) : (s.errorEvent e n).result = s.result := rfl
@[simp] theorem State.errorEvent_busy (e : ErrKind) (n : Byte) (s : State) : (s.errorEvent e n).busy = s.busy := rfl
@[simp] theorem State.errorEvent_done (e : ErrKind) (n : Byte) (s : State) : (s.errorEvent e n).done = s.done := rfl
@[simp] theorem State.errorEvent_rxDone (e : ErrKind) (n : Byte) (s : State) : (s.errorEvent e n).rxDone = s.rxDone := rfl
@[simp] theorem State.errorEvent_err (e : ErrKind) (n : Byte) (s : State) : (s.errorEvent e n).err = true := rfl
@[simp] theorem State.errorEvent_cmdErr (e : ErrKind) (n : Byte) (s : State) : (s.errorEvent e n).cmdErr = s.cmdErr := rfl
@[simp] theorem State.errorEvent_rxLen (e : ErrKind) (n : Byte) (s : State) : (s.errorEvent e n).rxLen = s.rxLen := rfl
@[simp] theorem State.errorEvent_rxCount (e : ErrKind) (n : Byte) (s : State) : (s.errorEvent e n).rxCount = s.rxCount := rfl
@[simp] theorem State.errorEvent_errKind (e : ErrKind) (n : Byte) (s : State) : (s.errorEvent e n).errKind = e.code := rfl
@[simp] theorem State.errorEvent_errCtx (e : ErrKind) (n : Byte) (s : State) : (s.errorEvent e n).errCtx = n := rfl
@[simp] theorem State.errorEvent_errCount (e : ErrKind) (n : Byte) (s : State) : (s.errorEvent e n).errCount = s.errCount + 1 := rfl
@[simp] theorem State.errorEvent_slots (e : ErrKind) (n : Byte) (s : State) : (s.errorEvent e n).slots = s.slots := rfl
@[simp] theorem State.errorEvent_sbox (e : ErrKind) (n : Byte) (s : State) : (s.errorEvent e n).sbox = s.sbox := rfl
@[simp] theorem State.errorEvent_txbuf (e : ErrKind) (n : Byte) (s : State) : (s.errorEvent e n).txbuf = s.txbuf := rfl
@[simp] theorem State.errorEvent_rxbuf (e : ErrKind) (n : Byte) (s : State) : (s.errorEvent e n).rxbuf = s.rxbuf := rfl
@[simp] theorem State.errorEvent_fbuf (e : ErrKind) (n : Byte) (s : State) : (s.errorEvent e n).fbuf = s.fbuf := rfl
@[simp] theorem State.errorEvent_lineO (e : ErrKind) (n : Byte) (s : State) : (s.errorEvent e n).lineO = s.lineO := rfl
@[simp] theorem State.errorEvent_lineOe (e : ErrKind) (n : Byte) (s : State) : (s.errorEvent e n).lineOe = s.lineOe := rfl
@[simp] theorem State.errorEvent_work (e : ErrKind) (n : Byte) (s : State) : (s.errorEvent e n).work = s.work := rfl
@[simp] theorem State.errorEvent_clock0 (e : ErrKind) (n : Byte) (s : State) : (s.errorEvent e n).clock0 = s.clock0 := rfl
@[simp] theorem State.errorEvent_time (e : ErrKind) (n : Byte) (s : State) : (s.errorEvent e n).time = s.time := rfl
@[simp] theorem State.errorEvent_released (e : ErrKind) (n : Byte) (s : State) : (s.errorEvent e n).released = s.released := rfl
@[simp] theorem State.errorEvent_resets (e : ErrKind) (n : Byte) (s : State) : (s.errorEvent e n).resets = s.resets := rfl
@[simp] theorem State.errorEvent_line (e : ErrKind) (n : Byte) (s : State) : (s.errorEvent e n).line = s.line := rfl
@[simp] theorem State.errorEvent_hearsSelf (e : ErrKind) (n : Byte) (s : State) : (s.errorEvent e n).hearsSelf = s.hearsSelf := rfl
@[simp] theorem State.errorEvent_host (e : ErrKind) (n : Byte) (s : State) : (s.errorEvent e n).host = s.host := rfl
@[simp] theorem State.errorEvent_freshDone (e : ErrKind) (n : Byte) (s : State) : (s.errorEvent e n).freshDone = s.freshDone := rfl
@[simp] theorem State.errorEvent_freshRx (e : ErrKind) (n : Byte) (s : State) : (s.errorEvent e n).freshRx = s.freshRx := rfl
@[simp] theorem State.errorEvent_freshErr (e : ErrKind) (n : Byte) (s : State) : (s.errorEvent e n).freshErr = true := rfl
@[simp] theorem State.errorEvent_freshCmd (e : ErrKind) (n : Byte) (s : State) : (s.errorEvent e n).freshCmd = s.freshCmd := rfl
@[simp] theorem State.errorEvent_trace (e : ErrKind) (n : Byte) (s : State) : (s.errorEvent e n).trace = s.trace := rfl
@[simp] theorem State.errorEvent_events (e : ErrKind) (n : Byte) (s : State) : (s.errorEvent e n).events = s.events ++ [(s.tcur, .error e n)] := rfl
@[simp] theorem State.errorEvent_reads (e : ErrKind) (n : Byte) (s : State) : (s.errorEvent e n).reads = s.reads := rfl

/-! ### `accept` -/

@[simp] theorem State.accept_cfg (i : Instr) (s : State) : (s.accept i).cfg = s.cfg := rfl
@[simp] theorem State.accept_regA (i : Instr) (s : State) : (s.accept i).regA = fieldA i := rfl
@[simp] theorem State.accept_regB (i : Instr) (s : State) : (s.accept i).regB = fieldB i := rfl
@[simp] theorem State.accept_arg (i : Instr) (s : State) : (s.accept i).arg = s.arg := rfl
@[simp] theorem State.accept_result (i : Instr) (s : State) : (s.accept i).result = s.result := rfl
@[simp] theorem State.accept_busy (i : Instr) (s : State) : (s.accept i).busy = true := rfl
@[simp] theorem State.accept_done (i : Instr) (s : State) : (s.accept i).done = false := rfl
@[simp] theorem State.accept_rxDone (i : Instr) (s : State) : (s.accept i).rxDone = s.rxDone := rfl
@[simp] theorem State.accept_err (i : Instr) (s : State) : (s.accept i).err = s.err := rfl
@[simp] theorem State.accept_cmdErr (i : Instr) (s : State) : (s.accept i).cmdErr = s.cmdErr := rfl
@[simp] theorem State.accept_rxLen (i : Instr) (s : State) : (s.accept i).rxLen = s.rxLen := rfl
@[simp] theorem State.accept_rxCount (i : Instr) (s : State) : (s.accept i).rxCount = s.rxCount := rfl
@[simp] theorem State.accept_errKind (i : Instr) (s : State) : (s.accept i).errKind = s.errKind := rfl
@[simp] theorem State.accept_errCtx (i : Instr) (s : State) : (s.accept i).errCtx = s.errCtx := rfl
@[simp] theorem State.accept_errCount (i : Instr) (s : State) : (s.accept i).errCount = s.errCount := rfl
@[simp] theorem State.accept_slots (i : Instr) (s : State) : (s.accept i).slots = s.slots := rfl
@[simp] theorem State.accept_sbox (i : Instr) (s : State) : (s.accept i).sbox = s.sbox := rfl
@[simp] theorem State.accept_txbuf (i : Instr) (s : State) : (s.accept i).txbuf = s.txbuf := rfl
@[simp] theorem State.accept_rxbuf (i : Instr) (s : State) : (s.accept i).rxbuf = s.rxbuf := rfl
@[simp] theorem State.accept_fbuf (i : Instr) (s : State) : (s.accept i).fbuf = s.fbuf := rfl
@[simp] theorem State.accept_lineO (i : Instr) (s : State) : (s.accept i).lineO = s.lineO := rfl
@[simp] theorem State.accept_lineOe (i : Instr) (s : State) : (s.accept i).lineOe = s.lineOe := rfl
@[simp] theorem State.accept_work (i : Instr) (s : State) : (s.accept i).work = s.work := rfl
@[simp] theorem State.accept_clock0 (i : Instr) (s : State) : (s.accept i).clock0 = s.clock0 := rfl
@[simp] theorem State.accept_time (i : Instr) (s : State) : (s.accept i).time = s.time := rfl
@[simp] theorem State.accept_released (i : Instr) (s : State) : (s.accept i).released = s.released := rfl
@[simp] theorem State.accept_resets (i : Instr) (s : State) : (s.accept i).resets = s.resets := rfl
@[simp] theorem State.accept_line (i : Instr) (s : State) : (s.accept i).line = s.line := rfl
@[simp] theorem State.accept_hearsSelf (i : Instr) (s : State) : (s.accept i).hearsSelf = s.hearsSelf := rfl
@[simp] theorem State.accept_host (i : Instr) (s : State) : (s.accept i).host = s.host := rfl
@[simp] theorem State.accept_freshDone (i : Instr) (s : State) : (s.accept i).freshDone = s.freshDone := rfl
@[simp] theorem State.accept_freshRx (i : Instr) (s : State) : (s.accept i).freshRx = s.freshRx := rfl
@[simp] theorem State.accept_freshErr (i : Instr) (s : State) : (s.accept i).freshErr = s.freshErr := rfl
@[simp] theorem State.accept_freshCmd (i : Instr) (s : State) : (s.accept i).freshCmd = s.freshCmd := rfl
@[simp] theorem State.accept_trace (i : Instr) (s : State) : (s.accept i).trace = s.trace := rfl
@[simp] theorem State.accept_events (i : Instr) (s : State) : (s.accept i).events = s.events := rfl
@[simp] theorem State.accept_reads (i : Instr) (s : State) : (s.accept i).reads = s.reads := rfl

/-! ### `finish` -/

@[simp] theorem State.finish_cfg (r : Word) (s : State) : (s.finish r).cfg = s.cfg := rfl
@[simp] theorem State.finish_regA (r : Word) (s : State) : (s.finish r).regA = s.regA := rfl
@[simp] theorem State.finish_regB (r : Word) (s : State) : (s.finish r).regB = s.regB := rfl
@[simp] theorem State.finish_arg (r : Word) (s : State) : (s.finish r).arg = s.arg := rfl
@[simp] theorem State.finish_result (r : Word) (s : State) : (s.finish r).result = r := rfl
@[simp] theorem State.finish_busy (r : Word) (s : State) : (s.finish r).busy = false := rfl
@[simp] theorem State.finish_done (r : Word) (s : State) : (s.finish r).done = true := rfl
@[simp] theorem State.finish_rxDone (r : Word) (s : State) : (s.finish r).rxDone = s.rxDone := rfl
@[simp] theorem State.finish_err (r : Word) (s : State) : (s.finish r).err = s.err := rfl
@[simp] theorem State.finish_cmdErr (r : Word) (s : State) : (s.finish r).cmdErr = s.cmdErr := rfl
@[simp] theorem State.finish_rxLen (r : Word) (s : State) : (s.finish r).rxLen = s.rxLen := rfl
@[simp] theorem State.finish_rxCount (r : Word) (s : State) : (s.finish r).rxCount = s.rxCount := rfl
@[simp] theorem State.finish_errKind (r : Word) (s : State) : (s.finish r).errKind = s.errKind := rfl
@[simp] theorem State.finish_errCtx (r : Word) (s : State) : (s.finish r).errCtx = s.errCtx := rfl
@[simp] theorem State.finish_errCount (r : Word) (s : State) : (s.finish r).errCount = s.errCount := rfl
@[simp] theorem State.finish_slots (r : Word) (s : State) : (s.finish r).slots = s.slots := rfl
@[simp] theorem State.finish_sbox (r : Word) (s : State) : (s.finish r).sbox = s.sbox := rfl
@[simp] theorem State.finish_txbuf (r : Word) (s : State) : (s.finish r).txbuf = s.txbuf := rfl
@[simp] theorem State.finish_rxbuf (r : Word) (s : State) : (s.finish r).rxbuf = s.rxbuf := rfl
@[simp] theorem State.finish_fbuf (r : Word) (s : State) : (s.finish r).fbuf = s.fbuf := rfl
@[simp] theorem State.finish_lineO (r : Word) (s : State) : (s.finish r).lineO = s.lineO := rfl
@[simp] theorem State.finish_lineOe (r : Word) (s : State) : (s.finish r).lineOe = s.lineOe := rfl
@[simp] theorem State.finish_work (r : Word) (s : State) : (s.finish r).work = s.work := rfl
@[simp] theorem State.finish_clock0 (r : Word) (s : State) : (s.finish r).clock0 = s.clock0 := rfl
@[simp] theorem State.finish_time (r : Word) (s : State) : (s.finish r).time = s.time := rfl
@[simp] theorem State.finish_released (r : Word) (s : State) : (s.finish r).released = s.released := rfl
@[simp] theorem State.finish_resets (r : Word) (s : State) : (s.finish r).resets = s.resets := rfl
@[simp] theorem State.finish_line (r : Word) (s : State) : (s.finish r).line = s.line := rfl
@[simp] theorem State.finish_hearsSelf (r : Word) (s : State) : (s.finish r).hearsSelf = s.hearsSelf := rfl
@[simp] theorem State.finish_host (r : Word) (s : State) : (s.finish r).host = s.host := rfl
@[simp] theorem State.finish_freshDone (r : Word) (s : State) : (s.finish r).freshDone = true := rfl
@[simp] theorem State.finish_freshRx (r : Word) (s : State) : (s.finish r).freshRx = s.freshRx := rfl
@[simp] theorem State.finish_freshErr (r : Word) (s : State) : (s.finish r).freshErr = s.freshErr := rfl
@[simp] theorem State.finish_freshCmd (r : Word) (s : State) : (s.finish r).freshCmd = s.freshCmd := rfl
@[simp] theorem State.finish_trace (r : Word) (s : State) : (s.finish r).trace = s.trace := rfl
@[simp] theorem State.finish_events (r : Word) (s : State) : (s.finish r).events = s.events := rfl
@[simp] theorem State.finish_reads (r : Word) (s : State) : (s.finish r).reads = s.reads := rfl

/-! ### `resetPin` -/

@[simp] theorem State.resetPin_cfg (n : Nat) (s : State) : (s.resetPin n).cfg = s.cfg := rfl
@[simp] theorem State.resetPin_regA (n : Nat) (s : State) : (s.resetPin n).regA = 0 := rfl
@[simp] theorem State.resetPin_regB (n : Nat) (s : State) : (s.resetPin n).regB = 0 := rfl
@[simp] theorem State.resetPin_arg (n : Nat) (s : State) : (s.resetPin n).arg = 0 := rfl
@[simp] theorem State.resetPin_result (n : Nat) (s : State) : (s.resetPin n).result = 0 := rfl
@[simp] theorem State.resetPin_busy (n : Nat) (s : State) : (s.resetPin n).busy = false := rfl
@[simp] theorem State.resetPin_done (n : Nat) (s : State) : (s.resetPin n).done = false := rfl
@[simp] theorem State.resetPin_rxDone (n : Nat) (s : State) : (s.resetPin n).rxDone = false := rfl
@[simp] theorem State.resetPin_err (n : Nat) (s : State) : (s.resetPin n).err = false := rfl
@[simp] theorem State.resetPin_cmdErr (n : Nat) (s : State) : (s.resetPin n).cmdErr = false := rfl
@[simp] theorem State.resetPin_rxLen (n : Nat) (s : State) : (s.resetPin n).rxLen = 0 := rfl
@[simp] theorem State.resetPin_rxCount (n : Nat) (s : State) : (s.resetPin n).rxCount = 0 := rfl
@[simp] theorem State.resetPin_errKind (n : Nat) (s : State) : (s.resetPin n).errKind = 0 := rfl
@[simp] theorem State.resetPin_errCtx (n : Nat) (s : State) : (s.resetPin n).errCtx = 0 := rfl
@[simp] theorem State.resetPin_errCount (n : Nat) (s : State) : (s.resetPin n).errCount = 0 := rfl
@[simp] theorem State.resetPin_slots (n : Nat) (s : State) : (s.resetPin n).slots = List.replicate s.cfg.val.maxPackets Slot.blank := rfl
@[simp] theorem State.resetPin_sbox (n : Nat) (s : State) : (s.resetPin n).sbox = [] := rfl
@[simp] theorem State.resetPin_txbuf (n : Nat) (s : State) : (s.resetPin n).txbuf = [] := rfl
@[simp] theorem State.resetPin_rxbuf (n : Nat) (s : State) : (s.resetPin n).rxbuf = [] := rfl
@[simp] theorem State.resetPin_fbuf (n : Nat) (s : State) : (s.resetPin n).fbuf = [] := rfl
@[simp] theorem State.resetPin_lineO (n : Nat) (s : State) : (s.resetPin n).lineO = false := rfl
@[simp] theorem State.resetPin_lineOe (n : Nat) (s : State) : (s.resetPin n).lineOe = false := rfl
@[simp] theorem State.resetPin_work (n : Nat) (s : State) : (s.resetPin n).work = Work.blank := rfl
@[simp] theorem State.resetPin_clock0 (n : Nat) (s : State) : (s.resetPin n).clock0 = s.clock0 := rfl
@[simp] theorem State.resetPin_time (n : Nat) (s : State) : (s.resetPin n).time = (s.underReset n).time := rfl
@[simp] theorem State.resetPin_released (n : Nat) (s : State) : (s.resetPin n).released = (s.underReset n).time := rfl
@[simp] theorem State.resetPin_resets (n : Nat) (s : State) : (s.resetPin n).resets = s.resets + 1 := rfl
@[simp] theorem State.resetPin_line (n : Nat) (s : State) : (s.resetPin n).line = s.line := rfl
@[simp] theorem State.resetPin_hearsSelf (n : Nat) (s : State) : (s.resetPin n).hearsSelf = s.hearsSelf := rfl
@[simp] theorem State.resetPin_host (n : Nat) (s : State) : (s.resetPin n).host = (s.underReset n).host := rfl
@[simp] theorem State.resetPin_freshDone (n : Nat) (s : State) : (s.resetPin n).freshDone = false := rfl
@[simp] theorem State.resetPin_freshRx (n : Nat) (s : State) : (s.resetPin n).freshRx = false := rfl
@[simp] theorem State.resetPin_freshErr (n : Nat) (s : State) : (s.resetPin n).freshErr = false := rfl
@[simp] theorem State.resetPin_freshCmd (n : Nat) (s : State) : (s.resetPin n).freshCmd = false := rfl
@[simp] theorem State.resetPin_trace (n : Nat) (s : State) : (s.resetPin n).trace = pushRun ⟨false, false⟩ ((s.underReset n).time - s.time) s.trace := rfl
@[simp] theorem State.resetPin_events (n : Nat) (s : State) : (s.resetPin n).events = s.events := rfl
@[simp] theorem State.resetPin_reads (n : Nat) (s : State) : (s.resetPin n).reads = (s.underReset n).reads := rfl

/-! ### `setByte`: what is no buffer -/

@[simp] theorem State.setByte_cfg (l : Loc) (v : Byte) (s : State) : (s.setByte l v).cfg = s.cfg := by cases l <;> rfl
@[simp] theorem State.setByte_regA (l : Loc) (v : Byte) (s : State) : (s.setByte l v).regA = s.regA := by cases l <;> rfl
@[simp] theorem State.setByte_regB (l : Loc) (v : Byte) (s : State) : (s.setByte l v).regB = s.regB := by cases l <;> rfl
@[simp] theorem State.setByte_arg (l : Loc) (v : Byte) (s : State) : (s.setByte l v).arg = s.arg := by cases l <;> rfl
@[simp] theorem State.setByte_result (l : Loc) (v : Byte) (s : State) : (s.setByte l v).result = s.result := by cases l <;> rfl
@[simp] theorem State.setByte_busy (l : Loc) (v : Byte) (s : State) : (s.setByte l v).busy = s.busy := by cases l <;> rfl
@[simp] theorem State.setByte_done (l : Loc) (v : Byte) (s : State) : (s.setByte l v).done = s.done := by cases l <;> rfl
@[simp] theorem State.setByte_rxDone (l : Loc) (v : Byte) (s : State) : (s.setByte l v).rxDone = s.rxDone := by cases l <;> rfl
@[simp] theorem State.setByte_err (l : Loc) (v : Byte) (s : State) : (s.setByte l v).err = s.err := by cases l <;> rfl
@[simp] theorem State.setByte_cmdErr (l : Loc) (v : Byte) (s : State) : (s.setByte l v).cmdErr = s.cmdErr := by cases l <;> rfl
@[simp] theorem State.setByte_rxLen (l : Loc) (v : Byte) (s : State) : (s.setByte l v).rxLen = s.rxLen := by cases l <;> rfl
@[simp] theorem State.setByte_rxCount (l : Loc) (v : Byte) (s : State) : (s.setByte l v).rxCount = s.rxCount := by cases l <;> rfl
@[simp] theorem State.setByte_errKind (l : Loc) (v : Byte) (s : State) : (s.setByte l v).errKind = s.errKind := by cases l <;> rfl
@[simp] theorem State.setByte_errCtx (l : Loc) (v : Byte) (s : State) : (s.setByte l v).errCtx = s.errCtx := by cases l <;> rfl
@[simp] theorem State.setByte_errCount (l : Loc) (v : Byte) (s : State) : (s.setByte l v).errCount = s.errCount := by cases l <;> rfl
@[simp] theorem State.setByte_lineO (l : Loc) (v : Byte) (s : State) : (s.setByte l v).lineO = s.lineO := by cases l <;> rfl
@[simp] theorem State.setByte_lineOe (l : Loc) (v : Byte) (s : State) : (s.setByte l v).lineOe = s.lineOe := by cases l <;> rfl
@[simp] theorem State.setByte_work (l : Loc) (v : Byte) (s : State) : (s.setByte l v).work = s.work := by cases l <;> rfl
@[simp] theorem State.setByte_clock0 (l : Loc) (v : Byte) (s : State) : (s.setByte l v).clock0 = s.clock0 := by cases l <;> rfl
@[simp] theorem State.setByte_time (l : Loc) (v : Byte) (s : State) : (s.setByte l v).time = s.time := by cases l <;> rfl
@[simp] theorem State.setByte_released (l : Loc) (v : Byte) (s : State) : (s.setByte l v).released = s.released := by cases l <;> rfl
@[simp] theorem State.setByte_resets (l : Loc) (v : Byte) (s : State) : (s.setByte l v).resets = s.resets := by cases l <;> rfl
@[simp] theorem State.setByte_line (l : Loc) (v : Byte) (s : State) : (s.setByte l v).line = s.line := by cases l <;> rfl
@[simp] theorem State.setByte_hearsSelf (l : Loc) (v : Byte) (s : State) : (s.setByte l v).hearsSelf = s.hearsSelf := by cases l <;> rfl
@[simp] theorem State.setByte_host (l : Loc) (v : Byte) (s : State) : (s.setByte l v).host = s.host := by cases l <;> rfl
@[simp] theorem State.setByte_freshDone (l : Loc) (v : Byte) (s : State) : (s.setByte l v).freshDone = s.freshDone := by cases l <;> rfl
@[simp] theorem State.setByte_freshRx (l : Loc) (v : Byte) (s : State) : (s.setByte l v).freshRx = s.freshRx := by cases l <;> rfl
@[simp] theorem State.setByte_freshErr (l : Loc) (v : Byte) (s : State) : (s.setByte l v).freshErr = s.freshErr := by cases l <;> rfl
@[simp] theorem State.setByte_freshCmd (l : Loc) (v : Byte) (s : State) : (s.setByte l v).freshCmd = s.freshCmd := by cases l <;> rfl
@[simp] theorem State.setByte_trace (l : Loc) (v : Byte) (s : State) : (s.setByte l v).trace = s.trace := by cases l <;> rfl
@[simp] theorem State.setByte_events (l : Loc) (v : Byte) (s : State) : (s.setByte l v).events = s.events := by cases l <;> rfl
@[simp] theorem State.setByte_reads (l : Loc) (v : Byte) (s : State) : (s.setByte l v).reads = s.reads := by cases l <;> rfl

/-- What one byte write leaves alone, a sequence of them does. -/
theorem State.writeBytes_keeps {β : Type} (f : State → β) (h : ∀ l v s, f (s.setByte l v) = f s)
    (region : Nat → Loc) (i : Nat) (bs : List Byte) (s : State) : f (s.writeBytes region i bs) = f s := by
  induction bs generalizing i s with
  | nil => rfl
  | cons b bs ih => rw [State.writeBytes, ih, h]

/-! ### `writeBytes`: what is no buffer -/

@[simp] theorem State.writeBytes_cfg (g : Nat → Loc) (i : Nat) (bs : List Byte) (s : State) : (s.writeBytes g i bs).cfg = s.cfg :=
  State.writeBytes_keeps State.cfg (by simp) g i bs s
@[simp] theorem State.writeBytes_regA (g : Nat → Loc) (i : Nat) (bs : List Byte) (s : State) : (s.writeBytes g i bs).regA = s.regA :=
  State.writeBytes_keeps State.regA (by simp) g i bs s
@[simp] theorem State.writeBytes_regB (g : Nat → Loc) (i : Nat) (bs : List Byte) (s : State) : (s.writeBytes g i bs).regB = s.regB :=
  State.writeBytes_keeps State.regB (by simp) g i bs s
@[simp] theorem State.writeBytes_arg (g : Nat → Loc) (i : Nat) (bs : List Byte) (s : State) : (s.writeBytes g i bs).arg = s.arg :=
  State.writeBytes_keeps State.arg (by simp) g i bs s
@[simp] theorem State.writeBytes_result (g : Nat → Loc) (i : Nat) (bs : List Byte) (s : State) : (s.writeBytes g i bs).result = s.result :=
  State.writeBytes_keeps State.result (by simp) g i bs s
@[simp] theorem State.writeBytes_busy (g : Nat → Loc) (i : Nat) (bs : List Byte) (s : State) : (s.writeBytes g i bs).busy = s.busy :=
  State.writeBytes_keeps State.busy (by simp) g i bs s
@[simp] theorem State.writeBytes_done (g : Nat → Loc) (i : Nat) (bs : List Byte) (s : State) : (s.writeBytes g i bs).done = s.done :=
  State.writeBytes_keeps State.done (by simp) g i bs s
@[simp] theorem State.writeBytes_rxDone (g : Nat → Loc) (i : Nat) (bs : List Byte) (s : State) : (s.writeBytes g i bs).rxDone = s.rxDone :=
  State.writeBytes_keeps State.rxDone (by simp) g i bs s
@[simp] theorem State.writeBytes_err (g : Nat → Loc) (i : Nat) (bs : List Byte) (s : State) : (s.writeBytes g i bs).err = s.err :=
  State.writeBytes_keeps State.err (by simp) g i bs s
@[simp] theorem State.writeBytes_cmdErr (g : Nat → Loc) (i : Nat) (bs : List Byte) (s : State) : (s.writeBytes g i bs).cmdErr = s.cmdErr :=
  State.writeBytes_keeps State.cmdErr (by simp) g i bs s
@[simp] theorem State.writeBytes_rxLen (g : Nat → Loc) (i : Nat) (bs : List Byte) (s : State) : (s.writeBytes g i bs).rxLen = s.rxLen :=
  State.writeBytes_keeps State.rxLen (by simp) g i bs s
@[simp] theorem State.writeBytes_rxCount (g : Nat → Loc) (i : Nat) (bs : List Byte) (s : State) : (s.writeBytes g i bs).rxCount = s.rxCount :=
  State.writeBytes_keeps State.rxCount (by simp) g i bs s
@[simp] theorem State.writeBytes_errKind (g : Nat → Loc) (i : Nat) (bs : List Byte) (s : State) : (s.writeBytes g i bs).errKind = s.errKind :=
  State.writeBytes_keeps State.errKind (by simp) g i bs s
@[simp] theorem State.writeBytes_errCtx (g : Nat → Loc) (i : Nat) (bs : List Byte) (s : State) : (s.writeBytes g i bs).errCtx = s.errCtx :=
  State.writeBytes_keeps State.errCtx (by simp) g i bs s
@[simp] theorem State.writeBytes_errCount (g : Nat → Loc) (i : Nat) (bs : List Byte) (s : State) : (s.writeBytes g i bs).errCount = s.errCount :=
  State.writeBytes_keeps State.errCount (by simp) g i bs s
@[simp] theorem State.writeBytes_lineO (g : Nat → Loc) (i : Nat) (bs : List Byte) (s : State) : (s.writeBytes g i bs).lineO = s.lineO :=
  State.writeBytes_keeps State.lineO (by simp) g i bs s
@[simp] theorem State.writeBytes_lineOe (g : Nat → Loc) (i : Nat) (bs : List Byte) (s : State) : (s.writeBytes g i bs).lineOe = s.lineOe :=
  State.writeBytes_keeps State.lineOe (by simp) g i bs s
@[simp] theorem State.writeBytes_work (g : Nat → Loc) (i : Nat) (bs : List Byte) (s : State) : (s.writeBytes g i bs).work = s.work :=
  State.writeBytes_keeps State.work (by simp) g i bs s
@[simp] theorem State.writeBytes_clock0 (g : Nat → Loc) (i : Nat) (bs : List Byte) (s : State) : (s.writeBytes g i bs).clock0 = s.clock0 :=
  State.writeBytes_keeps State.clock0 (by simp) g i bs s
@[simp] theorem State.writeBytes_time (g : Nat → Loc) (i : Nat) (bs : List Byte) (s : State) : (s.writeBytes g i bs).time = s.time :=
  State.writeBytes_keeps State.time (by simp) g i bs s
@[simp] theorem State.writeBytes_released (g : Nat → Loc) (i : Nat) (bs : List Byte) (s : State) : (s.writeBytes g i bs).released = s.released :=
  State.writeBytes_keeps State.released (by simp) g i bs s
@[simp] theorem State.writeBytes_resets (g : Nat → Loc) (i : Nat) (bs : List Byte) (s : State) : (s.writeBytes g i bs).resets = s.resets :=
  State.writeBytes_keeps State.resets (by simp) g i bs s
@[simp] theorem State.writeBytes_line (g : Nat → Loc) (i : Nat) (bs : List Byte) (s : State) : (s.writeBytes g i bs).line = s.line :=
  State.writeBytes_keeps State.line (by simp) g i bs s
@[simp] theorem State.writeBytes_hearsSelf (g : Nat → Loc) (i : Nat) (bs : List Byte) (s : State) : (s.writeBytes g i bs).hearsSelf = s.hearsSelf :=
  State.writeBytes_keeps State.hearsSelf (by simp) g i bs s
@[simp] theorem State.writeBytes_host (g : Nat → Loc) (i : Nat) (bs : List Byte) (s : State) : (s.writeBytes g i bs).host = s.host :=
  State.writeBytes_keeps State.host (by simp) g i bs s
@[simp] theorem State.writeBytes_freshDone (g : Nat → Loc) (i : Nat) (bs : List Byte) (s : State) : (s.writeBytes g i bs).freshDone = s.freshDone :=
  State.writeBytes_keeps State.freshDone (by simp) g i bs s
@[simp] theorem State.writeBytes_freshRx (g : Nat → Loc) (i : Nat) (bs : List Byte) (s : State) : (s.writeBytes g i bs).freshRx = s.freshRx :=
  State.writeBytes_keeps State.freshRx (by simp) g i bs s
@[simp] theorem State.writeBytes_freshErr (g : Nat → Loc) (i : Nat) (bs : List Byte) (s : State) : (s.writeBytes g i bs).freshErr = s.freshErr :=
  State.writeBytes_keeps State.freshErr (by simp) g i bs s
@[simp] theorem State.writeBytes_freshCmd (g : Nat → Loc) (i : Nat) (bs : List Byte) (s : State) : (s.writeBytes g i bs).freshCmd = s.freshCmd :=
  State.writeBytes_keeps State.freshCmd (by simp) g i bs s
@[simp] theorem State.writeBytes_trace (g : Nat → Loc) (i : Nat) (bs : List Byte) (s : State) : (s.writeBytes g i bs).trace = s.trace :=
  State.writeBytes_keeps State.trace (by simp) g i bs s
@[simp] theorem State.writeBytes_events (g : Nat → Loc) (i : Nat) (bs : List Byte) (s : State) : (s.writeBytes g i bs).events = s.events :=
  State.writeBytes_keeps State.events (by simp) g i bs s
@[simp] theorem State.writeBytes_reads (g : Nat → Loc) (i : Nat) (bs : List Byte) (s : State) : (s.writeBytes g i bs).reads = s.reads :=
  State.writeBytes_keeps State.reads (by simp) g i bs s

/-! ### Views -/

@[simp] theorem State.withWork_undisturbed (f : Work → Work) (s : State) : (s.withWork f).undisturbed = s.undisturbed := rfl
@[simp] theorem State.withWork_now (f : Work → Work) (s : State) : (s.withWork f).now = s.now := rfl
@[simp] theorem State.withWork_pins (f : Work → Work) (s : State) : (s.withWork f).pins = s.pins := rfl
@[simp] theorem State.withLineO_undisturbed (b : Bool) (s : State) : (s.withLineO b).undisturbed = s.undisturbed := rfl
@[simp] theorem State.withLineO_now (b : Bool) (s : State) : (s.withLineO b).now = s.now := rfl
@[simp] theorem State.withLineOe_undisturbed (b : Bool) (s : State) : (s.withLineOe b).undisturbed = s.undisturbed := rfl
@[simp] theorem State.withLineOe_now (b : Bool) (s : State) : (s.withLineOe b).now = s.now := rfl
@[simp] theorem State.withHost_now (l : List HostAct) (s : State) : (s.withHost l).now = s.now := rfl
@[simp] theorem State.withHost_pins (l : List HostAct) (s : State) : (s.withHost l).pins = s.pins := rfl
@[simp] theorem State.withArg_undisturbed (v : Word) (s : State) : (s.withArg v).undisturbed = s.undisturbed := rfl
@[simp] theorem State.withArg_now (v : Word) (s : State) : (s.withArg v).now = s.now := rfl
@[simp] theorem State.withArg_pins (v : Word) (s : State) : (s.withArg v).pins = s.pins := rfl
@[simp] theorem State.pass_undisturbed (d : Nat) (s : State) : (s.pass d).undisturbed = s.undisturbed := rfl
@[simp] theorem State.pass_pins (d : Nat) (s : State) : (s.pass d).pins = s.pins := rfl
@[simp] theorem State.setSlot_undisturbed (k : Nat) (q : Slot) (s : State) : (s.setSlot k q).undisturbed = s.undisturbed := rfl
@[simp] theorem State.setSlot_now (k : Nat) (q : Slot) (s : State) : (s.setSlot k q).now = s.now := rfl
@[simp] theorem State.setSlot_pins (k : Nat) (q : Slot) (s : State) : (s.setSlot k q).pins = s.pins := rfl
@[simp] theorem State.refuse_undisturbed (s : State) : (s.refuse).undisturbed = s.undisturbed := rfl
@[simp] theorem State.refuse_now (s : State) : (s.refuse).now = s.now := rfl
@[simp] theorem State.refuse_pins (s : State) : (s.refuse).pins = s.pins := rfl
@[simp] theorem State.busRead_undisturbed (a : BusAddr) (s : State) : (s.busRead a).undisturbed = s.undisturbed := rfl
@[simp] theorem State.busRead_now (a : BusAddr) (s : State) : (s.busRead a).now = s.now := rfl
@[simp] theorem State.busRead_pins (a : BusAddr) (s : State) : (s.busRead a).pins = s.pins := rfl
@[simp] theorem State.writeStatus_undisturbed (v : Word) (s : State) : (s.writeStatus v).undisturbed = s.undisturbed := rfl
@[simp] theorem State.writeStatus_now (v : Word) (s : State) : (s.writeStatus v).now = s.now := rfl
@[simp] theorem State.writeStatus_pins (v : Word) (s : State) : (s.writeStatus v).pins = s.pins := rfl
@[simp] theorem State.rxEvent_undisturbed (n : Byte) (s : State) : (s.rxEvent n).undisturbed = s.undisturbed := rfl
@[simp] theorem State.rxEvent_now (n : Byte) (s : State) : (s.rxEvent n).now = s.now := rfl
@[simp] theorem State.rxEvent_pins (n : Byte) (s : State) : (s.rxEvent n).pins = s.pins := rfl
@[simp] theorem State.errorEvent_undisturbed (e : ErrKind) (n : Byte) (s : State) : (s.errorEvent e n).undisturbed = s.undisturbed := rfl
@[simp] theorem State.errorEvent_now (e : ErrKind) (n : Byte) (s : State) : (s.errorEvent e n).now = s.now := rfl
@[simp] theorem State.errorEvent_pins (e : ErrKind) (n : Byte) (s : State) : (s.errorEvent e n).pins = s.pins := rfl
@[simp] theorem State.accept_undisturbed (i : Instr) (s : State) : (s.accept i).undisturbed = s.undisturbed := rfl
@[simp] theorem State.accept_now (i : Instr) (s : State) : (s.accept i).now = s.now := rfl
@[simp] theorem State.accept_pins (i : Instr) (s : State) : (s.accept i).pins = s.pins := rfl
@[simp] theorem State.finish_undisturbed (r : Word) (s : State) : (s.finish r).undisturbed = s.undisturbed := rfl
@[simp] theorem State.finish_now (r : Word) (s : State) : (s.finish r).now = s.now := rfl
@[simp] theorem State.finish_pins (r : Word) (s : State) : (s.finish r).pins = s.pins := rfl
@[simp] theorem State.withLineO_pins (b : Bool) (s : State) : (s.withLineO b).pins = ⟨s.lineOe, b⟩ := rfl
@[simp] theorem State.withLineOe_pins (b : Bool) (s : State) : (s.withLineOe b).pins = ⟨b, s.lineO⟩ := rfl
@[simp] theorem State.setByte_undisturbed (l : Loc) (v : Byte) (s : State) : (s.setByte l v).undisturbed = s.undisturbed := by
  cases l <;> rfl
@[simp] theorem State.setByte_now (l : Loc) (v : Byte) (s : State) : (s.setByte l v).now = s.now := by cases l <;> rfl
@[simp] theorem State.setByte_pins (l : Loc) (v : Byte) (s : State) : (s.setByte l v).pins = s.pins := by cases l <;> rfl
@[simp] theorem State.writeBytes_undisturbed (g : Nat → Loc) (i : Nat) (bs : List Byte) (s : State) :
    (s.writeBytes g i bs).undisturbed = s.undisturbed := State.writeBytes_keeps State.undisturbed (by simp) g i bs s
@[simp] theorem State.writeBytes_now (g : Nat → Loc) (i : Nat) (bs : List Byte) (s : State) :
    (s.writeBytes g i bs).now = s.now := State.writeBytes_keeps State.now (by simp) g i bs s
@[simp] theorem State.writeBytes_pins (g : Nat → Loc) (i : Nat) (bs : List Byte) (s : State) :
    (s.writeBytes g i bs).pins = s.pins := State.writeBytes_keeps State.pins (by simp) g i bs s

/-! ### The normal form of nested updates: working registers outermost, then ticks, then the pins -/

@[simp] theorem State.withWork_withWork (f g : Work → Work) (s : State) :
    (s.withWork f).withWork g = s.withWork fun w => g (f w) := rfl
@[simp] theorem State.withWork_pass (f : Work → Work) (d : Nat) (s : State) :
    (s.withWork f).pass d = (s.pass d).withWork f := rfl
@[simp] theorem State.withWork_withLineO (f : Work → Work) (b : Bool) (s : State) :
    (s.withWork f).withLineO b = (s.withLineO b).withWork f := rfl
@[simp] theorem State.withWork_withLineOe (f : Work → Work) (b : Bool) (s : State) :
    (s.withWork f).withLineOe b = (s.withLineOe b).withWork f := rfl
@[simp] theorem State.withLineO_withLineO (a b : Bool) (s : State) : (s.withLineO a).withLineO b = s.withLineO b := rfl
@[simp] theorem State.withLineOe_withLineOe (a b : Bool) (s : State) :
    (s.withLineOe a).withLineOe b = s.withLineOe b := rfl

end Sys2Proof.Machine
end

