-- ==== Sys2Proof/Laws/Cmd.lean ====
section
/-! SUPPORT. How procedures compose: the result of a sequence, of the primitive reads and writes, and of `hold` when nothing
disturbs the block. -/

namespace Sys2Proof.Machine

variable {α β : Type}

/-- Run the rest of a procedure on what its first part left. -/
def Cmd.andThen (r : Except Exit (α × State)) (f : α → Cmd β) : Except Exit (β × State) :=
  match r with
  | .ok (a, t) => f a t
  | .error e => .error e

@[simp] theorem Cmd.bind_apply (x : Cmd α) (f : α → Cmd β) (s : State) :
    (x >>= f) s = Cmd.andThen (x s) f := by
  simp only [bind, StateT.bind, Cmd.andThen]
  show Except.bind (x s) _ = _
  cases x s <;> rfl

@[simp] theorem Cmd.map_apply (f : α → β) (x : Cmd α) (s : State) :
    (f <$> x) s = Cmd.andThen (x s) fun a => pure (f a) := by
  simp only [Functor.map, StateT.map, Cmd.andThen]
  show Except.bind (x s) _ = _
  cases x s <;> rfl

@[simp] theorem Cmd.andThen_ok (a : α) (t : State) (f : α → Cmd β) :
    Cmd.andThen (.ok (a, t)) f = f a t := rfl

@[simp] theorem Cmd.andThen_error (e : Exit) (f : α → Cmd β) :
    Cmd.andThen (.error e) f = .error e := rfl

@[simp] theorem Cmd.pure_apply (a : α) (s : State) : (pure a : Cmd α) s = .ok (a, s) := rfl

@[simp] theorem Cmd.throw_apply (e : Exit) (s : State) : (throw e : Cmd α) s = .error e := rfl

@[simp] theorem look_apply (f : State → α) (s : State) : look f s = .ok (f s, s) := rfl

@[simp] theorem modify_apply (f : State → State) (s : State) :
    (modify f : Cmd Unit) s = .ok ((), f s) := rfl

@[simp] theorem setWork_apply (f : Work → Work) (s : State) :
    setWork f s = .ok ((), s.withWork f) := rfl

@[simp] theorem setLineO_apply (b : Bool) (s : State) : setLineO b s = .ok ((), s.withLineO b) := rfl

@[simp] theorem setLineOe_apply (b : Bool) (s : State) : setLineOe b s = .ok ((), s.withLineOe b) := rfl

@[simp] theorem storeByte_apply (l : Loc) (v : Byte) (s : State) : storeByte l v s = .ok ((), s.setByte l v) := rfl

@[simp] theorem emitRxFrame_apply (len : Byte) (s : State) : emitRxFrame len s = .ok ((), s.rxEvent len) := rfl

@[simp] theorem emitError_apply (k : ErrKind) (ctx : Byte) (s : State) :
    emitError k ctx s = .ok ((), s.errorEvent k ctx) := rfl

@[simp] theorem ite_apply_state (c : Prop) [Decidable c] (x y : Cmd α) (s : State) :
    (if c then x else y) s = if c then x s else y s := by
  split <;> rfl

theorem State.pass_zero (s : State) : s.pass 0 = s := by
  simp [State.pass, pushRun]

/-- With no host action landing during the command, `hold` lets the ticks pass and does nothing else. -/
theorem hold_undisturbed (d : Nat) {s : State} (h : s.undisturbed = true) : hold d s = .ok ((), s.pass d) := by
  unfold hold
  split
  · next h0 => subst h0; rw [State.pass_zero]
  · unfold State.undisturbed at h
    split at h
    · next he => rw [he, advanceOver]
    · next act rest he =>
      rw [he, advanceOver]
      split at h
      · next => rfl
      · cases h

end Sys2Proof.Machine
end

