-- ==== Sys2Proof/Laws/Time.lean ====
section
/-! SUPPORT. Traces and the passing of ticks. -/

namespace Sys2Proof.Machine

/-! ### Traces -/

@[simp] theorem pushRun_zero (p : Pins) (tr : List PinRun) : pushRun p 0 tr = tr := by simp [pushRun]

theorem pushRun_add (p : Pins) (a b : Nat) (tr : List PinRun) :
    pushRun p b (pushRun p a tr) = pushRun p (a + b) tr := by
  rcases Nat.eq_zero_or_pos a with rfl | ha
  · simp
  rcases Nat.eq_zero_or_pos b with rfl | hb
  · simp
  have h1 : a ≠ 0 := by omega
  have h2 : b ≠ 0 := by omega
  have h3 : a + b ≠ 0 := by omega
  cases tr with
  | nil => simp [pushRun, h1, h2]
  | cons r rest =>
    by_cases hp : r.pins = p <;> simp [pushRun, h1, h2, hp, Nat.add_assoc]

@[simp] theorem traceTicks_pushRun (p : Pins) (d : Nat) (tr : List PinRun) :
    traceTicks (pushRun p d tr) = traceTicks tr + d := by
  unfold pushRun
  split
  · next h => simp [h]
  · split
    · simp [traceTicks]
    · split <;> simp [traceTicks] <;> omega

/-- The newest `d` ticks of an extended trace have the pins that were pushed, the ticks before them are as they were. -/
theorem pinsBack_pushRun (p : Pins) (d : Nat) (tr : List PinRun) (back : Nat) :
    pinsBack (pushRun p d tr) back = if back < d then some p else pinsBack tr (back - d) := by
  unfold pushRun
  split
  · next h => simp [h]
  · split
    · simp [pinsBack]
    · next r rest =>
      split
      · next hp =>
        simp only [pinsBack]
        by_cases h1 : back < d
        · simp [h1, show back < r.ticks + d by omega]
        · by_cases h2 : back < r.ticks + d
          · simp [h1, h2, show back - d < r.ticks by omega, hp]
          · simp [h1, h2, show ¬ back - d < r.ticks by omega, show back - (r.ticks + d) = back - d - r.ticks by omega]
      · simp [pinsBack]

/-! ### Levels -/

theorem levelIn_append (rest : Bool) (a b : List (Bool × Nat)) (τ : Nat) :
    levelIn rest (a ++ b) τ =
      if τ < (a.map Prod.snd).sum then levelIn rest a τ else levelIn rest b (τ - (a.map Prod.snd).sum) := by
  induction a generalizing τ with
  | nil => simp
  | cons r a ih =>
    obtain ⟨l, n⟩ := r
    simp only [List.cons_append, levelIn, List.map_cons, List.sum_cons]
    by_cases h : τ < n
    · simp [h, show τ < n + (a.map Prod.snd).sum by omega]
    · rw [if_neg h, if_neg h, ih]
      by_cases h2 : τ < n + (a.map Prod.snd).sum
      · rw [if_pos h2, if_pos (by omega)]
      · rw [if_neg h2, if_neg (by omega), Nat.sub_add_eq]

/-- A waveform that carries two stretches carries each of them. -/
theorem State.carries_append {s : State} {T : Nat} {a b : List (Bool × Nat)} (h : s.carries T (a ++ b)) :
    s.carries T a ∧ s.carries (T + (a.map Prod.snd).sum) b := by
  constructor
  · intro j hj
    rw [h j (by simp; omega), levelIn_append, if_pos hj]
  · intro j hj
    rw [Nat.add_assoc, h _ (by simp; omega), levelIn_append, if_neg (by omega)]
    congr 1
    omega

/-! ### Ticks that pass -/

theorem State.pass_pass (s : State) (a b : Nat) : (s.pass a).pass b = s.pass (a + b) := by
  simp [State.pass, State.pins, pushRun_add, Nat.add_assoc, Bool.and_assoc]

/-- After at least one tick no flag is fresh. -/
theorem State.pass_pos (s : State) {d : Nat} (h : 0 < d) :
    s.pass d = { s with time := s.time + d, trace := pushRun s.pins d s.trace,
                        freshDone := false, freshRx := false, freshErr := false, freshCmd := false } := by
  simp [State.pass, show d ≠ 0 by omega]

/-! ### The configuration's ranges -/

theorem Cfg.bounds (c : Cfg) :
    c.val.ownAddr ≠ 0 ∧ c.val.ownAddr ≠ 124
    ∧ 1 ≤ c.val.bitWidth ∧ c.val.bitWidth ≤ 65535
    ∧ 1 ≤ c.val.bitSpacer ∧ c.val.bitSpacer ≤ 65535
    ∧ 1 ≤ c.val.maxPackets ∧ c.val.maxPackets ≤ 255
    ∧ 4 + c.val.encEn.toNat ≤ c.val.maxFrameLen ∧ c.val.maxFrameLen ≤ 256
    ∧ c.val.maxAttempts ≤ 254
    ∧ 1 ≤ c.val.encStrength ∧ c.val.encStrength ≤ 256
    ∧ 1 ≤ c.val.key.length ∧ c.val.key.length ≤ 256
    ∧ c.val.flushUs ≤ 65535 :=
  of_decide_eq_true c.property

theorem Cfg.bitWidth_pos (c : Cfg) : 0 < c.val.bitWidth := (Cfg.bounds c).2.2.1

theorem Cfg.bitSpacer_pos (c : Cfg) : 0 < c.val.bitSpacer := (Cfg.bounds c).2.2.2.2.1

theorem Cfg.maxPayload_le (c : Cfg) : maxPayload c.val ≤ 252 := by
  have := (Cfg.bounds c).2.2.2.2.2.2.2.2.2.1
  unfold maxPayload
  omega

end Sys2Proof.Machine
end

