-- ==== Sys2Proof/Laws/BitLayer.lean ====
section
/-! SUPPORT. The filter, and what the operations of the bit layer leave when nothing disturbs the block. -/

namespace Sys2Proof.Machine

/-! ### The filter -/

theorem Filter.run_append (v : Filter) (a b : List Bool) : v.run (a ++ b) = (v.run a).run b := by
  simp [Filter.run]

theorem Filter.run_p_pos (v : Filter) (h : 0 < v.p) (l : List Bool) : 0 < (v.run l).p := by
  induction l generalizing v with
  | nil => simpa [Filter.run] using h
  | cons b l ih =>
    have : v.run (b :: l) = (v.step b).run l := rfl
    rw [this]
    exact ih _ (by simp [Filter.step]; omega)

/-- A window of equal samples reads that level. -/
theorem majority_replicate (b : Bool) {n : Nat} (h : 0 < n) : majority (List.replicate n b) = b := by
  have key : ∀ m (v : Filter), 0 < v.p → (0 ≤ if b then v.e else -v.e) →
      0 ≤ (if b then (v.run (List.replicate m b)).e else -(v.run (List.replicate m b)).e)
      ∧ (0 < m → 0 < (if b then (v.run (List.replicate m b)).e else -(v.run (List.replicate m b)).e)) := by
    intro m
    induction m with
    | zero => intro v _ hv; simpa [Filter.run] using hv
    | succ m ih =>
      intro v hp hv
      have hstep : v.run (List.replicate (m + 1) b) = (v.run (List.replicate m b)).step b := by
        rw [List.replicate_succ', Filter.run_append]; rfl
      have hpos := Filter.run_p_pos v hp (List.replicate m b)
      obtain ⟨h0, -⟩ := ih v hp hv
      rw [hstep]
      cases b <;> simp only [Filter.step, if_true, if_false, Bool.false_eq_true] at h0 ⊢ <;> omega
  have := (key n Filter.half (by decide) (by cases b <;> decide)).2 h
  unfold majority Filter.aboveHalf
  cases b <;> simp only [if_true, if_false, Bool.false_eq_true] at this
  · exact decide_eq_false (by omega)
  · exact decide_eq_true this

theorem majority_nil : majority [] = false := by decide

/-- Stage 1 of `receiveByte` passes exactly when one HIGH sample was seen. -/
theorem majority_high (n : Nat) : majority (List.replicate n true) = decide (0 < n) := by
  rcases Nat.eq_zero_or_pos n with rfl | h
  · simp [majority_nil]
  · simp [majority_replicate true h, h]

/-! ### Samples -/

/-- With the line as input the samples are what the environment supplies. -/
theorem State.lineAt_input {s : State} (h : s.lineOe = false) (τ : Nat) : s.lineAt τ = s.line.level τ := by
  unfold State.lineAt orMedium
  split <;> simp [State.pins, Pins.drives, h]

/-- With the line as input a window of samples is a window of the environment's waveform. -/
theorem State.samples_input {s : State} (h : s.lineOe = false) (d : Nat) :
    majority (s.samples d) = s.window s.time d := by
  simp [State.samples, State.window, State.lineAt_input h]

/-- A window over which the environment's waveform stands at one level reads that level. -/
theorem State.window_const {s : State} {T d : Nat} {b : Bool} (hd : 0 < d)
    (h : ∀ j, j < d → s.line.level (T + j) = b) : s.window T d = b := by
  have : (List.range d).map (fun j => s.line.level (T + j)) = List.replicate d b := by
    rw [List.eq_replicate_iff]
    exact ⟨by simp, by simpa using h⟩
  rw [State.window, this, majority_replicate b hd]

theorem State.highRun_le (s : State) (n τ : Nat) : s.highRun n τ ≤ n := by
  induction n generalizing τ with
  | zero => simp [State.highRun]
  | succ n ih =>
    unfold State.highRun
    split
    · have := ih (τ + 1); omega
    · omega

/-- A line that is HIGH throughout gives the full count. -/
theorem State.highRun_full {s : State} {n τ : Nat} (h : ∀ j, j < n → s.lineAt (τ + j) = true) :
    s.highRun n τ = n := by
  induction n generalizing τ with
  | zero => rfl
  | succ n ih =>
    unfold State.highRun
    rw [if_pos (by simpa using h 0 (by omega)), ih]
    intro j hj
    have := h (j + 1) (by omega)
    rwa [show τ + (j + 1) = τ + 1 + j by omega] at this

theorem State.highRun_low {s : State} {n τ : Nat} (h : s.lineAt τ = false) : s.highRun n τ = 0 := by
  cases n <;> simp [State.highRun, h]

/-- The levels of the environment do not depend on the block's registers. -/
@[simp] theorem State.lineAt_withWork (f : Work → Work) (s : State) (τ : Nat) : (s.withWork f).lineAt τ = s.lineAt τ := rfl

@[simp] theorem State.lineAt_pass (d : Nat) (s : State) (τ : Nat) : (s.pass d).lineAt τ = s.lineAt τ := rfl

@[simp] theorem State.samples_withWork (f : Work → Work) (s : State) (d : Nat) :
    (s.withWork f).samples d = s.samples d := rfl

theorem State.highRun_congr {s t : State} (h : ∀ τ, s.lineAt τ = t.lineAt τ) (n τ : Nat) :
    s.highRun n τ = t.highRun n τ := by
  induction n generalizing τ with
  | zero => rfl
  | succ n ih => simp only [State.highRun, h, ih]

/-- Before the run's end every sample is HIGH. -/
theorem State.highRun_high {s : State} {n τ j : Nat} (h : j < s.highRun n τ) : s.lineAt (τ + j) = true := by
  induction n generalizing τ j with
  | zero => simp [State.highRun] at h
  | succ n ih =>
    unfold State.highRun at h
    split at h
    · next h0 =>
      rcases j with _ | j
      · simpa using h0
      · rw [show τ + (j + 1) = τ + 1 + j by omega]
        exact ih (by omega)
    · omega

/-- A run shorter than its bound ends at a LOW sample. -/
theorem State.highRun_end {s : State} {n τ : Nat} (h : s.highRun n τ < n) : s.lineAt (τ + s.highRun n τ) = false := by
  induction n generalizing τ with
  | zero => omega
  | succ n ih =>
    unfold State.highRun at h ⊢
    split at h
    · next h0 =>
      rw [if_pos h0, ← Nat.add_assoc, Nat.add_right_comm]
      exact ih (by omega)
    · next h0 => rw [if_neg h0]; simpa using h0

/-! ### The bit layer, alone -/

/-- `sendBit` alone. -/
theorem sendBit_alone (level : Bool) (d : Nat) {s : State} (h : s.undisturbed = true) :
    sendBit level d s = .ok ((), ((s.withLineO level).pass d).withWork fun w => { w with k := 0 }) := by
  simp [sendBit, hold_undisturbed, h]

/-- `sampleBit` alone: the window is read and its ticks pass. -/
theorem sampleBit_alone (d : Nat) {s : State} (h : s.undisturbed = true) :
    sampleBit d s =
      .ok (majority (s.samples d),
        (s.pass d).withWork fun w => { w with k := 0, v := Filter.half.run (s.samples d) }) := by
  simp [sampleBit, hold_undisturbed, h, majority]

/-! ### Working registers above the byte layer -/

/-- The working registers that the bit and byte layers do not touch. -/
def Work.codec (w : Work) : Work := { w with v := ⟨0, 1⟩, k := 0, h := 0, r := 0, i8 := 0 }

theorem Work.codec_eq {a b : Work} (h : a.codec = b.codec) :
    a.crc = b.crc ∧ a.L = b.L ∧ a.idx = b.idx ∧ a.n = b.n ∧ a.m = b.m ∧ a.ci = b.ci ∧ a.cj = b.cj ∧ a.iv = b.iv
      ∧ a.t0 = b.t0 ∧ a.resp = b.resp ∧ a.cur = b.cur ∧ a.cnt = b.cnt := by
  simp only [Work.codec, Work.mk.injEq] at h
  simp_all

/-! ### Driving levels -/

/-- What driving runs of levels leaves (the working registers apart). -/
def State.drive (runs : List (Bool × Nat)) (s : State) : State :=
  runs.foldl (fun u r => (u.withLineO r.1).pass r.2) s

@[simp] theorem State.drive_nil (s : State) : s.drive [] = s := rfl

@[simp] theorem State.drive_cons (r : Bool × Nat) (runs : List (Bool × Nat)) (s : State) :
    s.drive (r :: runs) = ((s.withLineO r.1).pass r.2).drive runs := rfl

theorem State.drive_append (a b : List (Bool × Nat)) (s : State) : s.drive (a ++ b) = (s.drive a).drive b := by
  simp [State.drive]

@[simp] theorem State.withWork_drive (f : Work → Work) (runs : List (Bool × Nat)) (s : State) :
    (s.withWork f).drive runs = (s.drive runs).withWork f := by
  induction runs generalizing s with
  | nil => rfl
  | cons r runs ih => simp [ih]

/-- What neither a level nor a tick changes, driving does not. -/
theorem State.drive_keeps {β : Type} (f : State → β) (h : ∀ b d s, f ((State.withLineO b s).pass d) = f s)
    (runs : List (Bool × Nat)) (s : State) : f (s.drive runs) = f s := by
  induction runs generalizing s with
  | nil => rfl
  | cons r runs ih => rw [State.drive_cons, ih, h]

@[simp] theorem State.drive_cfg (runs : List (Bool × Nat)) (s : State) : (s.drive runs).cfg = s.cfg :=
  State.drive_keeps State.cfg (by simp) runs s
@[simp] theorem State.drive_work (runs : List (Bool × Nat)) (s : State) : (s.drive runs).work = s.work :=
  State.drive_keeps State.work (by simp) runs s
@[simp] theorem State.drive_lineOe (runs : List (Bool × Nat)) (s : State) : (s.drive runs).lineOe = s.lineOe :=
  State.drive_keeps State.lineOe (by simp) runs s
@[simp] theorem State.drive_undisturbed (runs : List (Bool × Nat)) (s : State) :
    (s.drive runs).undisturbed = s.undisturbed := State.drive_keeps State.undisturbed (by simp) runs s
@[simp] theorem State.drive_stored (runs : List (Bool × Nat)) (s : State) : (s.drive runs).stored = s.stored :=
  State.drive_keeps State.stored (by intros; funext l; cases l <;> rfl) runs s
@[simp] theorem State.drive_byteAt (runs : List (Bool × Nat)) (s : State) : (s.drive runs).byteAt = s.byteAt :=
  State.drive_keeps State.byteAt (by intros; funext l; cases l <;> rfl) runs s
@[simp] theorem State.drive_line (runs : List (Bool × Nat)) (s : State) : (s.drive runs).line = s.line :=
  State.drive_keeps State.line (by simp) runs s
@[simp] theorem State.drive_clock0 (runs : List (Bool × Nat)) (s : State) : (s.drive runs).clock0 = s.clock0 :=
  State.drive_keeps State.clock0 (by simp) runs s

@[simp] theorem State.drive_time (runs : List (Bool × Nat)) (s : State) :
    (s.drive runs).time = s.time + (runs.map Prod.snd).sum := by
  induction runs generalizing s with
  | nil => simp
  | cons r runs ih => simp [ih, Nat.add_assoc]

/-- Driving runs touches the pins' level, time, the trace and the fresh marks only. -/
theorem State.drive_eq (runs : List (Bool × Nat)) (s : State) (hoe : s.lineOe = true) :
    s.drive runs =
      { s with
        lineO := (runs.getLast?.map Prod.fst).getD s.lineO
        time := s.time + (runs.map Prod.snd).sum
        trace := driveRuns runs s.trace
        freshDone := s.freshDone && decide ((runs.map Prod.snd).sum = 0)
        freshRx := s.freshRx && decide ((runs.map Prod.snd).sum = 0)
        freshErr := s.freshErr && decide ((runs.map Prod.snd).sum = 0)
        freshCmd := s.freshCmd && decide ((runs.map Prod.snd).sum = 0) } := by
  induction runs generalizing s with
  | nil => simp [driveRuns]
  | cons r runs ih =>
    rw [State.drive_cons, ih _ (by simpa using hoe)]
    have h2 : ∀ x : Bool, ((x && decide (r.2 = 0)) && decide ((runs.map Prod.snd).sum = 0))
        = (x && decide (r.2 + (runs.map Prod.snd).sum = 0)) := by
      intro x
      by_cases ha : r.2 = 0 <;> by_cases hb : (runs.map Prod.snd).sum = 0 <;> simp [ha, hb]
    simp only [State.pass, State.withLineO, List.map_cons, List.sum_cons, h2, Nat.add_assoc, driveRuns,
      List.foldl_cons, State.pins, hoe]
    congr 1
    cases runs with
    | nil => simp
    | cons r' rs => rw [List.getLast?_cons_cons, List.getLast?_eq_getLast_of_ne_nil (List.cons_ne_nil _ _)]; rfl

end Sys2Proof.Machine
end

