-- ==== Sys2Proof/Laws/ByteLayer.lean ====
section
/-! SUPPORT. What the operations of the byte layer and of the channel sensor leave when nothing disturbs the block. -/

namespace Sys2Proof.Machine

/-! ### Sending -/

theorem sendDataBits_alone (x : Byte) (js : List Nat) {s : State} (h : s.undisturbed = true) :
    ∃ w, sendDataBits x js s =
        .ok ((), (s.drive (js.map fun j => (x.getLsbD j, s.cfg.val.bitWidth))).withWork fun _ => w)
      ∧ w.codec = s.work.codec := by
  induction js generalizing s with
  | nil => exact ⟨s.work, rfl, rfl⟩
  | cons j js ih =>
    have hb : ∀ (f : Work → Work), (s.withWork f).undisturbed = true := fun _ => h
    obtain ⟨w, hw, hc⟩ := ih (s := ((s.withLineO (x.getLsbD j)).pass s.cfg.val.bitWidth).withWork fun w =>
      { w with i8 := BitVec.ofNat 4 j, k := 0 }) h
    refine ⟨w, ?_, hc⟩
    simp only [sendDataBits, Cmd.bind_apply, setWork_apply, Cmd.andThen_ok, look_apply, sendBit_alone _ _ (hb _)]
    simpa using hw

/-- `sendByte` alone: the levels of one symbol are driven with the line as output. -/
theorem sendByte_alone (x : Byte) {s : State} (h : s.undisturbed = true) :
    ∃ w, sendByte x s =
        .ok ((), ((s.withLineOe true).drive (symbolRuns s.cfg.val x)).withWork fun _ => w)
      ∧ w.codec = s.work.codec := by
  have hb : ∀ (f : Work → Work) (b : Bool), ((s.withLineOe b).withWork f).undisturbed = true := fun _ _ => h
  obtain ⟨w, hw, hc⟩ := sendDataBits_alone x (List.range 8)
    (s := (((((s.withLineOe true).withLineO true).pass s.cfg.val.bitSpacer).withLineO false).pass
      s.cfg.val.bitWidth).withWork fun w => { w with k := 0 }) (by simpa using h)
  refine ⟨{ w with i8 := 8 }, ?_, ?_⟩
  swap
  · exact Eq.trans (b := w.codec) rfl (hc.trans (by simp [Work.codec]))
  have e1 := sendBit_alone true s.cfg.val.bitSpacer (s := s.withLineOe true) h
  have e2 := sendBit_alone false s.cfg.val.bitWidth
    (s := (((s.withLineOe true).withLineO true).pass s.cfg.val.bitSpacer).withWork fun w => { w with k := 0 }) h
  simp only [State.withWork_withLineO, State.withWork_pass, State.withWork_withWork] at e2
  simp only [sendByte, Cmd.bind_apply, setLineOe_apply, Cmd.andThen_ok, look_apply, State.withLineOe_cfg, e1,
    State.withWork_cfg, State.pass_cfg, State.withLineO_cfg, e2, hw, setWork_apply]
  simp [symbolRuns]

/-! ### Receiving -/

/-- The byte that eight windows from time `T` on read of the levels `lvl`. -/
theorem readDataBits_alone (js : List Nat) (hn : js.Nodup) {s : State} (h : s.undisturbed = true) :
    ∃ w, readDataBits js s = .ok ((), (s.pass (s.cfg.val.bitWidth * js.length)).withWork fun _ => w)
      ∧ w.codec = s.work.codec
      ∧ ∀ i, i < 8 → w.r.getLsbD i =
          (s.work.r.getLsbD i || (decide (i ∈ js) && majority ((List.range s.cfg.val.bitWidth).map fun k =>
            s.lineAt (s.time + s.cfg.val.bitWidth * js.idxOf i + k)))) := by
  induction js generalizing s with
  | nil => exact ⟨s.work, by simp [readDataBits, State.pass_zero]; rfl, rfl, by simp⟩
  | cons j js ih =>
    rw [List.nodup_cons] at hn
    have hb : ∀ (f : Work → Work), (s.withWork f).undisturbed = true := fun _ => h
    obtain ⟨w, hw, hc, hr⟩ := ih hn.2 (s := (s.pass s.cfg.val.bitWidth).withWork fun w =>
      { w with
        i8 := BitVec.ofNat 4 j, k := 0, v := Filter.half.run (s.samples s.cfg.val.bitWidth)
        r := if majority (s.samples s.cfg.val.bitWidth) then w.r ||| BitVec.twoPow 8 j else w.r }) h
    refine ⟨w, ?_, hc, ?_⟩
    · simp only [readDataBits, Cmd.bind_apply, setWork_apply, Cmd.andThen_ok, look_apply, sampleBit_alone _ (hb _)]
      simp only [State.samples_withWork, State.withWork_pass, State.withWork_withWork, State.withWork_cfg] at hw ⊢
      refine hw.trans ?_
      simp [State.pass_pass, Nat.mul_add, Nat.add_comm]
    · intro i hi
      rw [hr i hi]
      by_cases hij : i = j
      · subst hij
        simp only [State.withWork_work, State.pass_work, hn.1, decide_false, Bool.false_and, Bool.or_false,
          List.mem_cons, true_or, decide_true, Bool.true_and, List.idxOf_cons_self, Nat.mul_zero, Nat.add_zero]
        have : majority (s.samples s.cfg.val.bitWidth) = majority ((List.range s.cfg.val.bitWidth).map fun k =>
            s.lineAt (s.time + k)) := rfl
        rw [← this]
        split <;> rename_i hm <;> simp [hm, hi]
      · have hji : ¬ j = i := fun e => hij e.symm
        simp only [State.withWork_work, State.pass_work, List.mem_cons, hij, false_or,
          State.withWork_cfg, State.pass_cfg, State.withWork_time, State.pass_time, State.lineAt_withWork,
          State.lineAt_pass, List.idxOf_cons_ne _ hji]
        have : (if majority (s.samples s.cfg.val.bitWidth) = true then s.work.r ||| BitVec.twoPow 8 j else s.work.r).getLsbD i
            = s.work.r.getLsbD i := by
          split <;> simp [BitVec.getLsbD_twoPow, hji]
        rw [this, Nat.mul_succ]
        simp only [Nat.add_assoc, Nat.add_left_comm, Nat.add_comm]

/-- `readByte` alone: bit `i` is the reading of window `i`. -/
theorem readByte_alone {s : State} (h : s.undisturbed = true) :
    ∃ r w, readByte s = .ok (r, (s.pass (8 * s.cfg.val.bitWidth)).withWork fun _ => w)
      ∧ w.codec = s.work.codec
      ∧ ∀ i, i < 8 → r.getLsbD i = majority ((List.range s.cfg.val.bitWidth).map fun k =>
          s.lineAt (s.time + s.cfg.val.bitWidth * i + k)) := by
  obtain ⟨w, hw, hc, hr⟩ := readDataBits_alone (List.range 8) List.nodup_range
    (s := s.withWork fun w => { w with r := 0 }) h
  refine ⟨w.r, { w with i8 := 8 }, ?_, hc, ?_⟩
  · simp only [readByte, Cmd.bind_apply, setWork_apply, Cmd.andThen_ok, look_apply, hw]
    simp [Nat.mul_comm]
  · intro i hi
    rw [hr i hi]
    have : (List.range 8).idxOf i = i := by
      have : ∀ i < 8, (List.range 8).idxOf i = i := by decide
      exact this i hi
    simp [hi, this]

/-! ### `receiveByte` -/

/-- With the line as input: stage 1 sees no HIGH sample, `ByteFail` after one tick. -/
theorem receiveByte_low {s : State} (h : s.undisturbed = true) (hl : s.line.level s.time = false) :
    ∃ w, receiveByte s = .ok (.fail, ((s.withLineOe false).pass 1).withWork fun _ => w)
      ∧ w.codec = s.work.codec := by
  have h0 : (s.withLineOe false).highRun s.cfg.val.bitSpacer s.time = 0 :=
    State.highRun_low (by rw [State.lineAt_input rfl]; exact hl)
  refine ⟨{ s.work with v := Filter.half, h := 0 }, ?_, rfl⟩
  have hb : ∀ (f : Work → Work) , ((s.withLineOe false).withWork f).undisturbed = true := fun _ => h
  simp [receiveByte, syncPulse, h0, hold_undisturbed _ (hb _), Filter.run, Filter.aboveHalf,
    Filter.half, Cfg.bitSpacer_pos s.cfg]
  rfl

/-- The ticks of stage 1 after `high` HIGH samples: the LOW sample that ends the stage early is one more (R145). -/
def syncTicks (c : Config) (high : Nat) : Nat := if high < c.bitSpacer then high + 1 else high

/-- Stage 1 passed. -/
theorem receiveByte_sync {s : State} (h : s.undisturbed = true) (hl : s.line.level s.time = true) :
    ∃ high, 0 < high ∧ high ≤ s.cfg.val.bitSpacer ∧ (s.withLineOe false).highRun s.cfg.val.bitSpacer s.time = high
      ∧ receiveByte s = gapAndData (((s.withLineOe false).pass (syncTicks s.cfg.val high)).withWork fun w =>
          { w with v := Filter.half.run (List.replicate high true), h := BitVec.ofNat 16 high }) := by
  have hpos : 0 < (s.withLineOe false).highRun s.cfg.val.bitSpacer s.time := by
    obtain ⟨n, hn⟩ : ∃ n, s.cfg.val.bitSpacer = n + 1 := ⟨_, (Nat.sub_add_cancel (Cfg.bitSpacer_pos s.cfg)).symm⟩
    rw [hn, State.highRun, if_pos (by rw [State.lineAt_input rfl]; exact hl)]
    omega
  refine ⟨_, hpos, State.highRun_le _ _ _, rfl, ?_⟩
  have hb : ∀ (f : Work → Work) , ((s.withLineOe false).withWork f).undisturbed = true := fun _ => h
  have hm := majority_high ((s.withLineOe false).highRun s.cfg.val.bitSpacer s.time)
  rw [decide_eq_true hpos] at hm
  simp only [receiveByte, syncPulse, Cmd.bind_apply, setLineOe_apply, Cmd.andThen_ok, look_apply, setWork_apply,
    State.withLineOe_cfg, State.withLineOe_time, hold_undisturbed _ (hb _), State.withWork_pass, State.withWork_work,
    State.pass_work, State.withLineOe_work, ite_apply_state, syncTicks]
  rw [show (Filter.half.run (List.replicate ((s.withLineOe false).highRun s.cfg.val.bitSpacer s.time) true)).aboveHalf
    = true from hm, if_pos rfl]

/-- Stages 2 and 3. -/
theorem gapAndData_alone {s : State} (h : s.undisturbed = true) (hoe : s.lineOe = false) :
    (s.window s.time s.cfg.val.bitWidth = true →
      ∃ w, gapAndData s = .ok (.fail, (s.pass s.cfg.val.bitWidth).withWork fun _ => w) ∧ w.codec = s.work.codec)
    ∧ (s.window s.time s.cfg.val.bitWidth = false →
      ∃ r w, gapAndData s = .ok (.byte r, (s.pass (9 * s.cfg.val.bitWidth)).withWork fun _ => w)
        ∧ w.codec = s.work.codec
        ∧ ∀ i, i < 8 → r.getLsbD i = s.window (s.time + s.cfg.val.bitWidth * (i + 1)) s.cfg.val.bitWidth) := by
  have hs := sampleBit_alone s.cfg.val.bitWidth h
  rw [State.samples_input hoe] at hs
  constructor
  · intro hw
    rw [hw] at hs
    refine ⟨{ s.work with k := 0, v := Filter.half.run (s.samples s.cfg.val.bitWidth) }, ?_, rfl⟩
    simp [gapAndData, hs]
    rfl
  · intro hw
    rw [hw] at hs
    obtain ⟨r, w, he, hc, hr⟩ := readByte_alone (s := (s.pass s.cfg.val.bitWidth).withWork fun w =>
      { w with k := 0, v := Filter.half.run (s.samples s.cfg.val.bitWidth) }) h
    refine ⟨r, w, ?_, hc, ?_⟩
    · simp only [gapAndData, Cmd.bind_apply, look_apply, Cmd.andThen_ok, hs, ite_apply_state, Bool.false_eq_true, if_false,
        he, Cmd.pure_apply]
      simp [State.pass_pass]
      congr 2
      omega
    · intro i hi
      rw [hr i hi]
      simp only [State.window, State.withWork_cfg, State.pass_cfg, State.withWork_time, State.pass_time,
        State.lineAt_withWork, State.lineAt_pass, State.lineAt_input hoe, Nat.mul_succ]
      congr 2
      funext k
      congr 1
      omega

/-- The levels of consecutive ticks, one by one. -/
theorem levelIn_ticks (ls : List Bool) (j : Nat) : levelIn false (ls.map fun b => (b, 1)) j = ls.getD j false := by
  induction ls generalizing j with
  | nil => rfl
  | cons b ls ih => cases j <;> simp [levelIn, ih]

/-- What a window reads of the levels the line carries there. -/
theorem State.window_carried {s : State} {T : Nat} {ls : List Bool} (h : s.carries T (ls.map fun b => (b, 1))) :
    s.window T ls.length = majority ls := by
  unfold State.window
  congr 1
  refine List.ext_getElem (by simp) fun j h1 h2 => ?_
  rw [List.getElem_map, List.getElem_range, h j (by simpa [Function.comp_def] using h2), levelIn_ticks,
    List.getD_eq_getElem?_getD, List.getElem?_eq_getElem h2, Option.getD_some]

/-- A run of HIGH ticks, and what follows it, that the line carries. -/
theorem State.carries_high {s : State} {T n : Nat} {runs : List (Bool × Nat)} (h : s.carries T ((true, n) :: runs)) :
    (∀ j, j < n → s.line.level (T + j) = true) ∧ s.carries (T + n) runs := by
  obtain ⟨h1, h2⟩ := State.carries_append (a := [(true, n)]) h
  refine ⟨fun j hj => ?_, by simpa using h2⟩
  rw [h1 j (by simpa using hj), levelIn, if_pos hj]

/-- A LOW tick that the line carries. -/
theorem State.carries_low {s : State} {T : Nat} {runs : List (Bool × Nat)} (h : s.carries T ((false, 1) :: runs)) :
    s.line.level T = false := h 0 (by simp)

/-- A `receiveByte` that fails as described. -/
theorem receiveByte_fails (how : SymbolFail) {s : State} (h : s.undisturbed = true) (hl : how.legal s.cfg.val)
    (hc : s.carries s.time (how.runs s.cfg.val)) :
    ∃ w, receiveByte s = .ok (.fail, ((s.withLineOe false).pass (how.ticks s.cfg.val)).withWork fun _ => w)
      ∧ w.codec = s.work.codec := by
  cases how with
  | low => exact receiveByte_low h (State.carries_low hc)
  | gap n window =>
    obtain ⟨h1, hB, hw, hm⟩ := hl
    obtain ⟨hh, hc⟩ := State.carries_high hc
    obtain ⟨high, -, hle, hr, he⟩ := receiveByte_sync h (by simpa using hh 0 (by omega))
    -- stage 1 reads the `n` HIGH ticks, no more and no less
    have hge : n ≤ high := by
      by_contra hlt
      have := State.highRun_end (s := s.withLineOe false) (n := s.cfg.val.bitSpacer) (τ := s.time) (by omega)
      rw [hr, State.lineAt_input rfl] at this
      rw [show (s.withLineOe false).line = s.line from rfl, hh high (by omega)] at this
      cases this
    have hn : high = n := by
      by_contra hne
      have hlt : n < s.cfg.val.bitSpacer := by omega
      rw [if_pos hlt] at hc
      have h0 := State.carries_low hc
      have h1 := State.highRun_high (s := s.withLineOe false) (n := s.cfg.val.bitSpacer) (τ := s.time) (j := n) (by omega)
      rw [State.lineAt_input rfl] at h1
      rw [show (s.withLineOe false).line = s.line from rfl, h0] at h1
      cases h1
    subst hn
    have hst : syncTicks s.cfg.val high = high + if high < s.cfg.val.bitSpacer then 1 else 0 := by
      unfold syncTicks; split <;> rfl
    have hgap : s.carries (s.time + syncTicks s.cfg.val high) (window.map fun b => (b, 1)) := by
      have := (State.carries_append hc).2
      rw [hst, ← Nat.add_assoc]
      refine Eq.mp ?_ this
      congr 2
      split <;> rfl
    have hwin := State.window_carried hgap
    rw [hw, hm] at hwin
    obtain ⟨w, hg, hcw⟩ := (gapAndData_alone (s := ((s.withLineOe false).pass (syncTicks s.cfg.val high)).withWork fun w =>
      { w with v := Filter.half.run (List.replicate high true), h := BitVec.ofNat 16 high }) h rfl).1 hwin
    refine ⟨w, ?_, hcw⟩
    rw [he, hg]
    simp [State.pass_pass, SymbolFail.ticks, hst]

/-- `receiveByte` alone, the three cases of R145 on the environment's waveform: no pulse; a pulse and a HIGH gap; a pulse,
a LOW gap and eight windows. -/
theorem receiveByte_alone {s : State} (h : s.undisturbed = true) :
    ∃ r d w, receiveByte s = .ok (r, ((s.withLineOe false).pass d).withWork fun _ => w)
      ∧ w.codec = s.work.codec ∧ 1 ≤ d ∧ d ≤ tByte s.cfg.val := by
  have hB := Cfg.bitSpacer_pos s.cfg
  cases hl : s.line.level s.time
  · obtain ⟨w, he, hc⟩ := receiveByte_low h hl
    exact ⟨_, 1, w, he, hc, by omega, by unfold tByte; omega⟩
  · obtain ⟨high, h0, h1, -, he⟩ := receiveByte_sync h hl
    have hd : 1 ≤ syncTicks s.cfg.val high ∧ syncTicks s.cfg.val high ≤ s.cfg.val.bitSpacer := by
      unfold syncTicks; split <;> omega
    obtain ⟨g1, g2⟩ := gapAndData_alone (s := ((s.withLineOe false).pass (syncTicks s.cfg.val high)).withWork fun w =>
          { w with v := Filter.half.run (List.replicate high true), h := BitVec.ofNat 16 high }) h rfl
    rw [he]
    cases hw : (((s.withLineOe false).pass (syncTicks s.cfg.val high)).withWork fun w =>
          { w with v := Filter.half.run (List.replicate high true), h := BitVec.ofNat 16 high }).window
        (s.time + syncTicks s.cfg.val high) s.cfg.val.bitWidth
    · obtain ⟨r, w, hg, hc, -⟩ := g2 hw
      refine ⟨.byte r, syncTicks s.cfg.val high + 9 * s.cfg.val.bitWidth, w, ?_, hc, by omega, by unfold tByte; omega⟩
      rw [hg]; simp [State.pass_pass]
    · obtain ⟨w, hg, hc⟩ := g1 hw
      refine ⟨.fail, syncTicks s.cfg.val high + s.cfg.val.bitWidth, w, ?_, hc, by omega, by unfold tByte; omega⟩
      rw [hg]; simp [State.pass_pass]

/-- A line that carries one symbol is received as its byte. -/
theorem receiveByte_symbol {s : State} (h : s.undisturbed = true) (x : Byte)
    (hl : s.carries s.time (symbolRuns s.cfg.val x)) :
    ∃ w, receiveByte s = .ok (.byte x, ((s.withLineOe false).pass (tByte s.cfg.val)).withWork fun _ => w)
      ∧ w.codec = s.work.codec := by
  have hB := Cfg.bitSpacer_pos s.cfg
  have hW := Cfg.bitWidth_pos s.cfg
  have htot : ((symbolRuns s.cfg.val x).map Prod.snd).sum = s.cfg.val.bitSpacer + 9 * s.cfg.val.bitWidth := by
    simp [symbolRuns, List.range_succ]; omega
  have hlev : ∀ j, j < s.cfg.val.bitSpacer → s.line.level (s.time + j) = true := by
    intro j hj
    rw [hl j (by omega), symbolRuns, levelIn, if_pos hj]
  have hgap : ∀ j, j < s.cfg.val.bitWidth → s.line.level (s.time + s.cfg.val.bitSpacer + j) = false := by
    intro j hj
    rw [Nat.add_assoc, hl _ (by omega), symbolRuns, levelIn, if_neg (by omega), levelIn, if_pos (by omega)]
  have hbit : ∀ i, i < 8 → ∀ j, j < s.cfg.val.bitWidth →
      s.line.level (s.time + s.cfg.val.bitSpacer + s.cfg.val.bitWidth * (i + 1) + j) = x.getLsbD i := by
    intro i hi j hj
    have hle : s.cfg.val.bitWidth * (i + 1) + j < 9 * s.cfg.val.bitWidth := by
      have : s.cfg.val.bitWidth * (i + 1) ≤ s.cfg.val.bitWidth * 8 := Nat.mul_le_mul_left _ hi
      omega
    have key : ∀ (js : List Nat) i, (hi : i < js.length) → levelIn false
        (js.map fun k => (x.getLsbD k, s.cfg.val.bitWidth)) (s.cfg.val.bitWidth * i + j) = x.getLsbD js[i] := by
      intro js
      induction js with
      | nil => simp
      | cons k js ih =>
        intro i hi
        rcases i with _ | i
        · simp [levelIn, hj]
        · have : s.cfg.val.bitWidth ≤ s.cfg.val.bitWidth * (i + 1) := by simp [Nat.mul_succ]
          simp only [List.map_cons, levelIn]
          rw [if_neg (by omega), show s.cfg.val.bitWidth * (i + 1) + j - s.cfg.val.bitWidth = s.cfg.val.bitWidth * i + j by
            rw [Nat.mul_succ]; omega, ih i (by simpa using hi)]
          simp
    have h1 : s.cfg.val.bitWidth ≤ s.cfg.val.bitWidth * (i + 1) := by simp [Nat.mul_succ]
    rw [Nat.add_assoc, Nat.add_assoc, hl _ (by omega), symbolRuns, levelIn, if_neg (by omega), levelIn, if_neg (by omega),
      show s.cfg.val.bitSpacer + (s.cfg.val.bitWidth * (i + 1) + j) - s.cfg.val.bitSpacer - s.cfg.val.bitWidth
        = s.cfg.val.bitWidth * i + j by rw [Nat.mul_succ]; omega, key (List.range 8) i (by simpa using hi)]
    simp
  have h0 : s.line.level s.time = true := by simpa using hlev 0 hB
  obtain ⟨high, -, -, hr, he⟩ := receiveByte_sync h h0
  have hfull : high = s.cfg.val.bitSpacer := by
    rw [← hr]
    exact State.highRun_full fun j hj => by rw [State.lineAt_input rfl]; exact hlev j hj
  have hst : syncTicks s.cfg.val high = s.cfg.val.bitSpacer := by rw [hfull]; unfold syncTicks; simp
  rw [he, hst]
  obtain ⟨r, w, hg, hc, hbits⟩ := (gapAndData_alone (s := ((s.withLineOe false).pass s.cfg.val.bitSpacer).withWork fun w =>
      { w with v := Filter.half.run (List.replicate high true), h := BitVec.ofNat 16 high }) h rfl).2
    (State.window_const hW hgap)
  have hx : r = x := by
    apply BitVec.eq_of_getLsbD_eq
    intro i hi
    rw [hbits i hi]
    exact State.window_const hW (hbit i hi)
  refine ⟨w, ?_, hc⟩
  rw [hg, hx]
  simp [State.pass_pass, tByte]

/-! ### The channel sensor -/

/-- `canStart` alone: idle exactly when every window reads LOW. -/
theorem canStart_alone {s : State} (h : s.undisturbed = true) :
    ∃ idle w, canStart s = .ok (idle, (((s.withLineOe false).withLineO false).pass
          (s.cfg.val.flushUs + 8 * s.cfg.val.bitWidth)).withWork fun _ => w)
      ∧ w.codec = s.work.codec
      ∧ (idle = true ↔ ∀ i, i < 8 →
          s.window (s.time + s.cfg.val.flushUs + s.cfg.val.bitWidth * i) s.cfg.val.bitWidth = false) := by
  have e1 := sendBit_alone false s.cfg.val.flushUs (s := s.withLineOe false) h
  obtain ⟨r, w, he, hc, hr⟩ := readByte_alone
    (s := (((s.withLineOe false).withLineO false).pass s.cfg.val.flushUs).withWork fun w => { w with k := 0 }) h
  refine ⟨r == 0, w, ?_, hc, ?_⟩
  · simp only [canStart, Cmd.bind_apply, setLineOe_apply, Cmd.andThen_ok, look_apply, State.withLineOe_cfg, e1, he,
      Cmd.pure_apply]
    simp [State.pass_pass]
  · have hr' : ∀ i, i < 8 → r.getLsbD i =
        s.window (s.time + s.cfg.val.flushUs + s.cfg.val.bitWidth * i) s.cfg.val.bitWidth := by
      intro i hi
      rw [hr i hi]
      have hin : ∀ τ, ((((s.withLineOe false).withLineO false).pass s.cfg.val.flushUs).withWork fun w =>
          { w with k := 0 }).lineAt τ = s.line.level τ := fun τ => State.lineAt_input rfl τ
      simp only [State.window, hin]
      rfl
    rw [beq_iff_eq]
    constructor
    · intro h0 i hi
      rw [← hr' i hi, h0]
      simp
    · intro hall
      apply BitVec.eq_of_getLsbD_eq
      intro i hi
      rw [hr' i hi, hall i hi]
      simp

end Sys2Proof.Machine
end

