-- ==== Sys2Proof/Laws/Memory.lean ====
section
/-! SUPPORT. Byte buffers: reads after writes, the canonical form, capacities. -/

namespace Sys2Proof.Machine

/-! ### One buffer -/

theorem Memory.find_write_same (m : Memory) (i : Nat) (v : Byte) : (m.write i v).find i = some v := by
  induction m with
  | nil => simp [Memory.write, Memory.find]
  | cons c rest ih =>
    obtain ⟨a, w⟩ := c
    unfold Memory.write
    split
    · simp [Memory.find]
    · split
      · simp [Memory.find]
      · next h1 h2 => simp [Memory.find, show ¬ a = i from fun e => h2 e.symm, ih]

theorem Memory.find_write_other (m : Memory) {i j : Nat} (h : j ≠ i) (v : Byte) :
    (m.write i v).find j = m.find j := by
  induction m with
  | nil => simp [Memory.write, Memory.find, h.symm]
  | cons c rest ih =>
    obtain ⟨a, w⟩ := c
    unfold Memory.write
    split
    · simp [Memory.find, h.symm]
    · split
      · next h1 h2 => subst h2; simp [Memory.find, h.symm]
      · simp [Memory.find, ih]

theorem Memory.risesFrom_write (m : Memory) {lo i : Nat} (v : Byte) (hlo : lo ≤ i) (h : Memory.risesFrom lo m = true) :
    Memory.risesFrom lo (m.write i v) = true := by
  induction m generalizing lo with
  | nil => simp [Memory.write, Memory.risesFrom, hlo]
  | cons c rest ih =>
    obtain ⟨a, w⟩ := c
    simp only [Memory.risesFrom, Bool.and_eq_true, decide_eq_true_eq] at h
    unfold Memory.write
    split
    · next h1 => simp [Memory.risesFrom, hlo, h.2]; omega
    · split
      · next h1 h2 => subst h2; simp [Memory.risesFrom, hlo, h.2]
      · next h1 h2 =>
        simp only [Memory.risesFrom, Bool.and_eq_true, decide_eq_true_eq]
        exact ⟨h.1, ih (by omega) h.2⟩

/-- A write keeps the canonical form. -/
theorem Memory.wf_write (m : Memory) (i : Nat) (v : Byte) (h : m.wf = true) : (m.write i v).wf = true :=
  Memory.risesFrom_write m v (Nat.zero_le i) h

/-- A write inside the capacity stays inside the capacity. -/
theorem Memory.within_write (cap : Nat) (m : Memory) {i : Nat} (v : Byte) (hi : i < cap)
    (h : m.within cap = true) : (m.write i v).within cap = true := by
  unfold Memory.within at *
  induction m with
  | nil => simp [Memory.write, hi]
  | cons c rest ih =>
    obtain ⟨a, w⟩ := c
    simp only [List.all_cons, Bool.and_eq_true, decide_eq_true_eq] at h
    unfold Memory.write
    split
    · simp only [List.all_cons, Bool.and_eq_true, decide_eq_true_eq]; exact ⟨hi, h⟩
    · split
      · simp only [List.all_cons, Bool.and_eq_true, decide_eq_true_eq]; exact ⟨hi, h.2⟩
      · simp only [List.all_cons, Bool.and_eq_true, decide_eq_true_eq]; exact ⟨h.1, ih h.2⟩

/-- Two canonical buffers with the same contents are the same list. -/
theorem Memory.ext_of_wf {a b : Memory} (ha : a.wf = true) (hb : b.wf = true) (h : ∀ i, a.find i = b.find i) : a = b := by
  have none_of : ∀ (m : Memory) lo i, Memory.risesFrom lo m = true → i < lo → m.find i = none := by
    intro m
    induction m with
    | nil => intros; rfl
    | cons c rest ih =>
      obtain ⟨x, w⟩ := c
      intro lo i hm hi
      simp only [Memory.risesFrom, Bool.and_eq_true, decide_eq_true_eq] at hm
      rw [Memory.find, if_neg (by omega)]
      exact ih _ i hm.2 (by omega)
  have key : ∀ (a b : Memory) lo, Memory.risesFrom lo a = true → Memory.risesFrom lo b = true →
      (∀ i, a.find i = b.find i) → a = b := by
    intro a
    induction a with
    | nil =>
      intro b lo _ _ h
      cases b with
      | nil => rfl
      | cons c rest => obtain ⟨x, w⟩ := c; have := h x; simp [Memory.find] at this
    | cons c rest ih =>
      obtain ⟨x, w⟩ := c
      intro b lo ha hb h
      cases b with
      | nil => have := h x; simp [Memory.find] at this
      | cons c' rest' =>
        obtain ⟨y, u⟩ := c'
        simp only [Memory.risesFrom, Bool.and_eq_true, decide_eq_true_eq] at ha hb
        have hxy : x = y := by
          rcases Nat.lt_trichotomy x y with hlt | he | hlt
          · have := h x
            rw [Memory.find, if_pos rfl, Memory.find, if_neg (by omega), none_of rest' _ x hb.2 (by omega)] at this
            cases this
          · exact he
          · have := h y
            rw [Memory.find, if_neg (by omega), none_of rest _ y ha.2 (by omega), Memory.find, if_pos rfl] at this
            cases this
        subst hxy
        have hwu := h x
        simp only [Memory.find, if_true, Option.some.injEq] at hwu
        subst hwu
        congr 1
        refine ih rest' (x + 1) ha.2 hb.2 fun i => ?_
        by_cases hi : i < x + 1
        · rw [none_of rest _ i ha.2 hi, none_of rest' _ i hb.2 hi]
        · have := h i
          rwa [Memory.find, if_neg (by omega), Memory.find, if_neg (by omega)] at this
  exact key a b 0 ha hb h

/-! ### The storage of the block -/

/-- The place exists: a slot payload needs a slot; the other buffers are always there. -/
def State.hasLoc (s : State) : Loc → Prop
  | .pay k _ => k < s.slots.length
  | _ => True

theorem State.slot_setSlot (s : State) (k j : Nat) (q : Slot) (hk : k < s.slots.length) :
    (s.setSlot k q).slot j = if j = k then q else s.slot j := by
  unfold State.slot State.setSlot
  simp only [List.getD_eq_getElem?_getD, List.getElem?_set]
  by_cases h : k = j
  · subst h; simp [hk]
  · simp [h, show ¬ j = k from fun e => h e.symm]

theorem State.stored_setByte_same (s : State) (l : Loc) (v : Byte) (h : s.hasLoc l) :
    (s.setByte l v).stored l = some v := by
  cases l with
  | pay k i =>
    simp only [State.setByte, State.stored, State.slot_setSlot s k k _ h, if_true, Memory.find_write_same]
  | _ => simp [State.setByte, State.stored, Memory.find_write_same]

theorem State.stored_setByte_other (s : State) {l l' : Loc} (v : Byte) (h : l' ≠ l) :
    (s.setByte l v).stored l' = s.stored l' := by
  cases l with
  | pay k i =>
    cases l' with
    | pay k' i' =>
      simp only [State.setByte, State.stored]
      by_cases hk : k < s.slots.length
      · rw [State.slot_setSlot s k k' _ hk]
        split
        · next e =>
          subst e
          exact Memory.find_write_other _ (fun e => h (by rw [e])) v
        · rfl
      · simp only [State.setSlot, State.slot]
        rw [List.set_eq_of_length_le (by omega)]
    | _ => rfl
  | tx i =>
    cases l' <;> simp_all [State.setByte, State.stored, Memory.find_write_other, State.slot]
  | rx i =>
    cases l' <;> simp_all [State.setByte, State.stored, Memory.find_write_other, State.slot]
  | fb i =>
    cases l' <;> simp_all [State.setByte, State.stored, Memory.find_write_other, State.slot]
  | sb i =>
    cases l' <;> simp_all [State.setByte, State.stored, Memory.find_write_other, State.slot]

theorem State.byteAt_setByte_same (s : State) (l : Loc) (v : Byte) (h : s.hasLoc l) :
    (s.setByte l v).byteAt l = v := by
  simp [State.byteAt, State.stored_setByte_same s l v h]

theorem State.byteAt_setByte_other (s : State) {l l' : Loc} (v : Byte) (h : l' ≠ l) :
    (s.setByte l v).byteAt l' = s.byteAt l' := by
  simp [State.byteAt, State.stored_setByte_other s v h]

@[simp] theorem State.slots_length_setByte (s : State) (l : Loc) (v : Byte) :
    (s.setByte l v).slots.length = s.slots.length := by
  cases l <;> simp [State.setByte, State.setSlot]

@[simp] theorem State.slots_length_writeBytes (g : Nat → Loc) (i : Nat) (bs : List Byte) (s : State) :
    (s.writeBytes g i bs).slots.length = s.slots.length :=
  State.writeBytes_keeps (fun s => s.slots.length) (by simp) g i bs s

theorem State.hasLoc_setByte (s : State) (l l' : Loc) (v : Byte) : (s.setByte l v).hasLoc l' ↔ s.hasLoc l' := by
  cases l' <;> simp [State.hasLoc]

/-! ### Regions of the storage -/

/-- A region names a different place for every index. -/
def Region (g : Nat → Loc) : Prop := ∀ i j, g i = g j → i = j

theorem region_tx : Region .tx := fun _ _ h => by injection h
theorem region_fb : Region .fb := fun _ _ h => by injection h
theorem region_rx : Region .rx := fun _ _ h => by injection h
theorem region_sb : Region .sb := fun _ _ h => by injection h
theorem region_pay (k : Nat) : Region (.pay k) := fun _ _ h => by injection h
theorem region_rx_from (n : Nat) : Region fun i => .rx (n + i) := fun i j h => by injection h with h; omega

/-- Places that no written index names keep their byte. -/
theorem State.byteAt_writeBytes_other (g : Nat → Loc) (i : Nat) (bs : List Byte) (s : State) (l : Loc)
    (h : ∀ j, i ≤ j → j < i + bs.length → l ≠ g j) : (s.writeBytes g i bs).byteAt l = s.byteAt l := by
  induction bs generalizing i s with
  | nil => rfl
  | cons b bs ih =>
    rw [State.writeBytes, ih]
    · exact State.byteAt_setByte_other s b (h i (Nat.le_refl i) (by simp))
    · intro j h1 h2; exact h j (by omega) (by simp; omega)

/-- Written bytes are read back. -/
theorem State.byteAt_writeBytes_same {g : Nat → Loc} (hg : Region g) (i : Nat) (bs : List Byte) (s : State)
    (hl : ∀ j, s.hasLoc (g j)) (j : Nat) (hj : j < bs.length) : (s.writeBytes g i bs).byteAt (g (i + j)) = bs[j] := by
  induction bs generalizing i s j with
  | nil => simp at hj
  | cons b bs ih =>
    rw [State.writeBytes]
    rcases j with _ | j
    · rw [State.byteAt_writeBytes_other]
      · simpa using State.byteAt_setByte_same s (g i) b (hl i)
      · intro k h1 _ he; have := hg _ _ he; omega
    · have := ih (i + 1) (s.setByte (g i) b) (fun k => (State.hasLoc_setByte s _ _ b).2 (hl k)) j (by simpa using hj)
      rw [show i + (j + 1) = i + 1 + j by omega, this]
      simp

/-- A written region reads as what was written. -/
theorem State.readBytes_writeBytes {g : Nat → Loc} (hg : Region g) (bs : List Byte) (s : State)
    (hl : ∀ j, s.hasLoc (g j)) (n : Nat) (hn : n ≤ bs.length) :
    (s.writeBytes g 0 bs).readBytes g n = bs.take n := by
  apply List.ext_getElem
  · simp [State.readBytes, hn]
  · intro j h1 h2
    simp only [State.readBytes, List.length_map, List.length_range] at h1
    simp only [State.readBytes, List.getElem_map, List.getElem_range, List.getElem_take]
    simpa using State.byteAt_writeBytes_same hg 0 bs s hl j (by omega)

@[simp] theorem State.readBytes_length (s : State) (g : Nat → Loc) (n : Nat) : (s.readBytes g n).length = n := by
  simp [State.readBytes]

theorem State.readBytes_congr {s t : State} {g : Nat → Loc} {n : Nat} (h : ∀ i, i < n → s.byteAt (g i) = t.byteAt (g i)) :
    s.readBytes g n = t.readBytes g n := by
  unfold State.readBytes
  exact List.map_congr_left fun i hi => h i (List.mem_range.1 hi)

/-! ### Reset -/

/-- At reset every buffer has the canonical form. -/
theorem State.blank_buffersOk (c : Cfg) : (State.blank c).buffersOk = true := by
  simp [State.buffersOk, State.blank, Memory.wf, Memory.risesFrom, Memory.within]

end Sys2Proof.Machine
end

