-- ==== Sys2Proof/Laws/Cipher.lean ====
section
/-! SUPPORT. The cipher: sizes of tables and outputs, and what one run of the transform does to the state. -/

namespace Sys2Proof.Machine

@[simp] theorem swapEntries_length (t : List Byte) (i j : Nat) : (swapEntries t i j).length = t.length := by
  simp [swapEntries]

@[simp] theorem mixKey_length (N : Nat) (key : List Byte) (left i j : Nat) (t : List Byte) :
    (mixKey N key left i j t).length = t.length := by
  induction left generalizing i j t with
  | zero => rfl
  | succ left ih => simp [mixKey, ih]

@[simp] theorem keySchedule_length (N : Nat) (key : List Byte) : (keySchedule N key).length = N := by
  simp [keySchedule]

@[simp] theorem Keystream.next_length (N : Nat) (g : Keystream) : (g.next N).table.length = g.table.length := by
  simp [Keystream.next]

@[simp] theorem xorStream_length (N : Nat) (g : Keystream) (bs : List Byte) :
    (xorStream N g bs).1.length = bs.length := by
  induction bs generalizing g with
  | nil => rfl
  | cons b bs ih => simp [xorStream, ih]

@[simp] theorem xorStream_table_length (N : Nat) (g : Keystream) (bs : List Byte) :
    (xorStream N g bs).2.table.length = g.table.length := by
  induction bs generalizing g with
  | nil => rfl
  | cons b bs ih => simp [xorStream, ih]

@[simp] theorem whitenBytes_length (bs : List Byte) : (whitenBytes bs).length = bs.length := by
  cases bs using List.reverseRecOn <;> simp [whitenBytes]

@[simp] theorem encodeBytes_len (c : Config) (now : Word) (ivf : Bool) (bs : List Byte) :
    (encodeBytes c now ivf bs).len = bs.length + ivf.toNat := by
  cases ivf <;> simp [encodeBytes]

@[simp] theorem encodeBytes_length (c : Config) (now : Word) (ivf : Bool) (bs : List Byte) :
    (encodeBytes c now ivf bs).bytes.length = bs.length + ivf.toNat := by
  cases ivf <;> simp [encodeBytes]
  split <;> simp

@[simp] theorem encodeBytes_table_length (c : Config) (now : Word) (ivf : Bool) (bs : List Byte) :
    (encodeBytes c now ivf bs).gen.table.length = c.encStrength := by
  cases ivf <;> simp [encodeBytes, Keystream.start]

@[simp] theorem decodeBytes_len (c : Config) (ivf : Bool) (bs : List Byte) :
    (decodeBytes c ivf bs).len = bs.length - ivf.toNat := by
  cases ivf <;> simp [decodeBytes]

@[simp] theorem decodeBytes_length (c : Config) (ivf : Bool) (bs : List Byte) :
    (decodeBytes c ivf bs).bytes.length = bs.length - ivf.toNat := by
  cases ivf
  · simp [decodeBytes]
  · cases h : c.whiten <;> simp [decodeBytes, h]

@[simp] theorem decodeBytes_table_length (c : Config) (ivf : Bool) (bs : List Byte) :
    (decodeBytes c ivf bs).gen.table.length = c.encStrength := by
  cases ivf <;> simp [decodeBytes, Keystream.start]

/-! ### One run of the transform -/

/-- What one run of the cipher on a region computes. -/
def State.cryptOut (s : State) (region : Nat → Loc) (n : Nat) (ivf side : Bool) : CryptOut :=
  if side then decodeBytes s.cfg.val ivf (s.readBytes region n)
  else encodeBytes s.cfg.val s.now ivf (s.readBytes region n)

/-- The working registers after one run of the cipher on `n` bytes. -/
def CryptOut.work (out : CryptOut) (n : Nat) (w : Work) : Work :=
  { w with
    n := BitVec.ofNat 9 n
    m := BitVec.ofNat 9 out.len
    idx := BitVec.ofNat 9 n
    ci := BitVec.ofNat 8 out.gen.ci
    cj := BitVec.ofNat 8 out.gen.cj
    iv := out.iv }

/-- `crypt` writes the region's bytes, the table and working registers, and consumes no tick. -/
theorem crypt_apply (region : Nat → Loc) (n : Nat) (ivf side : Bool) (s : State) :
    crypt region n ivf side s = .ok ((s.cryptOut region n ivf side).len,
        ((s.writeBytes region 0 (s.cryptOut region n ivf side).bytes).writeBytes .sb 0
          (s.cryptOut region n ivf side).gen.table).withWork ((s.cryptOut region n ivf side).work n)) := rfl

end Sys2Proof.Machine
end

