-- ==== Sys2Proof/Laws/Codec.lean ====
section
/-! SUPPORT. What the operations of the packet codec leave when nothing disturbs the block. -/

namespace Sys2Proof.Machine

/-! ### Normal forms with buffers -/

@[simp] theorem State.setByte_pass (l : Loc) (v : Byte) (d : Nat) (s : State) :
    (s.setByte l v).pass d = (s.pass d).setByte l v := by cases l <;> rfl
@[simp] theorem State.setByte_withLineOe (l : Loc) (v : Byte) (b : Bool) (s : State) :
    (s.setByte l v).withLineOe b = (s.withLineOe b).setByte l v := by cases l <;> rfl
@[simp] theorem State.setByte_withLineO (l : Loc) (v : Byte) (b : Bool) (s : State) :
    (s.setByte l v).withLineO b = (s.withLineO b).setByte l v := by cases l <;> rfl
@[simp] theorem State.withWork_setByte (f : Work → Work) (l : Loc) (v : Byte) (s : State) :
    (s.withWork f).setByte l v = (s.setByte l v).withWork f := by cases l <;> rfl
@[simp] theorem State.withWork_writeBytes (f : Work → Work) (g : Nat → Loc) (i : Nat) (bs : List Byte) (s : State) :
    (s.withWork f).writeBytes g i bs = (s.writeBytes g i bs).withWork f := by
  induction bs generalizing i s with
  | nil => rfl
  | cons b bs ih => simp [State.writeBytes, ih]
@[simp] theorem State.writeBytes_pass (g : Nat → Loc) (i : Nat) (bs : List Byte) (d : Nat) (s : State) :
    (s.writeBytes g i bs).pass d = (s.pass d).writeBytes g i bs := by
  induction bs generalizing i s with
  | nil => rfl
  | cons b bs ih => simp [State.writeBytes, ih]

@[simp] theorem State.writeBytes_withLineOe (g : Nat → Loc) (i : Nat) (bs : List Byte) (b : Bool) (s : State) :
    (s.writeBytes g i bs).withLineOe b = (s.withLineOe b).writeBytes g i bs := by
  induction bs generalizing i s with
  | nil => rfl
  | cons c bs ih => simp [State.writeBytes, ih]
@[simp] theorem State.writeBytes_withLineO (g : Nat → Loc) (i : Nat) (bs : List Byte) (b : Bool) (s : State) :
    (s.writeBytes g i bs).withLineO b = (s.withLineO b).writeBytes g i bs := by
  induction bs generalizing i s with
  | nil => rfl
  | cons c bs ih => simp [State.writeBytes, ih]

theorem State.withLineOe_self {s : State} {b : Bool} (h : s.lineOe = b) : s.withLineOe b = s := by
  subst h; rfl

theorem State.pass_now (s : State) (d : Nat) : (s.pass d).now = s.now + BitVec.ofNat 32 d := by
  simp [State.now, State.pass, BitVec.ofNat_add, BitVec.add_assoc]

theorem State.elapsed_eq {s : State} {t0 : Word} {e : Nat} (h : s.now = t0 + BitVec.ofNat 32 e) (he : e < 2 ^ 32) :
    s.elapsed t0 = e := by
  rw [State.elapsed, h, BitVec.add_comm, BitVec.add_sub_cancel]
  simp; omega

@[simp] theorem State.byteAt_withWork (f : Work → Work) (s : State) : (s.withWork f).byteAt = s.byteAt := by
  funext l; cases l <;> rfl
@[simp] theorem State.byteAt_pass (d : Nat) (s : State) : (s.pass d).byteAt = s.byteAt := by funext l; cases l <;> rfl
@[simp] theorem State.byteAt_withLineO (b : Bool) (s : State) : (s.withLineO b).byteAt = s.byteAt := by
  funext l; cases l <;> rfl
@[simp] theorem State.byteAt_withLineOe (b : Bool) (s : State) : (s.withLineOe b).byteAt = s.byteAt := by
  funext l; cases l <;> rfl

/-! ### Exclusive-or -/

theorem foldl_xor (x : Byte) (bs : List Byte) : bs.foldl (· ^^^ ·) x = x ^^^ xorAll bs := by
  unfold xorAll
  induction bs generalizing x with
  | nil => simp
  | cons b bs ih => rw [List.foldl_cons, List.foldl_cons, ih, ih (0 ^^^ b)]; simp [BitVec.xor_assoc]

@[simp] theorem xorAll_nil : xorAll [] = 0 := rfl

theorem xorAll_cons (b : Byte) (bs : List Byte) : xorAll (b :: bs) = b ^^^ xorAll bs := by
  rw [xorAll, List.foldl_cons, foldl_xor]; simp

theorem xorAll_append (a b : List Byte) : xorAll (a ++ b) = xorAll a ^^^ xorAll b := by
  induction a with
  | nil => simp
  | cons x a ih => simp [xorAll_cons, ih, BitVec.xor_assoc]

/-! ### Transmission -/

/-- Driving runs of levels with the line as output. -/
def State.transmit (runs : List (Bool × Nat)) (s : State) : State := (s.withLineOe true).drive runs

theorem State.transmit_append (a b : List (Bool × Nat)) (s : State) :
    (s.transmit a).transmit b = s.transmit (a ++ b) := by
  unfold State.transmit
  rw [State.drive_append, State.withLineOe_self (b := true) (by simp)]

theorem State.transmit_nil {s : State} (h : s.lineOe = true) : s.transmit [] = s := State.withLineOe_self h

@[simp] theorem State.withWork_transmit (f : Work → Work) (runs : List (Bool × Nat)) (s : State) :
    (s.withWork f).transmit runs = (s.transmit runs).withWork f := by simp [State.transmit]
@[simp] theorem State.transmit_cfg (r : List (Bool × Nat)) (s : State) : (s.transmit r).cfg = s.cfg := by
  simp [State.transmit]
@[simp] theorem State.transmit_work (r : List (Bool × Nat)) (s : State) : (s.transmit r).work = s.work := by
  simp [State.transmit]
@[simp] theorem State.transmit_lineOe (r : List (Bool × Nat)) (s : State) : (s.transmit r).lineOe = true := by
  simp [State.transmit]
@[simp] theorem State.transmit_undisturbed (r : List (Bool × Nat)) (s : State) :
    (s.transmit r).undisturbed = s.undisturbed := by simp [State.transmit]
@[simp] theorem State.transmit_byteAt (r : List (Bool × Nat)) (s : State) : (s.transmit r).byteAt = s.byteAt := by
  simp [State.transmit]
@[simp] theorem State.transmit_line (r : List (Bool × Nat)) (s : State) : (s.transmit r).line = s.line := by
  simp [State.transmit]
@[simp] theorem State.transmit_clock0 (r : List (Bool × Nat)) (s : State) : (s.transmit r).clock0 = s.clock0 := by
  simp [State.transmit]
@[simp] theorem State.transmit_time (r : List (Bool × Nat)) (s : State) :
    (s.transmit r).time = s.time + (r.map Prod.snd).sum := by
  simp [State.transmit]

@[simp] theorem symbolRuns_ticks (c : Config) (x : Byte) : ((symbolRuns c x).map Prod.snd).sum = tByte c := by
  simp [symbolRuns, List.range_succ, tByte]; omega

@[simp] theorem symbolsRuns_ticks (c : Config) (bs : List Byte) :
    ((symbolsRuns c bs).map Prod.snd).sum = bs.length * tByte c := by
  induction bs with
  | nil => simp [symbolsRuns]
  | cons b bs ih =>
    have : symbolsRuns c (b :: bs) = symbolRuns c b ++ symbolsRuns c bs := by simp [symbolsRuns]
    rw [this, List.map_append, List.sum_append, ih, symbolRuns_ticks]
    simp [Nat.succ_mul]; omega

theorem symbolsRuns_cons (c : Config) (b : Byte) (bs : List Byte) :
    symbolsRuns c (b :: bs) = symbolRuns c b ++ symbolsRuns c bs := by simp [symbolsRuns]

theorem symbolsRuns_append (c : Config) (a b : List Byte) :
    symbolsRuns c (a ++ b) = symbolsRuns c a ++ symbolsRuns c b := by simp [symbolsRuns]

theorem sendByte_transmit (x : Byte) {s : State} (h : s.undisturbed = true) :
    ∃ w, sendByte x s = .ok ((), (s.transmit (symbolRuns s.cfg.val x)).withWork fun _ => w)
      ∧ w.codec = s.work.codec := sendByte_alone x h

theorem sendChecked_alone (x : Byte) {s : State} (h : s.undisturbed = true) :
    ∃ w, sendChecked x s = .ok ((), (s.transmit (symbolRuns s.cfg.val x)).withWork fun _ => w)
      ∧ w.codec = ({ s.work with crc := s.work.crc ^^^ x } : Work).codec := by
  obtain ⟨w, hw, hc⟩ := sendByte_transmit x h
  refine ⟨{ w with crc := w.crc ^^^ x }, ?_, ?_⟩
  · simp only [sendChecked, Cmd.bind_apply, hw, Cmd.andThen_ok, setWork_apply]
    rfl
  · have := Work.codec_eq hc
    simp [Work.codec, this]

theorem sendPayload_alone (left i : Nat) {s : State} (h : s.undisturbed = true) (hoe : s.lineOe = true) :
    ∃ w, sendPayload left i s =
        .ok ((), (s.transmit (symbolsRuns s.cfg.val ((List.range' i left).map fun j => s.byteAt (.fb j)))).withWork
          fun _ => w)
      ∧ w.crc = s.work.crc ^^^ xorAll ((List.range' i left).map fun j => s.byteAt (.fb j))
      ∧ w.cnt = s.work.cnt ∧ w.t0 = s.work.t0 := by
  induction left generalizing i s with
  | zero => exact ⟨s.work, by simp [sendPayload, symbolsRuns, State.transmit_nil hoe]; rfl, by simp, rfl, rfl⟩
  | succ left ih =>
    obtain ⟨w1, h1, c1⟩ := sendChecked_alone (s.byteAt (.fb i))
      (s := s.withWork fun w => { w with idx := BitVec.ofNat 9 i }) h
    have k1 := Work.codec_eq c1
    obtain ⟨w2, h2, c2, n2, t2⟩ := ih (i + 1) (s := (s.transmit (symbolRuns s.cfg.val (s.byteAt (.fb i)))).withWork
      fun _ => w1) (by simpa using h) (by simp)
    refine ⟨w2, ?_, ?_, ?_, ?_⟩
    · simp only [sendPayload, Cmd.bind_apply, setWork_apply, Cmd.andThen_ok, look_apply, State.byteAt_withWork, h1]
      simp only [State.withWork_cfg, State.withWork_transmit, State.withWork_withWork]
      refine h2.trans ?_
      simp [State.transmit_append, List.range'_succ, symbolsRuns_cons]
    · rw [c2]
      simp [k1.1, List.range'_succ, xorAll_cons, BitVec.xor_assoc]
    · rw [n2]; simpa using k1.2.2.2.2.2.2.2.2.2.2.2
    · rw [t2]; simpa using k1.2.2.2.2.2.2.2.2.1

theorem State.readBytes_range' (s : State) (g : Nat → Loc) (n : Nat) :
    (List.range' 0 n).map (fun j => s.byteAt (g j)) = s.readBytes g n := by
  rw [State.readBytes, List.range_eq_range']

/-- `sendSymbols` alone: the frame around the `n` bytes of `FBUF` is driven, then the level is released. -/
theorem sendSymbols_alone (dest : Byte) (n : Nat) {s : State} (h : s.undisturbed = true) :
    ∃ w, sendSymbols dest n s =
        .ok ((), ((s.transmit (symbolsRuns s.cfg.val (frameBytes dest (s.readBytes .fb n)))).withLineO false).withWork
          fun _ => w)
      ∧ w.cnt = s.work.cnt ∧ w.t0 = s.work.t0 := by
  obtain ⟨w1, h1, c1⟩ := sendChecked_alone dest
    (s := s.withWork fun w => { w with n := BitVec.ofNat 9 n, L := BitVec.ofNat 9 (n + 3), crc := 0 }) h
  have k1 := Work.codec_eq c1
  simp only [State.withWork_work] at k1
  obtain ⟨w2, h2, c2⟩ := sendChecked_alone (BitVec.ofNat 8 (n + 3))
    (s := (s.transmit (symbolRuns s.cfg.val dest)).withWork fun _ => w1) (by simpa using h)
  have k2 := Work.codec_eq c2
  simp only [State.withWork_work] at k2
  obtain ⟨w3, h3, e3, n3, t3⟩ := sendPayload_alone n 0
    (s := (s.transmit (symbolRuns s.cfg.val dest ++ symbolRuns s.cfg.val (BitVec.ofNat 8 (n + 3)))).withWork fun _ => w2)
    (by simpa using h) (by simp)
  simp only [State.withWork_work] at e3 n3 t3
  obtain ⟨w4, h4, c4⟩ := sendByte_transmit w3.crc
    (s := (s.transmit (symbolRuns s.cfg.val dest ++ symbolRuns s.cfg.val (BitVec.ofNat 8 (n + 3)) ++
      symbolsRuns s.cfg.val (s.readBytes .fb n))).withWork fun _ => w3) (by simpa using h)
  have k4 := Work.codec_eq c4
  simp only [State.withWork_work] at k4
  have hL : (BitVec.ofNat 9 (n + 3)).setWidth 8 = BitVec.ofNat 8 (n + 3) := by
    apply BitVec.eq_of_toNat_eq
    simp
  refine ⟨w4, ?_, ?_, ?_⟩
  · have hcrc : w3.crc = xorAll (dest :: BitVec.ofNat 8 (n + 3) :: s.readBytes .fb n) := by
      rw [e3, k2.1, k1.1]
      simp only [State.byteAt_withWork, State.transmit_byteAt, State.readBytes_range']
      simp [xorAll_cons, BitVec.xor_assoc]
    simp only [sendSymbols, Cmd.bind_apply, setWork_apply, Cmd.andThen_ok, h1]
    simp only [State.withWork_cfg, State.withWork_transmit, State.withWork_withWork, look_apply, Cmd.andThen_ok,
      State.withWork_work, k1.2.1, hL]
    have h2' := h2
    simp only [State.withWork_cfg, State.transmit_cfg, State.withWork_transmit, State.withWork_withWork,
      State.transmit_append] at h2'
    simp only [Cmd.bind_apply, h2', Cmd.andThen_ok]
    have h3' := h3
    simp only [State.withWork_cfg, State.transmit_cfg, State.withWork_transmit, State.withWork_withWork,
      State.transmit_append, State.byteAt_withWork, State.transmit_byteAt, State.readBytes_range'] at h3'
    simp only [h3', Cmd.andThen_ok, State.withWork_work, Cmd.bind_apply, look_apply]
    have h4' := h4
    simp only [State.withWork_cfg, State.transmit_cfg, State.withWork_transmit, State.withWork_withWork,
      State.transmit_append] at h4'
    simp only [h4', Cmd.andThen_ok, setLineO_apply, State.withWork_withLineO]
    have hf : frameBytes dest (s.readBytes .fb n)
        = dest :: BitVec.ofNat 8 (n + 3) :: s.readBytes .fb n ++ [w3.crc] := by
      simp [frameBytes, hcrc]
    rw [hf]
    simp only [symbolsRuns_append, symbolsRuns_cons, List.cons_append, List.append_assoc]
    simp [symbolsRuns]
  · rw [k4.2.2.2.2.2.2.2.2.2.2.2, n3, k2.2.2.2.2.2.2.2.2.2.2.2, k1.2.2.2.2.2.2.2.2.2.2.2]
  · rw [k4.2.2.2.2.2.2.2.2.1, t3, k2.2.2.2.2.2.2.2.2.1, k1.2.2.2.2.2.2.2.2.1]

end Sys2Proof.Machine
end

