-- ==== Sys2Proof/Laws/Keeps.lean ====
section
/-! SUPPORT. What procedures keep whatever the host does meanwhile: a property that host transactions, ticks and the writes
of a procedure keep, holds at its end; if a reset cuts the procedure off, the state is the reset of one that had it. -/

namespace Sys2Proof.Machine

variable {α β : Type} {E : Prop} {P Q : State → Prop}

/-- From `P`, the procedure ends with `Q` of its result, or it is cut off by a reset in a state with `C`, or it never
ends and `E`. -/
def Holds (E : Prop) (P : State → Prop) (x : Cmd α) (Q : α → State → Prop) (C : State → Prop) : Prop :=
  ∀ s, P s → match x s with
    | .ok (a, t) => Q a t
    | .error (.cut t) => ∃ u held, C u ∧ t = u.resetPin held
    | .error .neverEnds => E

/-- The procedure keeps `P`. -/
def Keeps (E : Prop) (P : State → Prop) (x : Cmd α) : Prop := Holds E P x (fun _ => P) P

theorem Holds.bind {R : β → State → Prop} {S : α → State → Prop} {C : State → Prop} {x : Cmd α} {f : α → Cmd β}
    (hx : Holds E P x S C) (hf : ∀ a, Holds E (S a) (f a) R C) : Holds E P (x >>= f) R C := by
  intro s hs
  have h1 := hx s hs
  rw [Cmd.bind_apply]
  cases hr : x s with
  | ok r =>
    obtain ⟨a, t⟩ := r
    rw [hr] at h1
    exact hf a t h1
  | error e =>
    rw [hr] at h1
    cases e <;> exact h1

theorem Holds.mono {S S' : α → State → Prop} {C C' : State → Prop} {x : Cmd α} (h : Holds E P x S C)
    (hp : ∀ s, Q s → P s) (hs : ∀ a s, S a s → S' a s) (hc : ∀ s, C s → C' s) : Holds E Q x S' C' := by
  intro s hq
  have := h s (hp s hq)
  revert this
  cases x s with
  | ok r => exact hs _ _
  | error e =>
    cases e with
    | cut t => rintro ⟨u, held, hu, rfl⟩; exact ⟨u, held, hc u hu, rfl⟩
    | neverEnds => exact id

theorem Keeps.bind {x : Cmd α} {f : α → Cmd β} (hx : Keeps E P x) (hf : ∀ a, Keeps E P (f a)) : Keeps E P (x >>= f) :=
  Holds.bind hx hf

theorem Keeps.pure (a : α) : Keeps E P (Pure.pure a : Cmd α) := fun _ h => h

theorem Keeps.look (f : State → α) : Keeps E P (look f) := fun _ h => h

theorem Keeps.neverEnds (hE : E) : Keeps E P (throw .neverEnds : Cmd α) := fun _ _ => hE

theorem Keeps.modify {f : State → State} (hf : ∀ s, P s → P (f s)) : Keeps E P (modify f : Cmd Unit) := fun s h => hf s h

theorem Keeps.ite {c : Prop} [Decidable c] {x y : Cmd α} (hx : Keeps E P x) (hy : Keeps E P y) :
    Keeps E P (if c then x else y) := by
  split
  · exact hx
  · exact hy

/-! ### What the host can do during a command -/

/-- `P` survives ticks and everything the host can do while the block is busy, a reset apart. -/
structure Stable (P : State → Prop) : Prop where
  pass : ∀ s d, P s → P (s.pass d)
  host : ∀ s acts, P s → P (s.withHost acts)
  status : ∀ s v, P s → P (s.writeStatus v)
  refuse : ∀ s, P s → P s.refuse
  read : ∀ s a, P s → P (s.busRead a)

theorem Stable.busyWrite (h : Stable P) (s : State) (a : BusAddr) (v : Word) (hs : P s) : P (s.busyWrite a v) := by
  unfold State.busyWrite
  split
  · exact h.status s v hs
  · exact h.refuse s hs
  · exact hs

theorem Stable.advanceOver (h : Stable P) (acts : List HostAct) : ∀ d, Keeps E P fun s => advanceOver acts d s := by
  induction acts with
  | nil => intro d s hs; exact h.pass s d hs
  | cons act rest ih =>
    intro d s hs
    simp only [Machine.advanceOver]
    cases act.when with
    | idle n => exact h.pass s d hs
    | atTick tick first =>
      simp only
      by_cases hd : dueWithin s.time d tick first = true
      · simp only [hd, if_true]
        have hp : P ((s.withHost rest).pass (tick - s.time)) := h.pass _ _ (h.host _ _ hs)
        cases act.op with
        | wr a v => exact ih _ _ (h.busyWrite _ a v hp)
        | rd a => exact ih _ _ (h.read _ a hp)
        | rst held => exact ⟨_, held, hp, rfl⟩
      · simp only [hd]
        exact h.pass s d hs

theorem Stable.hold (h : Stable P) (d : Nat) : Keeps E P (hold d) := by
  intro s hs
  unfold Machine.hold
  by_cases hd : d = 0
  · rw [if_pos hd]; exact hs
  · rw [if_neg hd]; exact h.advanceOver s.host d s hs

/-! ### The bit and byte layers -/

/-- `P` also survives writes to the pin registers and to the working registers of the bit and byte layers. -/
structure BitStable (P : State → Prop) : Prop extends Stable P where
  lineO : ∀ s b, P s → P (s.withLineO b)
  lineOe : ∀ s b, P s → P (s.withLineOe b)
  work : ∀ s (f : Work → Work), (∀ w, (f w).codec = w.codec) → P s → P (s.withWork f)

theorem BitStable.setWork (h : BitStable P) {f : Work → Work} (hf : ∀ w, (f w).codec = w.codec) : Keeps E P (setWork f) :=
  .modify fun s hs => h.work s f hf hs

theorem BitStable.sendBit (h : BitStable P) (level : Bool) (d : Nat) : Keeps E P (sendBit level d) :=
  .bind (.modify fun s hs => h.lineO s _ hs) fun _ => .bind (h.setWork fun _ => rfl) fun _ =>
    .bind (h.hold d) fun _ => h.setWork fun _ => rfl

theorem BitStable.sampleBit (h : BitStable P) (d : Nat) : Keeps E P (sampleBit d) :=
  .bind (.look _) fun _ => .bind (h.setWork fun _ => rfl) fun _ => .bind (h.hold d) fun _ =>
    .bind (h.setWork fun _ => rfl) fun _ => .look _

theorem BitStable.sendDataBits (h : BitStable P) (x : Byte) (js : List Nat) : Keeps E P (sendDataBits x js) := by
  induction js with
  | nil => exact .pure ()
  | cons j js ih =>
    exact .bind (h.setWork fun _ => rfl) fun _ => .bind (.look _) fun _ => .bind (h.sendBit _ _) fun _ => ih

theorem BitStable.sendByte (h : BitStable P) (x : Byte) : Keeps E P (sendByte x) :=
  .bind (.modify fun s hs => h.lineOe s _ hs) fun _ => .bind (.look _) fun _ => .bind (h.sendBit _ _) fun _ =>
    .bind (.look _) fun _ => .bind (h.sendBit _ _) fun _ => .bind (h.sendDataBits x _) fun _ => h.setWork fun _ => rfl

theorem BitStable.readDataBits (h : BitStable P) (js : List Nat) : Keeps E P (readDataBits js) := by
  induction js with
  | nil => exact .pure ()
  | cons j js ih =>
    exact .bind (h.setWork fun _ => rfl) fun _ => .bind (.look _) fun _ => .bind (h.sampleBit _) fun _ =>
      .bind (h.setWork fun _ => rfl) fun _ => ih

theorem BitStable.readByte (h : BitStable P) : Keeps E P readByte :=
  .bind (h.setWork fun _ => rfl) fun _ => .bind (h.readDataBits _) fun _ => .bind (h.setWork fun _ => rfl) fun _ => .look _

theorem BitStable.receiveByte (h : BitStable P) : Keeps E P receiveByte := by
  refine .bind (.modify fun s hs => h.lineOe s _ hs) fun _ => .bind ?_ fun sync => ?_
  · exact .bind (.look _) fun _ => .bind (.look _) fun _ => .bind (h.setWork fun _ => rfl) fun _ =>
      .bind (h.hold _) fun _ => .look _
  · refine .ite ?_ (.pure _)
    refine .bind (.look _) fun _ => .bind (h.sampleBit _) fun gap => ?_
    exact .ite (.pure _) (.bind h.readByte fun _ => .pure _)

theorem BitStable.canStart (h : BitStable P) : Keeps E P canStart :=
  .bind (.modify fun s hs => h.lineOe s _ hs) fun _ => .bind (.look _) fun _ => .bind (h.sendBit _ _) fun _ =>
    .bind h.readByte fun _ => .pure _

/-- With the working registers above the byte layer held fixed, `P` is still stable. -/
theorem BitStable.fixed (h : BitStable P) (w0 : Work) : BitStable fun s => P s ∧ s.work.codec = w0.codec where
  pass s d hs := ⟨h.pass s d hs.1, hs.2⟩
  host s a hs := ⟨h.host s a hs.1, hs.2⟩
  status s v hs := ⟨h.status s v hs.1, hs.2⟩
  refuse s hs := ⟨h.refuse s hs.1, hs.2⟩
  read s a hs := ⟨h.read s a hs.1, hs.2⟩
  lineO s b hs := ⟨h.lineO s b hs.1, hs.2⟩
  lineOe s b hs := ⟨h.lineOe s b hs.1, hs.2⟩
  work s f hf hs := ⟨h.work s f hf hs.1, (hf s.work).trans hs.2⟩

/-! ### The codec -/

/-- `P` survives every write to the working registers, and the configuration is `c`. -/
structure CodecStable (c : Cfg) (P : State → Prop) : Prop extends BitStable P where
  works : ∀ s (f : Work → Work), P s → P (s.withWork f)
  cfg : ∀ s, P s → s.cfg = c

theorem CodecStable.setWork {c : Cfg} (h : CodecStable c P) (f : Work → Work) : Keeps E P (setWork f) :=
  .modify fun s hs => h.works s f hs

/-- `P` survives what the cipher writes. -/
structure CipherStable (c : Cfg) (P : State → Prop) : Prop extends CodecStable c P where
  sb : ∀ s i v, i < c.val.encStrength → P s → P (s.setByte (.sb i) v)

theorem writeBytes_keeps_of {g : Nat → Loc} {hi : Nat} (hg : ∀ s i v, i < hi → P s → P (s.setByte (g i) v))
    (bs : List Byte) : ∀ (i : Nat) (s : State), i + bs.length ≤ hi → P s → P (s.writeBytes g i bs) := by
  induction bs with
  | nil => intro i s _ hs; exact hs
  | cons b bs ih =>
    intro i s hi' hs
    simp only [List.length_cons] at hi'
    exact ih (i + 1) _ (by omega) (hg s i b (by omega) hs)

/-- The cipher, when the region's writes keep `P`. -/
theorem CipherStable.crypt {c : Cfg} (h : CipherStable c P) {g : Nat → Loc} (n : Nat) (ivf side : Bool)
    (hg : ∀ s i v, i < (if side then n - ivf.toNat else n + ivf.toNat) → P s → P (s.setByte (g i) v)) :
    Holds E P (crypt g n ivf side) (fun m s => P s ∧ m = if side then n - ivf.toNat else n + ivf.toNat) P := by
  intro s hs
  rw [crypt_apply]
  have hc := h.cfg s hs
  have hb : (s.cryptOut g n ivf side).bytes.length = if side then n - ivf.toNat else n + ivf.toNat := by
    cases side <;> simp [State.cryptOut]
  have hl : (s.cryptOut g n ivf side).len = if side then n - ivf.toNat else n + ivf.toNat := by
    cases side <;> simp [State.cryptOut]
  have ht : (s.cryptOut g n ivf side).gen.table.length = c.val.encStrength := by
    cases side <;> simp [State.cryptOut, hc]
  refine ⟨h.works _ _ ?_, hl⟩
  exact writeBytes_keeps_of h.sb _ _ _ (by omega) (writeBytes_keeps_of hg _ _ _ (by omega) hs)

/-- `P` survives what a transmission writes. -/
structure SendStable (c : Cfg) (P : State → Prop) : Prop extends CipherStable c P where
  fb : ∀ s i v, i < fbCapacity c.val → P s → P (s.setByte (.fb i) v)

theorem SendStable.sendChecked {c : Cfg} (h : SendStable c P) (x : Byte) : Keeps E P (sendChecked x) :=
  .bind (h.sendByte x) fun _ => h.setWork _

theorem SendStable.sendPayload {c : Cfg} (h : SendStable c P) (left : Nat) : ∀ i, Keeps E P (sendPayload left i) := by
  induction left with
  | zero => intro i; exact .pure ()
  | succ left ih =>
    intro i
    exact .bind (h.setWork _) fun _ => .bind (.look _) fun _ => .bind (h.sendChecked _) fun _ => ih (i + 1)

theorem SendStable.sendSymbols {c : Cfg} (h : SendStable c P) (dest : Byte) (n : Nat) : Keeps E P (sendSymbols dest n) :=
  .bind (h.setWork _) fun _ => .bind (h.sendChecked _) fun _ => .bind (.look _) fun _ => .bind (h.sendChecked _) fun _ =>
    .bind (h.sendPayload _ _) fun _ => .bind (.look _) fun _ => .bind (h.sendByte _) fun _ =>
      .modify fun s hs => h.lineO s _ hs

theorem SendStable.listenLoop {c : Cfg} (h : SendStable c P) (fuel : Nat) : Keeps E P (listenLoop fuel) := by
  induction fuel with
  | zero => exact .pure ()
  | succ fuel ih =>
    refine .bind (.look _) fun _ => .ite ?_ (.pure _)
    exact .bind h.receiveByte fun _ => .bind (h.setWork _) fun _ => ih

theorem SendStable.awaitResponse {c : Cfg} (h : SendStable c P) : Keeps E P awaitResponse :=
  .bind (.look _) fun _ => .bind (h.setWork _) fun _ => .bind (.look _) fun _ => .bind (h.listenLoop _) fun _ => .look _

theorem maxPayload_fb {c : Cfg} {len : Nat} (h : len ≤ maxPayload c.val) : len + 1 ≤ fbCapacity c.val := by
  unfold fbCapacity; omega

theorem SendStable.loadFrame {c : Cfg} (h : SendStable c P) (src : Nat → Loc) {len : Nat} (hl : len ≤ maxPayload c.val) :
    Keeps E P (loadFrame src len) := by
  have hf := maxPayload_fb hl
  refine Holds.bind (S := fun bs s => P s ∧ bs.length = len) (fun s hs => ⟨hs, by simp⟩) fun bs => ?_
  refine Holds.bind (S := fun _ => P) (fun s hs => ?_) fun _ => ?_
  · exact writeBytes_keeps_of h.fb _ _ _ (by omega) hs.1
  · refine Keeps.bind (.look _) fun enc => ?_
    refine .ite ?_ (.pure _)
    refine (h.crypt (g := .fb) len true false fun s i v hi hs => h.fb s i v ?_ hs).mono (fun _ => id) (fun _ _ h => h.1) fun _ => id
    simp at hi
    omega

theorem SendStable.sendFrame {c : Cfg} (h : SendStable c P) (dest : Byte) (src : Nat → Loc) {len : Nat}
    (hl : len ≤ maxPayload c.val) : Keeps E P (sendFrame dest src len) := by
  refine .bind (.bind (.look _) fun _ => .ite h.canStart (.pure _)) fun _ => .ite ?_ (.pure _)
  refine .bind (h.loadFrame src hl) fun _ => .bind (h.sendSymbols _ _) fun _ => .bind (.look _) fun _ => ?_
  exact .ite (.pure _) h.awaitResponse

/-- `P` survives what a reception writes. -/
structure ReceiveStable (c : Cfg) (P : State → Prop) : Prop extends CipherStable c P where
  rx : ∀ s i v, i < c.val.maxFrameLen → P s → P (s.setByte (.rx i) v)
  event : ∀ s n, P s → P (s.rxEvent n)

/-- The byte loop keeps the frame length inside the buffer. -/
theorem ReceiveStable.receiveBytes {c : Cfg} (h : ReceiveStable c P) (fuel : Nat) :
    Holds E (fun s => P s ∧ s.work.L.toNat ≤ c.val.maxFrameLen) (receiveBytes fuel)
      (fun _ s => P s ∧ s.work.L.toNat ≤ c.val.maxFrameLen) P := by
  induction fuel with
  | zero => exact fun s hs => hs
  | succ fuel ih =>
    intro s hs
    rw [Machine.receiveBytes]
    simp only [Cmd.bind_apply, look_apply, Cmd.andThen_ok]
    by_cases hi : s.work.idx.toNat < s.work.L.toNat
    · simp only [hi, decide_true, if_true]
      have hk := (BitStable.fixed h.toBitStable s.work).receiveByte (E := E) s ⟨hs.1, rfl⟩
      simp only [Cmd.bind_apply]
      revert hk
      cases receiveByte s with
      | error e =>
        cases e with
        | cut t => rintro ⟨u, held, hu, rfl⟩; exact ⟨u, held, hu.1, rfl⟩
        | neverEnds => exact id
      | ok r =>
        obtain ⟨r, u⟩ := r
        rintro ⟨hu, hw⟩
        have k := Work.codec_eq hw
        have hM : s.work.L.toNat ≤ c.val.maxFrameLen := hs.2
        have hlt : u.work.idx.toNat < c.val.maxFrameLen := by rw [k.2.2.1]; omega
        cases r with
        | fail => exact ⟨hu, by rw [k.2.1]; exact hs.2⟩
        | byte x =>
          simp only [Cmd.andThen_ok, Cmd.bind_apply, look_apply, storeByte_apply, State.setByte_cfg]
          have hp := h.rx u u.work.idx.toNat x hlt hu
          cases hv : checkByte u.cfg.val u.work.idx.toNat x with
          | some o => exact ⟨hp, by simp only [State.setByte_work]; rw [k.2.1]; exact hs.2⟩
          | none =>
            simp only [Cmd.bind_apply, setWork_apply, Cmd.andThen_ok]
            refine ih _ ⟨h.works _ _ hp, ?_⟩
            simp only [State.withWork_work, State.setByte_work]
            split
            · next h1 =>
              have hc := h.cfg u hu
              rw [hc] at hv
              simp only [checkByte, h1] at hv
              have hx : x.toNat < 256 := x.isLt
              by_cases hvv : minFrame c.val ≤ x.toNat ∧ x.toNat < c.val.maxFrameLen
              · simp; omega
              · simp [hvv] at hv
            · rw [k.2.1]; exact hs.2
    · simp only [hi]
      exact hs

theorem ReceiveStable.concludeFrame {c : Cfg} (h : ReceiveStable c P) :
    Holds E (fun s => P s ∧ s.work.L.toNat ≤ c.val.maxFrameLen) concludeFrame (fun _ => P) P := by
  have hresp : ∀ x, Keeps E P (respond x) := fun x =>
    .bind (.look _) fun _ => .ite (.bind (h.sendByte x) fun _ => .modify fun s hs => h.lineO s _ hs) (.pure _)
  refine Holds.bind (S := fun _ s => P s ∧ s.work.L.toNat ≤ c.val.maxFrameLen) (fun _ h => h) fun crc => ?_
  by_cases hc : crc = 0
  · rw [if_pos hc]
    refine Holds.bind (S := fun _ => P) ?_ fun m => ?_
    · refine Holds.bind (S := fun n s => P s ∧ n ≤ c.val.maxFrameLen) (fun _ h => h) fun L => ?_
      refine Holds.bind (S := fun _ s => P s ∧ L ≤ c.val.maxFrameLen) (fun _ h => h) fun enc => ?_
      have hM := c.2
      by_cases he : enc = true
      · rw [if_pos he]
        by_cases hL : L ≤ c.val.maxFrameLen
        · refine (h.crypt (g := fun i => .rx (2 + i)) (L - 3) true true fun s i v hi hs => h.rx s (2 + i) v ?_ hs).mono
            (fun _ h => h.1) (fun _ _ h => h.1) fun _ => id
          simp at hi
          omega
        · intro s hs; exact absurd hs.2 hL
      · rw [if_neg he]
        refine Holds.bind (S := fun _ => P) (fun s hs => h.works s _ hs.1) fun _ => Keeps.pure _
    · exact Keeps.bind (hresp _) fun _ => .bind (.modify fun s hs => h.event s _ hs) fun _ => .pure _
  · rw [if_neg hc]
    exact Holds.bind (S := fun _ => P) ((hresp _).mono (fun _ h => h.1) (fun _ _ => id) fun _ => id) fun _ => Keeps.pure _

theorem ReceiveStable.receiveFrame {c : Cfg} (h : ReceiveStable c P) : Keeps E P receiveFrame := by
  refine Holds.bind (S := fun n s => P s ∧ n = c.val.maxFrameLen) (fun s hs => ⟨hs, by simp only [h.cfg s hs]⟩) fun cap => ?_
  refine Holds.bind (S := fun _ s => P s ∧ s.work.L.toNat ≤ c.val.maxFrameLen) ?_ fun _ => ?_
  · rintro s ⟨hs, rfl⟩
    refine ⟨h.works s _ hs, ?_⟩
    have := (Cfg.bounds c).2.2.2.2.2.2.2.2.2.1
    simp
    omega
  · refine Holds.bind (h.receiveBytes cap) fun early => ?_
    cases early with
    | some o => exact (Keeps.pure o).mono (fun _ h => h.1) (fun _ _ => id) fun _ => id
    | none => exact h.concludeFrame

theorem ReceiveStable.receiveUntil {c : Cfg} (h : ReceiveStable c P) (hE : E) (d fuel : Nat) : Keeps E P (receiveUntil d fuel) := by
  induction fuel with
  | zero => exact .neverEnds hE
  | succ fuel ih => exact .bind h.receiveFrame fun _ => .bind (.look _) fun _ => .ite (.pure _) ih

theorem ReceiveStable.receiveFrameT {c : Cfg} (h : ReceiveStable c P) (hE : E) (d : Nat) : Keeps E P (receiveFrameT d) :=
  .bind (.look _) fun _ => .bind (h.setWork _) fun _ => .bind (.look _) fun _ => h.receiveUntil hE d _

end Sys2Proof.Machine
end

