-- ==== Sys2Proof/Laws/Issue.lean ====
section
/-! SUPPORT. The frame that every command shares: when it is refused, how a command that runs alone ends, and what the end of
a command inherits from what its body keeps. -/

namespace Sys2Proof.Machine

/-- A command the block does not accept. -/
theorem issue_refused {i : Instr} (body : Cmd Word) {s : State} (h : s.busy = true ∨ legalOperands s.cfg.val i = false) :
    issue i body s = .next s.refuse := by
  unfold issue
  rcases h with h | h <;> simp [h]

/-- A command the block accepts runs its body on the accepted state. -/
theorem issue_accepted {i : Instr} (body : Cmd Word) {s : State} (hb : s.busy = false)
    (hl : legalOperands s.cfg.val i = true) :
    issue i body s = match body (s.accept i) with
      | .ok (r, t) => .next (t.finish r)
      | .error (.cut t) => .next t
      | .error .neverEnds => .fault .neverEnds := by
  unfold issue
  refine (if_neg (by simp [hb, hl])).trans ?_
  cases body (s.accept i) with
  | ok r => rfl
  | error e => cases e <;> rfl

/-- A command whose body ends normally. -/
theorem issue_ok {i : Instr} {body : Cmd Word} {s : State} {r : Word} {t : State} (hb : s.busy = false)
    (hl : legalOperands s.cfg.val i = true) (h : body (s.accept i) = .ok (r, t)) :
    issue i body s = .next (t.finish r) := by
  rw [issue_accepted body hb hl, h]

/-- What the body keeps holds of the state that the end of the command, or the reset that cuts it off, is made of. -/
theorem issue_keeps {i : Instr} {body : Cmd Word} {s t : State} {E : Prop} {P : State → Prop}
    (hk : Keeps E P body) (hp : s.busy = false → legalOperands s.cfg.val i = true → P (s.accept i))
    (h : issue i body s = .next t) :
    ((s.busy = true ∨ legalOperands s.cfg.val i = false) ∧ t = s.refuse)
    ∨ (s.busy = false ∧ legalOperands s.cfg.val i = true
        ∧ ∃ u, P u ∧ ((∃ r, t = u.finish r) ∨ ∃ held, t = u.resetPin held)) := by
  by_cases hr : s.busy = true ∨ legalOperands s.cfg.val i = false
  · rw [issue_refused body hr] at h
    exact .inl ⟨hr, by injection h with h; exact h.symm⟩
  · push Not at hr
    obtain ⟨hb, hl⟩ : s.busy = false ∧ legalOperands s.cfg.val i = true := by
      cases h1 : s.busy <;> cases h2 : legalOperands s.cfg.val i <;> simp_all
    refine .inr ⟨hb, hl, ?_⟩
    rw [issue_accepted body hb hl] at h
    have := hk _ (hp hb hl)
    revert this h
    cases body (s.accept i) with
    | ok r => intro h hu; exact ⟨r.2, hu, .inl ⟨r.1, by injection h with h; exact h.symm⟩⟩
    | error e =>
      cases e with
      | cut v =>
        rintro h ⟨u, held, hu, rfl⟩
        exact ⟨u, hu, .inr ⟨held, by injection h with h; exact h.symm⟩⟩
      | neverEnds => intro h; simp at h

/-- A body that keeps any property without the licence never to end, ends. -/
theorem issue_ends {i : Instr} {body : Cmd Word} {P : State → Prop} (s : State) (hk : Keeps False P body)
    (hp : P (s.accept i)) : ∃ t, issue i body s = .next t := by
  by_cases hr : s.busy = true ∨ legalOperands s.cfg.val i = false
  · exact ⟨_, issue_refused body hr⟩
  · obtain ⟨hb, hl⟩ : s.busy = false ∧ legalOperands s.cfg.val i = true := by
      cases h1 : s.busy <;> cases h2 : legalOperands s.cfg.val i <;> simp_all
    rw [issue_accepted body hb hl]
    have := hk _ hp
    revert this
    cases body (s.accept i) with
    | ok r => intro _; exact ⟨_, rfl⟩
    | error e =>
      cases e with
      | cut v => intro _; exact ⟨_, rfl⟩
      | neverEnds => intro h; exact h.elim

end Sys2Proof.Machine
end

