-- ==== Sys2Proof/Laws/Queue.lean ====
section
/-! SUPPORT. The queue: what the outcome handling does to a slot, what a scan without due entries does, and what `ENQUEUE`,
`TICK` and `REMOVE` keep whatever the host does meanwhile. -/

namespace Sys2Proof.Machine

variable {E : Prop} {P : State → Prop}

/-! ### Slots -/

theorem State.setSlot_setSlot (s : State) (k : Nat) (a b : Slot) : (s.setSlot k a).setSlot k b = s.setSlot k b := by
  simp [State.setSlot]

theorem State.setSlot_slot (s : State) (k : Nat) : s.setSlot k (s.slot k) = s := by
  have : s.slots.set k (s.slots.getD k Slot.blank) = s.slots := by
    by_cases h : k < s.slots.length
    · rw [List.getD_eq_getElem?_getD, List.getElem?_eq_getElem h]
      simp
    · exact List.set_eq_of_length_le (by omega)
  simp only [State.setSlot, State.slot, this]

@[simp] theorem State.slots_length_setSlot (s : State) (k : Nat) (q : Slot) :
    (s.setSlot k q).slots.length = s.slots.length := by
  simp [State.setSlot]

theorem State.slot_setSlot_self (s : State) (k : Nat) (q : Slot) (h : k < s.slots.length) : (s.setSlot k q).slot k = q := by
  rw [State.slot_setSlot s k k q h, if_pos rfl]

/-- Writing a payload byte leaves the other fields of every slot alone. -/
theorem State.slot_setByte_pay (s : State) (k i : Nat) (v : Byte) (j : Nat) :
    (s.setByte (.pay k i) v).slot j = { s.slot j with payload := ((s.setByte (.pay k i) v).slot j).payload } := by
  by_cases hk : k < s.slots.length
  · simp only [State.setByte]
    rw [State.slot_setSlot s k j _ hk]
    split
    · next h => subst h; rfl
    · rfl
  · simp only [State.setByte, State.setSlot, State.slot]
    rw [List.set_eq_of_length_le (by omega)]

theorem State.slot_writeBytes_pay (k i : Nat) (bs : List Byte) (s : State) (j : Nat) :
    (s.writeBytes (.pay k) i bs).slot j
      = { s.slot j with payload := ((s.writeBytes (.pay k) i bs).slot j).payload } := by
  induction bs generalizing i s with
  | nil => rfl
  | cons b bs ih => rw [State.writeBytes, ih, State.slot_setByte_pay]

@[simp] theorem updateSlot_apply (k : Nat) (f : Slot → Slot) (s : State) :
    updateSlot k f s = .ok ((), s.setSlot k (f (s.slot k))) := rfl

theorem retire_apply (k : Nat) (s : State) :
    retire k s = .ok ((), s.setSlot k
      (if (s.slot k).repeatInterval = 0 then (s.slot k).clear else (s.slot k).rearm s.now)) := by
  by_cases h : (s.slot k).repeatInterval = 0
  · simp [retire, removeSlot, h]
  · simp only [retire, Cmd.bind_apply, look_apply, Cmd.andThen_ok, h, decide_false, Bool.false_eq_true, if_false,
      updateSlot_apply]

/-! ### Due entries -/

theorem visitSlot_idle (k : Nat) (s : State) (h : (s.slot k).state = .empty ∨ s.due (s.slot k) = false) :
    visitSlot k s = .ok ((), s.withWork fun w => { w with cur := BitVec.ofNat 8 k }) := by
  have hs : (s.withWork fun w => { w with cur := BitVec.ofNat 8 k }).slot k = s.slot k := rfl
  have hd : (s.withWork fun w => { w with cur := BitVec.ofNat 8 k }).due (s.slot k) = s.due (s.slot k) := rfl
  simp only [visitSlot, Cmd.bind_apply, setWork_apply, Cmd.andThen_ok, look_apply, hs, hd]
  rcases h with h | h <;> simp [h]

theorem scanSlots_idle (ks : List Nat) {s : State}
    (h : ∀ k ∈ ks, (s.slot k).state = .empty ∨ s.due (s.slot k) = false) :
    ∃ w, scanSlots ks s = .ok ((), s.withWork fun _ => w) ∧ w.cnt = s.work.cnt := by
  induction ks generalizing s with
  | nil => exact ⟨s.work, rfl, rfl⟩
  | cons k ks ih =>
    obtain ⟨w, hw, hc⟩ := ih (s := s.withWork fun w => { w with cur := BitVec.ofNat 8 k })
      fun j hj => h j (List.mem_cons_of_mem _ hj)
    refine ⟨w, ?_, hc⟩
    rw [scanSlots, Cmd.bind_apply, visitSlot_idle k s (h k (List.mem_cons_self ..)), Cmd.andThen_ok, hw]
    rfl

/-- A `TICK` with no due entry. -/
theorem tick_idle {s : State} (h : ∀ k, k < s.cfg.val.maxPackets → (s.slot k).state = .empty ∨ s.due (s.slot k) = false) :
    ∃ w, tick s = .ok (0, s.withWork fun _ => w) := by
  obtain ⟨w, hw, hc⟩ := scanSlots_idle (List.range s.cfg.val.maxPackets) (s := s.withWork fun w => { w with cnt := 0 })
    fun k hk => h k (List.mem_range.1 hk)
  refine ⟨w, ?_⟩
  simp only [tick, Cmd.bind_apply, setWork_apply, Cmd.andThen_ok, look_apply, State.withWork_cfg, hw, State.withWork_work]
  rw [hc]
  rfl

/-- `t` differs from `s` at most in the slots and in what an error event writes. -/
structure State.Recorded (s t : State) : Prop where
  eq : t = { s with
    slots := t.slots, errKind := t.errKind, errCtx := t.errCtx, errCount := t.errCount, err := t.err
    freshErr := t.freshErr, events := t.events }

theorem State.Recorded.trans {s t u : State} (h : s.Recorded t) (k : t.Recorded u) : s.Recorded u := by
  refine ⟨?_⟩
  have e := k.eq
  rw [h.eq] at e
  exact e

/-- The procedure ends at once, and writes slots and error events at most. -/
def Records (x : Cmd Unit) : Prop := ∀ s, ∃ t, x s = .ok ((), t) ∧ s.Recorded t

theorem Records.bind {x : Cmd Unit} {f : Unit → Cmd Unit} (hx : Records x) (hf : ∀ a, Records (f a)) : Records (x >>= f) := by
  intro s
  obtain ⟨t, ht, h1⟩ := hx s
  obtain ⟨u, hu, h2⟩ := hf () t
  exact ⟨u, by rw [Cmd.bind_apply, ht, Cmd.andThen_ok, hu], h1.trans h2⟩

theorem Records.look {α : Type} {g : State → α} {f : α → Cmd Unit} (hf : ∀ a, Records (f a)) : Records (Machine.look g >>= f) := by
  intro s
  obtain ⟨u, hu, h⟩ := hf (g s) s
  exact ⟨u, by rw [Cmd.bind_apply, look_apply, Cmd.andThen_ok, hu], h⟩

theorem Records.ite {c : Prop} [Decidable c] {x y : Cmd Unit} (hx : Records x) (hy : Records y) :
    Records (if c then x else y) := by
  split
  · exact hx
  · exact hy

theorem Records.done : Records (Pure.pure ()) := fun s => ⟨s, rfl, ⟨rfl⟩⟩

theorem Records.slot (k : Nat) (f : Slot → Slot) : Records (updateSlot k f) := fun s => ⟨_, updateSlot_apply k f s, ⟨rfl⟩⟩

theorem Records.retire (k : Nat) : Records (retire k) := .look fun _ => .ite (.slot _ _) (.look fun _ => .slot _ _)

/-- Handling an outcome takes no tick and writes slots and an error event at most. -/
theorem Records.outcome (k : Nat) (o : TxOutcome) : Records (recordOutcome k o) := by
  refine .bind (.slot _ _) fun _ => ?_
  cases o with
  | ack => exact .retire k
  | nak => exact .done
  | busy => exact .done
  | fail =>
    refine .bind (.slot _ _) fun _ => .look fun _ => .ite (.look fun _ => .bind ?_ fun _ => .retire k) .done
    exact fun s => ⟨_, emitError_apply _ _ s, ⟨rfl⟩⟩

/-- The visit of a due entry: send it, count it, handle the outcome. -/
theorem visitSlot_due (k : Nat) (s : State) (h1 : (s.slot k).state ≠ .empty) (h2 : s.due (s.slot k) = true) :
    visitSlot k s = (do
      let o ← sendFrame (s.slot k).destination (.pay k) (s.slot k).length.toNat
      setWork fun w => { w with cnt := w.cnt + 1 }
      recordOutcome k o : Cmd Unit) (s.withWork fun w => { w with cur := BitVec.ofNat 8 k }) := by
  have hs : (s.withWork fun w => { w with cur := BitVec.ofNat 8 k }).slot k = s.slot k := rfl
  have hd : (s.withWork fun w => { w with cur := BitVec.ofNat 8 k }).due (s.slot k) = s.due (s.slot k) := rfl
  simp only [visitSlot, Cmd.bind_apply, setWork_apply, Cmd.andThen_ok, look_apply, hs, hd]
  simp [h1, h2]

/-! ### What the queue operations keep -/

/-- Slots may become what the queue operations make of them. -/
structure SlotRules (c : Cfg) (G : Slot → Prop) : Prop where
  clear : ∀ q, G q → G q.clear
  rearm : ∀ q now, G q → G (q.rearm now)
  fill : ∀ q dest (len : Byte) interval now, len.toNat ≤ maxPayload c.val → q.state = .empty → G q →
    G (q.fill dest len interval now)
  state : ∀ (q : Slot) st, st ≠ .empty → st ≠ .delivered → G q → G { q with state := st }
  fail : ∀ q : Slot, (q.attempts + 1).toNat ≤ c.val.maxAttempts → G q →
    G { q with state := .failed, attempts := q.attempts + 1 }
  len : ∀ q, G q → q.length.toNat ≤ maxPayload c.val

/-- `P` survives the slot updates that keep `G`, which holds of every slot. -/
structure QueueStable (c : Cfg) (G : Slot → Prop) (P : State → Prop) : Prop extends SendStable c P where
  rules : SlotRules c G
  good : ∀ s k, P s → G (s.slot k)
  slot : ∀ s k q, G q → P s → P (s.setSlot k q)
  count : ∀ s, P s → s.slots.length = c.val.maxPackets
  error : ∀ s e n, P s → P (s.errorEvent e n)
  pay : ∀ s k i v, i < maxPayload c.val → P s → P (s.setByte (.pay k i) v)

theorem QueueStable.recordOutcome {c : Cfg} {G : Slot → Prop} (h : QueueStable c G P) {k : Nat} (hk : k < c.val.maxPackets)
    (o : TxOutcome) : Keeps E P (recordOutcome k o) := by
  intro s hs
  have hl : k < s.slots.length := by rw [h.count s hs]; exact hk
  have hg := h.good s k hs
  simp only [Machine.recordOutcome, Cmd.bind_apply, updateSlot_apply, Cmd.andThen_ok]
  cases o with
  | nak => exact h.slot s k _ (h.rules.state _ _ (by decide) (by decide) hg) hs
  | busy => exact h.slot s k _ (h.rules.state _ _ (by decide) (by decide) hg) hs
  | ack =>
    simp only [handleAck, retire_apply, State.slot_setSlot_self _ _ _ hl, State.setSlot_setSlot]
    refine h.slot s k _ ?_ hs
    split
    · exact h.rules.clear (s.slot k) hg
    · exact h.rules.rearm (s.slot k) _ hg
  | fail =>
    simp only [handleFail, Cmd.bind_apply, updateSlot_apply, Cmd.andThen_ok, look_apply, State.slot_setSlot_self _ _ _ hl,
      State.setSlot_setSlot]
    by_cases hm : s.cfg.val.maxAttempts < ((s.slot k).attempts + 1).toNat
    · simp only [State.setSlot_cfg, hm, decide_true, if_true, Cmd.bind_apply, look_apply, Cmd.andThen_ok,
        emitError_apply, retire_apply]
      have e1 : ∀ q e n, ((s.setSlot k q).errorEvent e n) = (s.errorEvent e n).setSlot k q := fun _ _ _ => rfl
      have hl' : ∀ e n, k < (s.errorEvent e n).slots.length := fun _ _ => hl
      simp only [e1, State.slot_setSlot_self _ _ _ (hl' _ _), State.setSlot_setSlot]
      refine h.slot _ k _ ?_ (h.error s _ _ hs)
      split
      · exact h.rules.clear (s.slot k) hg
      · exact h.rules.rearm (s.slot k) _ hg
    · simp only [State.setSlot_cfg, hm, decide_false, Bool.false_eq_true, if_false]
      refine h.slot s k _ (h.rules.fail _ ?_ hg) hs
      rw [h.cfg s hs] at hm
      omega

theorem QueueStable.scanSlots {c : Cfg} {G : Slot → Prop} (h : QueueStable c G P) (ks : List Nat)
    (hk : ∀ k ∈ ks, k < c.val.maxPackets) : Keeps E P (scanSlots ks) := by
  induction ks with
  | nil => exact .pure ()
  | cons k ks ih =>
    refine .bind ?_ fun _ => ih fun j hj => hk j (List.mem_cons_of_mem _ hj)
    refine .bind (h.setWork _) fun _ => ?_
    refine Holds.bind (S := fun q s => P s ∧ G q) (fun s hs => ⟨hs, h.good s k hs⟩) fun q => ?_
    refine Holds.bind (S := fun _ s => P s ∧ G q) (fun s hs => hs) fun send => ?_
    intro s hs
    have hq := h.rules.len q hs.2
    exact Keeps.ite (.bind (h.sendFrame _ _ hq) fun o => .bind (h.setWork _) fun _ =>
      h.recordOutcome (hk k (List.mem_cons_self ..)) o) (.pure _) s hs.1

theorem QueueStable.tick {c : Cfg} {G : Slot → Prop} (h : QueueStable c G P) : Keeps E P tick := by
  refine .bind (h.setWork _) fun _ => ?_
  refine Holds.bind (S := fun n s => P s ∧ n = c.val.maxPackets) (fun s hs => ⟨hs, by simp only [h.cfg s hs]⟩) fun n => ?_
  intro s hs
  obtain ⟨hs, rfl⟩ := hs
  exact Keeps.bind (h.scanSlots _ fun k hk => List.mem_range.1 hk) (fun _ => .look _) s hs

theorem QueueStable.removeSlot {c : Cfg} {G : Slot → Prop} (h : QueueStable c G P) (k : Nat) : Keeps E P (removeSlot k) :=
  .modify fun s hs => h.slot s k _ (h.rules.clear _ (h.good s k hs)) hs

theorem State.freeSlot_some {s : State} {k : Nat} (h : s.freeSlot = some k) :
    k < s.slots.length ∧ (s.slot k).state = .empty ∧ ∀ j, j < k → (s.slot j).state ≠ .empty := by
  unfold State.freeSlot at h
  rw [List.findIdx?_eq_some_iff_getElem] at h
  obtain ⟨hk, h1, h2⟩ := h
  refine ⟨hk, ?_, fun j hj => ?_⟩
  · simpa [State.slot, List.getElem?_eq_getElem hk] using h1
  · simpa [State.slot, List.getElem?_eq_getElem (Nat.lt_trans hj hk)] using h2 j hj

theorem State.freeSlot_none {s : State} (h : s.freeSlot = none) (k : Nat) (hk : k < s.slots.length) :
    (s.slot k).state ≠ .empty := by
  unfold State.freeSlot at h
  rw [List.findIdx?_eq_none_iff] at h
  simpa [State.slot, List.getElem?_eq_getElem hk] using h _ (List.getElem_mem hk)

theorem QueueStable.enqueue {c : Cfg} {G : Slot → Prop} (h : QueueStable c G P) (dest len : Byte) (interval : Word) :
    Keeps E P (enqueue dest len interval) := by
  intro s hs
  have hc := h.cfg s hs
  simp only [Machine.enqueue, Cmd.bind_apply, look_apply, Cmd.andThen_ok]
  by_cases hl : maxPayload s.cfg.val < len.toNat
  · simp only [hl, if_true, Cmd.bind_apply, emitError_apply, Cmd.andThen_ok, Cmd.pure_apply]
    exact h.error s _ _ hs
  · simp only [hl, if_false, Cmd.bind_apply, look_apply, Cmd.andThen_ok]
    cases hf : s.freeSlot with
    | none =>
      simp only [Cmd.bind_apply, look_apply, emitError_apply, Cmd.andThen_ok, Cmd.pure_apply]
      exact h.error s _ _ hs
    | some k =>
      simp only [Cmd.bind_apply, look_apply, modify_apply, Cmd.andThen_ok, updateSlot_apply, Cmd.pure_apply]
      obtain ⟨hk, he, -⟩ := State.freeSlot_some hf
      rw [hc] at hl
      have hp : P (s.writeBytes (.pay k) 0 (s.readBytes .tx len.toNat)) :=
        writeBytes_keeps_of (h.pay · k) _ _ _ (by simp; omega) hs
      refine h.slot _ k _ (h.rules.fill _ _ _ _ _ (by omega) ?_ (h.good _ k hp)) hp
      rw [State.slot_writeBytes_pay]
      exact he

end Sys2Proof.Machine
end

