-- ==== Sys2Proof/Laws/Free.lean ====
section
/-! SUPPORT. Properties that the writes of a command keep, whatever the state: they hold at the end of the command, of the state
before its `finish` or before the reset that cuts it off. `Instr.writes` says which writes a command makes. -/

namespace Sys2Proof.Machine

/-- Kinds of writes to the storage and to the registers, apart from the pin registers and the working registers. -/
structure Writes where
  byte : Loc → Prop
  slot : Prop
  event : Prop
  error : Prop

/-- Every write. -/
def Writes.all : Writes := ⟨fun _ => True, True, True, True⟩

/-- No write. -/
def Writes.none : Writes := ⟨fun _ => False, False, False, False⟩

/-- The writes of `sendFrame`: the hidden buffers. -/
def Writes.sending : Writes := ⟨fun l => (∃ i, l = .fb i) ∨ ∃ i, l = .sb i, False, False, False⟩

/-- The writes of `receiveFrame`: `RXBUF`, `SBOX`, the receive event. -/
def Writes.receiving : Writes := ⟨fun l => (∃ i, l = .rx i) ∨ ∃ i, l = .sb i, False, True, False⟩

/-- The writes of each command. -/
def Writes.of : Instr → Writes
  | .sendBit _ _ => .none
  | .sampleBit _ _ => .none
  | .sendByte _ _ => .none
  | .readByte _ _ => .none
  | .receiveByte _ _ => .none
  | .canStart _ _ => .none
  | .sendFrame _ _ => .sending
  | .receiveFrame _ _ => .receiving
  | .receiveFrameT _ _ => .receiving
  | .crypt _ _ _ => ⟨fun l => (∃ i, l = .tx i) ∨ ∃ i, l = .sb i, False, False, False⟩
  | .genIv _ _ => .none
  | .enqueue _ _ => ⟨fun l => ∃ k i, l = .pay k i, True, False, True⟩
  | .tick _ _ => ⟨fun l => (∃ i, l = .fb i) ∨ ∃ i, l = .sb i, True, False, True⟩
  | .remove _ _ => ⟨fun _ => False, True, False, False⟩

variable {α : Type} {E : Prop} {P : State → Prop} {W : Writes}

/-- `P` survives ticks, everything the host can do during a command, writes to the pin registers and the working registers,
and the writes of `W`. -/
structure FreeFor (W : Writes) (P : State → Prop) : Prop extends Stable P where
  lineO : ∀ s b, P s → P (s.withLineO b)
  lineOe : ∀ s b, P s → P (s.withLineOe b)
  works : ∀ s (f : Work → Work), P s → P (s.withWork f)
  byte : ∀ s l v, W.byte l → P s → P (s.setByte l v)
  slot : ∀ s k q, W.slot → P s → P (s.setSlot k q)
  event : ∀ s n, W.event → P s → P (s.rxEvent n)
  error : ∀ s e n, W.error → P s → P (s.errorEvent e n)

/-- `P` survives every write a command can make. -/
structure Free (P : State → Prop) : Prop extends Stable P where
  lineO : ∀ s b, P s → P (s.withLineO b)
  lineOe : ∀ s b, P s → P (s.withLineOe b)
  works : ∀ s (f : Work → Work), P s → P (s.withWork f)
  byte : ∀ s l v, P s → P (s.setByte l v)
  slot : ∀ s k q, P s → P (s.setSlot k q)
  event : ∀ s n, P s → P (s.rxEvent n)
  error : ∀ s e n, P s → P (s.errorEvent e n)

theorem Free.free (h : Free P) (W : Writes) : FreeFor W P where
  toStable := h.toStable
  lineO := h.lineO
  lineOe := h.lineOe
  works := h.works
  byte s l v _ := h.byte s l v
  slot s k q _ := h.slot s k q
  event s n _ := h.event s n
  error s e n _ := h.error s e n

/-- What none of the writes changes keeps its value. -/
theorem FreeFor.of_eq {β : Type} {f : State → β} (pass : ∀ s d, f (s.pass d) = f s) (host : ∀ s a, f (s.withHost a) = f s)
    (status : ∀ s v, f (s.writeStatus v) = f s) (refuse : ∀ s, f s.refuse = f s) (read : ∀ s a, f (s.busRead a) = f s)
    (lineO : ∀ s b, f (s.withLineO b) = f s) (lineOe : ∀ s b, f (s.withLineOe b) = f s)
    (works : ∀ s g, f (s.withWork g) = f s) (byte : ∀ s l v, W.byte l → f (s.setByte l v) = f s)
    (slot : ∀ s k q, W.slot → f (s.setSlot k q) = f s) (event : ∀ s n, W.event → f (s.rxEvent n) = f s)
    (error : ∀ s e n, W.error → f (s.errorEvent e n) = f s) (b : β) : FreeFor W fun s => f s = b where
  pass s d hs := (pass s d).trans hs
  host s a hs := (host s a).trans hs
  status s v hs := (status s v).trans hs
  refuse s hs := (refuse s).trans hs
  read s a hs := (read s a).trans hs
  lineO s b hs := (lineO s b).trans hs
  lineOe s b hs := (lineOe s b).trans hs
  works s g hs := (works s g).trans hs
  byte s l v hw hs := (byte s l v hw).trans hs
  slot s k q hw hs := (slot s k q hw).trans hs
  event s n hw hs := (event s n hw).trans hs
  error s e n hw hs := (error s e n hw).trans hs

/-- What no write changes keeps its value. -/
theorem Free.of_eq {β : Type} {f : State → β} (pass : ∀ s d, f (s.pass d) = f s) (host : ∀ s a, f (s.withHost a) = f s)
    (status : ∀ s v, f (s.writeStatus v) = f s) (refuse : ∀ s, f s.refuse = f s) (read : ∀ s a, f (s.busRead a) = f s)
    (lineO : ∀ s b, f (s.withLineO b) = f s) (lineOe : ∀ s b, f (s.withLineOe b) = f s)
    (works : ∀ s g, f (s.withWork g) = f s) (byte : ∀ s l v, f (s.setByte l v) = f s)
    (slot : ∀ s k q, f (s.setSlot k q) = f s) (event : ∀ s n, f (s.rxEvent n) = f s)
    (error : ∀ s e n, f (s.errorEvent e n) = f s) (b : β) : Free fun s => f s = b where
  pass s d hs := (pass s d).trans hs
  host s a hs := (host s a).trans hs
  status s v hs := (status s v).trans hs
  refuse s hs := (refuse s).trans hs
  read s a hs := (read s a).trans hs
  lineO s b hs := (lineO s b).trans hs
  lineOe s b hs := (lineOe s b).trans hs
  works s g hs := (works s g).trans hs
  byte s l v hs := (byte s l v).trans hs
  slot s k q hs := (slot s k q).trans hs
  event s n hs := (event s n).trans hs
  error s e n hs := (error s e n).trans hs

theorem FreeFor.bit (h : FreeFor W P) : BitStable P where
  toStable := h.toStable
  lineO := h.lineO
  lineOe := h.lineOe
  work s f _ hs := h.works s f hs

theorem FreeFor.setWork (h : FreeFor W P) (f : Work → Work) : Keeps E P (setWork f) := .modify fun s hs => h.works s f hs

theorem FreeFor.writeBytes (h : FreeFor W P) (g : Nat → Loc) (hg : ∀ i, W.byte (g i)) (bs : List Byte) : ∀ (i : Nat) (s : State), P s → P (s.writeBytes g i bs) := by
  induction bs with
  | nil => exact fun _ _ hs => hs
  | cons b bs ih => exact fun i s hs => ih (i + 1) _ (h.byte s _ _ (hg i) hs)

theorem FreeFor.crypt (h : FreeFor W P) (g : Nat → Loc) (hg : ∀ i, W.byte (g i)) (hb : ∀ i, W.byte (.sb i)) (n : Nat) (ivf side : Bool) : Keeps E P (crypt g n ivf side) := by
  intro s hs
  rw [crypt_apply]
  exact h.works _ _ (h.writeBytes .sb hb _ 0 _ (h.writeBytes g hg _ 0 _ hs))

/-! ### Sending -/

theorem FreeFor.sendChecked (h : FreeFor W P) (x : Byte) : Keeps E P (sendChecked x) :=
  .bind (h.bit.sendByte x) fun _ => h.setWork _

theorem FreeFor.sendPayload (h : FreeFor W P) (left : Nat) : ∀ i, Keeps E P (sendPayload left i) := by
  induction left with
  | zero => exact fun _ => .pure ()
  | succ left ih =>
    exact fun i => .bind (h.setWork _) fun _ => .bind (.look _) fun _ => .bind (h.sendChecked _) fun _ => ih (i + 1)

theorem FreeFor.sendSymbols (h : FreeFor W P) (dest : Byte) (n : Nat) : Keeps E P (sendSymbols dest n) :=
  .bind (h.setWork _) fun _ => .bind (h.sendChecked _) fun _ => .bind (.look _) fun _ => .bind (h.sendChecked _) fun _ =>
    .bind (h.sendPayload _ _) fun _ => .bind (.look _) fun _ => .bind (h.bit.sendByte _) fun _ =>
      .modify fun s hs => h.lineO s _ hs

theorem FreeFor.listenLoop (h : FreeFor W P) (fuel : Nat) : Keeps E P (listenLoop fuel) := by
  induction fuel with
  | zero => exact .pure ()
  | succ fuel ih =>
    refine .bind (.look _) fun _ => .ite ?_ (.pure _)
    exact .bind h.bit.receiveByte fun _ => .bind (h.setWork _) fun _ => ih

theorem FreeFor.sendFrame (h : FreeFor W P) (hf : ∀ i, W.byte (.fb i)) (hb : ∀ i, W.byte (.sb i)) (dest : Byte) (src : Nat → Loc) (len : Nat) : Keeps E P (sendFrame dest src len) := by
  refine .bind (.bind (.look _) fun _ => .ite h.bit.canStart (.pure _)) fun _ => .ite ?_ (.pure _)
  refine .bind ?_ fun _ => .bind (h.sendSymbols _ _) fun _ => .bind (.look _) fun _ => .ite (.pure _) ?_
  · exact .bind (.look _) fun bs => .bind (.modify fun s hs => h.writeBytes .fb hf bs 0 s hs) fun _ => .bind (.look _) fun _ =>
      .ite (h.crypt _ hf hb _ _ _) (.pure _)
  · exact .bind (.look _) fun _ => .bind (h.setWork _) fun _ => .bind (.look _) fun _ => .bind (h.listenLoop _) fun _ =>
      .look _

/-! ### Receiving -/

theorem FreeFor.receiveBytes (h : FreeFor W P) (hr : ∀ i, W.byte (.rx i)) (fuel : Nat) : Keeps E P (receiveBytes fuel) := by
  induction fuel with
  | zero => exact .pure none
  | succ fuel ih =>
    refine .bind (.look _) fun _ => .ite (.bind h.bit.receiveByte fun r => ?_) (.pure _)
    cases r with
    | fail => exact .pure _
    | byte x =>
      refine .bind (.look _) fun _ => .bind (.modify fun s hs => h.byte s _ _ (hr _) hs) fun _ => .bind (.look _) fun verdict => ?_
      cases verdict with
      | some o => exact .pure _
      | none => exact .bind (h.setWork _) fun _ => ih

theorem FreeFor.respond (h : FreeFor W P) (x : Byte) : Keeps E P (respond x) :=
  .bind (.look _) fun _ => .ite (.bind (h.bit.sendByte x) fun _ => .modify fun s hs => h.lineO s _ hs) (.pure _)

theorem FreeFor.concludeFrame (h : FreeFor W P) (hr : ∀ i, W.byte (.rx i)) (hb : ∀ i, W.byte (.sb i)) (he : W.event) : Keeps E P concludeFrame := by
  refine .bind (.look _) fun _ => .ite ?_ (.bind (h.respond _) fun _ => .pure _)
  refine .bind ?_ fun _ => .bind (h.respond _) fun _ => .bind (.modify fun s hs => h.event s _ he hs) fun _ => .pure _
  exact .bind (.look _) fun _ => .bind (.look _) fun _ => .ite (h.crypt _ (fun i => hr (2 + i)) hb _ _ _) (.bind (h.setWork _) fun _ => .pure _)

theorem FreeFor.receiveFrame (h : FreeFor W P) (hr : ∀ i, W.byte (.rx i)) (hb : ∀ i, W.byte (.sb i)) (he : W.event) : Keeps E P receiveFrame := by
  refine .bind (.look _) fun _ => .bind (h.setWork _) fun _ => .bind (h.receiveBytes hr _) fun early => ?_
  cases early with
  | some o => exact .pure o
  | none => exact h.concludeFrame hr hb he

theorem FreeFor.receiveFrameT (h : FreeFor W P) (hr : ∀ i, W.byte (.rx i)) (hb : ∀ i, W.byte (.sb i)) (he : W.event) (hE : E) (d : Nat) : Keeps E P (receiveFrameT d) := by
  refine .bind (.look _) fun _ => .bind (h.setWork _) fun _ => .bind (.look _) fun fuel => ?_
  induction fuel with
  | zero => exact .neverEnds hE
  | succ fuel ih => exact .bind (h.receiveFrame hr hb he) fun _ => .bind (.look _) fun _ => .ite (.pure _) ih

/-! ### The queue -/

theorem FreeFor.updateSlot (h : FreeFor W P) (hw : W.slot) (k : Nat) (f : Slot → Slot) : Keeps E P (updateSlot k f) :=
  .modify fun s hs => h.slot s _ _ hw hs

theorem FreeFor.retire (h : FreeFor W P) (hw : W.slot) (k : Nat) : Keeps E P (retire k) :=
  .bind (.look _) fun _ => .ite (h.updateSlot hw _ _) (.bind (.look _) fun _ => h.updateSlot hw _ _)

theorem FreeFor.recordOutcome (h : FreeFor W P) (hw : W.slot) (he : W.error) (k : Nat) (o : TxOutcome) : Keeps E P (recordOutcome k o) := by
  refine .bind (h.updateSlot hw _ _) fun _ => ?_
  cases o with
  | ack => exact h.retire hw k
  | nak => exact .pure ()
  | busy => exact .pure ()
  | fail =>
    refine .bind (h.updateSlot hw _ _) fun _ => .bind (.look _) fun _ => .ite (.bind (.look _) fun _ => ?_) (.pure _)
    exact .bind (.modify fun s hs => h.error s _ _ he hs) fun _ => h.retire hw k

theorem FreeFor.tick (h : FreeFor W P) (hf : ∀ i, W.byte (.fb i)) (hb : ∀ i, W.byte (.sb i)) (hw : W.slot) (he : W.error) : Keeps E P tick := by
  refine .bind (h.setWork _) fun _ => .bind (.look _) fun n => .bind ?_ fun _ => .look _
  induction List.range n with
  | nil => exact .pure ()
  | cons k ks ih =>
    refine .bind ?_ fun _ => ih
    refine .bind (h.setWork _) fun _ => .bind (.look _) fun q => .bind (.look _) fun _ => .ite ?_ (.pure _)
    exact .bind (h.sendFrame hf hb _ _ _) fun _ => .bind (h.setWork _) fun _ => h.recordOutcome hw he _ _

theorem FreeFor.enqueue (h : FreeFor W P) (hp : ∀ k i, W.byte (.pay k i)) (hw : W.slot) (he : W.error) (dest len : Byte) (interval : Word) : Keeps E P (enqueue dest len interval) := by
  refine .bind (.look _) fun _ => .ite (.bind (.modify fun s hs => h.error s _ _ he hs) fun _ => .pure _) ?_
  refine .bind (.look _) fun free => ?_
  cases free with
  | none => exact .bind (.look _) fun _ => .bind (.modify fun s hs => h.error s _ _ he hs) fun _ => .pure _
  | some k =>
    exact .bind (.look _) fun bs => .bind (.modify fun s hs => h.writeBytes _ (hp k) bs 0 s hs) fun _ => .bind (.look _) fun _ =>
      .bind (h.updateSlot hw _ _) fun _ => .pure _

/-! ### Every command -/

/-- A command the block does not accept, whichever it is. -/
theorem exec_refused {i : Instr} {s : State} (h : s.busy = true ∨ legalOperands s.cfg.val i = false) :
    exec i s = .next s.refuse := by
  cases i <;> simp only [exec, execSendBit, execSampleBit, execSendByte, execReadByte, execReceiveByte, execCanStart,
    execSendFrame, execReceiveFrame, execReceiveFrameT, execCrypt, execGenIv, execEnqueue, execTick, execRemove] <;>
    exact issue_refused _ h

/-- What a command leaves, for a property that the command's writes keep. -/
theorem FreeFor.exec {i : Instr} (h : FreeFor (.of i) P) {s t : State}
    (hp : s.busy = false → legalOperands s.cfg.val i = true → P (s.accept i)) (he : exec i s = .next t) :
    ((s.busy = true ∨ legalOperands s.cfg.val i = false) ∧ t = s.refuse)
    ∨ (s.busy = false ∧ legalOperands s.cfg.val i = true
        ∧ ∃ u, P u ∧ ((∃ r, t = u.finish r) ∨ ∃ held, t = u.resetPin held)) := by
  have hf (i : Nat) : Writes.sending.byte (.fb i) := .inl ⟨i, rfl⟩
  have hb (i : Nat) : Writes.sending.byte (.sb i) := .inr ⟨i, rfl⟩
  have hr (i : Nat) : Writes.receiving.byte (.rx i) := .inl ⟨i, rfl⟩
  have hb' (i : Nat) : Writes.receiving.byte (.sb i) := .inr ⟨i, rfl⟩
  cases i <;> simp only [Machine.exec] at he <;> refine issue_keeps (E := True) ?_ hp he
  · exact .bind (.look _) fun _ => .bind (.look _) fun _ => .bind (h.bit.sendBit _ _) fun _ => .pure _
  · exact .bind (.look _) fun _ => .bind (h.bit.sampleBit _) fun _ => .pure _
  · exact .bind (.look _) fun _ => .bind (h.bit.sendByte _) fun _ => .pure _
  · exact .bind h.bit.readByte fun _ => .pure _
  · exact .bind h.bit.receiveByte fun _ => .pure _
  · exact .bind h.bit.canStart fun _ => .pure _
  · exact .bind (.look _) fun _ => .bind (.look _) fun _ => .bind (h.sendFrame hf hb _ _ _) fun _ => .pure _
  · exact .bind (h.receiveFrame hr hb' trivial) fun _ => .pure _
  · exact .bind (.look _) fun _ => .bind (h.receiveFrameT hr hb' trivial trivial _) fun _ => .pure _
  · exact .bind (.look _) fun _ => .bind (.look _) fun _ => .bind (.look _) fun _ =>
      .bind (h.crypt _ (fun i => .inl ⟨i, rfl⟩) (fun i => .inr ⟨i, rfl⟩) _ _ _) fun _ => .pure _
  · exact .bind (.look _) fun _ => .bind (.look _) fun _ => .bind (h.setWork _) fun _ => .pure _
  · exact .bind (.look _) fun _ => .bind (.look _) fun _ => .bind (.look _) fun _ =>
      h.enqueue (fun k i => ⟨k, i, rfl⟩) trivial trivial _ _ _
  · exact .bind (h.tick hf hb trivial trivial) fun _ => .pure _
  · exact .bind (.look _) fun _ => .bind (h.updateSlot trivial _ _) fun _ => .pure _

/-- What a command leaves, for a property that every write keeps. -/
theorem Free.exec (h : Free P) {i : Instr} {s t : State}
    (hp : s.busy = false → legalOperands s.cfg.val i = true → P (s.accept i)) (he : exec i s = .next t) :
    ((s.busy = true ∨ legalOperands s.cfg.val i = false) ∧ t = s.refuse)
    ∨ (s.busy = false ∧ legalOperands s.cfg.val i = true
        ∧ ∃ u, P u ∧ ((∃ r, t = u.finish r) ∨ ∃ held, t = u.resetPin held)) :=
  (h.free _).exec hp he

end Sys2Proof.Machine
end

