-- ==== Sys2Proof/Laws/Command.lean ====
section
/-! SUPPORT. Small facts about the ends of commands: what acceptance, the end, a refusal and the events leave of the storage,
which component a region write touches, the pins along driven runs, and what a command keeps when no reset cuts it off. -/

namespace Sys2Proof.Machine

/-! ### Steps -/

/-- A step makes the host action that is next and due. -/
theorem step_due {s : State} {op : BusOp} {rest : List HostAct} (h : s.dueNext op rest) :
    step s = perform op { s with host := rest } := by
  unfold step
  rcases h with h | ⟨tick, first, h, hle⟩
  · rw [h]; rfl
  · rw [h]
    simp only [show ¬ s.time < tick by omega, if_false]
    rfl

/-! ### Readiness -/

theorem State.ready_iff {s : State} : s.ready = true ↔ s.busy = false ∧ s.undisturbed = true := by
  simp [State.ready]

@[simp] theorem State.undisturbed_accept (i : Instr) (s : State) : (s.accept i).undisturbed = s.undisturbed := rfl

theorem State.channelClear_accept (i : Instr) (s : State) : (s.accept i).channelClear ↔ s.channelClear := Iff.rfl

/-- A command whose body ends normally, its next state given by an equation. -/
theorem issue_as {i : Instr} {body : Cmd Word} {s : State} (r : Word) (t : State) {u : State} (hb : s.busy = false)
    (hl : legalOperands s.cfg.val i = true) (h : body (s.accept i) = .ok (r, t)) (e : t.finish r = u) :
    issue i body s = .next u := (issue_ok hb hl h).trans (by rw [e])

/-! ### The storage -/

@[simp] theorem State.byteAt_accept (i : Instr) (s : State) : (s.accept i).byteAt = s.byteAt := by funext l; cases l <;> rfl
@[simp] theorem State.byteAt_finish (r : Word) (s : State) : (s.finish r).byteAt = s.byteAt := by funext l; cases l <;> rfl
@[simp] theorem State.byteAt_refuse (s : State) : s.refuse.byteAt = s.byteAt := by funext l; cases l <;> rfl
@[simp] theorem State.byteAt_rxEvent (n : Byte) (s : State) : (s.rxEvent n).byteAt = s.byteAt := by funext l; cases l <;> rfl
@[simp] theorem State.byteAt_errorEvent (k : ErrKind) (n : Byte) (s : State) : (s.errorEvent k n).byteAt = s.byteAt := by
  funext l; cases l <;> rfl
@[simp] theorem State.byteAt_writeStatus (v : Word) (s : State) : (s.writeStatus v).byteAt = s.byteAt := by
  funext l; cases l <;> rfl
@[simp] theorem State.byteAt_busRead (a : BusAddr) (s : State) : (s.busRead a).byteAt = s.byteAt := by
  funext l; cases l <;> rfl
@[simp] theorem State.byteAt_withHost (acts : List HostAct) (s : State) : (s.withHost acts).byteAt = s.byteAt := by
  funext l; cases l <;> rfl

theorem State.readBytes_accept (i : Instr) (s : State) (g : Nat → Loc) (n : Nat) :
    (s.accept i).readBytes g n = s.readBytes g n := by simp only [State.readBytes, State.byteAt_accept]

theorem State.readBytes_finish (r : Word) (s : State) (g : Nat → Loc) (n : Nat) :
    (s.finish r).readBytes g n = s.readBytes g n := by simp only [State.readBytes, State.byteAt_finish]

/-- A write to `TXBUF` touches `TXBUF` only. -/
theorem State.writeBytes_tx_eq (bs : List Byte) : ∀ (i : Nat) (s : State),
    s.writeBytes .tx i bs = { s with txbuf := (s.writeBytes .tx i bs).txbuf } := by
  induction bs with
  | nil => intro i s; rfl
  | cons b bs ih => intro i s; rw [State.writeBytes, ih]; rfl

/-- A write to `RXBUF` touches `RXBUF` only. -/
theorem State.writeBytes_rx_eq (bs : List Byte) : ∀ (i : Nat) (s : State),
    s.writeBytes .rx i bs = { s with rxbuf := (s.writeBytes .rx i bs).rxbuf } := by
  induction bs with
  | nil => intro i s; rfl
  | cons b bs ih => intro i s; rw [State.writeBytes, ih]; rfl

/-- A write to `SBOX` touches `SBOX` only. -/
theorem State.writeBytes_sb_eq (bs : List Byte) : ∀ (i : Nat) (s : State),
    s.writeBytes .sb i bs = { s with sbox := (s.writeBytes .sb i bs).sbox } := by
  induction bs with
  | nil => intro i s; rfl
  | cons b bs ih => intro i s; rw [State.writeBytes, ih]; rfl

/-- A write to a slot's payload store touches the slot file only. -/
theorem State.writeBytes_pay_eq (k : Nat) (bs : List Byte) : ∀ (i : Nat) (s : State),
    s.writeBytes (.pay k) i bs = { s with slots := (s.writeBytes (.pay k) i bs).slots } := by
  induction bs with
  | nil => intro i s; rfl
  | cons b bs ih => intro i s; rw [State.writeBytes, ih]; rfl

/-! ### Pins along driven runs -/

theorem tByte_pos (s : State) : 0 < tByte s.cfg.val := by
  have := Cfg.bitSpacer_pos s.cfg; unfold tByte; omega

theorem symbolRuns_getLast (c : Config) (x : Byte) : (symbolRuns c x).getLast?.map Prod.fst = some (x.getLsbD 7) := by
  simp [symbolRuns, List.range_succ]

theorem symbolsRuns_getLast (c : Config) (frame : List Byte) (h : frame ≠ []) :
    ∃ b, (symbolsRuns c frame).getLast?.map Prod.fst = some b := by
  rw [show frame = frame.dropLast ++ [frame.getLast h] from (List.dropLast_append_getLast h).symm, symbolsRuns_append]
  simp [symbolsRuns, symbolRuns, List.range_succ]

/-- Tick `j` of driven runs shows the level of the runs there. -/
theorem pinsBack_driveRuns (runs : List (Bool × Nat)) : ∀ (tr : List PinRun) (j : Nat), j < (runs.map Prod.snd).sum →
    pinsBack (driveRuns runs tr) ((runs.map Prod.snd).sum - 1 - j) = some ⟨true, levelIn false runs j⟩ := by
  induction runs using List.reverseRecOn with
  | nil => intro tr j h; simp at h
  | append_singleton runs r ih =>
    intro tr j hj
    have e : driveRuns (runs ++ [r]) tr = pushRun ⟨true, r.1⟩ r.2 (driveRuns runs tr) := by simp [driveRuns]
    simp only [List.map_append, List.sum_append, List.map_singleton, List.sum_singleton] at hj ⊢
    rw [e, pinsBack_pushRun, levelIn_append]
    by_cases h : j < (runs.map Prod.snd).sum
    · rw [if_neg (by omega), if_pos h, ← ih tr j h]
      congr 1; omega
    · rw [if_pos (by omega), if_neg h]
      obtain ⟨b, n⟩ := r
      simp only [levelIn]
      rw [if_pos (by simp at hj; omega)]

/-- The ticks before driven runs are as they were. -/
theorem pinsBack_driveRuns_before (runs : List (Bool × Nat)) (tr : List PinRun) (k : Nat) :
    pinsBack (driveRuns runs tr) ((runs.map Prod.snd).sum + k) = pinsBack tr k := by
  induction runs using List.reverseRecOn with
  | nil => simp [driveRuns]
  | append_singleton runs r ih =>
    have e : driveRuns (runs ++ [r]) tr = pushRun ⟨true, r.1⟩ r.2 (driveRuns runs tr) := by simp [driveRuns]
    simp only [List.map_append, List.sum_append, List.map_singleton, List.sum_singleton] at ih ⊢
    rw [e, pinsBack_pushRun, if_neg (by omega), ← ih]
    congr 1; omega

/-- The level of runs of one length. -/
theorem levelIn_equal (f : Nat → Bool) (W n : Nat) (hW : 0 < W) : ∀ (m j : Nat), j < W * n →
    levelIn false ((List.range' m n).map fun k => (f k, W)) j = f (m + j / W) := by
  induction n with
  | zero => intro m j h; simp at h
  | succ n ih =>
    intro m j h
    simp only [List.range'_succ, List.map_cons, levelIn]
    by_cases hj : j < W
    · rw [if_pos hj, Nat.div_eq_of_lt hj]; rfl
    · rw [if_neg hj, ih _ _ (by rw [Nat.mul_succ] at h; omega)]
      congr 1
      have : j / W = (j - W) / W + 1 := by
        conv_lhs => rw [show j = (j - W) + W by omega]
        exact Nat.add_div_right _ hW
      omega

/-! ### What a command keeps -/

theorem FreeFor.and {W : Writes} {P Q : State → Prop} (h : FreeFor W P) (h' : FreeFor W Q) :
    FreeFor W fun s => P s ∧ Q s where
  pass s d hs := ⟨h.pass s d hs.1, h'.pass s d hs.2⟩
  host s a hs := ⟨h.host s a hs.1, h'.host s a hs.2⟩
  status s v hs := ⟨h.status s v hs.1, h'.status s v hs.2⟩
  refuse s hs := ⟨h.refuse s hs.1, h'.refuse s hs.2⟩
  read s a hs := ⟨h.read s a hs.1, h'.read s a hs.2⟩
  lineO s b hs := ⟨h.lineO s b hs.1, h'.lineO s b hs.2⟩
  lineOe s b hs := ⟨h.lineOe s b hs.1, h'.lineOe s b hs.2⟩
  works s f hs := ⟨h.works s f hs.1, h'.works s f hs.2⟩
  byte s l v w hs := ⟨h.byte s l v w hs.1, h'.byte s l v w hs.2⟩
  slot s k q w hs := ⟨h.slot s k q w hs.1, h'.slot s k q w hs.2⟩
  event s n w hs := ⟨h.event s n w hs.1, h'.event s n w hs.2⟩
  error s e n w hs := ⟨h.error s e n w hs.1, h'.error s e n w hs.2⟩

/-- The number of resets changes by a reset only. -/
theorem FreeFor.resets (W : Writes) (n : Nat) : FreeFor W fun u => u.resets = n := by
  apply FreeFor.of_eq <;> intros <;> try rfl
  rename_i l _ _; cases l <;> rfl

/-- A byte that the writes leave alone. -/
theorem FreeFor.byteAt {W : Writes} (l : Loc) (hb : ¬ W.byte l) (hs : (∃ k j, l = .pay k j) → ¬ W.slot) (b : Byte) :
    FreeFor W fun u => u.byteAt l = b := by
  apply FreeFor.of_eq (f := fun u : State => u.byteAt l)
  case byte => intro s l' v hw; exact State.byteAt_setByte_other s v (by rintro rfl; exact hb hw)
  case slot =>
    intro s k q hw
    cases l with
    | pay k j => exact (hs ⟨_, _, rfl⟩ hw).elim
    | _ => rfl
  all_goals (intros; cases l <;> rfl)

end Sys2Proof.Machine
end

