-- ==== Sys2Proof/Laws/ReceiveFrame.lean ====
section
/-! SUPPORT. `RECEIVE_FRAME` when nothing disturbs the block: the byte loop on a line that carries symbols, its early ends, and
the conclusion of a complete frame. -/

namespace Sys2Proof.Machine

/-! ### One byte -/

/-- A symbol is stored, and its verdict decides. -/
theorem receiveBytes_step (x : Byte) (fuel : Nat) {s : State} (h : s.undisturbed = true)
    (hi : s.work.idx.toNat < s.work.L.toNat) (hl : s.carries s.time (symbolRuns s.cfg.val x)) :
    ∃ w, w.codec = s.work.codec
      ∧ receiveBytes (fuel + 1) s =
        match checkByte s.cfg.val s.work.idx.toNat x with
        | some o => .ok (some o, (((s.withLineOe false).pass (tByte s.cfg.val)).setByte (.rx s.work.idx.toNat) x).withWork
            fun _ => w)
        | none => receiveBytes fuel ((((s.withLineOe false).pass (tByte s.cfg.val)).setByte (.rx s.work.idx.toNat) x).withWork
            fun _ => { w with
              L := if s.work.idx.toNat = 1 then x.setWidth 9 else s.work.L
              crc := s.work.crc ^^^ x
              idx := BitVec.ofNat 9 (s.work.idx.toNat + 1) }) := by
  obtain ⟨w, hw, hc⟩ := receiveByte_symbol h x hl
  have k := Work.codec_eq hc
  refine ⟨w, hc, ?_⟩
  rw [receiveBytes]
  simp only [Cmd.bind_apply, look_apply, Cmd.andThen_ok, hi, decide_true, if_true, hw, State.withWork_work,
    storeByte_apply, State.withWork_setByte, State.withWork_cfg, State.setByte_cfg, State.pass_cfg, State.withLineOe_cfg,
    k.2.2.1]
  cases checkByte s.cfg.val s.work.idx.toNat x with
  | some o => simp
  | none => simp [k.2.1, k.1]

/-- A symbol that fails ends the reception. -/
theorem receiveBytes_fails (how : SymbolFail) (fuel : Nat) {s : State} (h : s.undisturbed = true)
    (hi : s.work.idx.toNat < s.work.L.toNat) (hl : how.legal s.cfg.val) (hc : s.carries s.time (how.runs s.cfg.val)) :
    ∃ w, receiveBytes (fuel + 1) s = .ok (some .fail,
          ((s.withLineOe false).pass (how.ticks s.cfg.val)).withWork fun _ => w)
      ∧ w.codec = s.work.codec := by
  obtain ⟨w, hw, hc⟩ := receiveByte_fails how h hl hc
  refine ⟨w, ?_, hc⟩
  rw [receiveBytes]
  simp [hi, hw]

theorem checkByte_tail (c : Config) {i : Nat} (hi : 2 ≤ i) (x : Byte) : checkByte c i x = none := by
  unfold checkByte
  rw [if_neg (by omega), if_neg (by omega)]

/-! ### The bytes after the header -/

@[simp] theorem State.carries_withWork (f : Work → Work) (s : State) (T : Nat) (r : List (Bool × Nat)) :
    (s.withWork f).carries T r ↔ s.carries T r := Iff.rfl
@[simp] theorem State.carries_pass (d : Nat) (s : State) (T : Nat) (r : List (Bool × Nat)) :
    (s.pass d).carries T r ↔ s.carries T r := Iff.rfl
@[simp] theorem State.carries_withLineOe (b : Bool) (s : State) (T : Nat) (r : List (Bool × Nat)) :
    (s.withLineOe b).carries T r ↔ s.carries T r := Iff.rfl
@[simp] theorem State.carries_withLineO (b : Bool) (s : State) (T : Nat) (r : List (Bool × Nat)) :
    (s.withLineO b).carries T r ↔ s.carries T r := Iff.rfl
@[simp] theorem State.carries_setByte (l : Loc) (v : Byte) (s : State) (T : Nat) (r : List (Bool × Nat)) :
    (s.setByte l v).carries T r ↔ s.carries T r := by simp [State.carries]
@[simp] theorem State.carries_writeBytes (g : Nat → Loc) (i : Nat) (bs : List Byte) (s : State) (T : Nat)
    (r : List (Bool × Nat)) : (s.writeBytes g i bs).carries T r ↔ s.carries T r := by simp [State.carries]

/-- From index 2 on the bytes are stored, whatever they are. -/
theorem receiveBytes_tail (xs : List Byte) : ∀ (fuel : Nat) {s : State}, s.undisturbed = true → s.lineOe = false →
    2 ≤ s.work.idx.toNat → s.work.idx.toNat + xs.length ≤ s.work.L.toNat → xs.length ≤ fuel →
    s.carries s.time (symbolsRuns s.cfg.val xs) →
    ∃ w, receiveBytes fuel s = receiveBytes (fuel - xs.length)
          (((s.pass (xs.length * tByte s.cfg.val)).writeBytes .rx s.work.idx.toNat xs).withWork fun _ => w)
      ∧ w.crc = s.work.crc ^^^ xorAll xs ∧ w.L = s.work.L ∧ w.t0 = s.work.t0
      ∧ w.idx.toNat = s.work.idx.toNat + xs.length := by
  induction xs with
  | nil =>
    intro fuel s _ _ _ _ _ _
    exact ⟨s.work, by simp [State.writeBytes, State.pass_zero]; rfl, by simp, rfl, rfl, by simp⟩
  | cons x xs ih =>
    intro fuel s h hoe h2 hL hf hl
    obtain ⟨fuel, rfl⟩ : ∃ k, fuel = k + 1 := ⟨fuel - 1, by simp at hf; omega⟩
    rw [symbolsRuns_cons] at hl
    obtain ⟨hl1, hl2⟩ := State.carries_append hl
    simp only [List.length_cons] at hL hf
    obtain ⟨w, hc, he⟩ := receiveBytes_step x fuel h (by omega) hl1
    have k := Work.codec_eq hc
    rw [checkByte_tail _ h2] at he
    simp only [State.withLineOe_self hoe, show ¬ s.work.idx.toNat = 1 by omega, if_false] at he
    have hlt : s.work.idx.toNat + 1 < 512 := by have := s.work.L.isLt; omega
    have hidx : (BitVec.ofNat 9 (s.work.idx.toNat + 1)).toNat = s.work.idx.toNat + 1 := by
      simp; omega
    obtain ⟨w2, h2', c2, L2, t2, i2⟩ := ih fuel
      (s := ((s.pass (tByte s.cfg.val)).setByte (.rx s.work.idx.toNat) x).withWork fun _ => { w with
              L := s.work.L, crc := s.work.crc ^^^ x, idx := BitVec.ofNat 9 (s.work.idx.toNat + 1) })
      (by simpa using h) (by simpa using hoe) (by simp only [State.withWork_work, hidx]; omega)
      (by simp only [State.withWork_work, hidx]; omega) (by omega)
      (by simpa using hl2)
    simp only [State.withWork_work, hidx] at h2' c2 L2 t2 i2
    refine ⟨w2, ?_, ?_, L2, by rw [t2]; exact k.2.2.2.2.2.2.2.2.1, ?_⟩
    · rw [he, h2']
      simp only [List.length_cons, Nat.add_sub_add_right]
      congr 1
      simp [State.writeBytes, State.pass_pass, Nat.add_mul, Nat.add_comm]
    · rw [c2, xorAll_cons, BitVec.xor_assoc]
    · rw [i2, List.length_cons]; omega

/-- All `L` bytes were read. -/
theorem receiveBytes_done (fuel : Nat) {s : State} (h : s.work.L.toNat ≤ s.work.idx.toNat) :
    receiveBytes fuel s = .ok (none, s) := by
  cases fuel with
  | zero => rfl
  | succ fuel => rw [receiveBytes]; simp [show ¬ s.work.idx.toNat < s.work.L.toNat by omega]

/-! ### The header -/

/-- The state in which `receiveFrame` begins its loop. -/
def State.beginFrame (s : State) : State :=
  s.withWork fun w => { w with crc := 0, L := BitVec.ofNat 9 s.cfg.val.maxFrameLen, idx := 0 }

theorem beginFrame_L (s : State) : s.beginFrame.work.L.toNat = s.cfg.val.maxFrameLen := by
  have := (Cfg.bounds s.cfg).2.2.2.2.2.2.2.2.2.1
  simp [State.beginFrame]; omega

theorem Cfg.maxFrameLen_ge (c : Cfg) : 4 ≤ c.val.maxFrameLen := by
  have := (Cfg.bounds c).2.2.2.2.2.2.2.2.1
  omega

theorem receiveFrame_eq (s : State) :
    receiveFrame s = Cmd.andThen (receiveBytes s.cfg.val.maxFrameLen s.beginFrame) fun early =>
      match early with
      | some o => pure o
      | none => concludeFrame := by
  simp only [receiveFrame, Cmd.bind_apply, look_apply, Cmd.andThen_ok, setWork_apply]
  rfl

/-- A frame for another node: `Busy` after one symbol. -/
theorem receiveFrame_other {s : State} (h : s.undisturbed = true) (x : Byte)
    (hl : s.carries s.time (symbolRuns s.cfg.val x)) (h1 : x ≠ s.cfg.val.ownAddr) (h2 : x ≠ broadcastAddr) :
    ∃ w, receiveFrame s = .ok (.busy, (((s.withLineOe false).pass (tByte s.cfg.val)).setByte (.rx 0) x).withWork
          fun _ => w) ∧ w.t0 = s.work.t0 := by
  have hM := Cfg.maxFrameLen_ge s.cfg
  obtain ⟨n, hn⟩ : ∃ n, s.cfg.val.maxFrameLen = n + 1 := ⟨s.cfg.val.maxFrameLen - 1, by omega⟩
  obtain ⟨w, hc, he⟩ := receiveBytes_step x n (s := s.beginFrame) h
    (by rw [beginFrame_L]; simp [State.beginFrame]; omega) hl
  refine ⟨w, ?_, (Work.codec_eq hc).2.2.2.2.2.2.2.2.1⟩
  have hv : checkByte s.beginFrame.cfg.val s.beginFrame.work.idx.toNat x = some .busy := by
    simp [checkByte, State.beginFrame, h1, h2]
  rw [hv] at he
  rw [receiveFrame_eq, hn, he]
  simp [State.beginFrame]

/-- An accepted address byte. -/
theorem receiveBytes_address (x : Byte) (fuel : Nat) {s : State} (h : s.undisturbed = true)
    (h0 : s.work.idx.toNat = 0) (hL : 0 < s.work.L.toNat) (hl : s.carries s.time (symbolRuns s.cfg.val x))
    (hx : x = s.cfg.val.ownAddr ∨ x = broadcastAddr) :
    ∃ w, receiveBytes (fuel + 1) s = receiveBytes fuel
          ((((s.withLineOe false).pass (tByte s.cfg.val)).setByte (.rx 0) x).withWork fun _ => w)
      ∧ w.t0 = s.work.t0 ∧ w.crc = s.work.crc ^^^ x ∧ w.L = s.work.L ∧ w.idx.toNat = 1 := by
  obtain ⟨w, hc, he⟩ := receiveBytes_step x fuel h (by omega) hl
  have hv : checkByte s.cfg.val s.work.idx.toNat x = none := by
    simp only [checkByte, h0]
    rcases hx with hx | hx <;> simp [hx]
  rw [hv] at he
  simp only [h0] at he
  exact ⟨_, he, (Work.codec_eq hc).2.2.2.2.2.2.2.2.1, rfl, rfl, rfl⟩

/-- The length byte, legal or not. -/
theorem receiveBytes_length (x : Byte) (fuel : Nat) {s : State} (h : s.undisturbed = true)
    (h1 : s.work.idx.toNat = 1) (hL : 1 < s.work.L.toNat) (hl : s.carries s.time (symbolRuns s.cfg.val x)) :
    ∃ w, receiveBytes (fuel + 1) s =
        (if minFrame s.cfg.val ≤ x.toNat ∧ x.toNat < s.cfg.val.maxFrameLen then
          receiveBytes fuel ((((s.withLineOe false).pass (tByte s.cfg.val)).setByte (.rx 1) x).withWork fun _ => w)
        else .ok (some .fail,
          (((s.withLineOe false).pass (tByte s.cfg.val)).setByte (.rx 1) x).withWork fun _ => w))
      ∧ w.t0 = s.work.t0
      ∧ (minFrame s.cfg.val ≤ x.toNat ∧ x.toNat < s.cfg.val.maxFrameLen →
          w.crc = s.work.crc ^^^ x ∧ w.L.toNat = x.toNat ∧ w.idx.toNat = 2) := by
  obtain ⟨w, hc, he⟩ := receiveBytes_step x fuel h (by omega) hl
  have k := Work.codec_eq hc
  simp only [h1] at he
  have hx : x.toNat < 256 := x.isLt
  by_cases hv : minFrame s.cfg.val ≤ x.toNat ∧ x.toNat < s.cfg.val.maxFrameLen
  · have hc' : checkByte s.cfg.val 1 x = none := by simp [checkByte, hv]
    rw [hc'] at he
    refine ⟨{ w with L := x.setWidth 9, crc := s.work.crc ^^^ x, idx := BitVec.ofNat 9 2 }, ?_,
      k.2.2.2.2.2.2.2.2.1, fun _ => ⟨rfl, ?_, rfl⟩⟩
    · rw [if_pos hv]; exact he
    · simp
      omega
  · have hc' : checkByte s.cfg.val 1 x = some .fail := by simp [checkByte, hv]
    rw [hc'] at he
    exact ⟨w, by rw [if_neg hv]; exact he, k.2.2.2.2.2.2.2.2.1, fun h => absurd h hv⟩

/-- The header of a frame for this node. -/
theorem receiveFrame_header {s : State} (h : s.undisturbed = true) (x0 x1 : Byte)
    (hl : s.carries s.time (symbolsRuns s.cfg.val [x0, x1]))
    (h0 : x0 = s.cfg.val.ownAddr ∨ x0 = broadcastAddr) :
    ∃ w, receiveBytes s.cfg.val.maxFrameLen s.beginFrame =
        (if minFrame s.cfg.val ≤ x1.toNat ∧ x1.toNat < s.cfg.val.maxFrameLen then
          receiveBytes (s.cfg.val.maxFrameLen - 2)
            ((((s.withLineOe false).pass (2 * tByte s.cfg.val)).writeBytes .rx 0 [x0, x1]).withWork fun _ => w)
        else .ok (some .fail,
            (((s.withLineOe false).pass (2 * tByte s.cfg.val)).writeBytes .rx 0 [x0, x1]).withWork fun _ => w))
      ∧ w.t0 = s.work.t0
      ∧ (minFrame s.cfg.val ≤ x1.toNat ∧ x1.toNat < s.cfg.val.maxFrameLen →
          w.crc = x0 ^^^ x1 ∧ w.L.toNat = x1.toNat ∧ w.idx.toNat = 2) := by
  have hM := Cfg.maxFrameLen_ge s.cfg
  obtain ⟨n, hn⟩ : ∃ n, s.cfg.val.maxFrameLen = n + 1 + 1 := ⟨s.cfg.val.maxFrameLen - 2, by omega⟩
  have hL := beginFrame_L s
  rw [symbolsRuns_cons] at hl
  obtain ⟨hl0, hl1⟩ := State.carries_append hl
  rw [symbolsRuns_cons] at hl1
  obtain ⟨hl1, -⟩ := State.carries_append hl1
  obtain ⟨w1, e1, t1, c1, L1, i1⟩ := receiveBytes_address x0 (n + 1) (s := s.beginFrame) h (by simp [State.beginFrame])
    (by omega) hl0 h0
  obtain ⟨w2, e2, t2, k2⟩ := receiveBytes_length x1 n
    (s := (((s.beginFrame.withLineOe false).pass (tByte s.beginFrame.cfg.val)).setByte (.rx 0) x0).withWork fun _ => w1)
    (by simpa [State.beginFrame] using h) i1 (by simp only [State.withWork_work, L1]; omega)
    (by simpa [State.beginFrame] using hl1)
  refine ⟨w2, ?_, t2.trans t1, fun hv => ?_⟩
  · have hself : ((s.withLineOe false).pass (tByte s.cfg.val)).withLineOe false
        = (s.withLineOe false).pass (tByte s.cfg.val) := State.withLineOe_self rfl
    rw [hn, e1, e2]
    simp [State.beginFrame, State.writeBytes, State.pass_pass, hself, hn, Nat.two_mul]
  · obtain ⟨a, b, c⟩ := k2 (by simpa [State.beginFrame] using hv)
    refine ⟨?_, b, c⟩
    rw [a]
    simp only [State.withWork_work, c1]
    simp [State.beginFrame]

/-- A declared length outside the legal range: `Fail` after two symbols. -/
theorem receiveFrame_badLength {s : State} (h : s.undisturbed = true) (x0 x1 : Byte)
    (hl : s.carries s.time (symbolsRuns s.cfg.val [x0, x1]))
    (h0 : x0 = s.cfg.val.ownAddr ∨ x0 = broadcastAddr)
    (hv : ¬ (minFrame s.cfg.val ≤ x1.toNat ∧ x1.toNat < s.cfg.val.maxFrameLen)) :
    ∃ w, receiveFrame s = .ok (.fail,
            (((s.withLineOe false).pass (2 * tByte s.cfg.val)).writeBytes .rx 0 [x0, x1]).withWork fun _ => w)
      ∧ w.t0 = s.work.t0 := by
  obtain ⟨w, he, ht, -⟩ := receiveFrame_header h x0 x1 hl h0
  rw [if_neg hv] at he
  exact ⟨w, by rw [receiveFrame_eq, he]; rfl, ht⟩

/-- A frame whose header is legal, as far as the line carries it. -/
theorem receiveFrame_body {s : State} (h : s.undisturbed = true) (x0 x1 : Byte) (xs : List Byte)
    (hl : s.carries s.time (symbolsRuns s.cfg.val (x0 :: x1 :: xs)))
    (h0 : x0 = s.cfg.val.ownAddr ∨ x0 = broadcastAddr)
    (hv : minFrame s.cfg.val ≤ x1.toNat ∧ x1.toNat < s.cfg.val.maxFrameLen) (hx : 2 + xs.length ≤ x1.toNat) :
    ∃ w, receiveBytes s.cfg.val.maxFrameLen s.beginFrame = receiveBytes (s.cfg.val.maxFrameLen - 2 - xs.length)
            ((((s.withLineOe false).pass ((2 + xs.length) * tByte s.cfg.val)).writeBytes .rx 0 (x0 :: x1 :: xs)).withWork
              fun _ => w)
      ∧ w.t0 = s.work.t0 ∧ w.crc = xorAll (x0 :: x1 :: xs) ∧ w.L.toNat = x1.toNat ∧ w.idx.toNat = 2 + xs.length := by
  have hsplit : symbolsRuns s.cfg.val (x0 :: x1 :: xs) = symbolsRuns s.cfg.val [x0, x1] ++ symbolsRuns s.cfg.val xs := by
    simp [symbolsRuns]
  rw [hsplit] at hl
  obtain ⟨hl0, hl1⟩ := State.carries_append hl
  obtain ⟨w, he, ht, hk⟩ := receiveFrame_header h x0 x1 hl0 h0
  obtain ⟨k1, k2, k3⟩ := hk hv
  rw [if_pos hv] at he
  obtain ⟨w2, e2, c2, L2, t2, i2⟩ := receiveBytes_tail xs (s.cfg.val.maxFrameLen - 2)
    (s := (((s.withLineOe false).pass (2 * tByte s.cfg.val)).writeBytes .rx 0 [x0, x1]).withWork fun _ => w)
    (by simpa using h) (by simp) (by simp [k3]) (by simp [k2, k3]; omega) (by omega)
    (by simpa using hl1)
  refine ⟨w2, ?_, t2.trans ht, ?_, by rw [L2]; exact k2, by rw [i2]; simp [k3]⟩
  · rw [he, e2]
    simp [State.pass_pass, Nat.add_mul, k3, State.writeBytes]
  · rw [c2]
    simp [k1, xorAll_cons, BitVec.xor_assoc]

/-- A frame for this node, as far as the line carries it; the next symbol is read from `u`. -/
theorem receiveFrame_read {s : State} (h : s.undisturbed = true) (read : List Byte) (hu : s.unfinished read)
    (hl : s.carries s.time (symbolsRuns s.cfg.val read)) :
    ∃ w fuel u, receiveBytes s.cfg.val.maxFrameLen s.beginFrame = receiveBytes (fuel + 1) u
      ∧ u.withLineOe false =
          (((s.withLineOe false).pass (read.length * tByte s.cfg.val)).writeBytes .rx 0 read).withWork (fun _ => w)
      ∧ w.t0 = s.work.t0 ∧ w.idx.toNat < w.L.toNat := by
  have hM := Cfg.maxFrameLen_ge s.cfg
  have hL := beginFrame_L s
  obtain ⟨n, hn⟩ : ∃ n, s.cfg.val.maxFrameLen = n + 1 + 1 := ⟨s.cfg.val.maxFrameLen - 2, by omega⟩
  rcases read with _ | ⟨x, _ | ⟨m, xs⟩⟩
  · refine ⟨s.beginFrame.work, n + 1, s.beginFrame, by rw [hn], ?_, rfl, by rw [hL]; simp [State.beginFrame]; omega⟩
    simp [State.writeBytes, State.pass_zero, State.beginFrame]
    rfl
  · rw [symbolsRuns_cons] at hl
    obtain ⟨w, e, t, -, L, i⟩ := receiveBytes_address x (n + 1) (s := s.beginFrame) h (by simp [State.beginFrame])
      (by omega) (State.carries_append hl).1 (hu.1 x rfl)
    refine ⟨w, n, _, by rw [hn, e], ?_, t, by rw [i, L, hL]; omega⟩
    have hself : ((s.withLineOe false).pass (tByte s.cfg.val)).withLineOe false
        = (s.withLineOe false).pass (tByte s.cfg.val) := State.withLineOe_self rfl
    simp [State.writeBytes, State.beginFrame, hself]
  · obtain ⟨h1, h2, h3⟩ := hu.2 m rfl
    simp only [List.length_cons] at h3
    obtain ⟨w, e, t, -, L, i⟩ := receiveFrame_body h x m xs hl (hu.1 x rfl) ⟨h1, h2⟩ (by omega)
    have hlen : (x :: m :: xs).length = 2 + xs.length := by simp; omega
    obtain ⟨k, hk⟩ : ∃ k, s.cfg.val.maxFrameLen - 2 - xs.length = k + 1 :=
      ⟨s.cfg.val.maxFrameLen - 2 - xs.length - 1, by omega⟩
    rw [hk] at e
    refine ⟨w, k, _, e, ?_, t, by omega⟩
    rw [hlen]
    exact State.withLineOe_self (by simp)

/-- A frame that breaks off: `Fail` when the symbol that fails is over. -/
theorem receiveFrame_broken {s : State} (h : s.undisturbed = true) (read : List Byte) (how : SymbolFail)
    (hu : s.unfinished read) (hl : how.legal s.cfg.val)
    (hc : s.carries s.time (symbolsRuns s.cfg.val read ++ how.runs s.cfg.val)) :
    ∃ w, receiveFrame s = .ok (.fail, (((s.withLineOe false).pass
            (read.length * tByte s.cfg.val + how.ticks s.cfg.val)).writeBytes .rx 0 read).withWork fun _ => w)
      ∧ w.t0 = s.work.t0 := by
  obtain ⟨hc1, hc2⟩ := State.carries_append hc
  rw [symbolsRuns_ticks] at hc2
  obtain ⟨w, fuel, u, e, hx, t, hi⟩ := receiveFrame_read h read hu hc1
  have hun : u.undisturbed = true := by
    rw [show u.undisturbed = (u.withLineOe false).undisturbed from rfl, hx]
    simpa using h
  have hcfg : u.cfg = s.cfg := by
    rw [show u.cfg = (u.withLineOe false).cfg from rfl, hx]
    simp
  have hcar : u.carries u.time (how.runs u.cfg.val) := by
    rw [hcfg, ← State.carries_withLineOe false, show u.time = (u.withLineOe false).time from rfl, hx]
    simpa using hc2
  have hwork : u.work = w := by
    rw [show u.work = (u.withLineOe false).work from rfl, hx]
    rfl
  obtain ⟨w2, e2, c2⟩ := receiveBytes_fails how fuel (s := u) hun (by rw [hwork]; exact hi) (by rw [hcfg]; exact hl) hcar
  rw [hx, hcfg] at e2
  refine ⟨w2, ?_, ((Work.codec_eq c2).2.2.2.2.2.2.2.2.1).trans (by rw [hwork]; exact t)⟩
  rw [receiveFrame_eq, e, e2]
  simp [State.pass_pass]

/-- On a LOW line: `Fail` after one tick. -/
theorem receiveFrame_low {s : State} (h : s.undisturbed = true) (hl : s.line.level s.time = false) :
    ∃ w, receiveFrame s = .ok (.fail, ((s.withLineOe false).pass 1).withWork fun _ => w) ∧ w.t0 = s.work.t0 := by
  have hc : s.carries s.time [(false, 1)] := fun j hj => by
    obtain rfl : j = 0 := by simpa using hj
    exact hl
  obtain ⟨w, e, t⟩ := receiveFrame_broken h [] .low ⟨fun _ h => by simp at h, fun _ h => by simp at h⟩ trivial hc
  exact ⟨w, by simpa [State.writeBytes, SymbolFail.ticks] using e, t⟩

/-- A complete frame: only its conclusion is left. -/
theorem receiveFrame_complete {s : State} (h : s.undisturbed = true) (x0 x1 : Byte) (xs : List Byte)
    (hl : s.carries s.time (symbolsRuns s.cfg.val (x0 :: x1 :: xs)))
    (h0 : x0 = s.cfg.val.ownAddr ∨ x0 = broadcastAddr)
    (hv : minFrame s.cfg.val ≤ x1.toNat ∧ x1.toNat < s.cfg.val.maxFrameLen) (hx : 2 + xs.length = x1.toNat) :
    ∃ w, receiveFrame s = concludeFrame
            ((((s.withLineOe false).pass (x1.toNat * tByte s.cfg.val)).writeBytes .rx 0 (x0 :: x1 :: xs)).withWork
              fun _ => w)
      ∧ w.t0 = s.work.t0 ∧ w.crc = xorAll (x0 :: x1 :: xs) ∧ w.L.toNat = x1.toNat := by
  obtain ⟨w, he, ht, hc, hL, hi⟩ := receiveFrame_body h x0 x1 xs hl h0 hv (by omega)
  refine ⟨w, ?_, ht, hc, hL⟩
  rw [receiveFrame_eq, he, receiveBytes_done _ (by simp only [State.withWork_work]; omega), hx]
  rfl

/-! ### The conclusion -/

/-- Whether the frame in `RXBUF` is answered (R184). -/
def State.answers (s : State) : Prop := s.byteAt (.rx 0) ≠ broadcastAddr ∧ s.cfg.val.simplex = false

theorem respond_alone (x : Byte) {s : State} (h : s.undisturbed = true) :
    (s.answers → ∃ w, respond x s =
        .ok ((), ((s.transmit (symbolRuns s.cfg.val x)).withLineO false).withWork fun _ => w) ∧ w.t0 = s.work.t0)
    ∧ (¬ s.answers → respond x s = .ok ((), s)) := by
  constructor
  · rintro ⟨h1, h2⟩
    obtain ⟨w, hw, hc⟩ := sendByte_transmit x h
    refine ⟨w, ?_, (Work.codec_eq hc).2.2.2.2.2.2.2.2.1⟩
    simp [respond, h1, h2, hw]
  · intro hn
    have : ((s.byteAt (.rx 0) != broadcastAddr) && !s.cfg.val.simplex) = false := by
      rw [Bool.eq_false_iff]
      intro hc
      apply hn
      simpa [State.answers, bne_iff_ne] using hc
    simp [respond, this]

theorem State.rxbuf_only_rx (i0 : Nat) (i : Nat) (bs : List Byte) (s : State) :
    s.writeBytes (fun i => .rx (i0 + i)) i bs = { s with rxbuf := (s.writeBytes (fun i => .rx (i0 + i)) i bs).rxbuf } := by
  induction bs generalizing i s with
  | nil => rfl
  | cons b bs ih => rw [State.writeBytes, ih]; rfl

theorem State.sbox_only_sb (i : Nat) (bs : List Byte) (s : State) :
    s.writeBytes .sb i bs = { s with sbox := (s.writeBytes .sb i bs).sbox } := by
  induction bs generalizing i s with
  | nil => rfl
  | cons b bs ih => rw [State.writeBytes, ih]; rfl

/-- The payload region of a validated frame: with the cipher on it is decoded in place, the IV byte stays; nothing else but
`SBOX` and working registers changes. -/
theorem unwrapPayload_apply (s : State) (hL : minFrame s.cfg.val ≤ s.work.L.toNat) :
    ∃ u, unwrapPayload s = .ok (s.work.L.toNat - 3 - s.cfg.val.encEn.toNat, u)
      ∧ u = { s with rxbuf := u.rxbuf, sbox := u.sbox, work := u.work } ∧ u.work.t0 = s.work.t0
      ∧ (s.cfg.val.encEn = false → u.rxbuf = s.rxbuf ∧ u.sbox = s.sbox)
      ∧ (s.cfg.val.encEn = true →
          u.readBytes (fun i => .rx (2 + i)) (s.work.L.toNat - 4)
            = (decodeBytes s.cfg.val true (s.readBytes (fun i => .rx (2 + i)) (s.work.L.toNat - 3))).bytes)
      ∧ (∀ l, (∀ i, i < s.work.L.toNat - 4 → l ≠ .rx (2 + i)) → (∀ i, i < s.cfg.val.encStrength → l ≠ .sb i) →
          u.byteAt l = s.byteAt l) := by
  cases he : s.cfg.val.encEn
  · exact ⟨s.withWork fun w => { w with m := BitVec.ofNat 9 (s.work.L.toNat - 3) }, by simp [unwrapPayload, he], rfl, rfl,
      fun _ => ⟨rfl, rfl⟩, fun h => by simp at h, fun l _ _ => by rw [State.byteAt_withWork]⟩
  · have hL4 : 4 ≤ s.work.L.toNat := by simpa [minFrame, he] using hL
    set out := decodeBytes s.cfg.val true (s.readBytes (fun i => .rx (2 + i)) (s.work.L.toNat - 3)) with hout
    have hlen : out.bytes.length = s.work.L.toNat - 4 := by simp [hout]; omega
    have hlen2 : out.len = s.work.L.toNat - 4 := by simp [hout]; omega
    have hcr : s.cryptOut (fun i => .rx (2 + i)) (s.work.L.toNat - 3) true true = out := by simp [State.cryptOut, hout]
    refine ⟨((s.writeBytes (fun i => .rx (2 + i)) 0 out.bytes).writeBytes .sb 0 out.gen.table).withWork
        (out.work (s.work.L.toNat - 3)), ?_, ?_, ?_, fun h => by simp at h, fun _ => ?_, fun l h1 h2 => ?_⟩
    · simp only [unwrapPayload, Cmd.bind_apply, look_apply, Cmd.andThen_ok, he, if_true, crypt_apply, hcr, hlen2]
      rw [show s.work.L.toNat - 4 = s.work.L.toNat - 3 - 1 by omega]
      rfl
    · rw [State.sbox_only_sb, State.rxbuf_only_rx]
      rfl
    · simp [CryptOut.work]
    · rw [State.readBytes_congr (t := s.writeBytes (fun i => .rx (2 + i)) 0 out.bytes)]
      · rw [State.readBytes_writeBytes (region_rx_from 2) _ s (fun _ => trivial) _ (by omega), List.take_of_length_le (by omega)]
      · intro i _
        rw [State.byteAt_withWork, State.byteAt_writeBytes_other]
        intro j _ _ h; cases h
    · rw [State.byteAt_withWork, State.byteAt_writeBytes_other, State.byteAt_writeBytes_other]
      · intro j _ hj; exact h1 j (by omega)
      · intro j _ hj; exact h2 j (by simpa [hout] using hj)

theorem concludeFrame_good {s : State} (h : s.undisturbed = true) (hc : s.work.crc = 0)
    (hL : minFrame s.cfg.val ≤ s.work.L.toNat) :
    ∃ u w, unwrapPayload s = .ok (s.work.L.toNat - 3 - s.cfg.val.encEn.toNat, u) ∧ w.t0 = s.work.t0
      ∧ (s.answers → concludeFrame s = .ok (.ack, ((((u.transmit (symbolRuns s.cfg.val ackByte)).withLineO false).rxEvent
            (BitVec.ofNat 8 (s.work.L.toNat - 3 - s.cfg.val.encEn.toNat))).withWork fun _ => w)))
      ∧ (¬ s.answers → concludeFrame s = .ok (.ack, ((u.rxEvent
            (BitVec.ofNat 8 (s.work.L.toNat - 3 - s.cfg.val.encEn.toNat))).withWork fun _ => w))) := by
  obtain ⟨u, hu, heq, ht, -, -, hb⟩ := unwrapPayload_apply s hL
  have hcfg : u.cfg = s.cfg := by rw [heq]
  have hun : u.undisturbed = true := by rw [heq]; exact h
  have hans : u.answers ↔ s.answers := by
    rw [State.answers, State.answers, hb (.rx 0) (fun i _ => by simp; omega) (fun i _ => by simp), hcfg]
  obtain ⟨r1, r2⟩ := respond_alone ackByte hun
  by_cases ha : s.answers
  · obtain ⟨w, hw, wt⟩ := r1 (hans.2 ha)
    refine ⟨u, w, hu, wt.trans ht, fun _ => ?_, fun hn => absurd ha hn⟩
    simp only [concludeFrame, Cmd.bind_apply, look_apply, Cmd.andThen_ok, hc, if_true, hu, hw, emitRxFrame_apply,
      Cmd.pure_apply, hcfg]
    rfl
  · refine ⟨u, u.work, hu, ht, fun hy => absurd hy ha, fun _ => ?_⟩
    simp only [concludeFrame, Cmd.bind_apply, look_apply, Cmd.andThen_ok, hc, if_true, hu, r2 (fun hy => ha (hans.1 hy)),
      emitRxFrame_apply, Cmd.pure_apply]
    rfl

theorem concludeFrame_bad {s : State} (h : s.undisturbed = true) (hc : s.work.crc ≠ 0) :
    ∃ w, w.t0 = s.work.t0
      ∧ (s.answers → concludeFrame s = .ok (.nak, ((s.transmit (symbolRuns s.cfg.val nakByte)).withLineO false).withWork
            fun _ => w))
      ∧ (¬ s.answers → concludeFrame s = .ok (.nak, s)) := by
  obtain ⟨r1, r2⟩ := respond_alone nakByte h
  by_cases ha : s.answers
  · obtain ⟨w, hw, wt⟩ := r1 ha
    refine ⟨w, wt, fun _ => ?_, fun hn => absurd ha hn⟩
    simp only [concludeFrame, Cmd.bind_apply, look_apply, Cmd.andThen_ok, hc, if_false, hw, Cmd.pure_apply]
  · exact ⟨s.work, rfl, fun hy => absurd hy ha, fun _ => by
      simp only [concludeFrame, Cmd.bind_apply, look_apply, Cmd.andThen_ok, hc, if_false, r2 ha, Cmd.pure_apply]⟩

end Sys2Proof.Machine
end

