-- ==== Sys2Proof/Laws/ReceiveTime.lean ====
section
/-! SUPPORT. `RECEIVE_FRAME` does not see `t0`: the start time that `RECEIVE_FRAME_T` keeps there changes nothing of what one
invocation does. -/

namespace Sys2Proof.Machine

variable {α β : Type}

/-- `t0` written. -/
def State.withT0 (x : Word) (s : State) : State := s.withWork fun w => { w with t0 := x }

/-- The result of a procedure with `t0` written in the state it leaves; a reset forgets `t0`. -/
def mapT0 (x : Word) : Except Exit (α × State) → Except Exit (α × State)
  | .ok (a, t) => .ok (a, t.withT0 x)
  | .error e => .error e

/-- The procedure neither reads nor writes `t0`. -/
def IgnoresT0 (c : Cmd α) : Prop := ∀ x s, c (s.withT0 x) = mapT0 x (c s)

theorem IgnoresT0.bind {c : Cmd α} {f : α → Cmd β} (hc : IgnoresT0 c) (hf : ∀ a, IgnoresT0 (f a)) : IgnoresT0 (c >>= f) := by
  intro x s
  rw [Cmd.bind_apply, Cmd.bind_apply, hc]
  cases c s with
  | ok r => exact hf r.1 x r.2
  | error e => rfl

theorem IgnoresT0.pure (a : α) : IgnoresT0 (Pure.pure a : Cmd α) := fun _ _ => rfl

theorem IgnoresT0.look {f : State → α} (h : ∀ x s, f (s.withT0 x) = f s) : IgnoresT0 (look f) := fun x s => by
  simp [look_apply, mapT0, h]

theorem IgnoresT0.modify {f : State → State} (h : ∀ x s, f (s.withT0 x) = (f s).withT0 x) :
    IgnoresT0 (modify f : Cmd Unit) := fun x s => by simp [modify_apply, mapT0, h]

theorem IgnoresT0.setWork {f : Work → Work} (h : ∀ (x : Word) w, f { w with t0 := x } = { f w with t0 := x }) :
    IgnoresT0 (setWork f) := .modify fun x s => by
  show { s with work := f { s.work with t0 := x } } = _
  rw [h]
  rfl

theorem IgnoresT0.ite {c : Prop} [Decidable c] {a b : Cmd α} (ha : IgnoresT0 a) (hb : IgnoresT0 b) :
    IgnoresT0 (if c then a else b) := by
  split
  · exact ha
  · exact hb

theorem State.busyWrite_withT0 (a : BusAddr) (v x : Word) (s : State) :
    (s.withT0 x).busyWrite a v = (s.busyWrite a v).withT0 x := by
  unfold State.busyWrite
  rw [show (s.withT0 x).cfg = s.cfg from rfl]
  split <;> rfl

theorem State.hostRead_withT0 (a : BusAddr) (x : Word) (s : State) : (s.withT0 x).hostRead a = s.hostRead a := by
  unfold State.hostRead
  rw [show (s.withT0 x).cfg = s.cfg from rfl]
  split
  · next r _ => cases r <;> rfl
  · rfl

theorem State.busRead_withT0 (a : BusAddr) (x : Word) (s : State) :
    (s.withT0 x).busRead a = (s.busRead a).withT0 x := by
  unfold State.busRead
  rw [State.hostRead_withT0]
  rfl

theorem advanceOver_withT0 (x : Word) (acts : List HostAct) : ∀ d s,
    advanceOver acts d (s.withT0 x) = mapT0 x (advanceOver acts d s) := by
  induction acts with
  | nil => intro d s; rfl
  | cons act rest ih =>
    intro d s
    simp only [advanceOver]
    cases act.when with
    | idle n => rfl
    | atTick tick first =>
      have ht : (s.withT0 x).time = s.time := rfl
      have hp : ((s.withT0 x).withHost rest).pass (tick - s.time) = ((s.withHost rest).pass (tick - s.time)).withT0 x := rfl
      simp only [ht, hp]
      split
      · cases act.op with
        | wr a v => simp only [State.busyWrite_withT0]; exact ih _ _
        | rd a => simp only [State.busRead_withT0]; exact ih _ _
        | rst held => rfl
      · rfl

theorem hold_ignoresT0 (d : Nat) : IgnoresT0 (hold d) := by
  intro x s
  unfold hold
  split
  · rfl
  · exact advanceOver_withT0 x s.host d s

theorem sendBit_ignoresT0 (level : Bool) (d : Nat) : IgnoresT0 (sendBit level d) :=
  .bind (.modify fun _ _ => rfl) fun _ => .bind (.setWork fun _ _ => rfl) fun _ => .bind (hold_ignoresT0 d) fun _ =>
    .setWork fun _ _ => rfl

theorem sampleBit_ignoresT0 (d : Nat) : IgnoresT0 (sampleBit d) :=
  .bind (.look fun _ _ => rfl) fun _ => .bind (.setWork fun _ _ => rfl) fun _ => .bind (hold_ignoresT0 d) fun _ =>
    .bind (.setWork fun _ _ => rfl) fun _ => .look fun _ _ => rfl

theorem sendByte_ignoresT0 (b : Byte) : IgnoresT0 (sendByte b) := by
  refine .bind (.modify fun _ _ => rfl) fun _ => .bind (.look fun _ _ => rfl) fun _ => .bind (sendBit_ignoresT0 _ _) fun _ =>
    .bind (.look fun _ _ => rfl) fun _ => .bind (sendBit_ignoresT0 _ _) fun _ => .bind ?_ fun _ => .setWork fun _ _ => rfl
  induction List.range 8 with
  | nil => exact .pure ()
  | cons j js ih =>
    exact .bind (.setWork fun _ _ => rfl) fun _ => .bind (.look fun _ _ => rfl) fun _ => .bind (sendBit_ignoresT0 _ _) fun _ => ih

theorem readByte_ignoresT0 : IgnoresT0 readByte := by
  refine .bind (.setWork fun _ _ => rfl) fun _ => .bind ?_ fun _ => .bind (.setWork fun _ _ => rfl) fun _ => .look fun _ _ => rfl
  induction List.range 8 with
  | nil => exact .pure ()
  | cons j js ih =>
    exact .bind (.setWork fun _ _ => rfl) fun _ => .bind (.look fun _ _ => rfl) fun _ => .bind (sampleBit_ignoresT0 _) fun _ =>
      .bind (.setWork fun _ _ => rfl) fun _ => ih

theorem State.highRun_withT0 (x : Word) (s : State) (n τ : Nat) : (s.withT0 x).highRun n τ = s.highRun n τ :=
  State.highRun_congr (s := s.withT0 x) (t := s) (fun _ => rfl) n τ

theorem receiveByte_ignoresT0 : IgnoresT0 receiveByte := by
  refine .bind (.modify fun _ _ => rfl) fun _ => .bind ?_ fun sync => .ite ?_ (.pure _)
  · exact .bind (.look fun _ _ => rfl) fun _ => .bind (.look fun x s => State.highRun_withT0 x s _ _) fun _ =>
      .bind (.setWork fun _ _ => rfl) fun _ => .bind (hold_ignoresT0 _) fun _ => .look fun _ _ => rfl
  · exact .bind (.look fun _ _ => rfl) fun _ => .bind (sampleBit_ignoresT0 _) fun _ =>
      .ite (.pure _) (.bind readByte_ignoresT0 fun _ => .pure _)

theorem State.byteAt_withT0 (x : Word) (s : State) : (s.withT0 x).byteAt = s.byteAt := State.byteAt_withWork _ s

theorem crypt_ignoresT0 (g : Nat → Loc) (n : Nat) (ivf side : Bool) : IgnoresT0 (crypt g n ivf side) := by
  refine .bind (.look fun x s => ?_) fun bs => .bind (.look fun _ _ => rfl) fun out =>
    .bind (.modify fun x s => ?_) fun _ => .bind (.modify fun x s => ?_) fun _ => .bind (.setWork fun _ _ => rfl) fun _ => .pure _
  · simp only [State.readBytes, State.byteAt_withT0]
  · exact State.withWork_writeBytes _ _ _ _ _
  · exact State.withWork_writeBytes _ _ _ _ _

theorem receiveBytes_ignoresT0 (fuel : Nat) : IgnoresT0 (receiveBytes fuel) := by
  induction fuel with
  | zero => exact .pure none
  | succ fuel ih =>
    refine .bind (.look fun _ _ => rfl) fun _ => .ite (.bind receiveByte_ignoresT0 fun r => ?_) (.pure _)
    cases r with
    | fail => exact .pure _
    | byte b =>
      refine .bind (.look fun _ _ => rfl) fun i => .bind (.modify fun _ _ => rfl) fun _ => .bind (.look fun _ _ => rfl) fun v => ?_
      cases v with
      | some o => exact .pure _
      | none => exact .bind (.setWork fun _ _ => rfl) fun _ => ih

theorem respond_ignoresT0 (b : Byte) : IgnoresT0 (respond b) :=
  .bind (.look fun x s => by rw [State.byteAt_withT0]; rfl) fun _ =>
    .ite (.bind (sendByte_ignoresT0 b) fun _ => .modify fun _ _ => rfl) (.pure _)

/-- One invocation of `receiveFrame()` does not see `t0`. -/
theorem receiveFrame_ignoresT0 : IgnoresT0 receiveFrame := by
  refine .bind (.look fun _ _ => rfl) fun _ => .bind (.setWork fun _ _ => rfl) fun _ =>
    .bind (receiveBytes_ignoresT0 _) fun early => ?_
  cases early with
  | some o => exact .pure o
  | none =>
    refine .bind (.look fun _ _ => rfl) fun _ => .ite ?_ (.bind (respond_ignoresT0 _) fun _ => .pure _)
    refine .bind ?_ fun _ => .bind (respond_ignoresT0 _) fun _ => .bind (.modify fun _ _ => rfl) fun _ => .pure _
    exact .bind (.look fun _ _ => rfl) fun _ => .bind (.look fun _ _ => rfl) fun _ =>
      .ite (crypt_ignoresT0 _ _ _ _) (.bind (.setWork fun _ _ => rfl) fun _ => .pure _)

/-- `receiveFrame(d)` makes at least one invocation. -/
theorem State.receiveBound_succ (s : State) : s.receiveBound = (2 ^ 32 + lastHostTick s.host + s.line.length + 1) + 1 := rfl

@[simp] theorem State.receiveBound_withWork (f : Work → Work) (s : State) : (s.withWork f).receiveBound = s.receiveBound := by
  unfold State.receiveBound; simp only [State.withWork_host, State.withWork_line]

/-- `receiveFrame(d)` is its loop, run on the state in which `t0` is the time of its start. -/
theorem receiveFrameT_apply (d : Nat) (s : State) : receiveFrameT d s = receiveUntil d s.receiveBound (s.withT0 s.now) := by
  have h : ∀ n, receiveUntil d n (s.withWork fun w => { w with t0 := s.now }) = receiveUntil d n (s.withT0 s.now) := fun _ => by
    exact congrArg _ rfl
  rw [← h]
  simp only [receiveFrameT, Cmd.bind_apply, look_apply, Cmd.andThen_ok, setWork_apply, State.receiveBound_withWork]

/-- What one turn of the loop of `receiveFrame(d)` does. -/
theorem receiveUntil_succ (d fuel : Nat) (s : State) :
    receiveUntil d (fuel + 1) s = Cmd.andThen (receiveFrame s) fun o t =>
      if o = .ack ∨ d < t.elapsed t.work.t0 then .ok (o, t) else receiveUntil d fuel t := by
  rw [receiveUntil]
  cases h : receiveFrame s with
  | error e => simp only [Cmd.bind_apply, h]; rfl
  | ok x =>
    obtain ⟨o, t⟩ := x
    simp only [Cmd.bind_apply, h, Cmd.andThen_ok, look_apply, decide_eq_true_eq]
    by_cases hc : o = .ack ∨ d < t.elapsed t.work.t0
    · simp only [if_pos hc, Cmd.pure_apply]
    · simp only [if_neg hc]

end Sys2Proof.Machine
end

