-- ==== Sys2Proof/Laws/Attempts.lean ====
section
/-! SUPPORT. `RECEIVE_FRAME_T` on a line with something on it: what one invocation of `receiveFrame()` that yields no `Ack` does,
and what a sequence of them does. -/

namespace Sys2Proof.Machine

/-- `t` is `s` after the attempts `as`: the pins, what they were meanwhile, `RXBUF`, the time, and working registers; the start
time that `RECEIVE_FRAME_T` keeps is as it was. -/
structure State.Met (s : State) (as : List Attempt) (t : State) : Prop where
  eq : t = { s with
    lineOe := (attemptsPins s.cfg.val as (s.pins, s.trace)).1.oe
    lineO := (attemptsPins s.cfg.val as (s.pins, s.trace)).1.o
    trace := (attemptsPins s.cfg.val as (s.pins, s.trace)).2
    rxbuf := attemptsBytes as s.rxbuf, time := s.time + attemptsTicks s.cfg.val as, work := t.work
    freshDone := s.freshDone && decide (attemptsTicks s.cfg.val as = 0)
    freshRx := s.freshRx && decide (attemptsTicks s.cfg.val as = 0)
    freshErr := s.freshErr && decide (attemptsTicks s.cfg.val as = 0)
    freshCmd := s.freshCmd && decide (attemptsTicks s.cfg.val as = 0) }
  t0 : t.work.t0 = s.work.t0

theorem State.Met.cfg {s t : State} {as : List Attempt} (h : s.Met as t) : t.cfg = s.cfg := by rw [h.eq]
theorem State.Met.line {s t : State} {as : List Attempt} (h : s.Met as t) : t.line = s.line := by rw [h.eq]
theorem State.Met.time {s t : State} {as : List Attempt} (h : s.Met as t) : t.time = s.time + attemptsTicks s.cfg.val as := by
  rw [h.eq]
theorem State.Met.undisturbed {s t : State} {as : List Attempt} (h : s.Met as t) : t.undisturbed = s.undisturbed := by
  rw [h.eq]; rfl
theorem State.Met.now {s t : State} {as : List Attempt} (h : s.Met as t) :
    t.now = s.now + BitVec.ofNat 32 (attemptsTicks s.cfg.val as) := by
  rw [h.eq, State.now, State.now, BitVec.ofNat_add, BitVec.add_assoc]
theorem State.Met.pins {s t : State} {as : List Attempt} (h : s.Met as t) :
    (t.pins, t.trace) = attemptsPins s.cfg.val as (s.pins, s.trace) := by rw [h.eq]; rfl
theorem State.Met.rxbuf {s t : State} {as : List Attempt} (h : s.Met as t) : t.rxbuf = attemptsBytes as s.rxbuf := by
  rw [h.eq]

/-- The attempts a node meets depend on its configuration and on its line only. -/
theorem State.meets_congr {s t : State} (hc : t.cfg = s.cfg) (hl : t.line = s.line) (as : List Attempt) :
    ∀ T, t.meets T as ↔ s.meets T as := by
  induction as with
  | nil => exact fun _ => Iff.rfl
  | cons a as ih =>
    have : a.legal t ↔ a.legal s := by cases a <;> simp only [Attempt.legal, State.unfinished, hc]
    exact fun T => by simp only [State.meets, State.carries, this, hc, hl, ih]

theorem attemptsTicks_cons (c : Config) (a : Attempt) (as : List Attempt) :
    attemptsTicks c (a :: as) = a.ticks c + attemptsTicks c as := by simp [attemptsTicks]

/-- One attempt, then the others. -/
theorem State.Met.cons {s t u : State} {a : Attempt} {as : List Attempt} (h : s.Met [a] t) (k : t.Met as u) :
    s.Met (a :: as) u := by
  have z : ∀ (b : Bool) (m n : Nat), ((b && decide (m = 0)) && decide (n = 0)) = (b && decide (m + n = 0)) := by
    intro b m n
    by_cases hm : m = 0 <;> by_cases hn : n = 0 <;> simp [hm, hn]
  refine ⟨?_, k.t0.trans h.t0⟩
  have e := k.eq
  rw [h.pins, h.rxbuf, h.cfg, h.time] at e
  rw [h.eq] at e
  have e1 : attemptsTicks s.cfg.val [a] = a.ticks s.cfg.val := by simp [attemptsTicks]
  simp only [z, e1, Nat.add_assoc, ← attemptsTicks_cons] at e
  exact e

/-- The bytes of an attempt stored in `RXBUF`. -/
theorem State.writeBytes_rxbuf (bs : List Byte) : ∀ (i : Nat) (s : State),
    (s.writeBytes .rx i bs).rxbuf = s.rxbuf.overwrite i bs := by
  induction bs with
  | nil => intro i s; rfl
  | cons b bs ih => intro i s; rw [State.writeBytes, ih]; rfl

/-- Driving one symbol and releasing the line. -/
theorem State.transmit_symbol (x : Byte) (u : State) (c : Cfg) (hc : u.cfg = c) :
    (u.transmit (symbolRuns c.val x)).withLineO false =
      { u with
        lineOe := true, lineO := false, time := u.time + tByte c.val, trace := driveRuns (symbolRuns c.val x) u.trace
        freshDone := false, freshRx := false, freshErr := false, freshCmd := false } := by
  unfold State.transmit
  rw [State.drive_eq _ _ rfl, symbolRuns_ticks]
  subst hc
  have := tByte_pos u
  have hz : decide (tByte u.cfg.val = 0) = false := by simp; omega
  rw [hz]
  simp [State.withLineO, State.withLineOe]

/-- What is left of an attempt that is not answered. -/
theorem State.met_listening {s : State} (a : Attempt) (w : Work) (hw : w.t0 = s.work.t0) (ha : a.answered s.cfg.val = false) :
    s.Met [a] ((((s.withLineOe false).pass (a.heard s.cfg.val)).writeBytes .rx 0 a.bytes).withWork fun _ => w) := by
  refine ⟨?_, hw⟩
  rw [State.writeBytes_rx_eq, State.writeBytes_rxbuf]
  simp [attemptsPins, attemptsTicks, attemptsBytes, Attempt.drives, Attempt.ticks, ha, State.pass, State.withWork,
    State.withLineOe, State.pins]

/-- What is left of an attempt that is answered. -/
theorem State.met_answering {s v : State} (a : Attempt) (w : Work) (hw : w.t0 = v.work.t0) (ha : a.answered s.cfg.val = true)
    (hv : v.work.t0 = s.work.t0)
    (he : v = (((s.withLineOe false).pass (a.heard s.cfg.val)).writeBytes .rx 0 a.bytes).withWork fun _ => v.work) :
    s.Met [a] (((v.transmit (symbolRuns s.cfg.val nakByte)).withLineO false).withWork fun _ => w) := by
  have hcfg : v.cfg = s.cfg := by rw [he]; simp
  have := tByte_pos s
  have hz : decide (a.ticks s.cfg.val = 0) = false := by
    simp only [Attempt.ticks, ha, if_true, decide_eq_false_iff_not]; omega
  refine ⟨?_, hw.trans hv⟩
  rw [State.transmit_symbol nakByte v s.cfg hcfg]
  rw [State.writeBytes_rx_eq, State.writeBytes_rxbuf] at he
  generalize v.work = x at he
  rw [he]
  simp [attemptsPins, attemptsTicks, attemptsBytes, Attempt.drives, ha, hz, State.pass, State.withWork, State.withLineOe,
    State.pins]
  simp [Attempt.ticks, ha, Nat.add_assoc, nakByte]

/-- The outcome of an attempt. -/
def Attempt.outcome : Attempt → TxOutcome
  | .broken _ _ => .fail
  | .other _ => .busy
  | .badLength _ _ => .fail
  | .bad _ _ _ => .nak

theorem Attempt.code_outcome (a : Attempt) : resultOutcome a.outcome = a.code ∧ a.outcome ≠ .ack := by
  cases a <;> exact ⟨rfl, by simp [Attempt.outcome]⟩

theorem SymbolFail.ticks_pos (c : Cfg) (how : SymbolFail) : 0 < how.ticks c.val := by
  have := Cfg.bitWidth_pos c
  cases how with
  | low => exact Nat.one_pos
  | gap high window => exact Nat.add_pos_right _ this

theorem Attempt.ticks_pos (s : State) (a : Attempt) : 0 < a.ticks s.cfg.val := by
  have := tByte_pos s
  refine Nat.add_pos_left ?_ _
  cases a with
  | broken read how => exact Nat.add_pos_right _ (SymbolFail.ticks_pos s.cfg how)
  | other x => simpa [Attempt.heard, Attempt.bytes] using this
  | badLength x n => simpa [Attempt.heard, Attempt.bytes] using this
  | bad x n xs => simpa [Attempt.heard, Attempt.bytes] using this

/-- Whether a complete frame with its bytes in `RXBUF` is answered. -/
theorem answers_written (s : State) (n : Nat) (x : Byte) (xs : List Byte) (w : Work) :
    ((((s.withLineOe false).pass n).writeBytes .rx 0 (x :: xs)).withWork fun _ => w).answers
      ↔ x ≠ 124 ∧ s.cfg.val.simplex = false := by
  have h0 : ((((s.withLineOe false).pass n).writeBytes .rx 0 (x :: xs)).withWork fun _ => w).byteAt (.rx 0) = x := by
    rw [State.byteAt_withWork]
    exact State.byteAt_writeBytes_same region_rx 0 (x :: xs) _ (fun _ => trivial) 0 (by simp)
  rw [State.answers, h0, State.withWork_cfg, State.writeBytes_cfg, State.pass_cfg, State.withLineOe_cfg]
  exact Iff.rfl

/-- One invocation of `receiveFrame()` that meets an attempt. -/
theorem receiveFrame_attempt (a : Attempt) {s : State} (h : s.undisturbed = true) (hl : a.legal s)
    (hc : s.carries s.time (a.runs s.cfg.val)) :
    ∃ t, receiveFrame s = .ok (a.outcome, t) ∧ s.Met [a] t := by
  cases a with
  | broken read how =>
    obtain ⟨w, hw, ht⟩ := receiveFrame_broken h read how hl.1 hl.2 hc
    exact ⟨_, hw, State.met_listening (.broken read how) w ht rfl⟩
  | other x =>
    obtain ⟨w, hw, ht⟩ := receiveFrame_other h x (by simpa [Attempt.runs, Attempt.bytes, Attempt.tail, symbolsRuns] using hc)
      hl.1 hl.2
    have := State.met_listening (.other x) w ht rfl
    exact ⟨_, hw, by simpa [Attempt.heard, Attempt.bytes, State.writeBytes] using this⟩
  | badLength x n =>
    obtain ⟨w, hw, ht⟩ := receiveFrame_badLength h x n (by simpa [Attempt.runs, Attempt.bytes, Attempt.tail] using hc) hl.1 hl.2
    exact ⟨_, hw, State.met_listening (.badLength x n) w ht rfl⟩
  | bad x n xs =>
    obtain ⟨h1, h2, h3, h4, h5⟩ := hl
    obtain ⟨w, hw, ht, hx, -⟩ := receiveFrame_complete h x n xs
      (by simpa [Attempt.runs, Attempt.bytes, Attempt.tail] using hc) h1 ⟨h2, h3⟩ h4
    have hh : (Attempt.bad x n xs).heard s.cfg.val = n.toNat * tByte s.cfg.val := by
      rw [← h4, Nat.add_comm 2]
      rfl
    set v := ((((s.withLineOe false).pass (n.toNat * tByte s.cfg.val)).writeBytes .rx 0 (x :: n :: xs)).withWork fun _ => w)
      with hv
    obtain ⟨w2, ht2, r1, r2⟩ := concludeFrame_bad (s := v) (by rw [hv]; simpa using h)
      (by rw [hv, State.withWork_work, hx]; exact h5)
    have ha : v.answers ↔ x ≠ 124 ∧ s.cfg.val.simplex = false := answers_written s _ x (n :: xs) w
    have hcfg : v.cfg = s.cfg := by rw [hv]; simp
    by_cases hans : x ≠ 124 ∧ s.cfg.val.simplex = false
    · refine ⟨_, hw.trans (r1 (ha.2 hans)), ?_⟩
      rw [hcfg]
      exact State.met_answering (v := v) (.bad x n xs) w2 ht2 (by simp only [Attempt.answered, hans.1, hans.2, ne_eq, not_false_eq_true, and_self, decide_true]) ht (by rw [hh]; rfl)
    · refine ⟨_, hw.trans (r2 fun hh => hans (ha.1 hh)), ?_⟩
      have := State.met_listening (s := s) (.bad x n xs) w ht (by simp only [Attempt.answered, hans, decide_false])
      rw [hh] at this
      exact this

/-- The loop of `receiveFrame(d)` goes through attempts that end in time. -/
theorem receiveUntil_attempts (d : Nat) (as : List Attempt) : ∀ (fuel k : Nat) {s : State}, s.undisturbed = true →
    s.now = s.work.t0 + BitVec.ofNat 32 k → k + attemptsTicks s.cfg.val as ≤ d → d < 2 ^ 32 → s.meets s.time as →
    ∃ t, receiveUntil d (as.length + fuel) s = receiveUntil d fuel t ∧ s.Met as t
      ∧ t.now = t.work.t0 + BitVec.ofNat 32 (k + attemptsTicks s.cfg.val as) := by
  induction as with
  | nil =>
    intro fuel k s _ hn _ _ _
    refine ⟨s, by simp, ⟨by simp [attemptsTicks, attemptsPins, attemptsBytes, State.pins], rfl⟩, by
      simpa [attemptsTicks] using hn⟩
  | cons a as ih =>
    intro fuel k s h hn hk hd hm
    obtain ⟨hl, hc, hm⟩ := hm
    obtain ⟨t, ht, hL⟩ := receiveFrame_attempt a h hl hc
    have h1 : attemptsTicks s.cfg.val [a] = a.ticks s.cfg.val := by simp [attemptsTicks]
    rw [attemptsTicks_cons] at hk ⊢
    have hnow : t.now = t.work.t0 + BitVec.ofNat 32 (k + a.ticks s.cfg.val) := by
      rw [hL.now, h1, hn, hL.t0, BitVec.ofNat_add, BitVec.add_assoc]
    have hel : t.elapsed t.work.t0 = k + a.ticks s.cfg.val := State.elapsed_eq hnow (by omega)
    obtain ⟨u, hu, hLu, hnu⟩ := ih fuel (k + a.ticks s.cfg.val) (s := t) (by rw [hL.undisturbed]; exact h) hnow
      (by rw [hL.cfg]; omega) hd (by rw [State.meets_congr hL.cfg hL.line, hL.time, h1]; exact hm)
    rw [hL.cfg] at hnu
    refine ⟨u, ?_, hL.cons hLu, by rw [hnu, Nat.add_assoc]⟩
    rw [List.length_cons, Nat.add_right_comm, receiveUntil_succ, ht, Cmd.andThen_ok,
      if_neg (by rw [hel]; intro hh; rcases hh with hh | hh; exact a.code_outcome.2 hh; omega), hu]

/-- The loop of `receiveFrame(d)`, invocation by invocation. -/
theorem receiveUntil_invocations (d : Nat) (t0 : Word) (n : Nat) : ∀ (fuel : Nat) (u : Nat → State) (o : Nat → TxOutcome),
    (u 0).work.t0 = t0 → (∀ k, k ≤ n → receiveFrame (u k) = .ok (o k, u (k + 1))) →
    (∀ k, k < n → o k ≠ .ack ∧ (u (k + 1)).elapsed t0 ≤ d) → (o n = .ack ∨ d < (u (n + 1)).elapsed t0) →
    receiveUntil d (n + fuel + 1) (u 0) = .ok (o n, u (n + 1)) := by
  -- an invocation leaves the start time alone
  have keeps : ∀ {s t : State} {p : TxOutcome}, receiveFrame s = .ok (p, t) → t.work.t0 = s.work.t0 := by
    intro s t p he
    have := receiveFrame_ignoresT0 s.work.t0 s
    rw [show s.withT0 s.work.t0 = s from rfl, he, mapT0] at this
    injection this with this
    injection this with _ this
    rw [this]
    rfl
  induction n with
  | zero =>
    intro fuel u o h0 hu _ hend
    have he := hu 0 (by omega)
    rw [Nat.zero_add, receiveUntil_succ, he, Cmd.andThen_ok, if_pos (by rw [keeps he, h0]; exact hend)]
  | succ n ih =>
    intro fuel u o h0 hu hn hend
    have he := hu 0 (by omega)
    obtain ⟨h1, h2⟩ := hn 0 (by omega)
    rw [show n + 1 + fuel + 1 = (n + fuel + 1) + 1 by omega, receiveUntil_succ, he, Cmd.andThen_ok,
      if_neg (by rw [keeps he, h0]; intro hh; rcases hh with hh | hh; exact h1 hh; omega)]
    exact ih fuel (fun k => u (k + 1)) (fun k => o (k + 1)) ((keeps he).trans h0) (fun k hk => hu (k + 1) (by omega))
      (fun k hk => hn (k + 1) (by omega)) hend

end Sys2Proof.Machine
end

