-- ==== Sys2Proof/Laws/Encode.lean ====
section
/-! SUPPORT. The fields of an encoded command word (spec/30_encoding.md R91), for every command. -/

namespace Sys2Proof

/-- Bits [3:0] of a command word. -/
theorem wordOp_encode (i : Instr) : wordOp (encode i) = opcodeOf i := by
  unfold wordOp encode
  apply BitVec.eq_of_getLsbD_eq
  intro k hk
  interval_cases k <;> simp only [BitVec.getLsbD_extractLsb', BitVec.getLsbD_append] <;> simp

/-- Bits [7:4] of a command word. -/
theorem wordRsv0_encode (i : Instr) : wordRsv0 (encode i) = 0 := by
  unfold wordRsv0 encode
  apply BitVec.eq_of_getLsbD_eq
  intro k hk
  interval_cases k <;> simp only [BitVec.getLsbD_extractLsb', BitVec.getLsbD_append] <;> simp

/-- Bits [15:8] of a command word. -/
theorem wordA_encode (i : Instr) : wordA (encode i) = Machine.fieldA i := by
  unfold wordA encode
  apply BitVec.eq_of_getLsbD_eq
  intro k hk
  interval_cases k <;> simp only [BitVec.getLsbD_extractLsb', BitVec.getLsbD_append] <;> simp

/-- Bits [23:16] of a command word. -/
theorem wordB_encode (i : Instr) : wordB (encode i) = Machine.fieldB i := by
  unfold wordB encode
  apply BitVec.eq_of_getLsbD_eq
  intro k hk
  interval_cases k <;> simp only [BitVec.getLsbD_extractLsb', BitVec.getLsbD_append] <;> simp

/-- Bits [31:24] of a command word. -/
theorem wordRsv1_encode (i : Instr) : wordRsv1 (encode i) = 0 := by
  unfold wordRsv1 encode
  apply BitVec.eq_of_getLsbD_eq
  intro k hk
  interval_cases k <;> simp only [BitVec.getLsbD_extractLsb', BitVec.getLsbD_append] <;> simp

/-- A word is its five fields. -/
theorem word_eq_fields (w : Word) : w = wordRsv1 w ++ (wordB w ++ (wordA w ++ (wordRsv0 w ++ wordOp w))) := by
  unfold wordRsv1 wordB wordA wordRsv0 wordOp
  apply BitVec.eq_of_getLsbD_eq
  intro k hk
  interval_cases k <;> simp only [BitVec.getLsbD_extractLsb', BitVec.getLsbD_append] <;> simp

end Sys2Proof
end

