-- ==== Sys2Proof/Laws/PerInstr.lean ====
section
/-! SUPPORT. The per-instruction family `EncodeFields`: the command word of an instruction has its opcode, its operand
fields and zeros in the reserved bits (spec/30_encoding.md R90 to R92). -/

namespace Sys2Proof.Laws.EncodeFields

/-- The five fields of the command word of `i`. -/
def Statement (i : Instr) : Prop :=
  wordOp (encode i) = opcodeOf i ∧ wordRsv0 (encode i) = 0 ∧ wordA (encode i) = Machine.fieldA i
    ∧ wordB (encode i) = Machine.fieldB i ∧ wordRsv1 (encode i) = 0

/-- All five fields at once. -/
theorem fields (i : Instr) : Statement i :=
  ⟨wordOp_encode i, wordRsv0_encode i, wordA_encode i, wordB_encode i, wordRsv1_encode i⟩

/-- The fields of the word of `sendBit`. -/
theorem sendBit (level : Bool) (b : Byte) : Statement (.sendBit level b) := fields _

/-- The fields of the word of `sampleBit`. -/
theorem sampleBit (a b : Byte) : Statement (.sampleBit a b) := fields _

/-- The fields of the word of `sendByte`. -/
theorem sendByte (byte b : Byte) : Statement (.sendByte byte b) := fields _

/-- The fields of the word of `readByte`. -/
theorem readByte (a b : Byte) : Statement (.readByte a b) := fields _

/-- The fields of the word of `receiveByte`. -/
theorem receiveByte (a b : Byte) : Statement (.receiveByte a b) := fields _

/-- The fields of the word of `canStart`. -/
theorem canStart (a b : Byte) : Statement (.canStart a b) := fields _

/-- The fields of the word of `sendFrame`. -/
theorem sendFrame (dest len : Byte) : Statement (.sendFrame dest len) := fields _

/-- The fields of the word of `receiveFrame`. -/
theorem receiveFrame (a b : Byte) : Statement (.receiveFrame a b) := fields _

/-- The fields of the word of `receiveFrameT`. -/
theorem receiveFrameT (a b : Byte) : Statement (.receiveFrameT a b) := fields _

/-- The fields of the word of `crypt`. -/
theorem crypt (ivf side : Bool) (len : Byte) : Statement (.crypt ivf side len) := fields _

/-- The fields of the word of `genIv`. -/
theorem genIv (a len : Byte) : Statement (.genIv a len) := fields _

/-- The fields of the word of `enqueue`. -/
theorem enqueue (dest len : Byte) : Statement (.enqueue dest len) := fields _

/-- The fields of the word of `tick`. -/
theorem tick (a b : Byte) : Statement (.tick a b) := fields _

/-- The fields of the word of `remove`. -/
theorem remove (index b : Byte) : Statement (.remove index b) := fields _

end Sys2Proof.Laws.EncodeFields
end

