-- ==== Sys2Proof/Laws/Registers.lean ====
section
/-! SUPPORT. The address map: what `regOf` answers in each of its areas (spec/20_memory.md R70, R71). -/

namespace Sys2Proof.Machine

theorem fixedReg_single {a : Nat} {r : Reg} (h : fixedReg a = some r) : (∀ i, r ≠ .txbuf i) ∧ (a < 0x2C ∨ (0x40 ≤ a ∧ a < 0x64)) := by
  unfold fixedReg at h
  split at h <;> first | (cases h; exact ⟨by simp, by omega⟩) | cases h

theorem fixedReg_none {a : Nat} (h : (0x2C ≤ a ∧ a < 0x40) ∨ 0x64 ≤ a) : fixedReg a = none := by
  cases hf : fixedReg a with
  | none => rfl
  | some r => have := (fixedReg_single hf).2; omega

theorem slotReg_slot {k off : Nat} {r : Reg} (h : slotReg k off = some r) : ∀ i, r ≠ .txbuf i := by
  unfold slotReg at h
  split at h <;> first | (cases h; simp) | cases h

/-- A misaligned address is void. -/
theorem regOf_misaligned (c : Config) {a : BusAddr} (h : a.toNat % 4 ≠ 0) : regOf c a = none := by
  unfold regOf
  simp only
  rw [if_pos h]

/-- The single registers. -/
theorem regOf_fixed (c : Config) {a : BusAddr} (h : a.toNat % 4 = 0) (h1 : a.toNat < 0x400) : regOf c a = fixedReg a.toNat := by
  unfold regOf
  simp only
  rw [if_neg (not_not.2 h), if_pos h1]

/-- The window of `TXBUF`. -/
theorem regOf_tx (c : Config) {a : BusAddr} (h : a.toNat % 4 = 0) (h1 : 0x400 ≤ a.toNat) (h2 : a.toNat < 0x800) :
    regOf c a = some (.txbuf ((a.toNat - 0x400) / 4)) := by
  unfold regOf
  simp only
  rw [if_neg (not_not.2 h), if_neg (by omega), if_pos h2]

/-- The window of `RXBUF`. -/
theorem regOf_rx (c : Config) {a : BusAddr} (h : a.toNat % 4 = 0) (h1 : 0x800 ≤ a.toNat) (h2 : a.toNat < 0x1000) :
    regOf c a = if (a.toNat - 0x800) / 4 < c.maxFrameLen then some (.rxbuf ((a.toNat - 0x800) / 4)) else none := by
  unfold regOf
  simp only
  rw [if_neg (not_not.2 h), if_neg (by omega), if_neg (by omega), if_pos h2]

/-- The slot windows. -/
theorem regOf_slot (c : Config) {a : BusAddr} (h : a.toNat % 4 = 0) (h1 : 0x1000 ≤ a.toNat) (h2 : a.toNat < 0x10000) :
    regOf c a = if (a.toNat - 0x1000) / 0x20 < c.maxPackets then
      slotReg ((a.toNat - 0x1000) / 0x20) ((a.toNat - 0x1000) % 0x20) else none := by
  unfold regOf
  simp only
  rw [if_neg (not_not.2 h), if_neg (by omega), if_neg (by omega), if_neg (by omega), if_pos h2]

/-- The slot payload windows. -/
theorem regOf_payload (c : Config) {a : BusAddr} (h : a.toNat % 4 = 0) (h1 : 0x10000 ≤ a.toNat) :
    regOf c a = if (a.toNat - 0x10000) / 0x400 < c.maxPackets ∧ (a.toNat - 0x10000) % 0x400 / 4 < maxPayload c then
      some (.payload ((a.toNat - 0x10000) / 0x400) ((a.toNat - 0x10000) % 0x400 / 4)) else none := by
  unfold regOf
  simp only
  rw [if_neg (not_not.2 h), if_neg (by omega), if_neg (by omega), if_neg (by omega), if_neg (by omega)]

/-- Only the window of `TXBUF` names its bytes, all inside the buffer. -/
theorem regOf_txbuf {c : Config} {a : BusAddr} {i : Nat} (h : regOf c a = some (.txbuf i)) : i < 256 := by
  by_cases h0 : a.toNat % 4 = 0
  swap
  · rw [regOf_misaligned c h0] at h; simp at h
  by_cases h1 : a.toNat < 0x400
  · rw [regOf_fixed c h0 h1] at h
    exact absurd rfl ((fixedReg_single h).1 i)
  by_cases h2 : a.toNat < 0x800
  · rw [regOf_tx c h0 (by omega) h2] at h
    injection h with h
    injection h with h
    omega
  by_cases h3 : a.toNat < 0x1000
  · rw [regOf_rx c h0 (by omega) h3] at h
    split at h <;> simp at h
  by_cases h4 : a.toNat < 0x10000
  · rw [regOf_slot c h0 (by omega) h4] at h
    split at h
    · exact absurd rfl (slotReg_slot h i)
    · simp at h
  · rw [regOf_payload c h0 (by omega)] at h
    split at h <;> simp at h

/-- The three locations that a host write can act on apart from `TXBUF`, each at one address only. -/
theorem regOf_writable (c : Config) {a : BusAddr} {r : Reg} (h : regOf c a = some r) :
    (r = .cmd → a = 0x00000) ∧ (r = .arg → a = 0x00004) ∧ (r = .status → a = 0x00008) := by
  by_cases h0 : a.toNat % 4 = 0
  swap
  · rw [regOf_misaligned _ h0] at h; cases h
  by_cases h1 : a.toNat < 0x400
  · rw [regOf_fixed _ h0 h1] at h
    have e : ∀ n : BusAddr, a.toNat = n.toNat → a = n := fun n => BitVec.eq_of_toNat_eq
    have e0 := e 0x00000
    have e4 := e 0x00004
    have e8 := e 0x00008
    simp only [show (0x00000 : BusAddr).toNat = 0 from rfl, show (0x00004 : BusAddr).toNat = 4 from rfl,
      show (0x00008 : BusAddr).toNat = 8 from rfl] at e0 e4 e8
    generalize a.toNat = n at h e0 e4 e8
    unfold fixedReg at h
    split at h <;> cases h <;> refine ⟨?_, ?_, ?_⟩ <;> intro hr <;> first | exact e0 rfl | exact e4 rfl | exact e8 rfl |
      cases hr
  · have key : (∃ i, r = .txbuf i) ∨ (∃ i, r = .rxbuf i) ∨ (∃ k off, slotReg k off = some r) ∨ ∃ k i, r = .payload k i := by
      by_cases h2 : a.toNat < 0x800
      · rw [regOf_tx _ h0 (by omega) h2] at h; injection h with h; exact .inl ⟨_, h.symm⟩
      by_cases h3 : a.toNat < 0x1000
      · rw [regOf_rx _ h0 (by omega) h3] at h
        split at h
        · injection h with h; exact .inr (.inl ⟨_, h.symm⟩)
        · cases h
      by_cases h4 : a.toNat < 0x10000
      · rw [regOf_slot _ h0 (by omega) h4] at h
        split at h
        · exact .inr (.inr (.inl ⟨_, _, h⟩))
        · cases h
      · rw [regOf_payload _ h0 (by omega)] at h
        split at h
        · injection h with h; exact .inr (.inr (.inr ⟨_, _, h.symm⟩))
        · cases h
    rcases key with ⟨i, rfl⟩ | ⟨i, rfl⟩ | ⟨k, off, hs⟩ | ⟨k, i, rfl⟩
    · simp
    · simp
    · unfold slotReg at hs
      split at hs <;> cases hs <;> simp
    · simp

@[simp] theorem regOf_cmd (c : Config) : regOf c 0x00000 = some .cmd := rfl
@[simp] theorem regOf_arg (c : Config) : regOf c 0x00004 = some .arg := rfl
@[simp] theorem regOf_status (c : Config) : regOf c 0x00008 = some .status := rfl

end Sys2Proof.Machine
end

