-- ==== Sys2Proof/Laws/Reset.lean ====
section
/-! SUPPORT. What a hold of the reset pin leaves: how long it lasts, which host actions it deals with and what they read. -/

namespace Sys2Proof.Machine

/-! ### `assertReset` -/

@[simp] theorem State.assertReset_host (s : State) : s.assertReset.host = s.host := rfl
@[simp] theorem State.assertReset_time (s : State) : s.assertReset.time = s.time := rfl
@[simp] theorem State.assertReset_reads (s : State) : s.assertReset.reads = s.reads := rfl
@[simp] theorem State.assertReset_withHost (l : List HostAct) (s : State) :
    (s.withHost l).assertReset = s.assertReset.withHost l := rfl

/-! ### A read does not see the host's list, the trace, the records, the fresh marks or the release -/

theorem State.readReg_congr {s t : State} (h : t = { s with
    released := t.released, host := t.host, trace := t.trace, reads := t.reads, freshDone := t.freshDone
    freshRx := t.freshRx, freshErr := t.freshErr, freshCmd := t.freshCmd }) (r : Reg) : t.readReg r = s.readReg r := by
  generalize t.released = a, t.host = b, t.trace = c, t.reads = d, t.freshDone = e, t.freshRx = f, t.freshErr = g,
    t.freshCmd = i at h
  rw [h]
  cases r <;> rfl

theorem State.hostRead_congr {s t : State} (h : t = { s with
    released := t.released, host := t.host, trace := t.trace, reads := t.reads, freshDone := t.freshDone
    freshRx := t.freshRx, freshErr := t.freshErr, freshCmd := t.freshCmd }) (a : BusAddr) : t.hostRead a = s.hostRead a := by
  unfold State.hostRead
  rw [show t.cfg = s.cfg by rw [h]]
  cases regOf s.cfg.val a with
  | none => rfl
  | some r => exact State.readReg_congr h r

/-! ### During the hold -/

/-- What the hold leaves of a state `s`: time, host actions and reads apart, only the trace and the fresh marks differ; it ends at
the release or later; the actions done with are timed ones, taken off in order; each read was made before the end and
answers what `s` would at that time. -/
structure State.Held (s : State) (release : Nat) (u : State) : Prop where
  eq : u = { s with
    time := u.time, host := u.host, trace := u.trace, reads := u.reads, freshDone := u.freshDone, freshRx := u.freshRx
    freshErr := u.freshErr, freshCmd := u.freshCmd }
  start : s.time ≤ u.time
  lasts : release ≤ u.time
  acts : ∃ done, s.host = done ++ u.host ∧ ∀ act ∈ done, ∃ tick first, act.when = .atTick tick first
  answers : ∃ made, u.reads = s.reads ++ made ∧ ∀ r ∈ made, s.time ≤ r.time ∧ r.time < u.time
    ∧ r.data = ({ s with time := r.time } : State).hostRead r.addr

/-- The ticks up to the release, with nothing left to do. -/
theorem State.Held.rest (s : State) (release : Nat) : s.Held release (s.pass (release - s.time)) where
  eq := rfl
  start := by simp
  lasts := by simp; omega
  acts := ⟨[], rfl, by simp⟩
  answers := ⟨[], by simp, by simp⟩

/-- One timed action inside the hold, then the rest of it. -/
theorem State.Held.cons {s u : State} {release release' tick : Nat} {first : Bool} {op : BusOp} {rest : List HostAct}
    (made : List BusRead) (hs : s.host = ⟨.atTick tick first, op⟩ :: rest) (hr : release ≤ release')
    (hm : ∀ r ∈ made, r.time = max tick s.time ∧ r.time < release
      ∧ r.data = ({ s with time := r.time } : State).hostRead r.addr)
    (h : ({ (s.withHost rest).pass (tick - s.time) with reads := s.reads ++ made } : State).Held release' u) :
    s.Held release u where
  eq := by rw [h.eq]; rfl
  start := by have := h.start; simp at this; omega
  lasts := hr.trans h.lasts
  acts := by
    obtain ⟨done, hd, ht⟩ := h.acts
    refine ⟨_ :: done, by rw [hs]; exact congrArg _ hd, fun act ha => ?_⟩
    rcases List.mem_cons.1 ha with rfl | ha
    · exact ⟨tick, first, rfl⟩
    · exact ht act ha
  answers := by
    obtain ⟨more, he, hq⟩ := h.answers
    have hl := h.lasts
    refine ⟨made ++ more, by rw [he, List.append_assoc], fun r hr' => ?_⟩
    rcases List.mem_append.1 hr' with hr' | hr'
    · obtain ⟨h1, h2, h3⟩ := hm r hr'
      exact ⟨by omega, by omega, h3⟩
    · obtain ⟨h1, h2, h3⟩ := hq r hr'
      simp only [State.pass_time, State.withHost_time] at h1
      exact ⟨by omega, h2, h3.trans (State.hostRead_congr rfl _)⟩

/-- A hold of the reset pin leaves what `Held` says. -/
theorem duringReset_held (acts : List HostAct) : ∀ (release : Nat) (s : State), s.host = acts →
    s.Held release (duringReset acts release s) := by
  induction acts with
  | nil => exact fun release s _ => .rest s release
  | cons act rest ih =>
    intro release s hs
    obtain ⟨w, op⟩ := act
    cases w with
    | idle d => exact .rest s release
    | atTick tick first =>
      simp only [duringReset]
      split
      · next hin =>
        have hnow : s.time + (tick - s.time) = max tick s.time := by omega
        cases op with
        | wr a v =>
          refine .cons [] hs (le_refl _) (by simp) ?_
          rw [List.append_nil]
          exact ih release _ rfl
        | rd a =>
          refine .cons [⟨s.time + (tick - s.time), a, ((s.withHost rest).pass (tick - s.time)).hostRead a⟩] hs (le_refl _) ?_
            (ih release _ rfl)
          intro r hr
          obtain rfl := List.mem_singleton.1 hr
          exact ⟨hnow, by show s.time + (tick - s.time) < release; omega, State.hostRead_congr rfl _⟩
        | rst held =>
          refine .cons [] hs (Nat.le_max_left release (s.time + (tick - s.time) + held)) (by simp) ?_
          rw [List.append_nil]
          exact ih _ _ rfl
      · exact .rest s release

/-- What a reset leaves. -/
theorem State.underReset_held (held : Nat) (s : State) : s.assertReset.Held (s.time + held) (s.underReset held) :=
  duringReset_held s.host _ _ rfl

theorem State.underReset_lasts (held : Nat) (s : State) : s.time + held ≤ (s.underReset held).time :=
  (s.underReset_held held).lasts

/-- The trace covers the hold. -/
theorem State.resetPin_traceTicks (held : Nat) {s : State} (h : traceTicks s.trace = s.time) :
    traceTicks (s.resetPin held).trace = (s.resetPin held).time := by
  have := s.underReset_lasts held
  rw [State.resetPin_trace, State.resetPin_time, traceTicks_pushRun, h]
  omega

/-- A hold in which nothing is left to do lasts up to the release. -/
theorem duringReset_quiet {acts : List HostAct} {release : Nat} {s : State}
    (h : ∀ act ∈ acts.head?, ∀ tick first, act.when = .atTick tick first → release ≤ max tick s.time) :
    duringReset acts release s = s.pass (release - s.time) := by
  cases acts with
  | nil => rfl
  | cons act rest =>
    rw [duringReset]
    cases hw : act.when with
    | idle d => rfl
    | atTick tick first => exact if_neg (by have := h act rfl tick first hw; omega)

/-- An action timed inside the hold. -/
theorem duringReset_act {tick : Nat} {first : Bool} {op : BusOp} {rest : List HostAct} {release : Nat} {s : State}
    (h : max tick s.time < release) :
    duringReset (⟨.atTick tick first, op⟩ :: rest) release s = match op with
      | .wr _ _ => duringReset rest release ((s.withHost rest).pass (tick - s.time))
      | .rd a => duringReset rest release (((s.withHost rest).pass (tick - s.time)).busRead a)
      | .rst held => duringReset rest (max release (s.time + (tick - s.time) + held)) ((s.withHost rest).pass (tick - s.time)) := by
  rw [duringReset]
  exact if_pos h

/-- A hold that the host lets pass lasts as long as it says. -/
theorem State.underReset_quiet {held : Nat} {s : State} (h : s.quietUnderReset held) :
    s.underReset held = s.assertReset.pass held := by
  refine (duringReset_quiet (s := s.assertReset) h).trans ?_
  rw [State.assertReset_time, Nat.add_sub_cancel_left]

/-- A reset that the host lets pass. -/
theorem State.resetPin_quiet {held : Nat} {s : State} (h : s.quietUnderReset held) :
    s.resetPin held = { s.assertReset with
      time := s.time + held, released := s.time + held, trace := pushRun ⟨false, false⟩ held s.trace } := by
  unfold State.resetPin
  rw [State.underReset_quiet h]
  simp

/-- One action inside a hold in which the host lets the rest pass: a write has no effect, a read is answered, another hold
moves the release. -/
theorem State.resetPin_acts {held tick : Nat} {first : Bool} {op : BusOp} {rest : List HostAct} {s : State}
    (hs : s.host = ⟨.atTick tick first, op⟩ :: rest) (hin : max tick s.time < s.time + held) :
    (∀ a v, op = .wr a v → (s.withHost rest).quietUnderReset held → s.resetPin held = (s.withHost rest).resetPin held)
    ∧ (∀ a, op = .rd a → (s.withHost rest).quietUnderReset held → s.resetPin held =
        { (s.withHost rest).resetPin held with
          reads := s.reads ++ [⟨max tick s.time, a, ({ s.resetPin held with time := max tick s.time } : State).hostRead a⟩] })
    ∧ (∀ held', op = .rst held' →
        (s.withHost rest).quietUnderReset (max held (max tick s.time - s.time + held')) →
        s.resetPin held = (s.withHost rest).resetPin (max held (max tick s.time - s.time + held'))) := by
  have hnow : s.time + (tick - s.time) = max tick s.time := by omega
  have quiet : ∀ {release : Nat} {u : State}, (s.withHost rest).quietUnderReset (release - s.time) → s.time ≤ release →
      s.time ≤ u.time → duringReset rest release u = u.pass (release - u.time) := by
    intro release u hq h1 h2
    refine duringReset_quiet fun act ha tick first hw => ?_
    have := hq act ha tick first hw
    simp only [State.withHost_time] at this
    omega
  refine ⟨?_, ?_, ?_⟩
  · rintro a v rfl hq
    have e : s.underReset held = ((s.assertReset.withHost rest).pass (tick - s.time)).pass
        (s.time + held - (s.time + (tick - s.time))) := by
      unfold State.underReset
      rw [hs, duringReset_act (s := s.assertReset) hin, State.assertReset_time]
      exact quiet (by simpa using hq) (by omega) (by simp)
    rw [State.resetPin_quiet hq]
    unfold State.resetPin
    have : tick - s.time + (s.time + held - (s.time + (tick - s.time))) = held := by omega
    rw [e, State.pass_pass, this]
    simp
  · rintro a rfl hq
    have e : s.underReset held = (((s.assertReset.withHost rest).pass (tick - s.time)).busRead a).pass
        (s.time + held - (s.time + (tick - s.time))) := by
      unfold State.underReset
      rw [hs, duringReset_act (s := s.assertReset) hin, State.assertReset_time]
      exact quiet (by simpa using hq) (by omega) (by simp)
    have hread : ((s.assertReset.withHost rest).pass (tick - s.time)).hostRead a
        = ({ s.resetPin held with time := max tick s.time } : State).hostRead a := by
      rw [← hnow]
      exact (State.hostRead_congr rfl a).symm
    rw [← hread, State.resetPin_quiet hq]
    unfold State.resetPin
    have : max tick s.time + (s.time + held - max tick s.time) = s.time + held := by omega
    rw [e]
    simp [hnow, this]
  · rintro held' rfl hq
    have e : s.underReset held = ((s.assertReset.withHost rest).pass (tick - s.time)).pass
        (max (s.time + held) (s.time + (tick - s.time) + held') - (s.time + (tick - s.time))) := by
      unfold State.underReset
      rw [hs, duringReset_act (s := s.assertReset) hin, State.assertReset_time]
      refine quiet ?_ (by omega) (by simp)
      rw [show max (s.time + held) (s.time + (tick - s.time) + held') - s.time
        = max held (max tick s.time - s.time + held') by omega]
      exact hq
    rw [State.resetPin_quiet hq]
    unfold State.resetPin
    rw [e]
    have : s.time + (tick - s.time + (max (s.time + held) (s.time + (tick - s.time) + held') - (s.time + (tick - s.time))))
        = s.time + max held (max tick s.time - s.time + held') := by omega
    simp only [State.pass_pass, State.pass_time, State.withHost_time, State.assertReset_time, State.pass_host,
      State.withHost_host, State.pass_reads, State.withHost_reads, State.assertReset_reads, this, Nat.add_sub_cancel_left]
    rfl

end Sys2Proof.Machine
end

