-- ==== Sys2Proof/Laws/SendFrame.lean ====
section
/-! SUPPORT. `SEND_FRAME` when nothing disturbs the block: loading the frame, the listen window, and the whole operation. -/

namespace Sys2Proof.Machine

/-! ### Loading the frame -/

/-- The hidden buffers and the working registers are the only state that `loadFrame` writes. -/
structure State.HiddenEq (s t : State) : Prop where
  eq : t = { s with fbuf := t.fbuf, sbox := t.sbox, work := t.work }

theorem State.HiddenEq.refl (s : State) : State.HiddenEq s s := ⟨rfl⟩

theorem State.HiddenEq.trans {s t u : State} (a : State.HiddenEq s t) (b : State.HiddenEq t u) : State.HiddenEq s u := by
  constructor
  have := b.eq
  rw [a.eq] at this
  exact this

theorem State.hidden_fb (i : Nat) (bs : List Byte) (s : State) : State.HiddenEq s (s.writeBytes .fb i bs) := by
  induction bs generalizing i s with
  | nil => exact .refl s
  | cons b bs ih => exact State.HiddenEq.trans ⟨rfl⟩ (ih (i + 1) (s.setByte (.fb i) b))

theorem State.hidden_sb (i : Nat) (bs : List Byte) (s : State) : State.HiddenEq s (s.writeBytes .sb i bs) := by
  induction bs generalizing i s with
  | nil => exact .refl s
  | cons b bs ih => exact State.HiddenEq.trans ⟨rfl⟩ (ih (i + 1) (s.setByte (.sb i) b))

theorem State.sbox_writeBytes_fb (i : Nat) (bs : List Byte) (s : State) : (s.writeBytes .fb i bs).sbox = s.sbox := by
  induction bs generalizing i s with
  | nil => rfl
  | cons b bs ih => rw [State.writeBytes, ih]; rfl

theorem State.HiddenEq.now {s t : State} (h : State.HiddenEq s t) : t.now = s.now := by rw [h.eq]; rfl
theorem State.HiddenEq.cfg {s t : State} (h : State.HiddenEq s t) : t.cfg = s.cfg := by rw [h.eq]
theorem State.HiddenEq.undisturbed {s t : State} (h : State.HiddenEq s t) : t.undisturbed = s.undisturbed := by
  rw [h.eq]; rfl

/-- `loadFrame`: the body of the frame stands in `FBUF`; nothing visible changes. -/
theorem loadFrame_apply (src : Nat → Loc) (len : Nat) (s : State) :
    ∃ t, loadFrame src len s = .ok ((frameBody s.cfg.val s.now (s.readBytes src len)).length, t)
      ∧ State.HiddenEq s t
      ∧ t.readBytes .fb (frameBody s.cfg.val s.now (s.readBytes src len)).length
          = frameBody s.cfg.val s.now (s.readBytes src len)
      ∧ t.work.cnt = s.work.cnt ∧ t.work.t0 = s.work.t0
      ∧ (s.cfg.val.encEn = false → t.sbox = s.sbox)
      ∧ s.storesBody t (frameBody s.cfg.val s.now (s.readBytes src len)) := by
  have hl : ∀ (u : State) j, u.hasLoc (.fb j) := fun _ _ => trivial
  have hr : (s.writeBytes .fb 0 (s.readBytes src len)).readBytes .fb len = s.readBytes src len := by
    rw [State.readBytes_writeBytes region_fb _ s (hl s) _ (by simp), List.take_of_length_le (by simp)]
  cases he : s.cfg.val.encEn
  · refine ⟨s.writeBytes .fb 0 (s.readBytes src len), ?_, State.hidden_fb _ _ _, ?_, by simp, by simp, fun _ => ?_, ?_⟩
    · simp [loadFrame, he, frameBody]
    · simpa [frameBody, he] using hr
    · exact State.sbox_writeBytes_fb 0 _ s
    · simp only [frameBody, he, Bool.false_eq_true, if_false]
      refine ⟨fun j hj => ?_, fun l h1 _ => State.byteAt_writeBytes_other _ _ _ _ _ fun j _ hj => h1 j (by simpa using hj)⟩
      have := State.byteAt_writeBytes_same region_fb 0 _ s (hl s) j hj
      rw [Nat.zero_add] at this
      rw [this, List.getElem?_eq_getElem hj]
  · set s1 := s.writeBytes .fb 0 (s.readBytes src len) with hs1
    have hout : s1.cryptOut .fb len true false = encodeBytes s.cfg.val s.now true (s.readBytes src len) := by
      rw [State.cryptOut, hr]
      simp [hs1]
    have hlen : (encodeBytes s.cfg.val s.now true (s.readBytes src len)).len
        = (encodeBytes s.cfg.val s.now true (s.readBytes src len)).bytes.length := by simp
    refine ⟨((s1.writeBytes .fb 0 (s1.cryptOut .fb len true false).bytes).writeBytes .sb 0
        (s1.cryptOut .fb len true false).gen.table).withWork ((s1.cryptOut .fb len true false).work len),
      ?_, ?_, ?_, ?_, ?_, fun h => by simp at h, ?_⟩
    · simp only [loadFrame, Cmd.bind_apply, look_apply, modify_apply, Cmd.andThen_ok, ← hs1, ite_apply_state,
        show s1.cfg.val.encEn = true by simp [hs1, he], if_true, crypt_apply, frameBody, he]
      rw [hout, ← hlen]
    · exact (((State.hidden_fb _ _ s).trans (State.hidden_fb _ _ _)).trans (State.hidden_sb _ _ _)).trans ⟨rfl⟩
    · rw [State.readBytes_congr (t := s1.writeBytes .fb 0 (s1.cryptOut .fb len true false).bytes)]
      · rw [hout, State.readBytes_writeBytes region_fb _ s1 (hl s1) _ (by simp [frameBody, he]),
          List.take_of_length_le (by simp [frameBody, he])]
        simp [frameBody, he]
      · intro i _
        rw [State.byteAt_withWork, State.byteAt_writeBytes_other]
        intro j _ _ h; cases h
    · simp [CryptOut.work, hs1]
    · simp [CryptOut.work, hs1]
    · simp only [frameBody, he, if_true, hout]
      refine ⟨fun j hj => ?_, fun l h1 h2 => ?_⟩
      · rw [State.byteAt_withWork, State.byteAt_writeBytes_other _ _ _ _ _ (by intro k _ _ h; cases h)]
        have := State.byteAt_writeBytes_same region_fb 0 _ s1 (hl s1) j hj
        rw [Nat.zero_add] at this
        rw [this, List.getElem?_eq_getElem hj]
      · rw [State.byteAt_withWork, State.byteAt_writeBytes_other _ _ _ _ _ (fun k _ hk => h2 he k (by simpa using hk)),
          State.byteAt_writeBytes_other _ _ _ _ _ (fun k _ hk => h1 k (by simpa using hk)), hs1,
          State.byteAt_writeBytes_other]
        intro k _ hk
        exact h1 k (by simp at hk ⊢; omega)

/-! ### The listen window -/

theorem listenTicks_bounds (c : Cfg) : 2 ≤ listenTicks c.val ∧ listenTicks c.val ≤ 131070 := by
  obtain ⟨-, -, h1, h2, h3, h4, -⟩ := Cfg.bounds c
  unfold listenTicks; omega

/-- On a quiet line every attempt costs one tick, until the window is over. -/
theorem listenLoop_quiet (rem : Nat) : ∀ (fuel e : Nat) {s : State}, s.undisturbed = true → rem ≤ fuel →
    s.now = s.work.t0 + BitVec.ofNat 32 e → e + rem = listenTicks s.cfg.val → s.work.resp = .fail →
    s.quietLine s.time rem → 0 < rem →
    ∃ w, listenLoop fuel s = .ok ((), ((s.withLineOe false).pass rem).withWork fun _ => w)
      ∧ w.resp = .fail ∧ w.cnt = s.work.cnt := by
  induction rem with
  | zero => intro _ _ _ _ _ _ _ _ _ h; omega
  | succ rem ih =>
    intro fuel e s h hf hn he hr hq _
    obtain ⟨fuel, rfl⟩ : ∃ k, fuel = k + 1 := ⟨fuel - 1, by omega⟩
    have hb := listenTicks_bounds s.cfg
    have hel : s.elapsed s.work.t0 = e := State.elapsed_eq hn (by omega)
    obtain ⟨w, hw, hc⟩ := receiveByte_low h (by simpa using hq 0 (by omega))
    have k := Work.codec_eq hc
    have step : listenLoop (fuel + 1) s = listenLoop fuel (((s.withLineOe false).pass 1).withWork fun _ =>
        { w with resp := .fail }) := by
      rw [listenLoop]
      simp [hel, hr, hw, show e < listenTicks s.cfg.val by omega]
    rw [step]
    rcases Nat.eq_zero_or_pos rem with h0 | h0
    · subst h0
      refine ⟨{ w with resp := .fail }, ?_, rfl, k.2.2.2.2.2.2.2.2.2.2.2⟩
      cases fuel with
      | zero => rfl
      | succ fuel =>
        have hel2 : (((s.withLineOe false).pass 1).withWork fun _ => { w with resp := .fail }).elapsed w.t0 = e + 1 := by
          apply State.elapsed_eq _ (by omega)
          rw [State.withWork_now, State.pass_now, State.withLineOe_now, hn, k.2.2.2.2.2.2.2.2.1, BitVec.ofNat_add,
            BitVec.add_assoc]
        rw [listenLoop]
        simp [hel2, show ¬ e + 1 < listenTicks s.cfg.val by omega]
    · obtain ⟨w2, h2, r2, c2⟩ := ih fuel (e + 1) (s := ((s.withLineOe false).pass 1).withWork fun _ =>
          { w with resp := .fail }) (by simpa using h) (by omega)
        (by
          rw [State.withWork_now, State.pass_now, State.withLineOe_now, hn, State.withWork_work,
            k.2.2.2.2.2.2.2.2.1, BitVec.ofNat_add, BitVec.add_assoc])
        (by simp; omega) rfl
        (by
          intro j hj
          have := hq (j + 1) (by omega)
          simpa [Nat.add_assoc, Nat.add_comm 1 j] using this) h0
      refine ⟨w2, ?_, r2, ?_⟩
      · rw [h2, State.withWork_withLineOe, State.withLineOe_self (b := false) (s := (s.withLineOe false).pass 1) rfl]
        simp [State.pass_pass, Nat.add_comm]
      · rw [c2]; exact k.2.2.2.2.2.2.2.2.2.2.2

theorem tByte_bounds (c : Cfg) : listenTicks c.val ≤ tByte c.val ∧ tByte c.val ≤ 655350 := by
  obtain ⟨-, -, h1, h2, h3, h4, -⟩ := Cfg.bounds c
  unfold listenTicks tByte; omega

/-- A symbol that begins after `e` LOW ticks, inside the window, ends the loop: with a response, or because the window is over
by then. -/
theorem listenLoop_symbol (x : Byte) (e : Nat) : ∀ (fuel k : Nat) {s : State}, s.undisturbed = true → e < fuel →
    s.now = s.work.t0 + BitVec.ofNat 32 k → k + e < listenTicks s.cfg.val → s.work.resp = .fail →
    s.quietLine s.time e → s.carries (s.time + e) (symbolRuns s.cfg.val x) →
    ∃ w, listenLoop fuel s = .ok ((), ((s.withLineOe false).pass (e + tByte s.cfg.val)).withWork fun _ => w)
      ∧ w.resp = .byte x ∧ w.cnt = s.work.cnt := by
  induction e with
  | zero =>
    intro fuel k s h hf hn hk hr _ hl
    obtain ⟨fuel, rfl⟩ : ∃ n, fuel = n + 1 := ⟨fuel - 1, by omega⟩
    have hb := listenTicks_bounds s.cfg
    have ht := tByte_bounds s.cfg
    have hel : s.elapsed s.work.t0 = k := State.elapsed_eq hn (by omega)
    obtain ⟨w, hw, hc⟩ := receiveByte_symbol h x hl
    have c := Work.codec_eq hc
    refine ⟨{ w with resp := .byte x }, ?_, rfl, c.2.2.2.2.2.2.2.2.2.2.2⟩
    have step : listenLoop (fuel + 1) s = listenLoop fuel (((s.withLineOe false).pass (tByte s.cfg.val)).withWork fun _ =>
        { w with resp := .byte x }) := by
      rw [listenLoop]
      simp [hel, hr, hw, show k < listenTicks s.cfg.val by omega]
    rw [step, Nat.zero_add]
    cases fuel with
    | zero => rfl
    | succ fuel =>
      have hel2 : (((s.withLineOe false).pass (tByte s.cfg.val)).withWork fun _ => { w with resp := .byte x }).elapsed w.t0
          = k + tByte s.cfg.val := by
        apply State.elapsed_eq _ (by omega)
        rw [State.withWork_now, State.pass_now, State.withLineOe_now, hn, c.2.2.2.2.2.2.2.2.1, BitVec.ofNat_add,
          BitVec.add_assoc]
      rw [listenLoop]
      simp [hel2, show ¬ k + tByte s.cfg.val < listenTicks s.cfg.val by omega]
  | succ e ih =>
    intro fuel k s h hf hn hk hr hq hl
    obtain ⟨fuel, rfl⟩ : ∃ n, fuel = n + 1 := ⟨fuel - 1, by omega⟩
    have hb := listenTicks_bounds s.cfg
    have hel : s.elapsed s.work.t0 = k := State.elapsed_eq hn (by omega)
    obtain ⟨w, hw, hc⟩ := receiveByte_low h (by simpa using hq 0 (by omega))
    have c := Work.codec_eq hc
    have step : listenLoop (fuel + 1) s = listenLoop fuel (((s.withLineOe false).pass 1).withWork fun _ =>
        { w with resp := .fail }) := by
      rw [listenLoop]
      simp [hel, hr, hw, show k < listenTicks s.cfg.val by omega]
    obtain ⟨w2, h2, r2, c2⟩ := ih fuel (k + 1) (s := ((s.withLineOe false).pass 1).withWork fun _ => { w with resp := .fail })
      (by simpa using h) (by omega)
      (by
        rw [State.withWork_now, State.pass_now, State.withLineOe_now, hn, State.withWork_work, c.2.2.2.2.2.2.2.2.1,
          BitVec.ofNat_add, BitVec.add_assoc])
      (by simp only [State.withWork_cfg, State.pass_cfg, State.withLineOe_cfg]; omega) rfl
      (by
        intro j hj
        have := hq (j + 1) (by omega)
        simpa [Nat.add_assoc, Nat.add_comm 1 j] using this)
      (by
        show s.carries (s.time + 1 + e) _
        rw [Nat.add_assoc, Nat.add_comm 1 e]
        exact hl)
    refine ⟨w2, ?_, r2, c2.trans c.2.2.2.2.2.2.2.2.2.2.2⟩
    rw [step, h2, State.withWork_withLineOe, State.withLineOe_self (b := false) (s := (s.withLineOe false).pass 1) rfl]
    simp only [State.withWork_cfg, State.pass_cfg, State.withLineOe_cfg, State.withWork_pass, State.withWork_withWork,
      State.pass_pass, show 1 + (e + tByte s.cfg.val) = e + 1 + tByte s.cfg.val by omega]

/-- Whatever the line carries, the loop ends, after a number of ticks; the count of a scan is as it was. -/
theorem listenLoop_alone (fuel : Nat) : ∀ {s : State}, s.undisturbed = true →
    ∃ t, listenLoop fuel s = .ok ((), t) ∧ t.undisturbed = true ∧ t.work.cnt = s.work.cnt := by
  induction fuel with
  | zero => exact fun {s} h => ⟨s, rfl, h, rfl⟩
  | succ fuel ih =>
    intro s h
    rw [listenLoop]
    simp only [Cmd.bind_apply, look_apply, Cmd.andThen_ok, ite_apply_state]
    split
    · obtain ⟨r, d, w, hw, hc, -⟩ := receiveByte_alone h
      obtain ⟨t, ht, hu, hn⟩ := ih (s := ((s.withLineOe false).pass d).withWork fun _ => { w with resp := r }) (by simpa using h)
      refine ⟨t, ?_, hu, hn.trans (Work.codec_eq hc).2.2.2.2.2.2.2.2.2.2.2⟩
      simp only [hw, Cmd.andThen_ok]
      exact ht
    · exact ⟨s, rfl, h, rfl⟩

theorem awaitResponse_alone {s : State} (h : s.undisturbed = true) :
    ∃ o t, awaitResponse s = .ok (o, t) ∧ t.undisturbed = true ∧ t.work.cnt = s.work.cnt := by
  obtain ⟨t, ht, hu, hn⟩ := listenLoop_alone (listenTicks s.cfg.val)
    (s := s.withWork fun w => { w with t0 := s.now, resp := .fail }) h
  refine ⟨outcomeOfResponse t.work.resp, t, ?_, hu, hn⟩
  simp only [awaitResponse, Cmd.bind_apply, look_apply, setWork_apply, Cmd.andThen_ok, State.withWork_cfg, ht]

theorem awaitResponse_quiet {s : State} (h : s.undisturbed = true)
    (hq : s.quietLine s.time (listenTicks s.cfg.val)) :
    ∃ w, awaitResponse s = .ok (.fail, ((s.withLineOe false).pass (listenTicks s.cfg.val)).withWork fun _ => w)
      ∧ w.cnt = s.work.cnt := by
  have hb := listenTicks_bounds s.cfg
  obtain ⟨w, hw, hr, hc⟩ := listenLoop_quiet (listenTicks s.cfg.val) (listenTicks s.cfg.val) 0
    (s := s.withWork fun w => { w with t0 := s.now, resp := .fail }) h (Nat.le_refl _) (by simp) (by simp) rfl hq (by omega)
  refine ⟨w, ?_, hc⟩
  simp only [awaitResponse, Cmd.bind_apply, look_apply, setWork_apply, Cmd.andThen_ok, State.withWork_cfg, hw]
  simp [outcomeOfResponse, hr]

/-- A symbol that begins inside the window decides the outcome: `Ack` for 6, `Nak` for 21, `Fail` for any other byte. -/
theorem awaitResponse_symbol (x : Byte) (e : Nat) {s : State} (h : s.undisturbed = true)
    (he : e < listenTicks s.cfg.val) (hq : s.quietLine s.time e)
    (hl : s.carries (s.time + e) (symbolRuns s.cfg.val x)) :
    ∃ w, awaitResponse s = .ok (outcomeOfResponse (.byte x),
        ((s.withLineOe false).pass (e + tByte s.cfg.val)).withWork fun _ => w)
      ∧ w.cnt = s.work.cnt := by
  obtain ⟨w, hw, hr, hc⟩ := listenLoop_symbol x e (listenTicks s.cfg.val) 0
    (s := s.withWork fun w => { w with t0 := s.now, resp := .fail }) h he (by simp) (by simpa using he) rfl hq hl
  refine ⟨w, ?_, hc⟩
  simp only [awaitResponse, Cmd.bind_apply, look_apply, setWork_apply, Cmd.andThen_ok, State.withWork_cfg, hw]
  simp [hr]

/-! ### The whole operation -/

/-- What step 1 leaves when it lets the frame go (and when it does not). -/
def State.afterSense (s : State) : State :=
  if s.cfg.val.caEn then ((s.withLineOe false).withLineO false).pass (caTicks s.cfg.val) else s

theorem mayTransmit_alone {s : State} (h : s.undisturbed = true) :
    ∃ clear w, mayTransmit s = .ok (clear, s.afterSense.withWork fun _ => w)
      ∧ w.codec = s.work.codec ∧ (clear = true ↔ s.channelClear) := by
  cases hc : s.cfg.val.caEn
  · exact ⟨true, s.work, by simp [mayTransmit, hc, State.afterSense]; rfl, rfl, by simp [State.channelClear, hc]⟩
  · obtain ⟨idle, w, he, hw, hi⟩ := canStart_alone h
    refine ⟨idle, w, ?_, hw, by simp [hi, State.channelClear, hc]⟩
    simp [mayTransmit, hc, he, State.afterSense, caTicks]

@[simp] theorem State.afterSense_cfg (s : State) : s.afterSense.cfg = s.cfg := by
  unfold State.afterSense; split <;> rfl
@[simp] theorem State.afterSense_line (s : State) : s.afterSense.line = s.line := by
  unfold State.afterSense; split <;> rfl
@[simp] theorem State.afterSense_undisturbed (s : State) : s.afterSense.undisturbed = s.undisturbed := by
  unfold State.afterSense; split <;> rfl
@[simp] theorem State.afterSense_byteAt (s : State) : s.afterSense.byteAt = s.byteAt := by
  unfold State.afterSense; split <;> simp
@[simp] theorem State.afterSense_time (s : State) : s.afterSense.time = s.time + caTicks s.cfg.val := by
  unfold State.afterSense caTicks; split <;> simp
theorem State.afterSense_now (s : State) : s.afterSense.now = s.now + BitVec.ofNat 32 (caTicks s.cfg.val) := by
  unfold State.afterSense caTicks; split <;> simp [State.pass_now]

/-- The frame `sendFrame` puts on the line when its first symbol begins in `s`. -/
def State.outFrame (s : State) (dest : Byte) (src : Nat → Loc) (len : Nat) : List Byte :=
  frameBytes dest (frameBody s.cfg.val s.now (s.readBytes src len))

theorem frameBody_length (c : Config) (now : Word) (p : List Byte) :
    (frameBody c now p).length = p.length + c.encEn.toNat := by
  unfold frameBody; cases h : c.encEn <;> simp

theorem frameBytes_length (dest : Byte) (body : List Byte) : (frameBytes dest body).length = body.length + 3 := by
  simp [frameBytes]

/-- The body of that frame. -/
def State.outBody (s : State) (src : Nat → Loc) (len : Nat) : List Byte := frameBody s.cfg.val s.now (s.readBytes src len)

/-- Steps 2 to 5, the release of the line, and the choice of step 6. -/
theorem transmit_alone (dest : Byte) (src : Nat → Loc) (len : Nat) {s : State} (h : s.undisturbed = true) :
    ∃ u w, State.HiddenEq s u
      ∧ (s.cfg.val.encEn = false → u.sbox = s.sbox) ∧ w.cnt = s.work.cnt ∧ s.storesBody u (s.outBody src len)
      ∧ transmit dest src len s =
          (if dest = broadcastAddr ∨ s.cfg.val.simplex = true then (pure .ack : Cmd TxOutcome) else awaitResponse)
            (((u.transmit (symbolsRuns s.cfg.val (s.outFrame dest src len))).withLineO false).withWork fun _ => w) := by
  obtain ⟨u, hu, heq, hread, hcnt, -, hsb, hst⟩ := loadFrame_apply src len s
  obtain ⟨w, hw, wc, -⟩ := sendSymbols_alone dest (frameBody s.cfg.val s.now (s.readBytes src len)).length
    (s := u) (by rw [heq.undisturbed]; exact h)
  refine ⟨u, w, heq, hsb, by rw [wc, hcnt], hst, ?_⟩
  simp only [transmit, Cmd.bind_apply, hu, Cmd.andThen_ok, hw, look_apply, ite_apply_state]
  rw [hread, heq.cfg]
  simp only [State.outFrame, State.withWork_cfg, State.withLineO_cfg, State.transmit_cfg, heq.cfg, Bool.or_eq_true,
    beq_iff_eq]

/-- `sendFrame` when the channel is found busy. -/
theorem sendFrame_busy (dest : Byte) (src : Nat → Loc) (len : Nat) {s : State} (h : s.undisturbed = true)
    (hc : ¬ s.channelClear) :
    ∃ w, sendFrame dest src len s = .ok (.busy, s.afterSense.withWork fun _ => w) ∧ w.cnt = s.work.cnt := by
  obtain ⟨clear, w, he, hk, hi⟩ := mayTransmit_alone h
  have : clear = false := by cases clear <;> simp_all
  subst this
  exact ⟨w, by simp [sendFrame, he], (Work.codec_eq hk).2.2.2.2.2.2.2.2.2.2.2⟩

/-- `sendFrame` when the channel is clear. -/
theorem sendFrame_clear (dest : Byte) (src : Nat → Loc) (len : Nat) {s : State} (h : s.undisturbed = true)
    (hc : s.channelClear) :
    ∃ u w, State.HiddenEq s.afterSense u
      ∧ (s.cfg.val.encEn = false → u.sbox = s.sbox) ∧ w.cnt = s.work.cnt ∧ s.storesBody u (s.afterSense.outBody src len)
      ∧ sendFrame dest src len s =
          (if dest = broadcastAddr ∨ s.cfg.val.simplex = true then (pure .ack : Cmd TxOutcome) else awaitResponse)
            (((u.transmit (symbolsRuns s.cfg.val (s.afterSense.outFrame dest src len))).withLineO false).withWork
              fun _ => w) := by
  obtain ⟨clear, w0, he, hk, hi⟩ := mayTransmit_alone h
  have : clear = true := hi.2 hc
  subst this
  obtain ⟨u, w, heq, hsb, hcnt, hst, ht⟩ := transmit_alone dest src len (s := s.afterSense.withWork fun _ => w0)
    (by simpa using h)
  have hout : (s.afterSense.withWork fun _ => w0).outFrame dest src len = s.afterSense.outFrame dest src len := by
    simp [State.outFrame, State.readBytes]
  rw [hout] at ht
  have hbody : (s.afterSense.withWork fun _ => w0).outBody src len = s.afterSense.outBody src len := by
    simp [State.outBody, State.readBytes]
  rw [hbody] at hst
  refine ⟨u, w, State.HiddenEq.trans ⟨rfl⟩ heq, fun h1 => ?_, ?_, ⟨hst.1, fun l h1 h2 => ?_⟩, ?_⟩
  · rw [hsb (by simpa using h1)]; unfold State.afterSense; split <;> rfl
  · rw [hcnt]; exact (Work.codec_eq hk).2.2.2.2.2.2.2.2.2.2.2
  · rw [hst.2 l h1 (by simpa using h2), State.byteAt_withWork, State.afterSense_byteAt]
  · simp only [sendFrame, Cmd.bind_apply, he, Cmd.andThen_ok, if_true]
    simpa using ht

/-- Whatever the line carries, `sendFrame` alone ends; the count of a scan is as it was. -/
theorem sendFrame_alone (dest : Byte) (src : Nat → Loc) (len : Nat) {s : State} (h : s.undisturbed = true) :
    ∃ o t, sendFrame dest src len s = .ok (o, t) ∧ t.undisturbed = true ∧ t.work.cnt = s.work.cnt := by
  by_cases hc : s.channelClear
  · obtain ⟨u, w, hid, -, hcnt, -, hs⟩ := sendFrame_clear dest src len h hc
    rw [hs]
    have hu : u.undisturbed = true := by rw [hid.undisturbed]; simpa using h
    by_cases hd : dest = broadcastAddr ∨ s.cfg.val.simplex = true
    · exact ⟨.ack, _, by rw [if_pos hd]; rfl, by simpa using hu, hcnt⟩
    · rw [if_neg hd]
      obtain ⟨o, t, ht, hu', hn⟩ := awaitResponse_alone
        (s := ((u.transmit (symbolsRuns s.cfg.val (s.afterSense.outFrame dest src len))).withLineO false).withWork fun _ => w)
        (by simpa using hu)
      exact ⟨o, t, ht, hu', hn.trans hcnt⟩
  · obtain ⟨w, hw, hn⟩ := sendFrame_busy dest src len h hc
    exact ⟨_, _, hw, by simpa using h, hn⟩

end Sys2Proof.Machine
end

