-- ==== Sys2Proof/Laws/Sim.lean ====
section
/-! SUPPORT. Two runs side by side: a run in which the host does nothing, and a run of the same command from a state that differs
at most in the host's actions, the host's reads and the flags. Whatever relates the two states and survives ticks and writes
relates their ends. -/

namespace Sys2Proof.Machine

/-- `t` differs from `s` at most in the host's actions and reads and in the flags a host write can clear or set. -/
structure State.Beside (s t : State) : Prop where
  eq : t = { s with
    host := t.host, reads := t.reads, done := t.done, rxDone := t.rxDone, err := t.err, cmdErr := t.cmdErr
    freshDone := t.freshDone, freshRx := t.freshRx, freshErr := t.freshErr, freshCmd := t.freshCmd }

variable {α β : Type} {R : State → State → Prop}

/-- `R` relates states that lie beside each other, and survives a command's ticks and writes. In the first of them the host
does nothing. -/
structure Twin (R : State → State → Prop) : Prop where
  beside : ∀ s t, R s t → s.Beside t
  undisturbed : ∀ s t, R s t → s.undisturbed = true
  bound : ∀ s t, R s t → lastHostTick s.host ≤ lastHostTick t.host
  pass : ∀ s t d, R s t → 0 < d → ∃ u, advanceOver t.host d t = .ok ((), u) ∧ R (s.pass d) u
  lineO : ∀ s t b, R s t → R (s.withLineO b) (t.withLineO b)
  lineOe : ∀ s t b, R s t → R (s.withLineOe b) (t.withLineOe b)
  works : ∀ s t (f : Work → Work), R s t → R (s.withWork f) (t.withWork f)
  byte : ∀ s t l v, R s t → R (s.setByte l v) (t.setByte l v)
  slot : ∀ s t k q, R s t → R (s.setSlot k q) (t.setSlot k q)
  event : ∀ s t n, R s t → R (s.rxEvent n) (t.rxEvent n)
  error : ∀ s t e n, R s t → R (s.errorEvent e n) (t.errorEvent e n)

/-- When the procedure ends in the first run it ends in the second, with the same result and related states; no reset cuts it
off in the first run. -/
def Sim (R : State → State → Prop) (x : Cmd α) : Prop :=
  ∀ s t, R s t → match x s with
    | .ok (a, u) => ∃ v, x t = .ok (a, v) ∧ R u v
    | .error (.cut _) => False
    | .error .neverEnds => True

theorem Sim.pure (a : α) : Sim R (Pure.pure a : Cmd α) := fun _ t h => ⟨t, rfl, h⟩

theorem Sim.bind {x : Cmd α} {f : α → Cmd β} (hx : Sim R x) (hf : ∀ a, Sim R (f a)) : Sim R (x >>= f) := by
  intro s t h
  have h1 := hx s t h
  rw [Cmd.bind_apply]
  cases hs : x s with
  | error e => rw [hs] at h1; cases e <;> exact h1
  | ok r =>
    rw [hs] at h1
    obtain ⟨t', ht, h'⟩ := h1
    have h2 := hf r.1 r.2 t' h'
    simp only [Cmd.andThen_ok, Cmd.bind_apply, ht]
    exact h2

theorem Sim.ite {c : Prop} [Decidable c] {x y : Cmd α} (hx : Sim R x) (hy : Sim R y) : Sim R (if c then x else y) := by
  split
  · exact hx
  · exact hy

theorem Sim.throw : Sim R (throw .neverEnds : Cmd α) := fun _ _ _ => trivial

theorem Twin.look (h : Twin R) {f : State → α}
    (hf : ∀ s acts rds d r e c fd fr fe fc, f { s with
      host := acts, reads := rds, done := d, rxDone := r, err := e, cmdErr := c
      freshDone := fd, freshRx := fr, freshErr := fe, freshCmd := fc } = f s := by intros; rfl) : Sim R (look f) := by
  intro s t hr
  refine ⟨t, ?_, hr⟩
  rw [look_apply, (h.beside s t hr).eq, hf]

theorem Sim.modify {f : State → State} (hf : ∀ s t, R s t → R (f s) (f t)) : Sim R (modify f : Cmd Unit) :=
  fun s t h => ⟨f t, rfl, hf s t h⟩

theorem Twin.setWork (h : Twin R) (f : Work → Work) : Sim R (setWork f) := .modify fun s t => h.works s t f

theorem Twin.writeBytes (h : Twin R) (g : Nat → Loc) (bs : List Byte) : ∀ (i : Nat) (s t : State), R s t →
    R (s.writeBytes g i bs) (t.writeBytes g i bs) := by
  induction bs with
  | nil => exact fun _ _ _ hs => hs
  | cons b bs ih => exact fun i s t hs => ih (i + 1) _ _ (h.byte s t _ _ hs)

theorem Twin.hold (h : Twin R) (d : Nat) : Sim R (hold d) := by
  intro s t hr
  rw [hold_undisturbed d (h.undisturbed s t hr)]
  simp only
  unfold Machine.hold
  by_cases hd : d = 0
  · subst hd
    refine ⟨t, rfl, ?_⟩
    rw [State.pass_zero]
    exact hr
  · rw [if_neg hd]
    exact h.pass s t d hr (by omega)

/-! ### The bit and byte layers -/

theorem Twin.sendBit (h : Twin R) (level : Bool) (d : Nat) : Sim R (sendBit level d) :=
  .bind (.modify fun s t => h.lineO s t _) fun _ => .bind (h.setWork _) fun _ => .bind (h.hold d) fun _ => h.setWork _

theorem Twin.sampleBit (h : Twin R) (d : Nat) : Sim R (sampleBit d) :=
  .bind h.look fun _ => .bind (h.setWork _) fun _ => .bind (h.hold d) fun _ => .bind (h.setWork _) fun _ => h.look

theorem Twin.sendByte (h : Twin R) (x : Byte) : Sim R (sendByte x) := by
  refine .bind (.modify fun s t => h.lineOe s t _) fun _ => .bind h.look fun _ => .bind (h.sendBit _ _) fun _ =>
    .bind h.look fun _ => .bind (h.sendBit _ _) fun _ => .bind ?_ fun _ => h.setWork _
  induction List.range 8 with
  | nil => exact .pure ()
  | cons j js ih =>
    exact .bind (h.setWork _) fun _ => .bind h.look fun _ => .bind (h.sendBit _ _) fun _ => ih

theorem Twin.readByte (h : Twin R) : Sim R readByte := by
  refine .bind (h.setWork _) fun _ => .bind ?_ fun _ => .bind (h.setWork _) fun _ => h.look
  induction List.range 8 with
  | nil => exact .pure ()
  | cons j js ih =>
    exact .bind (h.setWork _) fun _ => .bind h.look fun _ => .bind (h.sampleBit _) fun _ => .bind (h.setWork _) fun _ => ih

theorem State.highRun_beside (n : Nat) (s : State) (acts rds dn r e c fd fr fe fc) : ∀ τ, ({ s with
      host := acts, reads := rds, done := dn, rxDone := r, err := e, cmdErr := c
      freshDone := fd, freshRx := fr, freshErr := fe, freshCmd := fc } : State).highRun n τ = s.highRun n τ := by
  induction n with
  | zero => intro τ; rfl
  | succ n ih =>
    intro τ
    rw [State.highRun, State.highRun, ih]
    rfl

theorem Twin.receiveByte (h : Twin R) : Sim R receiveByte := by
  refine .bind (.modify fun s t => h.lineOe s t _) fun _ => .bind ?_ fun _ => .ite ?_ (.pure _)
  · refine .bind h.look fun n => .bind (h.look fun s acts rds d r e c fd fr fe fc => ?_) fun _ =>
      .bind (h.setWork _) fun _ => .bind (h.hold _) fun _ => h.look
    exact State.highRun_beside n s acts rds d r e c fd fr fe fc s.time
  · exact .bind h.look fun _ => .bind (h.sampleBit _) fun _ => .ite (.pure _) (.bind h.readByte fun _ => .pure _)

theorem Twin.canStart (h : Twin R) : Sim R canStart :=
  .bind (.modify fun s t => h.lineOe s t _) fun _ => .bind h.look fun _ => .bind (h.sendBit _ _) fun _ =>
    .bind h.readByte fun _ => .pure _

/-! ### The packet codec and the cipher -/

theorem State.readBytes_beside (g : Nat → Loc) (n : Nat) (s : State) (acts rds dn r e c fd fr fe fc) : ({ s with
      host := acts, reads := rds, done := dn, rxDone := r, err := e, cmdErr := c
      freshDone := fd, freshRx := fr, freshErr := fe, freshCmd := fc } : State).readBytes g n = s.readBytes g n := by
  unfold State.readBytes
  refine List.map_congr_left fun i _ => ?_
  cases g i <;> rfl

theorem Twin.lookBytes (h : Twin R) (g : Nat → Loc) (n : Nat) : Sim R (Machine.look fun s => s.readBytes g n) :=
  h.look fun s acts rds d r e c fd fr fe fc => State.readBytes_beside g n s acts rds d r e c fd fr fe fc

theorem Twin.crypt (h : Twin R) (g : Nat → Loc) (n : Nat) (ivf side : Bool) : Sim R (crypt g n ivf side) :=
  .bind (h.lookBytes g n) fun _ => .bind h.look fun _ => .bind (.modify (h.writeBytes g _ 0)) fun _ =>
    .bind (.modify (h.writeBytes .sb _ 0)) fun _ => .bind (h.setWork _) fun _ => .pure _

theorem Twin.sendChecked (h : Twin R) (x : Byte) : Sim R (sendChecked x) := .bind (h.sendByte x) fun _ => h.setWork _

theorem Twin.sendPayload (h : Twin R) (left : Nat) : ∀ i, Sim R (sendPayload left i) := by
  induction left with
  | zero => exact fun _ => .pure ()
  | succ left ih =>
    exact fun i => .bind (h.setWork _) fun _ => .bind h.look fun _ => .bind (h.sendChecked _) fun _ => ih (i + 1)

theorem Twin.sendSymbols (h : Twin R) (dest : Byte) (n : Nat) : Sim R (sendSymbols dest n) :=
  .bind (h.setWork _) fun _ => .bind (h.sendChecked _) fun _ => .bind h.look fun _ => .bind (h.sendChecked _) fun _ =>
    .bind (h.sendPayload _ _) fun _ => .bind h.look fun _ => .bind (h.sendByte _) fun _ => .modify fun s t => h.lineO s t _

theorem Twin.listenLoop (h : Twin R) (fuel : Nat) : Sim R (listenLoop fuel) := by
  induction fuel with
  | zero => exact .pure ()
  | succ fuel ih =>
    refine .bind h.look fun _ => .ite ?_ (.pure _)
    exact .bind h.receiveByte fun _ => .bind (h.setWork _) fun _ => ih

theorem Twin.sendFrame (h : Twin R) (dest : Byte) (src : Nat → Loc) (len : Nat) : Sim R (sendFrame dest src len) := by
  refine .bind (.bind h.look fun _ => .ite h.canStart (.pure _)) fun _ => .ite ?_ (.pure _)
  refine .bind ?_ fun _ => .bind (h.sendSymbols _ _) fun _ => .bind h.look fun _ => .ite (.pure _) ?_
  · exact .bind (h.lookBytes _ _) fun bs => .bind (.modify (h.writeBytes .fb bs 0)) fun _ => .bind h.look fun _ =>
      .ite (h.crypt _ _ _ _) (.pure _)
  · exact .bind h.look fun _ => .bind (h.setWork _) fun _ => .bind h.look fun _ => .bind (h.listenLoop _) fun _ => h.look

theorem Twin.receiveBytes (h : Twin R) (fuel : Nat) : Sim R (receiveBytes fuel) := by
  induction fuel with
  | zero => exact .pure none
  | succ fuel ih =>
    refine .bind h.look fun _ => .ite (.bind h.receiveByte fun r => ?_) (.pure _)
    cases r with
    | fail => exact .pure _
    | byte x =>
      refine .bind h.look fun i => .bind (.modify fun s t => h.byte s t _ _) fun _ => .bind h.look fun verdict => ?_
      cases verdict with
      | some o => exact .pure _
      | none => exact .bind (h.setWork _) fun _ => ih

theorem Twin.respond (h : Twin R) (x : Byte) : Sim R (respond x) :=
  .bind h.look fun _ => .ite (.bind (h.sendByte x) fun _ => .modify fun s t => h.lineO s t _) (.pure _)

theorem Twin.concludeFrame (h : Twin R) : Sim R concludeFrame := by
  refine .bind h.look fun _ => .ite ?_ (.bind (h.respond _) fun _ => .pure _)
  refine .bind ?_ fun _ => .bind (h.respond _) fun _ => .bind (.modify fun s t => h.event s t _) fun _ => .pure _
  exact .bind h.look fun _ => .bind h.look fun _ => .ite (h.crypt _ _ _ _) (.bind (h.setWork _) fun _ => .pure _)

theorem Twin.receiveFrame (h : Twin R) : Sim R receiveFrame := by
  refine .bind h.look fun _ => .bind (h.setWork _) fun _ => .bind (h.receiveBytes _) fun early => ?_
  cases early with
  | some o => exact .pure o
  | none => exact h.concludeFrame

theorem Twin.receiveUntil (h : Twin R) (d fuel : Nat) : Sim R (receiveUntil d fuel) := by
  induction fuel with
  | zero => exact .throw
  | succ fuel ih => exact .bind h.receiveFrame fun _ => .bind h.look fun _ => .ite (.pure _) ih

/-- Invocations to spare change nothing. -/
theorem receiveUntil_mono (d fuel more : Nat) : ∀ (s : State) (r : TxOutcome × State), receiveUntil d fuel s = .ok r →
    receiveUntil d (fuel + more) s = .ok r := by
  induction fuel with
  | zero => intro s r h; cases h
  | succ fuel ih =>
    intro s r h
    rw [Nat.add_right_comm, receiveUntil_succ]
    rw [receiveUntil_succ] at h
    cases hf : Machine.receiveFrame s with
    | error e => rw [hf] at h; cases h
    | ok x =>
      obtain ⟨o, u⟩ := x
      rw [hf] at h
      simp only [Cmd.andThen_ok] at h ⊢
      split
      · next hc => rw [if_pos hc] at h; exact h
      · next hc => rw [if_neg hc] at h; exact ih _ r h

theorem Twin.receiveFrameT (h : Twin R) (d : Nat) : Sim R (receiveFrameT d) := by
  refine .bind h.look fun now => .bind (h.setWork _) fun _ => ?_
  intro s t hr
  have h1 := h.receiveUntil d s.receiveBound s t hr
  have hl := h.bound s t hr
  have hw : t.line = s.line := by rw [(h.beside s t hr).eq]
  obtain ⟨more, hm⟩ : ∃ more, t.receiveBound = s.receiveBound + more :=
    ⟨lastHostTick t.host - lastHostTick s.host, by unfold State.receiveBound; rw [hw]; omega⟩
  simp only [Cmd.bind_apply, look_apply, Cmd.andThen_ok]
  cases hs : Machine.receiveUntil d s.receiveBound s with
  | error e => rw [hs] at h1; cases e <;> exact h1
  | ok r =>
    rw [hs] at h1
    obtain ⟨v, hv, hr'⟩ := h1
    exact ⟨v, by rw [hm]; exact receiveUntil_mono d _ more t (r.1, v) hv, hr'⟩

/-! ### The queue -/

theorem Twin.updateSlot (h : Twin R) (k : Nat) (f : Slot → Slot) : Sim R (updateSlot k f) := .modify fun s t hr => by
  have e : t.slot k = s.slot k := by rw [(h.beside s t hr).eq]; rfl
  rw [e]
  exact h.slot s t _ _ hr

theorem Twin.retire (h : Twin R) (k : Nat) : Sim R (retire k) :=
  .bind h.look fun _ => .ite (h.updateSlot _ _) (.bind h.look fun _ => h.updateSlot _ _)

theorem Twin.recordOutcome (h : Twin R) (k : Nat) (o : TxOutcome) : Sim R (recordOutcome k o) := by
  refine .bind (h.updateSlot _ _) fun _ => ?_
  cases o with
  | ack => exact h.retire k
  | nak => exact .pure ()
  | busy => exact .pure ()
  | fail =>
    refine .bind (h.updateSlot _ _) fun _ => .bind h.look fun _ => .ite (.bind h.look fun _ => ?_) (.pure _)
    exact .bind (.modify fun s t => h.error s t _ _) fun _ => h.retire k

theorem Twin.tick (h : Twin R) : Sim R tick := by
  refine .bind (h.setWork _) fun _ => .bind h.look fun n => .bind ?_ fun _ => h.look
  induction List.range n with
  | nil => exact .pure ()
  | cons k ks ih =>
    refine .bind ?_ fun _ => ih
    refine .bind (h.setWork _) fun _ => .bind h.look fun q => .bind h.look fun _ => .ite ?_ (.pure _)
    exact .bind (h.sendFrame _ _ _) fun _ => .bind (h.setWork _) fun _ => h.recordOutcome _ _

theorem Twin.enqueue (h : Twin R) (dest len : Byte) (interval : Word) : Sim R (enqueue dest len interval) := by
  refine .bind h.look fun _ => .ite (.bind (.modify fun s t => h.error s t _ _) fun _ => .pure _) ?_
  refine .bind h.look fun free => ?_
  cases free with
  | none => exact .bind h.look fun _ => .bind (.modify fun s t => h.error s t _ _) fun _ => .pure _
  | some k =>
    exact .bind (h.lookBytes _ _) fun bs => .bind (.modify (h.writeBytes _ bs 0)) fun _ => .bind h.look fun _ =>
      .bind (h.updateSlot _ _) fun _ => .pure _

/-! ### Every command -/

/-- The body of an accepted command. -/
theorem Twin.issue {i : Instr} {body : Cmd Word} (hk : Sim R body) {s t u : State} (hb : s.busy = false)
    (hl : legalOperands s.cfg.val i = true) (hc : t.cfg = s.cfg) (hb' : t.busy = false) (hr : R (s.accept i) (t.accept i))
    (he : issue i body s = .next u) :
    ∃ v w r, R v w ∧ u = v.finish r ∧ Machine.issue i body t = .next (w.finish r) := by
  rw [issue_accepted body hb hl] at he
  rw [issue_accepted body hb' (by rw [hc]; exact hl)]
  have h1 := hk _ _ hr
  cases hv : body (s.accept i) with
  | error x =>
    rw [hv] at h1 he
    cases x with
    | cut y => exact h1.elim
    | neverEnds => cases he
  | ok x =>
    rw [hv] at h1 he
    obtain ⟨w, hw, hvw⟩ := h1
    exact ⟨x.2, w, x.1, hvw, by injection he with he; exact he.symm, by rw [hw]⟩

/-- A command that ends in the first run ends in the second, and the two last states are the ends of related states. -/
theorem Twin.exec (h : Twin R) {i : Instr} {s t u : State} (hb : s.busy = false) (hl : legalOperands s.cfg.val i = true)
    (hc : t.cfg = s.cfg) (hb' : t.busy = false) (hr : R (s.accept i) (t.accept i)) (he : exec i s = .next u) :
    ∃ v w r, R v w ∧ u = v.finish r ∧ exec i t = .next (w.finish r) := by
  cases i <;> simp only [Machine.exec] at he ⊢ <;> refine Twin.issue ?_ hb hl hc hb' hr he
  · exact .bind h.look fun _ => .bind h.look fun _ => .bind (h.sendBit _ _) fun _ => .pure _
  · exact .bind h.look fun _ => .bind (h.sampleBit _) fun _ => .pure _
  · exact .bind h.look fun _ => .bind (h.sendByte _) fun _ => .pure _
  · exact .bind h.readByte fun _ => .pure _
  · exact .bind h.receiveByte fun _ => .pure _
  · exact .bind h.canStart fun _ => .pure _
  · exact .bind h.look fun _ => .bind h.look fun _ => .bind (h.sendFrame _ _ _) fun _ => .pure _
  · exact .bind h.receiveFrame fun _ => .pure _
  · exact .bind h.look fun _ => .bind (h.receiveFrameT _) fun _ => .pure _
  · exact .bind h.look fun _ => .bind h.look fun _ => .bind h.look fun _ => .bind (h.crypt _ _ _ _) fun _ => .pure _
  · refine .bind h.look fun n => .bind (h.look fun s acts rds d r e c fd fr fe fc => ?_) fun _ => .bind (h.setWork _) fun _ =>
      .pure _
    exact congrArg (generateIv s.now) (State.readBytes_beside .tx n s acts rds d r e c fd fr fe fc)
  · exact .bind h.look fun _ => .bind h.look fun _ => .bind h.look fun _ => h.enqueue _ _ _
  · exact .bind h.tick fun _ => .pure _
  · exact .bind h.look fun _ => .bind (h.updateSlot _ _) fun _ => .pure _

/-! ### One host action inside a command -/

/-- What one host action does while a command runs (a reset apart). -/
def actBusy : BusOp → State → State
  | .wr addr v, s => s.busyWrite addr v
  | .rd addr, s => s.busRead addr
  | .rst _, s => s

/-- `K` relates the run without the action to the run after it, and `F` holds of the run without it: both survive ticks and
writes, and the action makes `K` of `F` when it is made at its tick. -/
structure Landing (tick : Nat) (op : BusOp) (F : State → Prop) (K : State → State → Prop) : Prop where
  noReset : ∀ held, op ≠ .rst held
  beside : ∀ s t, K s t → s.Beside t
  host : ∀ s t, K s t → t.host = s.host
  made : ∀ s, F s → s.time = tick → K s (actBusy op s)
  passF : ∀ s d, F s → F (s.pass d)
  lineOF : ∀ s b, F s → F (s.withLineO b)
  lineOeF : ∀ s b, F s → F (s.withLineOe b)
  worksF : ∀ s (f : Work → Work), F s → F (s.withWork f)
  byteF : ∀ s l v, F s → F (s.setByte l v)
  slotF : ∀ s k q, F s → F (s.setSlot k q)
  eventF : ∀ s n, F s → F (s.rxEvent n)
  errorF : ∀ s e n, F s → F (s.errorEvent e n)
  pass : ∀ s t d, K s t → K (s.pass d) (t.pass d)
  lineO : ∀ s t b, K s t → K (s.withLineO b) (t.withLineO b)
  lineOe : ∀ s t b, K s t → K (s.withLineOe b) (t.withLineOe b)
  works : ∀ s t (f : Work → Work), K s t → K (s.withWork f) (t.withWork f)
  byte : ∀ s t l v, K s t → K (s.setByte l v) (t.setByte l v)
  slot : ∀ s t k q, K s t → K (s.setSlot k q) (t.setSlot k q)
  event : ∀ s t n, K s t → K (s.rxEvent n) (t.rxEvent n)
  error : ∀ s t e n, K s t → K (s.errorEvent e n) (t.errorEvent e n)

/-- The action is still to come, or it was made. -/
def Landing.Rel (tick : Nat) (first : Bool) (op : BusOp) (F : State → Prop) (K : State → State → Prop) (s t : State) : Prop :=
  s.undisturbed = true
    ∧ ((F s ∧ t = s.withHost (⟨.atTick tick first, op⟩ :: s.host) ∧ s.time ≤ tick) ∨ K s t)

theorem advanceOver_undisturbed {s : State} (h : s.undisturbed = true) (d : Nat) (t : State) :
    advanceOver s.host d t = .ok ((), t.pass d) := by
  unfold State.undisturbed at h
  split at h
  · next he => rw [he, advanceOver]
  · next act rest he =>
    rw [he, advanceOver]
    split at h
    · next => rfl
    · cases h

/-- One action at the head of the list, made inside a hold. -/
theorem advanceOver_act {tick : Nat} {first : Bool} {op : BusOp} (hop : ∀ held, op ≠ .rst held) {s : State}
    (h : s.undisturbed = true) (d : Nat) (hd : dueWithin s.time d tick first = true) :
    advanceOver (⟨.atTick tick first, op⟩ :: s.host) d (s.withHost (⟨.atTick tick first, op⟩ :: s.host))
      = .ok ((), (actBusy op (s.pass (tick - s.time))).pass (d - (tick - s.time))) := by
  rw [advanceOver]
  simp only
  rw [if_pos (by simpa using hd)]
  cases op with
  | wr a v => exact advanceOver_undisturbed h _ _
  | rd a => exact advanceOver_undisturbed h _ _
  | rst held => exact (hop held rfl).elim

variable {tick : Nat} {first : Bool} {op : BusOp} {F : State → Prop} {K : State → State → Prop}

theorem Landing.step (h : Landing tick op F K) {f : State → State} (hu : ∀ s, (f s).undisturbed = s.undisturbed)
    (ht : ∀ s, (f s).time = s.time) (hh : ∀ s l, f (s.withHost l) = (f s).withHost l) (hf : ∀ s, F s → F (f s))
    (hhost : ∀ s, (f s).host = s.host)
    (hk : ∀ s t, K s t → K (f s) (f t)) {s t : State} (hr : Landing.Rel tick first op F K s t) :
    Landing.Rel tick first op F K (f s) (f t) := by
  refine ⟨by rw [hu]; exact hr.1, ?_⟩
  rcases hr.2 with ⟨h1, h2, h3⟩ | h1
  · exact .inl ⟨hf s h1, by rw [h2, hh, hhost], by rw [ht]; exact h3⟩
  · exact .inr (hk s t h1)

theorem lastHostTick_le (acts : List HostAct) (act : HostAct) : lastHostTick acts ≤ lastHostTick (act :: acts) := by
  have mono : ∀ (acts : List HostAct) (a b : Nat), a ≤ b →
      acts.foldl (fun n act => match act.when with | .idle _ => n | .atTick tick _ => max n tick) a
        ≤ acts.foldl (fun n act => match act.when with | .idle _ => n | .atTick tick _ => max n tick) b := by
    intro acts
    induction acts with
    | nil => exact fun _ _ h => h
    | cons x xs ih =>
      intro a b h
      simp only [List.foldl_cons]
      cases x.when with
      | idle _ => exact ih a b h
      | atTick n _ => exact ih _ _ (by simp only; omega)
  exact mono acts 0 _ (Nat.zero_le _)

theorem Landing.twin (h : Landing tick op F K) : Twin (Landing.Rel tick first op F K) where
  beside s t hr := by
    rcases hr.2 with ⟨-, h2, -⟩ | h1
    · exact ⟨by rw [h2]; rfl⟩
    · exact h.beside s t h1
  undisturbed s t hr := hr.1
  bound s t hr := by
    rcases hr.2 with ⟨-, h2, -⟩ | h1
    · rw [h2]; exact lastHostTick_le _ _
    · rw [h.host s t h1]
  pass s t d hr hd := by
    rcases hr.2 with ⟨h1, h2, h3⟩ | h1
    · by_cases hdue : dueWithin s.time d tick first = true
      · refine ⟨(actBusy op (s.pass (tick - s.time))).pass (d - (tick - s.time)), ?_, hr.1, .inr ?_⟩
        · rw [h2]; exact advanceOver_act h.noReset hr.1 d hdue
        · have := h.pass _ _ (d - (tick - s.time)) (h.made _ (h.passF s (tick - s.time) h1) (by
            rw [State.pass_time]; omega))
          rwa [State.pass_pass, show tick - s.time + (d - (tick - s.time)) = d by
            simp only [dueWithin, Bool.or_eq_true, Bool.and_eq_true, decide_eq_true_eq] at hdue; omega] at this
      · refine ⟨t.pass d, ?_, hr.1, .inl ⟨h.passF s d h1, by rw [h2]; rfl, ?_⟩⟩
        · rw [h2, State.withHost_host, advanceOver]
          simp only
          rw [if_neg (by simpa using hdue)]
        · simp only [dueWithin, Bool.or_eq_true, Bool.and_eq_true, decide_eq_true_eq, not_or, not_and] at hdue
          rw [State.pass_time]; omega
    · refine ⟨t.pass d, ?_, hr.1, .inr (h.pass s t d h1)⟩
      rw [h.host s t h1]
      exact advanceOver_undisturbed hr.1 d t
  lineO s t b := h.step (f := State.withLineO b) (fun _ => rfl) (fun _ => rfl) (fun _ _ => rfl) (fun s => h.lineOF s b)
    (fun _ => rfl) (fun s t => h.lineO s t b)
  lineOe s t b := h.step (f := State.withLineOe b) (fun _ => rfl) (fun _ => rfl) (fun _ _ => rfl) (fun s => h.lineOeF s b)
    (fun _ => rfl) (fun s t => h.lineOe s t b)
  works s t f := h.step (f := State.withWork f) (fun _ => rfl) (fun _ => rfl) (fun _ _ => rfl) (fun s => h.worksF s f)
    (fun _ => rfl) (fun s t => h.works s t f)
  byte s t l v := h.step (f := State.setByte l v) (fun _ => by simp) (fun _ => by simp) (fun _ _ => by cases l <;> rfl)
    (fun s => h.byteF s l v) (fun _ => by simp) (fun s t => h.byte s t l v)
  slot s t k q := h.step (f := State.setSlot k q) (fun _ => rfl) (fun _ => rfl) (fun _ _ => rfl) (fun s => h.slotF s k q)
    (fun _ => rfl) (fun s t => h.slot s t k q)
  event s t n := h.step (f := State.rxEvent n) (fun _ => rfl) (fun _ => rfl) (fun _ _ => rfl) (fun s => h.eventF s n)
    (fun _ => rfl) (fun s t => h.event s t n)
  error s t e n := h.step (f := State.errorEvent e n) (fun _ => rfl) (fun _ => rfl) (fun _ _ => rfl)
    (fun s => h.errorF s e n) (fun _ => rfl) (fun s t => h.error s t e n)

/-- One host action that lands inside a command: the command ends as it does without it, in a state that `K` relates to the one
it ends in without it (of both, the state before `finish`). -/
theorem Landing.exec (h : Landing tick op F K) {i : Instr} {s u : State} (hb : s.busy = false)
    (hl : legalOperands s.cfg.val i = true) (hu : s.undisturbed = true) (hf : F (s.accept i)) (ht : s.time ≤ tick)
    (he : exec i s = .next u) (hlt : tick < u.time) :
    ∃ v w r, K v w ∧ u = v.finish r ∧ exec i (s.withHost (⟨.atTick tick first, op⟩ :: s.host)) = .next (w.finish r) := by
  obtain ⟨v, w, r, hr, hv, hw⟩ := (h.twin (first := first)).exec (t := s.withHost (⟨.atTick tick first, op⟩ :: s.host)) hb hl
    rfl hb ⟨hu, .inl ⟨hf, rfl, ht⟩⟩ he
  rcases hr.2 with ⟨-, -, h3⟩ | h1
  · rw [hv] at hlt
    exact absurd hlt (by rw [State.finish_time]; omega)
  · exact ⟨v, w, r, h1, hv, hw⟩

end Sys2Proof.Machine
end

