-- ==== Sys2Proof/Tests/Slice0.lean ====
section
/-! SUPPORT. Named tests: ill-formed configurations and commands, words written out from spec/30_encoding.md R91 to R93 for every
constructor, one or two steps per command with the results of spec/95_test_vectors.md or hand calculation from the rule, and a
witness that meets the hypotheses of every statement that has some, each clause at a boundary of its range. -/

namespace Sys2Proof.Tests

open Sys2Proof Sys2Proof.Machine

set_option Elab.async false

/-! ### Small states -/

/-- A configuration whose commands take few ticks: `BIT_WIDTH = 1`, `BIT_SPACER = 2`, `FLUSH_US = 1`, two slots, a frame capacity
of 12 (`MAX_PAYLOAD = 8`), one retry. -/
def smallConfig : Config :=
  { Config.example with bitWidth := 1, bitSpacer := 2, flushUs := 1, maxPackets := 2, maxFrameLen := 12, maxAttempts := 1 }

/-- The small configuration, bidirectional, no cipher, no collision avoidance. -/
def small : Cfg := ⟨smallConfig, by decide⟩

/-- The same on a simplex link. -/
def smallSimplex : Cfg := ⟨{ smallConfig with simplex := true }, by decide⟩

/-- The same with collision avoidance. -/
def smallCa : Cfg := ⟨{ smallConfig with caEn := true }, by decide⟩

/-- The same with the cipher on (`MAX_PAYLOAD = 7`). -/
def smallEnc : Cfg := ⟨{ smallConfig with encEn := true }, by decide⟩

/-- The default configuration as node 44 of spec/95_test_vectors.md. -/
def node44 : Cfg := ⟨{ Config.example with ownAddr := 44 }, by decide⟩

/-- A node at reset whose line carries the runs, then stays LOW. -/
def hears (c : Cfg) (runs : List (Bool × Nat)) : State := { State.blank c with line := ⟨runs, false⟩ }

/-- A node at reset with bytes in `TXBUF` and a clock value. -/
def holding (c : Cfg) (bytes : List (Nat × Byte)) (now : Word := 1000) : State :=
  { State.blank c with txbuf := bytes, clock0 := now }

/-- A node at reset with pending host actions. -/
def hosted (c : Cfg) (acts : List HostAct) : State := { State.blank c with host := acts }

/-- The outcome is a next state with the property. -/
def nextHas (o : Host.Outcome State Fault Refusal) (p : State → Bool) : Bool :=
  match o with
  | .next t => p t
  | .fault _ => false
  | .refused _ => false

theorem exists_next {o : Host.Outcome State Fault Refusal} {p : State → Bool} (h : nextHas o p = true) :
    ∃ t, o = .next t ∧ p t = true := by
  cases o with
  | next t => exact ⟨t, rfl, h⟩
  | fault f => cases h
  | refused r => cases h

/-! ### Ill-formed terms are refused -/

/-- `OWN_ADDR` may be neither 0 nor 124 (spec/00_scope.md R10). -/
theorem test_config_own_addr :
    Cfg.make { Config.example with ownAddr := 0 } = none ∧ Cfg.make { Config.example with ownAddr := 124 } = none := by decide

theorem test_config_bit_width : Cfg.make { Config.example with bitWidth := 0 } = none
    ∧ Cfg.make { Config.example with bitWidth := 65536 } = none := by decide

theorem test_config_bit_spacer : Cfg.make { Config.example with bitSpacer := 0 } = none
    ∧ Cfg.make { Config.example with bitSpacer := 65536 } = none := by decide

theorem test_config_max_packets : Cfg.make { Config.example with maxPackets := 0 } = none
    ∧ Cfg.make { Config.example with maxPackets := 256 } = none := by decide

theorem test_config_max_frame_len : Cfg.make { Config.example with maxFrameLen := 3 } = none
    ∧ Cfg.make { Config.example with encEn := true, maxFrameLen := 4 } = none
    ∧ Cfg.make { Config.example with maxFrameLen := 257 } = none := by decide

theorem test_config_max_attempts : Cfg.make { Config.example with maxAttempts := 255 } = none := by decide

theorem test_config_enc_strength : Cfg.make { Config.example with encStrength := 0 } = none
    ∧ Cfg.make { Config.example with encStrength := 257 } = none := by decide

theorem test_config_key : Cfg.make { Config.example with key := [] } = none
    ∧ Cfg.make { Config.example with key := List.replicate 257 0 } = none := by decide +kernel

theorem test_config_flush : Cfg.make { Config.example with flushUs := 65536 } = none := by decide

/-- `SEND_FRAME` with `b > MAX_PAYLOAD` (R93), and the bound itself. -/
theorem test_wf_send_frame : Instr.wellFormed Config.example (.sendFrame 12 47) = false
    ∧ Instr.wellFormed Config.example (.sendFrame 12 46) = true := by decide

theorem test_wf_crypt_encode : Instr.wellFormed Config.example (.crypt true false 254) = false
    ∧ Instr.wellFormed Config.example (.crypt true false 253) = true := by decide

theorem test_wf_crypt_decode : Instr.wellFormed Config.example (.crypt true true 0) = false
    ∧ Instr.wellFormed Config.example (.crypt true true 1) = true := by decide

theorem test_wf_gen_iv : Instr.wellFormed Config.example (.genIv 0 254) = false
    ∧ Instr.wellFormed Config.example (.genIv 0 253) = true := by decide

theorem test_wf_remove : Instr.wellFormed Config.example (.remove 4 0) = false
    ∧ Instr.wellFormed Config.example (.remove 3 0) = true := by decide

/-! ### Decoding: the words of R98 and of spec/95_test_vectors.md, and ignored fields at other values -/

theorem test_decode_send_bit : decode 0x00000101 = .ok (.sendBit true 0) ∧ decode 0x00A50001 = .ok (.sendBit false 0xA5) := by
  decide
theorem test_decode_sample_bit : decode 0x00BBAA02 = .ok (.sampleBit 0xAA 0xBB) := by decide
theorem test_decode_send_byte : decode 0x0000A503 = .ok (.sendByte 0xA5 0) := by decide
theorem test_decode_read_byte : decode 0x00BBAA04 = .ok (.readByte 0xAA 0xBB) := by decide
theorem test_decode_receive_byte : decode 0x00BBAA05 = .ok (.receiveByte 0xAA 0xBB) := by decide
theorem test_decode_can_start : decode 0x00BBAA06 = .ok (.canStart 0xAA 0xBB) := by decide
theorem test_decode_send_frame : decode 0x00022C07 = .ok (.sendFrame 44 2) := by decide
theorem test_decode_receive_frame : decode 0x00BBAA08 = .ok (.receiveFrame 0xAA 0xBB) := by decide
theorem test_decode_receive_frame_t : decode 0x00BBAA09 = .ok (.receiveFrameT 0xAA 0xBB) := by decide
theorem test_decode_crypt : decode 0x0003010A = .ok (.crypt true false 3) ∧ decode 0x0003020A = .ok (.crypt false true 3) := by
  decide
theorem test_decode_gen_iv : decode 0x0003AA0B = .ok (.genIv 0xAA 3) := by decide
theorem test_decode_enqueue : decode 0x00020C0C = .ok (.enqueue 12 2) := by decide
theorem test_decode_tick : decode 0x00BBAA0D = .ok (.tick 0xAA 0xBB) := by decide
theorem test_decode_remove : decode 0x00BB040E = .ok (.remove 4 0xBB) := by decide

/-- Vectors X1 to X4, B4, K16 of spec/95_test_vectors.md. -/
theorem test_decode_refused : decode 0x00000000 = .error .reservedOpcode ∧ decode 0x0000000F = .error .reservedOpcode
    ∧ decode 0x00000013 = .error .reservedBits ∧ decode 0x01000003 = .error .reservedBits
    ∧ decode 0x00000201 = .error .mustBeZero ∧ decode 0x0003040A = .error .mustBeZero := by decide

/-- The host's numbering of an instruction's bits is the command word's. -/
theorem test_decode_table_word : decodeTableWord 32 0x00020C07 = some (.sendFrame 12 2) ∧ decodeTableWord 32 0xF = none := by
  decide

/-! ### Commands -/

/-- Vector B1. -/
theorem test_send_bit : nextHas (exec (.sendBit true 0) { State.blank Cfg.example with arg := 350 }) (fun t =>
    t.lineO && !t.lineOe && decide (t.time = 350 ∧ t.result = 0 ∧ t.trace = [⟨⟨false, true⟩, 350⟩])) = true := by decide +kernel

/-- Vectors S4 and S5. -/
theorem test_sample_bit_last_sample :
    nextHas (exec (.sampleBit 0 0) { hears Cfg.example [(true, 1)] with arg := 2 }) (fun t => decide (t.result = 0)) = true
    ∧ nextHas (exec (.sampleBit 0 0) { hears Cfg.example [(false, 1), (true, 1)] with arg := 2 }) (fun t =>
        decide (t.result = 1 ∧ t.time = 2)) = true := by decide +kernel

/-- Vector S1: no sample, not above 1/2. -/
theorem test_sample_bit_empty : nextHas (exec (.sampleBit 0 0) { State.blank Cfg.example with line := ⟨[], true⟩ }) (fun t =>
    decide (t.result = 0 ∧ t.time = 0)) = true := by decide +kernel

/-- Vector Y5. -/
theorem test_send_byte : nextHas (exec (.sendByte 0xA5 0) (State.blank Cfg.example)) (fun t =>
    t.lineO && t.lineOe && decide (t.time = 3900 ∧ t.trace.reverse.map (fun r => (r.pins.o, r.ticks)) =
      [(true, 750), (false, 350), (true, 350), (false, 350), (true, 350), (false, 700), (true, 350), (false, 350),
        (true, 350)])) = true := by decide +kernel

/-- Vector R1, one tick per bit. -/
theorem test_read_byte : nextHas (exec (.readByte 0 0) (hears small [(false, 1), (true, 2)])) (fun t =>
    decide (t.result = 0x06 ∧ t.time = 8)) = true := by decide +kernel

/-- Vector R4, scaled: the symbol of 0x15. -/
theorem test_receive_byte : nextHas (exec (.receiveByte 0 0)
    (hears small [(true, 2), (false, 1), (true, 1), (false, 1), (true, 1), (false, 1), (true, 1)])) (fun t =>
    !t.lineOe && decide (t.result = 0x15 ∧ t.time = 11)) = true := by decide +kernel

/-- Vector R9, scaled: HIGH beyond the pulse. -/
theorem test_receive_byte_long_pulse : nextHas (exec (.receiveByte 0 0) { State.blank small with line := ⟨[], true⟩ })
    (fun t => decide (t.result = 0x100 ∧ t.time = 3)) = true := by decide +kernel

/-- Vectors N1 and N5, scaled. -/
theorem test_can_start : nextHas (exec (.canStart 0 0) (State.blank small)) (fun t => decide (t.result = 1 ∧ t.time = 9)) = true
    ∧ nextHas (exec (.canStart 0 0) { State.blank small with line := ⟨[], true⟩, lineO := true, lineOe := true }) (fun t =>
        !t.lineO && !t.lineOe && decide (t.result = 0)) = true := by decide +kernel

/-- Frame F1 on a simplex link: address, length, "HI", CRC 0x08. -/
theorem test_send_frame : nextHas (exec (.sendFrame 12 2) (holding smallSimplex [(0, 0x48), (1, 0x49)])) (fun t =>
    t.lineOe && !t.lineO && decide (t.result = 2 ∧ t.time = 55
      ∧ t.trace = driveRuns (symbolsRuns smallConfig [0x0C, 0x05, 0x48, 0x49, 0x08]) [])) = true := by decide +kernel

/-- The listen window on an idle medium (R179). -/
theorem test_send_frame_unanswered : nextHas (exec (.sendFrame 12 0) (State.blank small)) (fun t =>
    !t.lineOe && decide (t.result = 4 ∧ t.time = 33 + 3)) = true := by decide +kernel

/-- Reception F7, scaled, for node 1. -/
theorem test_receive_frame : nextHas (exec (.receiveFrame 0 0)
    (hears small (symbolsRuns smallConfig [0x01, 0x05, 0x48, 0x49, 0x05]))) (fun t =>
    t.lineOe && !t.lineO && t.rxDone && decide (t.result = 2 ∧ t.time = 66 ∧ t.rxLen = 2 ∧ t.rxCount = 1
      ∧ t.rxbuf = [(0, 1), (1, 5), (2, 0x48), (3, 0x49), (4, 5)] ∧ t.events = [(66, .rxFrame 2)])) = true := by decide +kernel

/-- Reception F15, scaled: a broadcast with a bad CRC is answered by nothing. -/
theorem test_receive_frame_bad_crc : nextHas (exec (.receiveFrame 0 0)
    (hears small (symbolsRuns smallConfig [0x7C, 0x04, 0x5A, 0x23]))) (fun t =>
    !t.lineOe && !t.rxDone && decide (t.result = 3 ∧ t.time = 44 ∧ t.events = [])) = true := by decide +kernel

/-- Vector T1 of `RECEIVE_FRAME_T`, with `dur = 3`. -/
theorem test_receive_frame_t : nextHas (exec (.receiveFrameT 0 0) { State.blank Cfg.example with arg := 3 }) (fun t =>
    decide (t.result = 4 ∧ t.time = 4)) = true := by decide +kernel

/-- Vector K1. -/
theorem test_crypt_encode : nextHas (exec (.crypt true false 3) (holding Cfg.example [(0, 0x41), (1, 0x42), (2, 0x43)] 1010))
    (fun t => decide (t.result = 4 ∧ t.time = 0 ∧ t.txbuf = [(0, 0xF9), (1, 0xFA), (2, 0xBA), (3, 0xF9)])) = true := by
  decide +kernel

/-- Vector K2. -/
theorem test_crypt_decode : nextHas (exec (.crypt true true 4)
    (holding Cfg.example [(0, 0xF9), (1, 0xFA), (2, 0xBA), (3, 0xF9)])) (fun t =>
      decide (t.result = 3 ∧ t.txbuf = [(0, 0x41), (1, 0x42), (2, 0x43), (3, 0xF9)])) = true := by decide +kernel

/-- Vectors G2 and G3. -/
theorem test_gen_iv : nextHas (exec (.genIv 0 3) (holding Cfg.example [(0, 3), (1, 4), (2, 6)] 2)) (fun t =>
      decide (t.result = 5)) = true
    ∧ nextHas (exec (.genIv 0 2) (holding Cfg.example [(0, 0xFE), (1, 1)] 253)) (fun t => decide (t.result = 2)) = true := by
  decide +kernel

/-- Vector Q1. -/
theorem test_enqueue : nextHas (exec (.enqueue 12 2) (holding Cfg.example [(0, 0x48), (1, 0x49)])) (fun t =>
    decide (t.result = 0 ∧ t.slot 0 = ⟨.pendingSend, 12, 2, 0, 0, 0, [(0, 0x48), (1, 0x49)]⟩ ∧ t.slot 1 = Slot.blank)) = true := by
  decide +kernel

/-- Vector Q4: an over-long payload. -/
theorem test_enqueue_over_long : nextHas (exec (.enqueue 12 47) (State.blank Cfg.example)) (fun t =>
    t.err && decide (t.result = 0x103 ∧ t.errKind = 3 ∧ t.errCtx = 47 ∧ t.qlive = 0)) = true := by decide +kernel

/-- A queue entry for the tests of `TICK`. -/
def entry12 : Slot := ⟨.pendingSend, 12, 1, 0, 0, 0, [(0, 0x5A)]⟩

/-- In a slot file of two, the last is the only due entry. -/
theorem last_onlyDue {s : State} {p q : Slot} (ticks : Nat) (h : s.slots = [p, q]) (h1 : q.state ≠ .empty) (h2 : s.due q = true)
    (h3 : p.state = .empty ∨ s.due p = false) : s.onlyDue 1 ticks := by
  have e : ∀ j, s.slot j = [p, q].getD j Slot.blank := fun j => by rw [State.slot, h]
  refine ⟨by rw [e]; exact h1, by rw [e]; exact h2, fun j hj => ?_, fun j hj => ?_⟩ <;> rw [e]
  · match j, hj with
    | 0, _ => exact h3
  · match j, hj with
    | j + 2, _ => exact .inl rfl

/-- In a slot file of two, the first is the only due entry: the last is not when the scan comes to it. -/
theorem first_onlyDue {s : State} {p q : Slot} (ticks : Nat) (h : s.slots = [p, q]) (h1 : p.state ≠ .empty) (h2 : s.due p = true)
    (h3 : q.state = .empty ∨ ({ s with time := s.time + ticks } : State).due q = false) : s.onlyDue 0 ticks := by
  have e : ∀ j, s.slot j = [p, q].getD j Slot.blank := fun j => by rw [State.slot, h]
  refine ⟨by rw [e]; exact h1, by rw [e]; exact h2, fun j hj => absurd hj (Nat.not_lt_zero j), fun j hj => ?_⟩
  rw [e]
  match j, hj with
  | 1, _ => exact h3
  | j + 2, _ => exact .inl rfl

/-- Program P1, scaled. -/
theorem test_tick : nextHas (exec (.tick 0 0) { State.blank smallSimplex with slots := [entry12, Slot.blank] }) (fun t =>
    decide (t.result = 1 ∧ t.time = 44 ∧ t.qlive = 0
      ∧ t.trace = driveRuns (symbolsRuns smallConfig [0x0C, 0x04, 0x5A, 0x52]) [])) = true := by decide +kernel

/-- Vector Q13 for one entry, scaled: the loss is reported when the attempts are exhausted. -/
theorem test_tick_connection_lost : nextHas (exec (.tick 0 0)
    { State.blank small with slots := [{ entry12 with attempts := 1 }, Slot.blank] }) (fun t =>
      t.err && decide (t.errKind = 1 ∧ t.errCtx = 12 ∧ t.time = 47 ∧ t.events = [(47, .error .connectionLost 12)]
        ∧ t.qlive = 0)) = true := by decide +kernel

/-- Vector Q10. -/
theorem test_remove : nextHas (exec (.remove 0 0) { State.blank small with slots := [entry12, Slot.blank] }) (fun t =>
    decide (t.result = 0 ∧ t.qlive = 0 ∧ (t.slot 0).destination = 0)) = true := by decide +kernel

/-- Vectors X5 and X9: host transactions during a command. -/
theorem test_busy_transactions :
    nextHas (exec (.sendByte 0xFF 0) (hosted Cfg.example
      [⟨.atTick 100 false, .wr 0x00000 3⟩, ⟨.atTick 200 false, .wr 0x00004 5⟩, ⟨.atTick 1200 false, .rd 0x00008⟩])) (fun t =>
        t.cmdErr && decide (t.arg = 0 ∧ t.time = 3900 ∧ t.reads = [⟨1200, 0x00008, 0x71⟩])) = true := by decide +kernel

/-- Vectors X1 and X6: a clear of `CMD_ERR` after a tick clears it; between the same two ticks the set wins (R31). -/
theorem test_cmd_err : nextHas (command 0 (State.blank Cfg.example)) (fun t =>
    t.cmdErr && (t.writeStatus 0x10).cmdErr && !((t.pass 1).writeStatus 0x10).cmdErr && decide (t.result = 0)) = true := by
  decide +kernel

/-- R290: while `rst` is 1 neither a write of `ARG` nor one of `CMD` has an effect, a read answers 0; the write at the release is
still to be made, and tick 0 is there. -/
theorem test_reset_hold : nextHas (step { hosted small [⟨.idle 0, .rst 5⟩, ⟨.atTick 2 false, .wr 0x00004 7⟩, ⟨.atTick 3 false, .wr 0x00000 3⟩,
      ⟨.atTick 4 false, .rd 0x00004⟩, ⟨.atTick 5 false, .wr 0x00004 9⟩] with arg := 1 }) (fun t =>
    decide (t.arg = 0 ∧ t.statusWord = 0 ∧ t.time = 5 ∧ t.tcur = 0 ∧ t.host = [⟨.atTick 5 false, .wr 0x00004 9⟩]
      ∧ t.reads = [⟨4, 0x00004, 0⟩] ∧ t.trace = [⟨⟨false, false⟩, 5⟩])) = true := by decide +kernel

/-- R264: an event 30 ticks after the release of reset at time 100 is recorded with `t_cur = 30`. -/
theorem test_event_time : nextHas (exec (.enqueue 12 9) { State.blank small with time := 130, released := 100 }) (fun t =>
    decide (t.events = [(30, .error .allocationFailed 9)])) = true := by decide +kernel

/-! ### Witnesses: states and operands that meet the hypotheses of the statements -/

theorem witness_EncodeDecode : decode 0x0004030A = .ok (.crypt true true 4) := by decide

/-- Both ways a write of `CMD` can be due, the second at its last moment. -/
theorem witness_StepRunsCommand : decode 0x00000603 = .ok (.sendByte 6 0)
    ∧ (hosted small [⟨.idle 0, .wr 0x00000 0x00000603⟩]).host = ⟨.idle 0, .wr 0x00000 0x00000603⟩ :: []
    ∧ (hosted small [⟨.atTick 0 false, .wr 0x00000 0x00000603⟩]).host = ⟨.atTick 0 false, .wr 0x00000 0x00000603⟩ :: []
    ∧ 0 ≤ (hosted small [⟨.atTick 0 false, .wr 0x00000 0x00000603⟩]).time := by decide

/-- The three clauses, the waits at their least. -/
theorem witness_IdleTicks : (State.blank small).host = []
    ∧ (hosted small [⟨.idle (0 + 1), .rd 0⟩]).host = ⟨.idle (0 + 1), .rd 0⟩ :: []
    ∧ (hosted small [⟨.atTick 1 true, .rd 0⟩]).host = ⟨.atTick 1 true, .rd 0⟩ :: []
    ∧ (hosted small [⟨.atTick 1 true, .rd 0⟩]).time < 1 := by decide

/-- Each check of R95, at the first value it refuses. -/
theorem witness_RefusedCommand :
    ({ State.blank small with busy := true } : State).busy = true
    ∧ (0x10 : Word).toNat / 16 % 16 ≠ 0 ∧ (0x01000000 : Word).toNat / 2 ^ 24 ≠ 0
    ∧ (0x0 : Word).toNat % 16 = 0 ∧ (0xF : Word).toNat % 16 = 15
    ∧ ((0x201 : Word).toNat % 16 = 1 ∧ (0x201 : Word).toNat / 2 ^ 9 % 2 ^ 7 ≠ 0)
    ∧ ((0x40A : Word).toNat % 16 = 10 ∧ (0x40A : Word).toNat / 2 ^ 10 % 2 ^ 6 ≠ 0)
    ∧ ((0x90007 : Word).toNat % 16 = 7 ∧ maxPayload (State.blank small).cfg.val < (0x90007 : Word).toNat / 2 ^ 16 % 2 ^ 8)
    ∧ ((0xFE010A : Word).toNat % 16 = 10 ∧ (0xFE010A : Word).toNat / 2 ^ 8 % 2 ^ 8 = 1
        ∧ 253 < (0xFE010A : Word).toNat / 2 ^ 16 % 2 ^ 8)
    ∧ ((0x30A : Word).toNat % 16 = 10 ∧ (0x30A : Word).toNat / 2 ^ 8 % 2 ^ 8 = 3 ∧ (0x30A : Word).toNat / 2 ^ 16 % 2 ^ 8 = 0)
    ∧ ((0xFE000B : Word).toNat % 16 = 11 ∧ 253 < (0xFE000B : Word).toNat / 2 ^ 16 % 2 ^ 8)
    ∧ ((0x20E : Word).toNat % 16 = 14 ∧ (State.blank small).cfg.val.maxPackets ≤ (0x20E : Word).toNat / 2 ^ 8 % 2 ^ 8)
    ∧ (hosted small [⟨.idle 0, .wr 0x00000 0xF⟩]).dueNext (.wr 0x00000 0xF) []
    ∧ (hosted small [⟨.atTick 0 false, .wr 0x00000 0xF⟩]).dueNext (.wr 0x00000 0xF) [] := by
  unfold State.dueNext
  refine ⟨by decide, by decide, by decide, by decide, by decide, by decide, by decide, by decide +kernel, by decide, by decide,
    by decide, by decide +kernel, .inl rfl, .inr ⟨0, false, rfl, by decide⟩⟩

/-- A command during which the host writes a register. -/
theorem witness_CommandEnd : (hosted small [⟨.atTick 3 false, .wr 0x00004 5⟩]).busy = false
    ∧ legalOperands (hosted small [⟨.atTick 3 false, .wr 0x00004 5⟩]).cfg.val (.sendFrame 124 8) = true
    ∧ ∃ t, exec (.sendFrame 124 8) (hosted small [⟨.atTick 3 false, .wr 0x00004 5⟩]) = .next t
        ∧ decide (t.resets = (hosted small [⟨.atTick 3 false, .wr 0x00004 5⟩]).resets) = true :=
  ⟨rfl, by decide, exists_next (by decide +kernel)⟩

theorem witness_ResetCutsCommand :
    ∃ t, exec (.sendByte 6 0) (hosted small [⟨.atTick 0 true, .rst 2⟩]) = .next t
      ∧ decide (t.resets ≠ (hosted small [⟨.atTick 0 true, .rst 2⟩]).resets) = true :=
  exists_next (by decide +kernel)

/-- The first and the last tick of the window; the host waits, and acts at the release. -/
theorem witness_ResetDuringSendBit :
    (∀ tick, tick = 0 ∨ tick = 4 → ∀ rest, rest = [] ∨ rest = [⟨.atTick (tick + 2) false, .rd 8⟩] →
      let s := { hosted small (⟨.atTick tick false, .rst 2⟩ :: rest) with arg := 5 }
      s.busy = false ∧ s.host = ⟨.atTick tick false, .rst 2⟩ :: rest ∧ s.time ≤ tick ∧ tick < s.time + s.arg.toNat
        ∧ ({ s with time := tick, host := rest } : State).quietUnderReset 2) := by
  rintro tick (rfl | rfl) rest (rfl | rfl) <;> refine ⟨by decide, by decide, by decide, by decide, ?_⟩ <;>
    simp [State.quietUnderReset]

/-- The first and the last tick of the window; a read, a write of each kind, and a void one. -/
theorem witness_HostDuringSendBit : ∀ x : Nat × BusOp,
    x = (0, .rd 8) ∨ x = (4, .wr 0x00000 3) ∨ x = (0, .wr 0x00008 0x1E) ∨ x = (4, .wr 0x00004 7) →
    let s := { hosted small [⟨.atTick x.1 false, x.2⟩] with arg := 5 }
    s.busy = false ∧ s.host = ⟨.atTick x.1 false, x.2⟩ :: [] ∧ ({ s with host := [] } : State).undisturbed = true
      ∧ s.time ≤ x.1 ∧ x.1 < s.time + s.arg.toNat := by
  rintro x (rfl | rfl | rfl | rfl) <;> decide

/-- The first and the last tick of a command, a host that waits; two bits of `STATUS` that are 0; a void write. -/
theorem witness_HostCannotDisturb : (hosted small [⟨.idle 0, .rd 8⟩]).ready = true
    ∧ (∃ t, exec (.sendByte 6 0) (hosted small [⟨.idle 0, .rd 8⟩]) = .next t ∧ decide (0 ≤ 0 ∧ 0 < t.time ∧ 0 ≤ 10 ∧ 10 < t.time) = true)
    ∧ (0x1B : Word).getLsbD 2 = false ∧ (0x17 : Word).getLsbD 3 = false ∧ (4 : BusAddr) ≠ 0 ∧ (4 : BusAddr) ≠ 8 :=
  ⟨by decide, exists_next (by decide +kernel), by decide, by decide, by decide, by decide⟩

/-- A command that is none of the writers named. -/
theorem witness_WhoWritesWhat :
    (∃ t, exec (.sendByte 6 0) (State.blank small) = .next t ∧ decide (t.resets = (State.blank small).resets) = true)
    ∧ (∀ ivf side len, Instr.sendByte 6 0 ≠ .crypt ivf side len) ∧ (∀ a b, Instr.sendByte 6 0 ≠ .receiveFrame a b)
    ∧ (∀ a b, Instr.sendByte 6 0 ≠ .receiveFrameT a b) ∧ (∀ d n, Instr.sendByte 6 0 ≠ .enqueue d n)
    ∧ (∀ a b, Instr.sendByte 6 0 ≠ .tick a b) ∧ (∀ k b, Instr.sendByte 6 0 ≠ .remove k b) := by
  refine ⟨exists_next (by decide +kernel), ?_, ?_, ?_, ?_, ?_, ?_⟩ <;> intros <;> nofun

/-- A reset due after waiting and one due at its tick; a tick before it, and the first and the last tick of the hold; a host that
lets it pass; a write, a read and another hold at its first and its last tick, the host letting the rest pass. -/
theorem witness_ResetValues : (hosted small [⟨.idle 0, .rst 2⟩]).dueNext (.rst 2) []
    ∧ (hosted small [⟨.atTick 0 true, .rst 2⟩]).dueNext (.rst 2) [] ∧ 0 < ({ State.blank small with time := 1 } : State).time
    ∧ 0 ≤ 0 ∧ 1 < ((State.blank small).resetPin 2).time
    ∧ (hosted small [⟨.atTick 2 true, .rd 8⟩]).quietUnderReset 2
    ∧ ∀ tick, tick = 0 ∨ tick = 1 → ∀ op, op = .wr 4 7 ∨ op = .rd 4 ∨ op = .rst 9 →
        (hosted small [⟨.atTick tick true, op⟩]).host = ⟨.atTick tick true, op⟩ :: []
        ∧ max tick (State.blank small).time < (State.blank small).time + 2
        ∧ ({ hosted small [⟨.atTick tick true, op⟩] with host := [] } : State).quietUnderReset 2
        ∧ ({ hosted small [⟨.atTick tick true, op⟩] with host := [] } : State).quietUnderReset (max 2 (max tick 0 - 0 + 9)) := by
  refine ⟨.inl rfl, .inr ⟨0, true, rfl, by decide⟩, by decide, by decide, by decide, by simp [State.quietUnderReset, hosted, State.blank], ?_⟩
  rintro tick (rfl | rfl) op (rfl | rfl | rfl) <;> exact ⟨rfl, by decide, by simp [State.quietUnderReset],
    by simp [State.quietUnderReset]⟩

theorem witness_StepKeepsInv : State.reset.inv = true ∧ ∃ t, step State.reset = .next t ∧ decide (t.time = 1) = true :=
  ⟨by decide, exists_next (by decide +kernel)⟩

theorem witness_StepKeepsEnvironment : ∃ t, step (hosted small [⟨.atTick 3 false, .rd 8⟩]) = .next t
    ∧ decide (t.time = 3) = true := exists_next (by decide +kernel)

/-- The last byte of each window, and addresses next to the windows. -/
theorem witness_ReadMap : (hosted small [⟨.idle 0, .rd 8⟩]).dueNext (.rd 8) []
    ∧ (hosted small [⟨.atTick 0 false, .rd 8⟩]).dueNext (.rd 8) []
    ∧ 255 < 256 ∧ 11 < (State.blank small).cfg.val.maxFrameLen ∧ 1 < (State.blank small).cfg.val.maxPackets
    ∧ 7 < maxPayload (State.blank small).cfg.val
    ∧ (0x00009 : BusAddr).toNat % 4 ≠ 0
    ∧ (0x0002C ≤ (0x0002C : BusAddr).toNat ∧ (0x0002C : BusAddr).toNat < 0x00040)
    ∧ (0x00064 ≤ (0x003FC : BusAddr).toNat ∧ (0x003FC : BusAddr).toNat < 0x00400)
    ∧ (0x00800 + 4 * (State.blank small).cfg.val.maxFrameLen ≤ (0x00830 : BusAddr).toNat ∧ (0x00830 : BusAddr).toNat < 0x01000)
    ∧ (0x01000 + 0x20 * (State.blank small).cfg.val.maxPackets ≤ (0x01040 : BusAddr).toNat
        ∧ (0x01040 : BusAddr).toNat < 0x10000)
    ∧ (0x10000 ≤ (0x10800 : BusAddr).toNat
        ∧ (State.blank small).cfg.val.maxPackets ≤ ((0x10800 : BusAddr).toNat - 0x10000) / 0x400)
    ∧ (0x10000 ≤ (0x10420 : BusAddr).toNat
        ∧ maxPayload (State.blank small).cfg.val ≤ ((0x10420 : BusAddr).toNat - 0x10000) % 0x400 / 4) := by
  refine ⟨.inl rfl, .inr ⟨0, false, rfl, by decide⟩, ?_⟩
  decide +kernel

/-- Idle and busy; the first and the last byte of `TXBUF`, and addresses beside it. -/
theorem witness_HostWrites : (State.blank small).busy = false ∧ ({ State.blank small with busy := true } : State).busy = true
    ∧ (0x00400 : BusAddr).toNat = 0x00400 + 4 * 0 ∧ (0x007FC : BusAddr).toNat = 0x00400 + 4 * 255 ∧ 255 < 256
    ∧ (0x00402 : BusAddr).toNat % 4 ≠ 0 ∧ (0x003FC : BusAddr).toNat < 0x00400 ∧ 0x00800 ≤ (0x00800 : BusAddr).toNat
    ∧ (0x003FC : BusAddr) ≠ 0x00000 ∧ (0x003FC : BusAddr) ≠ 0x00004 ∧ (0x003FC : BusAddr) ≠ 0x00008
    ∧ (hosted small [⟨.idle 0, .wr 0x003FC 1⟩]).dueNext (.wr 0x003FC 1) []
    ∧ (hosted small [⟨.atTick 0 false, .wr 0x003FC 1⟩]).dueNext (.wr 0x003FC 1) [] := by
  refine ⟨by decide, by decide, by decide, by decide, by decide, by decide, by decide, by decide, by decide, by decide, by decide,
    .inl rfl, .inr ⟨0, false, rfl, by decide⟩⟩

/-- The hypothesis of `SendBit`, `SampleBit`, `SendByte`, `ReadByte` and `CanStart`: idle, the host waiting. -/
theorem witness_ready : (State.blank small).ready = true ∧ (hosted small [⟨.idle 0, .wr 0x00000 3⟩]).ready = true := by decide

theorem witness_NoTies : [true] ≠ ([] : List Bool) := by decide

/-- The threshold and the value below it, for each of the six windows. -/
theorem witness_FilterThresholds : 159 ≤ 350 ∧ 160 ≤ 350 ∧ 190 ≤ 350 ∧ 191 ≤ 350 ∧ 306 ≤ 750 ∧ 307 ≤ 750 ∧ 443 ≤ 750 ∧ 444 ≤ 750
    ∧ 4 ≤ 10 ∧ 5 ≤ 10 ∧ 6 ≤ 10 := by decide

/-- No pulse; a whole pulse, a cut one, each with a HIGH and a LOW gap window. -/
theorem witness_ReceiveByte :
    ((State.blank small).ready = true ∧ (State.blank small).line.level (State.blank small).time = false)
    ∧ ∀ x : List (Bool × Nat) × Nat × Nat × Bool,
        x = ([(true, 3)], 2, 0, true) ∨ x = ([(true, 2)], 2, 0, false) ∨ x = ([(true, 1), (false, 1), (true, 1)], 1, 1, true)
          ∨ x = ([(true, 1)], 1, 1, false) →
        let s := hears small x.1
        s.ready = true ∧ 1 ≤ x.2.1 ∧ x.2.1 ≤ s.cfg.val.bitSpacer ∧ (∀ j, j < x.2.1 → s.line.level (s.time + j) = true)
          ∧ ((x.2.1 = s.cfg.val.bitSpacer ∧ x.2.2.1 = 0)
              ∨ (x.2.1 < s.cfg.val.bitSpacer ∧ s.line.level (s.time + x.2.1) = false ∧ x.2.2.1 = 1))
          ∧ s.window (s.time + x.2.1 + x.2.2.1) s.cfg.val.bitWidth = x.2.2.2 := by
  refine ⟨by decide, ?_⟩
  rintro x (rfl | rfl | rfl | rfl) <;> decide +kernel

theorem witness_SymbolRoundTrip :
    (State.blank small).ready = true ∧ (hears small (symbolRuns smallConfig 0xA5)).ready = true
    ∧ ∃ t, exec (.sendByte 0xA5 0) (State.blank small) = .next t
        ∧ decide (∀ j, j < tByte (State.blank small).cfg.val →
            some ((hears small (symbolRuns smallConfig 0xA5)).line.level ((hears small (symbolRuns smallConfig 0xA5)).time + j))
              = (t.pinsDuring ((State.blank small).time + j)).map Pins.drives) = true :=
  ⟨by decide, by decide, exists_next (by decide +kernel)⟩

/-- A channel that is never found idle, the longest payload. -/
theorem witness_SendFrameBusy :
    let s := { State.blank smallCa with line := ⟨[], true⟩ }
    s.ready = true ∧ (8 : Byte).toNat ≤ maxPayload s.cfg.val ∧ ¬ s.channelClear := by
  unfold State.channelClear; decide +kernel

/-- A broadcast, and a simplex link; the longest payload with and without the cipher; the channel sensor on. -/
theorem witness_SendFrameUnanswered :
    ((State.blank smallCa).ready = true ∧ (8 : Byte).toNat ≤ maxPayload (State.blank smallCa).cfg.val
      ∧ (State.blank smallCa).channelClear ∧ (124 : Byte) = 124)
    ∧ ((State.blank smallSimplex).channelClear ∧ (State.blank smallSimplex).cfg.val.simplex = true)
    ∧ ((State.blank smallEnc).channelClear ∧ (7 : Byte).toNat ≤ maxPayload (State.blank smallEnc).cfg.val) := by
  unfold State.channelClear; decide +kernel

/-- Silence; after the frame the symbols of 6, 21 and another byte, at once and at the last tick of the window. -/
theorem witness_SendFrameAnswered :
    ((State.blank small).ready = true ∧ (0 : Byte).toNat ≤ maxPayload (State.blank small).cfg.val ∧ (State.blank small).channelClear
      ∧ (12 : Byte) ≠ 124 ∧ (State.blank small).cfg.val.simplex = false
      ∧ (State.blank small).quietLine ((State.blank small).time
          + frameTicks (State.blank small).cfg.val ((State.blank small).frameFor 12 ((State.blank small).readBytes .tx 0))) 3)
    ∧ ∀ x : Byte × Nat, x = (6, 0) ∨ x = (21, 2) ∨ x = (0x55, 2) →
        let s := hears small ((false, 33 + x.2) :: symbolRuns smallConfig x.1)
        let listen := s.time + frameTicks s.cfg.val (s.frameFor 12 (s.readBytes .tx 0))
        s.ready = true ∧ s.channelClear ∧ x.2 < s.cfg.val.bitSpacer + s.cfg.val.bitWidth ∧ s.quietLine listen x.2
          ∧ s.carries (listen + x.2) (symbolRuns s.cfg.val x.1) := by
  unfold State.channelClear State.quietLine State.carries
  refine ⟨by decide +kernel, ?_⟩
  rintro x (rfl | rfl | rfl) <;> decide +kernel

/-- The longest body whose length byte fits, and its last index. -/
theorem witness_FrameFormat : (List.replicate 252 (0 : Byte)).length + 3 < 256 ∧ 251 < (List.replicate 252 (0 : Byte)).length := by
  rw [List.length_replicate]; decide

/-- A list whose exclusive-or is 0; a frame for this node with a flipped payload bit, and one with a flipped CRC bit. -/
theorem witness_SingleBitError : (xorAll [1, 1] = 0 ∧ 1 < [(1 : Byte), 1].length ∧ 7 < 8)
    ∧ ∀ x : Nat × Nat, x = (2, 7) ∨ x = (3, 0) →
        let flipped := (frameBytes 1 [9]).set x.1 ((frameBytes 1 [9]).getD x.1 0 ^^^ BitVec.twoPow 8 x.2)
        let s := hears small (symbolsRuns smallConfig flipped)
        s.ready = true ∧ ((1 : Byte) = s.cfg.val.ownAddr ∨ (1 : Byte) = 124) ∧ s.cfg.val.encEn.toNat ≤ [(9 : Byte)].length
          ∧ [(9 : Byte)].length + 3 < s.cfg.val.maxFrameLen ∧ 2 ≤ x.1 ∧ x.1 < [(9 : Byte)].length + 3 ∧ x.2 < 8
          ∧ s.carries s.time (symbolsRuns s.cfg.val flipped) := by
  unfold State.carries
  refine ⟨by decide, ?_⟩
  rintro x (rfl | rfl) <;> decide +kernel

/-- A LOW line; another node's symbol; declared lengths one below and one above the range, for this node and as a broadcast. -/
theorem witness_ReceiveFrameAbort :
    ((State.blank small).ready = true ∧ (State.blank small).line.level (State.blank small).time = false)
    ∧ ((hears small (symbolRuns smallConfig 2)).carries (hears small (symbolRuns smallConfig 2)).time (symbolRuns smallConfig 2)
        ∧ (2 : Byte) ≠ smallConfig.ownAddr ∧ (2 : Byte) ≠ 124)
    ∧ ∀ x : Byte × Byte, x = (1, 2) ∨ x = (124, 12) →
        let s := hears small (symbolsRuns smallConfig [x.1, x.2])
        s.ready = true ∧ s.carries s.time (symbolsRuns s.cfg.val [x.1, x.2]) ∧ (x.1 = s.cfg.val.ownAddr ∨ x.1 = 124)
          ∧ ¬ (3 + s.cfg.val.encEn.toNat ≤ x.2.toNat ∧ x.2.toNat < s.cfg.val.maxFrameLen) := by
  unfold State.carries
  refine ⟨by decide, by decide +kernel, ?_⟩
  rintro x (rfl | rfl) <;> decide +kernel

/-- The least and the greatest declared length, broken off at once and before the last symbol. -/
theorem witness_ReceiveFrameCutOff : ∀ x : List Byte × SymbolFail,
    x = ([], .gap 1 [true]) ∨ x = ([1], .low) ∨ x = ([124], .gap 2 [true]) ∨ x = ([1, 3], .low)
      ∨ x = (124 :: 11 :: List.replicate 8 0, .gap 1 [true]) →
    let s := hears small (symbolsRuns smallConfig x.1 ++ x.2.runs smallConfig)
    s.ready = true ∧ (∀ y ∈ x.1[0]?, y = s.cfg.val.ownAddr ∨ y = 124)
      ∧ (∀ n ∈ x.1[1]?, 3 + s.cfg.val.encEn.toNat ≤ n.toNat ∧ n.toNat < s.cfg.val.maxFrameLen ∧ x.1.length < n.toNat)
      ∧ x.2.legal s.cfg.val ∧ s.carries s.time (symbolsRuns s.cfg.val x.1 ++ x.2.runs s.cfg.val) := by
  unfold State.carries
  rintro x (rfl | rfl | rfl | rfl | rfl) <;> simp only [SymbolFail.legal] <;> decide +kernel

/-- Answered and not answered (broadcast), the least declared length. -/
theorem witness_ReceiveFrameNak : ∀ x : Byte × List Byte, x = (1, [0]) ∨ x = (124, [0]) →
    let s := hears small (symbolsRuns smallConfig (x.1 :: 3 :: x.2))
    s.ready = true ∧ (x.1 = s.cfg.val.ownAddr ∨ x.1 = 124) ∧ 3 + s.cfg.val.encEn.toNat ≤ (3 : Byte).toNat
      ∧ (3 : Byte).toNat < s.cfg.val.maxFrameLen ∧ 2 + x.2.length = (3 : Byte).toNat
      ∧ s.carries s.time (symbolsRuns s.cfg.val (x.1 :: 3 :: x.2)) ∧ xorAll (x.1 :: 3 :: x.2) ≠ 0 := by
  unfold State.carries
  rintro x (rfl | rfl) <;> decide +kernel

/-- Without and with the cipher; the empty payload and the longest; for this node and as a broadcast. -/
theorem witness_ReceiveFrameAck : ∀ x : Cfg × Byte × List Byte,
    x = (small, 1, []) ∨ x = (small, 124, List.replicate 8 7) ∨ x = (smallEnc, 1, [9]) ∨ x = (smallSimplex, 1, [9]) →
    let s := hears x.1 (symbolsRuns x.1.val (frameBytes x.2.1 x.2.2))
    s.ready = true ∧ (x.2.1 = s.cfg.val.ownAddr ∨ x.2.1 = 124) ∧ s.cfg.val.encEn.toNat ≤ x.2.2.length
      ∧ x.2.2.length + 3 < s.cfg.val.maxFrameLen ∧ s.carries s.time (symbolsRuns s.cfg.val (frameBytes x.2.1 x.2.2)) := by
  unfold State.carries
  rintro x (rfl | rfl | rfl | rfl) <;> decide +kernel

/-- A broadcast of "HI" with the cipher on, heard by a node of the same settings. -/
theorem witness_FrameRoundTrip :
    let s := holding smallEnc [(0, 0x48), (1, 0x49)]
    let r := hears smallEnc (symbolsRuns smallEnc.val (s.frameFor 124 [0x48, 0x49]))
    s.ready = true ∧ (2 : Byte).toNat ≤ maxPayload s.cfg.val ∧ s.channelClear ∧ r.ready = true
      ∧ (2 : Byte).toNat + 3 + s.cfg.val.encEn.toNat < r.cfg.val.maxFrameLen
      ∧ ∃ t, exec (.sendFrame 124 2) s = .next t
        ∧ decide (∀ j, j < ((2 : Byte).toNat + 3 + s.cfg.val.encEn.toNat) * tByte s.cfg.val →
            some (r.line.level (r.time + j)) = (t.pinsDuring (s.time + caTicks s.cfg.val + j)).map Pins.drives) = true := by
  refine ⟨by decide +kernel, by decide, ?_, by decide +kernel, by decide, exists_next (by decide +kernel)⟩
  unfold State.channelClear; decide

/-- Attempts of every kind, of which the first is answered. -/
def attempts : List Attempt := [.bad 1 3 [0], .other 2, .badLength 1 2, .broken [] .low, .broken [] (.gap 1 [true]), .broken [1] .low]

/-- The last attempt, and the line that a node of the small configuration meets them all on: LOW during the answer. -/
def attemptsLine : List (Bool × Nat) :=
  symbolsRuns smallConfig [1, 3, 0] ++ (false, 11) :: symbolsRuns smallConfig [2, 1, 2] ++ [(false, 1), (true, 1), (false, 1), (true, 1)]
    ++ symbolsRuns smallConfig [1] ++ (false, 1) :: symbolsRuns smallConfig [1, 3] ++ [(true, 3)]

/-- What an invocation of `receiveFrame()` yields, and the state it ends in. -/
def yields (s : State) : TxOutcome := match receiveFrame s with | .ok (o, _) => o | _ => .fail
def ends (s : State) : State := match receiveFrame s with | .ok (_, t) => t | _ => s

theorem receiveFrame_ends {s : State} (h : (match receiveFrame s with | .ok _ => true | _ => false) = true) :
    receiveFrame s = .ok (yields s, ends s) := by
  unfold yields ends
  revert h
  cases receiveFrame s <;> simp

/-- The states of `RECEIVE_FRAME_T` before its first three invocations and after the second. -/
def invocations (s : State) : Nat → State
  | 0 => (s.accept (.receiveFrameT 0 0)).withWork fun w => { w with t0 := s.now }
  | k + 1 => ends (invocations s k)

theorem invokes_two {s : State} (h : ∀ k, k ≤ 1 → (match receiveFrame (invocations s k) with | .ok _ => true | _ => false) = true)
    (h1 : yields (invocations s 0) ≠ .ack) (h2 : (invocations s 1).elapsed s.now ≤ s.arg.toNat) :
    s.invokes (.receiveFrameT 0 0) 1 (invocations s) (fun k => yields (invocations s k)) :=
  ⟨rfl, fun k hk => receiveFrame_ends (h k hk), fun k hk => by obtain rfl : k = 0 := by omega
                                                               exact ⟨h1, h2⟩⟩

/-- The least `ARG`, the greatest that ends, and the one that never does; attempts that end at the last tick of `ARG`, before one
that ends later; two invocations on a LOW line, the first ending at the last tick of `ARG`. -/
theorem witness_ReceiveFrameTIdle :
    (State.blank small).ready = true
    ∧ ((0 : Word).toNat < 2 ^ 32 - 1 ∧ (State.blank small).quietLine 0 (0 + 1))
    ∧ ((0xFFFFFFFE : Word).toNat < 2 ^ 32 - 1 ∧ (State.blank small).quietLine 0 (0xFFFFFFFE + 1))
    ∧ ((0xFFFFFFFF : Word).toNat = 2 ^ 32 - 1 ∧ ∀ τ, (State.blank small).time ≤ τ → (State.blank small).line.level τ = false)
    ∧ (let s := { hears small attemptsLine with arg := 93 }
       s.ready = true ∧ s.meets s.time (attempts ++ [.broken [1, 3] (.gap 2 [true])]) ∧ attemptsTicks s.cfg.val attempts ≤ s.arg.toNat
         ∧ s.arg.toNat < attemptsTicks s.cfg.val attempts + (Attempt.broken [1, 3] (.gap 2 [true])).ticks s.cfg.val
         ∧ attemptsTicks s.cfg.val attempts + (Attempt.broken [1, 3] (.gap 2 [true])).ticks s.cfg.val < 2 ^ 32)
    ∧ (let s : State := { State.blank small with arg := 1 }
       s.busy = false ∧ 1 < 2 ^ 32 ∧ s.invokes (.receiveFrameT 0 0) 1 (invocations s) (fun k => yields (invocations s k))
         ∧ yields (invocations s 1) ≠ .ack ∧ s.arg.toNat < (invocations s 2).elapsed s.now) := by
  refine ⟨by decide, ⟨by decide, fun _ _ => rfl⟩, ⟨by decide, fun _ _ => rfl⟩, ⟨by decide, fun _ _ => rfl⟩,
    ⟨by decide +kernel, ?_, by decide +kernel, by decide +kernel, by decide +kernel⟩,
    by decide, by decide, invokes_two (by decide +kernel) (by decide +kernel) (by decide +kernel), by decide +kernel, by decide +kernel⟩
  simp only [State.meets, attempts, List.cons_append, List.nil_append, Attempt.legal, State.unfinished, SymbolFail.legal, State.carries]
  and_intros <;> decide +kernel

/-- A valid frame at once, and one behind attempts that end at the last tick of `ARG`, for this node and as a broadcast; a valid
frame behind an invocation that ends at the last tick of `ARG`. -/
theorem witness_ReceiveFrameTAck :
    ((hears small (symbolsRuns smallConfig [1, 3, 2])).ready = true
      ∧ ∃ t, exec (.receiveFrame 0 0) (hears small (symbolsRuns smallConfig [1, 3, 2])) = .next t
          ∧ decide (t.result = 2) = true)
    ∧ (∀ x : Byte × List Byte, x = (1, []) ∨ x = (124, List.replicate 8 7) →
        let s := { hears small ((false, 1) :: symbolsRuns smallConfig (2 :: frameBytes x.1 x.2)) with arg := 12 }
        s.ready = true ∧ s.meets s.time [.broken [] .low, .other 2]
          ∧ attemptsTicks s.cfg.val [.broken [] .low, .other 2] ≤ s.arg.toNat
          ∧ (x.1 = s.cfg.val.ownAddr ∨ x.1 = 124) ∧ s.cfg.val.encEn.toNat ≤ x.2.length ∧ x.2.length + 3 < s.cfg.val.maxFrameLen
          ∧ s.carries (s.time + attemptsTicks s.cfg.val [.broken [] .low, .other 2]) (symbolsRuns s.cfg.val (frameBytes x.1 x.2)))
    ∧ (let s : State := { hears small ((false, 1) :: symbolsRuns smallConfig [1, 3, 2]) with arg := 1 }
       s.busy = false ∧ 1 < 2 ^ 32 ∧ s.invokes (.receiveFrameT 0 0) 1 (invocations s) (fun k => yields (invocations s k))
         ∧ yields (invocations s 1) = .ack) := by
  refine ⟨⟨by decide +kernel, exists_next (by decide +kernel)⟩, ?_, by decide, by decide,
    invokes_two (by decide +kernel) (by decide +kernel) (by decide +kernel), by decide +kernel⟩
  simp only [State.meets, Attempt.legal, State.unfinished, SymbolFail.legal, State.carries]
  rintro x (rfl | rfl) <;> decide +kernel

theorem witness_TableIsPermutation : (1 ≤ 1 ∧ 1 ≤ 256) ∧ 1 ≤ 256 ∧ 256 ≤ 256 := by decide

theorem witness_KeystreamXor : 1 < [(1 : Byte), 2].length := by decide

/-- The longest message with an IV, and the longest buffer without. -/
theorem witness_CryptEncode : (State.blank small).busy = false ∧ (true = true → (253 : Byte).toNat ≤ 253)
    ∧ (false = true → (255 : Byte).toNat ≤ 253) := by decide

/-- The shortest buffer with an IV, and the empty one without. -/
theorem witness_CryptDecode : (State.blank small).busy = false ∧ (true = true → 1 ≤ (1 : Byte).toNat)
    ∧ (false = true → 1 ≤ (0 : Byte).toNat) := by decide

/-- The empty message and the longest, with an IV; without one. -/
theorem witness_CipherRoundTrip : (State.blank small).busy = false ∧ (0 : Byte).toNat ≤ 253 ∧ (253 : Byte).toNat ≤ 253
    ∧ (∃ t, exec (.crypt true false 0) (State.blank small) = .next t ∧ decide (t.time = 0) = true)
    ∧ (∃ t, exec (.crypt true false 253) (State.blank small) = .next t ∧ decide (t.time = 0) = true)
    ∧ ∃ t, exec (.crypt false true 3) (State.blank small) = .next t ∧ decide (t.time = 0) = true :=
  ⟨rfl, by decide, by decide, exists_next (by decide +kernel), exists_next (by decide +kernel), exists_next (by decide +kernel)⟩

theorem witness_GenIv : (State.blank small).busy = false ∧ (253 : Byte).toNat ≤ 253 := by decide

/-- The first slot, and the last one behind a taken slot; the longest payload. -/
theorem witness_Enqueue :
    (let s := State.blank small
     s.busy = false ∧ (8 : Byte).toNat ≤ maxPayload s.cfg.val ∧ s.slots.length = s.cfg.val.maxPackets ∧ 0 < s.slots.length
       ∧ (s.slot 0).state = .empty ∧ ∀ j, j < 0 → (s.slot j).state ≠ .empty)
    ∧ (let s := { State.blank small with slots := [entry12, Slot.blank] }
       s.slots.length = s.cfg.val.maxPackets ∧ 1 < s.slots.length ∧ (s.slot 1).state = .empty
         ∧ ∀ j, j < 1 → (s.slot j).state ≠ .empty) := by decide +kernel

/-- One byte too many; a full queue with the longest payload. -/
theorem witness_EnqueueFails :
    (State.blank small).busy = false ∧ maxPayload (State.blank small).cfg.val < (9 : Byte).toNat
    ∧ (let s := { State.blank small with slots := [entry12, entry12] }
       s.busy = false ∧ (8 : Byte).toNat ≤ maxPayload s.cfg.val ∧ ∀ q ∈ s.slots, q.state ≠ .empty) := by decide +kernel

theorem witness_Remove : (State.blank small).busy = false ∧ (1 : Byte).toNat < (State.blank small).cfg.val.maxPackets
    ∧ (State.blank small).slots.length = (State.blank small).cfg.val.maxPackets := by decide +kernel

/-- The least sum that never fires; the greatest value of `attempts` between commands. -/
theorem witness_DueTest : 2 ^ 32 - 1 ≤ ({ entry12 with repeatInterval := 0xFFFFFFFE, attempts := 1 } : Slot).repeatInterval.toNat
    + ({ entry12 with repeatInterval := 0xFFFFFFFE, attempts := 1 } : Slot).attempts.toNat ^ 2
    ∧ ({ entry12 with attempts := 254 } : Slot).attempts.toNat ≤ 254 := by decide

/-- `attempts` below the ceiling, at it, and at the last value the slot field can be counted up from. -/
theorem witness_OutcomeTable : ∀ n : Byte, n = 0 ∨ n = 1 ∨ n = 254 →
    let s := { State.blank small with slots := [Slot.blank, { entry12 with attempts := n }] }
    1 < s.slots.length ∧ (s.slot 1).attempts.toNat < 255
      ∧ ((n = 0 → (s.slot 1).attempts.toNat + 1 ≤ s.cfg.val.maxAttempts)
        ∧ (n ≠ 0 → s.cfg.val.maxAttempts < (s.slot 1).attempts.toNat + 1)) := by
  rintro n (rfl | rfl | rfl) <;> decide +kernel

/-- An entry at the last moment at which it is not due, and an empty slot. -/
theorem witness_TickNothingDue :
    let s := { State.blank small with slots := [{ entry12 with repeatInterval := 1000 }, Slot.blank] }
    s.busy = false ∧ ∀ k, k < s.cfg.val.maxPackets → (s.slot k).state = .empty ∨ s.due (s.slot k) = false := by decide +kernel

/-- A due entry and one that is not due at its visit. -/
theorem witness_TickScan :
    let s := { State.blank small with slots := [entry12, { entry12 with repeatInterval := 5000 }] }
    s.ready = true ∧ (s.slot 0).state ≠ .empty ∧ s.due (s.slot 0) = true ∧ s.due (s.slot 1) = false := by decide +kernel

/-- An entry that is live and not due at a visit with the clock up to 2000. -/
def waiting : Slot := { entry12 with repeatInterval := 2000 }

/-- The last slot behind one that is not due, as a broadcast, due for the first moment; the first slot before one that is not
due, on a simplex link. -/
theorem witness_TickDelivers :
    (let s := { State.blank small with slots := [waiting, { entry12 with destination := 124, repeatInterval := 999 }] }
     s.ready = true ∧ s.slots.length = s.cfg.val.maxPackets ∧ 1 < s.slots.length ∧ s.channelClear
       ∧ (s.slot 1).destination = 124
       ∧ s.onlyDue 1 (frameTicks s.cfg.val (s.frameFor (s.slot 1).destination (s.readBytes (.pay 1) (s.slot 1).length.toNat))))
    ∧ (let s := { State.blank smallSimplex with slots := [entry12, waiting] }
       s.ready = true ∧ s.slots.length = s.cfg.val.maxPackets ∧ 0 < s.slots.length ∧ s.channelClear
         ∧ s.cfg.val.simplex = true
         ∧ s.onlyDue 0 (frameTicks s.cfg.val (s.frameFor (s.slot 0).destination (s.readBytes (.pay 0) (s.slot 0).length.toNat)))) := by
  unfold State.channelClear
  exact ⟨⟨by decide, by decide, by decide, by decide, by decide,
      last_onlyDue _ rfl (by decide) (by decide +kernel) (.inr (by decide +kernel))⟩,
    by decide, by decide, by decide, by decide, by decide,
    first_onlyDue _ rfl (by decide) (by decide +kernel) (.inr (by decide +kernel))⟩

/-- Below the ceiling and at it; before an entry that is not due. -/
theorem witness_TickFails : ∀ n : Byte, n = 0 ∨ n = 1 →
    let s := { State.blank small with slots := [{ entry12 with attempts := n }, waiting] }
    let sent := frameTicks s.cfg.val (s.frameFor (s.slot 0).destination (s.readBytes (.pay 0) (s.slot 0).length.toNat))
    s.ready = true ∧ s.slots.length = s.cfg.val.maxPackets ∧ 0 < s.slots.length ∧ s.channelClear ∧ (s.slot 0).destination ≠ 124
      ∧ s.cfg.val.simplex = false ∧ (s.slot 0).attempts.toNat ≤ s.cfg.val.maxAttempts
      ∧ s.onlyDue 0 (sent + (s.cfg.val.bitSpacer + s.cfg.val.bitWidth))
      ∧ s.quietLine (s.time + sent) (s.cfg.val.bitSpacer + s.cfg.val.bitWidth)
      ∧ ((n = 0 → (s.slot 0).attempts.toNat + 1 ≤ s.cfg.val.maxAttempts)
        ∧ (n = 1 → s.cfg.val.maxAttempts < (s.slot 0).attempts.toNat + 1)) := by
  unfold State.channelClear
  rintro n (rfl | rfl) <;> exact ⟨by decide, by decide, by decide, by decide, by decide, by decide, by decide,
    first_onlyDue _ rfl (by decide) (by decide +kernel) (.inr (by decide +kernel)), fun _ _ => rfl, by decide, by decide⟩

/-- A channel that is not clear; an answer of 21 behind the frame of four symbols; each behind an entry that is not due. -/
theorem witness_TickLeavesArmed :
    (let s := { State.blank smallCa with slots := [waiting, entry12], line := ⟨[], true⟩ }
     s.ready = true ∧ s.slots.length = s.cfg.val.maxPackets ∧ 1 < s.slots.length ∧ ¬ s.channelClear
       ∧ s.onlyDue 1 (s.cfg.val.flushUs + 8 * s.cfg.val.bitWidth))
    ∧ (let s := { hears small ((false, 44) :: symbolRuns smallConfig 21) with slots := [waiting, entry12] }
       let sent := frameTicks s.cfg.val (s.frameFor (s.slot 1).destination (s.readBytes (.pay 1) (s.slot 1).length.toNat))
       s.ready = true ∧ s.channelClear ∧ (s.slot 1).destination ≠ 124 ∧ s.cfg.val.simplex = false
         ∧ s.onlyDue 1 (sent + tByte s.cfg.val)
         ∧ s.carries (s.time + sent) (symbolRuns s.cfg.val 21)) := by
  unfold State.channelClear State.carries
  exact ⟨⟨by decide, by decide, by decide, by decide +kernel,
      last_onlyDue _ rfl (by decide) (by decide +kernel) (.inr (by decide +kernel))⟩,
    by decide +kernel, by decide, by decide, by decide,
    last_onlyDue _ rfl (by decide) (by decide +kernel) (.inr (by decide +kernel)), by decide +kernel⟩

end Sys2Proof.Tests
end

/-! SUPPORT. What no step changes (spec/00_scope.md R8, spec/10_state.md R41): a relation between a state and a later one that
every operation of the block and every host action meets, so that a whole step does. -/

namespace Sys2Proof.Machine

/-! ### A later state of the same block in the same environment -/

/-- `t` goes on from `s`: the same configuration and environment, the clock not back, and every record of `s` still there. -/
structure State.GoesOn (s t : State) : Prop where
  cfg : t.cfg = s.cfg
  clock0 : t.clock0 = s.clock0
  line : t.line = s.line
  hearsSelf : t.hearsSelf = s.hearsSelf
  time : s.time ≤ t.time
  events : s.events <+: t.events
  reads : s.reads <+: t.reads
  pins : ∀ τ, τ < s.time → t.pinsDuring τ = s.pinsDuring τ

/-- What an operation without ticks leaves alone, the two growing records apart. -/
def State.setting (s : State) : Cfg × Word × Wave × Bool × Nat × List PinRun :=
  (s.cfg, s.clock0, s.line, s.hearsSelf, s.time, s.trace)

theorem State.setting_eq {s t : State} (h : t.setting = s.setting) :
    t.cfg = s.cfg ∧ t.clock0 = s.clock0 ∧ t.line = s.line ∧ t.hearsSelf = s.hearsSelf ∧ t.time = s.time ∧ t.trace = s.trace := by
  simpa only [State.setting, Prod.mk.injEq] using h

/-- New ticks at the end of the trace hide none of the earlier ones. -/
theorem State.pinsDuring_of_pushRun {s t : State} {p : Pins} {d τ : Nat} (hd : t.time = s.time + d)
    (htr : t.trace = pushRun p d s.trace) (hτ : τ < s.time) : t.pinsDuring τ = s.pinsDuring τ := by
  have hearlier : ¬ s.time + d - 1 - τ < d := by omega
  have hback : s.time + d - 1 - τ - d = s.time - 1 - τ := by omega
  simp [State.pinsDuring, hd, htr, pinsBack_pushRun, hearlier, hback, hτ, Nat.lt_add_right d hτ]

namespace State.GoesOn

variable {s t u : State}

theorem refl (s : State) : s.GoesOn s :=
  ⟨rfl, rfl, rfl, rfl, le_refl _, List.prefix_rfl, List.prefix_rfl, fun _ _ => rfl⟩

theorem trans (h : s.GoesOn t) (h' : t.GoesOn u) : s.GoesOn u where
  cfg := h'.cfg.trans h.cfg
  clock0 := h'.clock0.trans h.clock0
  line := h'.line.trans h.line
  hearsSelf := h'.hearsSelf.trans h.hearsSelf
  time := h.time.trans h'.time
  events := h.events.trans h'.events
  reads := h.reads.trans h'.reads
  pins τ hτ := (h'.pins τ (hτ.trans_le h.time)).trans (h.pins τ hτ)

/-- An operation without ticks, which may record events and reads. -/
theorem of_setting (h : t.setting = s.setting) (he : s.events <+: t.events) (hr : s.reads <+: t.reads) : s.GoesOn t := by
  obtain ⟨hcfg, hclock, hline, hself, htime, htrace⟩ := State.setting_eq h
  exact ⟨hcfg, hclock, hline, hself, htime.ge, he, hr,
    fun τ => State.pinsDuring_of_pushRun (p := s.pins) (d := 0) htime (by rw [htrace, pushRun_zero])⟩

/-- An operation without ticks that records nothing. -/
theorem of_silent (h : t.setting = s.setting) (he : t.events = s.events) (hr : t.reads = s.reads) : s.GoesOn t :=
  of_setting h (he ▸ List.prefix_rfl) (hr ▸ List.prefix_rfl)

/-! ### Each operation goes on from the state it begins in -/

theorem pass (s : State) (d : Nat) : s.GoesOn (s.pass d) :=
  ⟨rfl, rfl, rfl, rfl, Nat.le_add_right _ _, List.prefix_rfl, List.prefix_rfl,
    fun _ => State.pinsDuring_of_pushRun rfl rfl⟩

theorem withHost (s : State) (acts : List HostAct) : s.GoesOn (s.withHost acts) := of_silent rfl rfl rfl

theorem refuse (s : State) : s.GoesOn s.refuse := of_silent rfl rfl rfl

theorem busRead (s : State) (a : BusAddr) : s.GoesOn (s.busRead a) :=
  of_setting rfl List.prefix_rfl (List.prefix_append _ _)

theorem setByte (s : State) (l : Loc) (v : Byte) : s.GoesOn (s.setByte l v) :=
  of_silent (by simp [State.setting]) (by simp) (by simp)

theorem accept (s : State) (i : Instr) : s.GoesOn (s.accept i) := of_silent rfl rfl rfl

theorem finish (s : State) (r : Word) : s.GoesOn (s.finish r) := of_silent rfl rfl rfl

/-- Over a reset the clock and the records go on: the hold adds its ticks to the trace and its reads to the reads. -/
theorem resetPin (s : State) (held : Nat) : s.GoesOn (s.resetPin held) := by
  have hheld := s.underReset_held held
  obtain ⟨made, hmade, _⟩ := hheld.answers
  have htime : s.time ≤ (s.resetPin held).time := hheld.start
  exact ⟨rfl, rfl, rfl, rfl, htime, List.prefix_rfl, ⟨made, hmade.symm⟩,
    fun _ => State.pinsDuring_of_pushRun (Nat.add_sub_cancel' htime).symm (s.resetPin_trace held)⟩

/-- Whatever a command writes, and whatever the host does meanwhile, goes on from the state the command began in. -/
theorem free (s : State) : Free s.GoesOn where
  pass t d h := h.trans (.pass t d)
  host t acts h := h.trans (.withHost t acts)
  status _ _ h := h.trans (.of_silent rfl rfl rfl)
  refuse t h := h.trans (.refuse t)
  read t a h := h.trans (.busRead t a)
  lineO _ _ h := h.trans (.of_silent rfl rfl rfl)
  lineOe _ _ h := h.trans (.of_silent rfl rfl rfl)
  works _ _ h := h.trans (.of_silent rfl rfl rfl)
  byte t l v h := h.trans (.setByte t l v)
  slot _ _ _ h := h.trans (.of_silent rfl rfl rfl)
  event _ _ h := h.trans (.of_setting rfl (List.prefix_append _ _) List.prefix_rfl)
  error _ _ _ h := h.trans (.of_setting rfl (List.prefix_append _ _) List.prefix_rfl)

/-! ### Host actions and steps -/

theorem writeReg (s : State) (r : Reg) (v : Word) : s.GoesOn (s.writeReg r v) := by
  unfold State.writeReg
  split
  · exact .of_silent rfl rfl rfl
  · exact (free s).status s v (.refl s)
  · exact .setByte s _ _
  · exact .refl s

theorem hostWrite (s : State) (a : BusAddr) (v : Word) : s.GoesOn (s.hostWrite a v) := by
  unfold State.hostWrite
  split
  · exact (free s).busyWrite s a v (.refl s)
  · split
    · exact .writeReg s _ v
    · exact .refl s

/-- A command is refused, or ends in `finish`, or in the reset that cuts it off. -/
theorem of_exec {i : Instr} (h : exec i s = .next t) : s.GoesOn t := by
  rcases (free s).exec (fun _ _ => .accept s i) h with ⟨_, rfl⟩ | ⟨_, _, u, hu, ⟨r, rfl⟩ | ⟨held, rfl⟩⟩
  · exact .refuse s
  · exact hu.trans (.finish u r)
  · exact hu.trans (.resetPin u held)

theorem of_command {w : Word} (h : command w s = .next t) : s.GoesOn t := by
  unfold command at h
  split at h
  · exact .of_exec h
  · cases h
    exact .refuse s

theorem of_perform {op : BusOp} (h : perform op s = .next t) : s.GoesOn t := by
  cases op with
  | wr a v =>
    simp only [perform] at h
    split at h
    · exact .of_command h
    · cases h
      exact .hostWrite s a v
  | rd a =>
    cases h
    exact .busRead s a
  | rst held =>
    cases h
    exact .resetPin s held

theorem of_step (h : step s = .next t) : s.GoesOn t := by
  unfold step at h
  split at h
  · cases h
    exact .pass s 1
  · split at h
    · exact (withHost s _).trans (.of_perform h)
    · cases h
      exact (withHost s _).trans (.pass _ _)
    · split at h
      · cases h
        exact .pass s _
      · exact (withHost s _).trans (.of_perform h)

/-- The clock input goes on by one per tick, modulo 2^32 (R41). -/
theorem now (h : s.GoesOn t) : t.now = s.now + BitVec.ofNat 32 (t.time - s.time) := by
  rw [State.now, State.now, h.clock0, BitVec.add_assoc, ← BitVec.ofNat_add, Nat.add_sub_cancel' h.time]

end State.GoesOn

/-- Settles O18: every part of a step goes on from where it begins, the hold of a reset included. -/
theorem stepKeepsEnvironment : Obligations.StepKeepsEnvironment := fun _ _ hstep =>
  have h := State.GoesOn.of_step hstep
  ⟨h.cfg, h.clock0, h.line, h.hearsSelf, h.time, h.now, h.events, h.reads, h.pins⟩

end Sys2Proof.Machine

/-! SUPPORT. The invariant of the machine (spec/10_state.md R37): what of it stands while a command runs (all but that the block is
idle), that every operation of the block keeps that part, and that the end of a command and a reset make the whole of it. -/

namespace Sys2Proof.Machine

/-! ### What stands during a command -/

/-- The buffer is in canonical form inside its capacity. -/
structure Memory.Fits (m : Memory) (cap : Nat) : Prop where
  wf : m.wf = true
  within : m.within cap = true

theorem Memory.Fits.nil (cap : Nat) : Memory.Fits [] cap := ⟨rfl, rfl⟩

theorem Memory.Fits.write {m : Memory} {cap i : Nat} (h : m.Fits cap) (hi : i < cap) (v : Byte) : (m.write i v).Fits cap :=
  ⟨m.wf_write i v h.wf, Memory.within_write cap m v hi h.within⟩

/-- The invariant but for `BUSY`, in a block with configuration `c` whose length operand `B` is `b`. -/
structure State.Sound (c : Cfg) (b : Byte) (s : State) : Prop where
  cfg : s.cfg = c
  regB : s.regB = b
  count : s.slots.length = c.val.maxPackets
  slots : ∀ q ∈ s.slots, q.ok c.val = true
  tx : s.txbuf.Fits txCapacity
  rx : s.rxbuf.Fits c.val.maxFrameLen
  fb : s.fbuf.Fits (fbCapacity c.val)
  sb : s.sbox.Fits c.val.encStrength
  trace : traceTicks s.trace = s.time
  released : s.released ≤ s.time

/-- The invariant between two steps is that part of it, and an idle block. -/
theorem State.inv_iff {s : State} : s.inv = true ↔ s.busy = false ∧ s.Sound s.cfg s.regB := by
  simp only [State.inv, State.slotsOk, State.buffersOk, State.timeOk, Bool.and_eq_true, Bool.not_eq_true', decide_eq_true_eq,
    List.all_eq_true, and_assoc]
  constructor
  · rintro ⟨idle, count, slots, tx, tx', rx, rx', fb, fb', sb, sb', trace, released⟩
    exact ⟨idle, rfl, rfl, count, slots, ⟨tx, tx'⟩, ⟨rx, rx'⟩, ⟨fb, fb'⟩, ⟨sb, sb'⟩, trace, released⟩
  · rintro ⟨idle, h⟩
    exact ⟨idle, h.count, h.slots, h.tx.wf, h.tx.within, h.rx.wf, h.rx.within, h.fb.wf, h.fb.within, h.sb.wf, h.sb.within,
      h.trace, h.released⟩

/-! ### Slots -/

theorem Slot.ok_iff {c : Config} {q : Slot} : q.ok c = true ↔
    (q.state = .empty → q.destination = 0 ∧ q.length = 0 ∧ q.attempts = 0 ∧ q.registeredAt = 0 ∧ q.repeatInterval = 0)
    ∧ q.state ≠ .delivered ∧ q.length.toNat ≤ maxPayload c ∧ q.attempts.toNat ≤ c.maxAttempts
    ∧ q.payload.Fits (maxPayload c) := by
  simp only [Slot.ok, Bool.and_eq_true, decide_eq_true_eq, and_assoc]
  constructor
  · rintro ⟨empty, live, len, att, wf, within⟩
    exact ⟨empty, live, len, att, wf, within⟩
  · rintro ⟨empty, live, len, att, wf, within⟩
    exact ⟨empty, live, len, att, wf, within⟩

/-- A slot at its reset values, whatever payload bytes were left in it (R235). -/
theorem Slot.ok_clear {c : Config} {q : Slot} (h : q.payload.Fits (maxPayload c)) : q.clear.ok c = true :=
  Slot.ok_iff.2 ⟨fun _ => ⟨rfl, rfl, rfl, rfl, rfl⟩, nofun, Nat.zero_le _, Nat.zero_le _, h⟩

theorem Slot.ok_blank (c : Config) : Slot.blank.ok c = true := Slot.ok_clear (q := Slot.blank) (.nil _)

/-- A slot with an entry. -/
theorem Slot.ok_entry {c : Config} {q : Slot} (he : q.state ≠ .empty) (hd : q.state ≠ .delivered)
    (hlen : q.length.toNat ≤ maxPayload c) (hatt : q.attempts.toNat ≤ c.maxAttempts) (hpay : q.payload.Fits (maxPayload c)) :
    q.ok c = true :=
  Slot.ok_iff.2 ⟨fun e => absurd e he, hd, hlen, hatt, hpay⟩

theorem Slot.ok_payload_write {c : Config} {q : Slot} {i : Nat} (hi : i < maxPayload c) (v : Byte) (h : q.ok c = true) :
    Slot.ok c { q with payload := q.payload.write i v } = true := by
  obtain ⟨empty, live, len, att, pay⟩ := Slot.ok_iff.1 h
  exact Slot.ok_iff.2 ⟨empty, live, len, att, pay.write hi v⟩

/-- What the queue operations make of a slot is a slot as between commands. -/
theorem Slot.ok_rules (c : Cfg) : SlotRules c fun q => q.ok c.val = true where
  clear q h := by
    obtain ⟨-, -, -, -, pay⟩ := Slot.ok_iff.1 h
    exact Slot.ok_clear pay
  rearm q now h := by
    obtain ⟨-, -, len, -, pay⟩ := Slot.ok_iff.1 h
    exact Slot.ok_entry nofun nofun len (Nat.zero_le _) pay
  fill q dest len interval now hlen _ h := by
    obtain ⟨-, -, -, att, pay⟩ := Slot.ok_iff.1 h
    exact Slot.ok_entry nofun nofun hlen att pay
  state q st he hd h := by
    obtain ⟨-, -, len, att, pay⟩ := Slot.ok_iff.1 h
    exact Slot.ok_entry he hd len att pay
  fail q hatt h := by
    obtain ⟨-, -, len, -, pay⟩ := Slot.ok_iff.1 h
    exact Slot.ok_entry nofun nofun len hatt pay
  len q h := by
    obtain ⟨-, -, len, -, -⟩ := Slot.ok_iff.1 h
    exact len

namespace State.Sound

variable {c : Cfg} {b : Byte} {s : State}

theorem slot_ok (h : s.Sound c b) (k : Nat) : (s.slot k).ok c.val = true := by
  rw [State.slot, List.getD_eq_getElem?_getD]
  cases hk : s.slots[k]? with
  | none => exact Slot.ok_blank c.val
  | some q => exact h.slots q (List.mem_of_getElem? hk)

/-! ### Every operation of the block keeps it -/

theorem pass (h : s.Sound c b) (d : Nat) : (s.pass d).Sound c b :=
  { h with
    trace := by rw [State.pass_trace, traceTicks_pushRun, h.trace, State.pass_time]
    released := h.released.trans (Nat.le_add_right _ _) }

theorem setSlot (h : s.Sound c b) (k : Nat) {q : Slot} (hq : q.ok c.val = true) : (s.setSlot k q).Sound c b :=
  { h with
    count := (s.slots_length_setSlot k q).trans h.count
    slots := fun q' hq' => (List.mem_or_eq_of_mem_set hq').elim (h.slots q') fun e => e ▸ hq }

theorem setByte_pay (h : s.Sound c b) (k : Nat) {i : Nat} (hi : i < maxPayload c.val) (v : Byte) :
    (s.setByte (.pay k i) v).Sound c b :=
  h.setSlot k (Slot.ok_payload_write hi v (h.slot_ok k))

theorem setByte_tx (h : s.Sound c b) {i : Nat} (hi : i < txCapacity) (v : Byte) : (s.setByte (.tx i) v).Sound c b :=
  { h with tx := h.tx.write hi v }

/-- Ticks, host transactions, the pins and the working registers, and what the cipher and a transmission write. -/
theorem sendStable (c : Cfg) (b : Byte) : SendStable c (State.Sound c b) where
  pass _ d h := h.pass d
  host _ _ h := { h with }
  status _ _ h := { h with }
  refuse _ h := { h with }
  read _ _ h := { h with }
  lineO _ _ h := { h with }
  lineOe _ _ h := { h with }
  work _ _ _ h := { h with }
  works _ _ h := { h with }
  cfg _ h := h.cfg
  sb _ _ v hi h := { h with sb := h.sb.write hi v }
  fb _ _ v hi h := { h with fb := h.fb.write hi v }

/-- What a reception writes. -/
theorem receiveStable (c : Cfg) (b : Byte) : ReceiveStable c (State.Sound c b) where
  toCipherStable := (sendStable c b).toCipherStable
  rx _ _ v hi h := { h with rx := h.rx.write hi v }
  event _ _ h := { h with }

/-- What the queue operations write. -/
theorem queueStable (c : Cfg) (b : Byte) : QueueStable c (fun q => q.ok c.val = true) (State.Sound c b) where
  toSendStable := sendStable c b
  rules := Slot.ok_rules c
  good _ k h := h.slot_ok k
  slot _ k _ hq h := h.setSlot k hq
  count _ h := h.count
  error _ _ _ h := { h with }
  pay _ k _ v hi h := h.setByte_pay k hi v

/-! ### Every command keeps it -/

/-- The bytes of `TXBUF` that a length operand can name, an IV byte behind them included, are inside the buffer. -/
theorem crypt_tx {E : Prop} (n : Byte) (ivf side : Bool) : Keeps E (State.Sound c b) (crypt .tx n.toNat ivf side) := by
  refine ((sendStable c b).crypt n.toNat ivf side fun s i v hi h => h.setByte_tx ?_ v).mono (fun _ => id) (fun _ _ h => h.1)
    fun _ => id
  have hn := n.isLt
  have hivf := ivf.toNat_le
  simp only [txCapacity]
  split at hi <;> omega

/-- The length operand that a command reads is the value of `B`. -/
theorem look_opLen {α : Type} {E : Prop} {f : Nat → Cmd α} (hf : Keeps E (State.Sound c b) (f b.toNat)) :
    Keeps E (State.Sound c b) (look State.opLen >>= f) := by
  intro u hu
  rw [Cmd.bind_apply, look_apply, Cmd.andThen_ok, State.opLen, hu.regB]
  exact hf u hu

/-- What a command leaves: a refusal, or its end, or the reset that cuts it off, each of a sound state. -/
theorem of_exec {i : Instr} {t : State} (h : (s.accept i).Sound c b) (he : exec i s = .next t) :
    t = s.refuse ∨ ∃ u : State, u.Sound c b ∧ ((∃ r, t = u.finish r) ∨ ∃ held, t = u.resetPin held) := by
  by_cases hl : legalOperands s.cfg.val i = true
  swap
  · rw [exec_refused (.inr (Bool.eq_false_of_not_eq_true hl))] at he
    cases he
    exact .inl rfl
  have keeps {body : Cmd Word} (hk : Keeps True (State.Sound c b) body) (he : issue i body s = .next t) :=
    (issue_keeps hk (fun _ _ => h) he).imp And.right fun hr => hr.2.2
  have send := sendStable c b
  have bit := send.toBitStable
  have receive := receiveStable c b
  have queue := queueStable c b
  cases i <;> simp only [exec] at he <;> refine keeps ?_ he
  case sendBit => exact .bind (.look _) fun _ => .bind (.look _) fun _ => .bind (bit.sendBit _ _) fun _ => .pure _
  case sampleBit => exact .bind (.look _) fun _ => .bind (bit.sampleBit _) fun _ => .pure _
  case sendByte => exact .bind (.look _) fun _ => .bind (bit.sendByte _) fun _ => .pure _
  case readByte => exact .bind bit.readByte fun _ => .pure _
  case receiveByte => exact .bind bit.receiveByte fun _ => .pure _
  case canStart => exact .bind bit.canStart fun _ => .pure _
  case sendFrame dest len =>
    have hb : b.toNat ≤ maxPayload c.val := by
      rw [← h.regB, ← h.cfg]
      exact of_decide_eq_true hl
    exact .bind (.look _) fun _ => look_opLen (.bind (send.sendFrame _ .tx hb) fun _ => .pure _)
  case receiveFrame => exact .bind receive.receiveFrame fun _ => .pure _
  case receiveFrameT => exact .bind (.look _) fun _ => .bind (receive.receiveFrameT trivial _) fun _ => .pure _
  case crypt => exact look_opLen (.bind (.look _) fun _ => .bind (.look _) fun _ => .bind (crypt_tx b _ _) fun _ => .pure _)
  case genIv => exact .bind (.look _) fun _ => .bind (.look _) fun _ => .bind (send.setWork _) fun _ => .pure _
  case enqueue => exact .bind (.look _) fun _ => .bind (.look _) fun _ => .bind (.look _) fun _ => queue.enqueue _ _ _
  case tick => exact .bind queue.tick fun _ => .pure _
  case remove => exact .bind (.look _) fun _ => .bind (queue.removeSlot _) fun _ => .pure _

end State.Sound

/-! ### The invariant at reset, and what keeps it between two steps -/

/-- The reset values have the invariant (R43), however long the environment has run before the release. -/
theorem State.sound_blank (c : Cfg) : (State.blank c).Sound c 0 where
  cfg := rfl
  regB := rfl
  count := List.length_replicate
  slots _ hq := (List.eq_of_mem_replicate hq) ▸ Slot.ok_blank c.val
  tx := .nil _
  rx := .nil _
  fb := .nil _
  sb := .nil _
  trace := rfl
  released := le_rfl

theorem State.inv_blank (c : Cfg) : (State.blank c).inv = true := State.inv_iff.2 ⟨rfl, State.sound_blank c⟩

namespace State.Sound

variable {c : Cfg} {b : Byte} {s t : State}

/-- The end of a command leaves an idle block. -/
theorem inv_finish (h : s.Sound c b) (r : Word) : (s.finish r).inv = true := by
  obtain rfl := h.cfg
  obtain rfl := h.regB
  exact State.inv_iff.2 ⟨rfl, { h with }⟩

/-- A reset leaves the reset values, behind a trace that covers its hold. -/
theorem inv_resetPin (h : s.Sound c b) (held : Nat) : (s.resetPin held).inv = true := by
  have htrace := s.resetPin_traceTicks held h.trace
  exact State.inv_iff.2 ⟨rfl, { State.sound_blank s.cfg with trace := htrace, released := le_rfl }⟩

end State.Sound

section

variable {s t : State}

/-- What changes neither `BUSY`, the configuration nor `B` keeps the invariant with the rest of it. -/
theorem State.inv_of_sound (hs : s.inv = true) (hbusy : t.busy = s.busy)
    (h : s.Sound s.cfg s.regB → t.Sound s.cfg s.regB) : t.inv = true := by
  obtain ⟨idle, sound⟩ := State.inv_iff.1 hs
  have ht := h sound
  exact State.inv_iff.2 ⟨hbusy.trans idle, by rw [ht.cfg, ht.regB]; exact ht⟩

theorem State.inv_pass (hs : s.inv = true) (d : Nat) : (s.pass d).inv = true := State.inv_of_sound hs rfl (·.pass d)

theorem State.inv_withHost (hs : s.inv = true) (acts : List HostAct) : (s.withHost acts).inv = true :=
  State.inv_of_sound hs rfl fun h => { h with }

theorem State.inv_refuse (hs : s.inv = true) : s.refuse.inv = true := State.inv_of_sound hs rfl fun h => { h with }

theorem State.inv_busRead (hs : s.inv = true) (a : BusAddr) : (s.busRead a).inv = true :=
  State.inv_of_sound hs rfl fun h => { h with }

/-- A host write reaches `ARG`, the flags and `TXBUF` only, the last inside its window (R70). -/
theorem State.inv_hostWrite (hs : s.inv = true) (a : BusAddr) (v : Word) : (s.hostWrite a v).inv = true := by
  have idle := (State.inv_iff.1 hs).1
  simp only [State.hostWrite, idle, Bool.false_eq_true, if_false]
  cases hr : regOf s.cfg.val a with
  | none => exact hs
  | some r =>
    cases r with
    | arg => exact State.inv_of_sound hs rfl fun h => { h with }
    | status => exact State.inv_of_sound hs rfl fun h => { h with }
    | txbuf i => exact State.inv_of_sound hs rfl (·.setByte_tx (regOf_txbuf hr) _)
    | _ => exact hs

theorem State.inv_of_exec {i : Instr} (hs : s.inv = true) (h : exec i s = .next t) : t.inv = true := by
  have sound := (State.inv_iff.1 hs).2
  have accepted : (s.accept i).Sound s.cfg (fieldB i) := { sound with regB := rfl }
  rcases accepted.of_exec h with rfl | ⟨u, hu, ⟨r, rfl⟩ | ⟨held, rfl⟩⟩
  · exact State.inv_refuse hs
  · exact hu.inv_finish r
  · exact hu.inv_resetPin held

theorem State.inv_of_perform {op : BusOp} (hs : s.inv = true) (h : perform op s = .next t) : t.inv = true := by
  cases op with
  | wr a v =>
    simp only [perform, command] at h
    split at h
    · split at h
      · exact State.inv_of_exec hs h
      · cases h
        exact State.inv_refuse hs
    · cases h
      exact State.inv_hostWrite hs a v
  | rd a =>
    cases h
    exact State.inv_busRead hs a
  | rst held =>
    cases h
    exact (State.inv_iff.1 hs).2.inv_resetPin held

/-- A step lets ticks pass, with the host's list as it stands or its next action waited for, or makes a host action. -/
theorem step_cases (h : step s = .next t) :
    (∃ acts d, t = (s.withHost acts).pass d) ∨ ∃ op rest, perform op (s.withHost rest) = .next t := by
  unfold step at h
  split at h
  · exact .inl ⟨s.host, 1, by injection h with h; exact h.symm⟩
  · split at h
    · exact .inr ⟨_, _, h⟩
    · exact .inl ⟨_, _, by injection h with h; exact h.symm⟩
    · split at h
      · exact .inl ⟨s.host, _, by injection h with h; exact h.symm⟩
      · exact .inr ⟨_, _, h⟩

end

/-- Settles O17: a step lets ticks pass or makes a host action; of a command, what its operations keep is all of the invariant but
the idle block, and its end or a reset leaves that too. -/
theorem stepKeepsInv : Obligations.StepKeepsInv := by
  intro s t hs h
  rcases step_cases h with ⟨acts, d, rfl⟩ | ⟨op, rest, hop⟩
  · exact State.inv_pass (State.inv_withHost hs acts) d
  · exact State.inv_of_perform (State.inv_withHost hs rest) hop

/-- Settles O16: the reset values meet every clause of the invariant. -/
theorem invAtReset : Obligations.InvAtReset := ⟨State.inv_blank Cfg.example, State.inv_blank⟩

end Sys2Proof.Machine

/-! SUPPORT. The end of a command that no reset cuts off, the flags, idle ticks, and the values that a reset leaves. -/

namespace Sys2Proof.Machine

/-! ### The end of a command -/

/-- The operand registers, and the number of resets. -/
def State.operands (s : State) : Byte × Byte × Word × Nat := (s.regA, s.regB, s.arg, s.resets)

/-- No write of a command, and nothing the host can do during one, changes the operand registers (R22, R66). -/
theorem Free.operands (o : Byte × Byte × Word × Nat) : Free fun u => u.operands = o :=
  .of_eq (fun _ _ => rfl) (fun _ _ => rfl) (fun _ _ => rfl) (fun _ => rfl) (fun _ _ => rfl) (fun _ _ => rfl) (fun _ _ => rfl)
    (fun _ _ => rfl) (fun _ _ _ => by simp [State.operands]) (fun _ _ _ => rfl) (fun _ _ => rfl) (fun _ _ _ => rfl) o

/-- Settles O9: what the command does on its way keeps the operand registers, and its end sets `DONE` and clears `BUSY`. -/
theorem commandEnd : Obligations.CommandEnd := by
  intro i s t idle legal he hresets
  rcases (Free.operands (s.accept i).operands).exec (fun _ _ => rfl) he with
    ⟨refused, -⟩ | ⟨-, -, u, hu, ⟨r, rfl⟩ | ⟨held, rfl⟩⟩
  · simp [idle, legal] at refused
  · simp only [State.operands, Prod.mk.injEq] at hu
    obtain ⟨hA, hB, harg, -⟩ := hu
    exact ⟨rfl, rfl, hA, hB, harg⟩
  · simp only [State.operands, Prod.mk.injEq] at hu
    obtain ⟨-, -, -, hu⟩ := hu
    simp [hu] at hresets

/-! ### The flags -/

theorem flagsWord_toNat : ∀ o oe c e r d b : Bool,
    (0#25 ++ (BitVec.ofBool o ++ (BitVec.ofBool oe ++ (BitVec.ofBool c ++ (BitVec.ofBool e ++
      (BitVec.ofBool r ++ (BitVec.ofBool d ++ BitVec.ofBool b)))))) : Word).toNat
      = b.toNat + 2 * d.toNat + 4 * r.toNat + 8 * e.toNat + 16 * c.toNat + 32 * oe.toNat + 64 * o.toNat := by
  decide

/-- The word `STATUS` reads, as a number (R31). -/
theorem State.statusWord_toNat (s : State) :
    s.statusWord.toNat = s.busy.toNat + 2 * s.done.toNat + 4 * s.rxDone.toNat + 8 * s.err.toNat + 16 * s.cmdErr.toNat
      + 32 * s.lineOe.toNat + 64 * s.lineO.toNat :=
  flagsWord_toNat s.lineO s.lineOe s.cmdErr s.err s.rxDone s.done s.busy

/-- The set wins (R31). -/
@[simp] theorem clearFlag_fresh (flag one : Bool) : clearFlag flag true one = flag := by simp [clearFlag]

/-- Once the mark is gone a 1 clears the flag. -/
@[simp] theorem clearFlag_stale (flag : Bool) : clearFlag flag false true = false := by simp [clearFlag]

/-- Settles O21: a refusal marks `CMD_ERR` as fresh, and the first tick takes the mark away. -/
theorem statusFlags : Obligations.StatusFlags := by
  intro s v d
  have set_wins : (s.refuse.writeStatus v).cmdErr = true := by
    rw [State.writeStatus_cmdErr, State.refuse_freshCmd, clearFlag_fresh, State.refuse_cmdErr]
  have cleared : ((s.refuse.pass (d + 1)).writeStatus 0x10).cmdErr = false := by
    rw [State.writeStatus_cmdErr, State.pass_pos _ d.succ_pos, show (0x10 : Word).getLsbD 4 = true from rfl]
    exact clearFlag_stale _
  exact ⟨s.statusWord_toNat, rfl, set_wins, cleared, Bool.or_eq_true_iff⟩

/-! ### Idle ticks -/

/-- Settles O6: each of the three is a passing of at least one tick. -/
theorem idleTicks : Obligations.IdleTicks := by
  intro s
  refine ⟨fun h => ?_, fun d op rest h => ?_, fun tick first op rest h hlt => ?_⟩
  · simp only [step, h, State.pass_pos s Nat.one_pos, State.pins]
  · simp only [step, h, State.pass_pos _ (Nat.succ_pos d)]
    rfl
  · simp only [step, h, if_pos hlt, State.pass_pos s (Nat.sub_pos_of_lt hlt), Nat.add_sub_cancel' hlt.le, State.pins]

/-! ### Reset -/

/-- The state at the release of a reset: the reset values; the configuration, the environment and the records as they may be. -/
def State.AtRelease (t : State) : Prop :=
  ∃ (cfg : Cfg) (clock0 : Word) (time resets : Nat) (line : Wave) (hearsSelf : Bool) (host : List HostAct)
    (trace : List PinRun) (events : List (Nat × Event)) (reads : List BusRead),
    t = { State.blank cfg with
      clock0 := clock0, time := time, released := time, resets := resets, line := line, hearsSelf := hearsSelf, host := host
      trace := trace, events := events, reads := reads }

theorem State.atRelease_blank (c : Cfg) : (State.blank c).AtRelease := ⟨_, _, _, _, _, _, _, _, _, _, rfl⟩

theorem State.atRelease_resetPin (s : State) (held : Nat) : (s.resetPin held).AtRelease := ⟨_, _, _, _, _, _, _, _, _, _, rfl⟩

namespace State.AtRelease

variable {t : State}

theorem slots (h : t.AtRelease) : t.slots = List.replicate t.cfg.val.maxPackets Slot.blank := by
  obtain ⟨_, _, _, _, _, _, _, _, _, _, rfl⟩ := h
  rfl

/-- Every register, flag and pin is 0, and the next tick is tick 0. -/
theorem registers (h : t.AtRelease) :
    t.regA = 0 ∧ t.regB = 0 ∧ t.arg = 0 ∧ t.result = 0 ∧ t.statusWord = 0
    ∧ t.rxLen = 0 ∧ t.rxCount = 0 ∧ t.errKind = 0 ∧ t.errCtx = 0 ∧ t.errCount = 0
    ∧ t.lineO = false ∧ t.lineOe = false ∧ t.irq = false ∧ t.tcur = 0 := by
  obtain ⟨_, _, time, _, _, _, _, _, _, _, rfl⟩ := h
  exact ⟨rfl, rfl, rfl, rfl, BitVec.eq_of_toNat_eq (State.statusWord_toNat _), rfl, rfl, rfl, rfl, rfl, rfl, rfl, rfl,
    Nat.sub_self time⟩

theorem slot (h : t.AtRelease) (k : Nat) : t.slot k = Slot.blank := by
  rw [State.slot, h.slots, List.getD_eq_getElem?_getD, List.getElem?_replicate]
  split <;> rfl

theorem qlive (h : t.AtRelease) : t.qlive = 0 := by
  simp [State.qlive, h.slots, Slot.blank]

/-- No byte of any buffer is written. -/
theorem stored (h : t.AtRelease) (l : Loc) : t.stored l = none := by
  have hslot := h.slot
  obtain ⟨_, _, _, _, _, _, _, _, _, _, rfl⟩ := h
  cases l with
  | pay k i => rw [State.stored, hslot k]; rfl
  | _ => rfl

end State.AtRelease

/-- The pins are 0 in every tick of the hold. -/
theorem State.pinsDuring_resetPin {s : State} {held τ : Nat} (h1 : s.time ≤ τ) (h2 : τ < (s.resetPin held).time) :
    (s.resetPin held).pinsDuring τ = some ⟨false, false⟩ := by
  rw [State.pinsDuring, if_pos h2, State.resetPin_trace, pinsBack_pushRun]
  rw [State.resetPin_time] at h2 ⊢
  exact if_pos (by omega)

/-- The reads of the hold are answered with the reset values. -/
theorem State.resetPin_reads_made (s : State) (held : Nat) :
    ∃ made, (s.resetPin held).reads = s.reads ++ made ∧ ∀ r ∈ made, s.time ≤ r.time ∧ r.time < (s.resetPin held).time
      ∧ r.data = ({ s.resetPin held with time := r.time } : State).hostRead r.addr := by
  obtain ⟨made, hmade, hread⟩ := (s.underReset_held held).answers
  refine ⟨made, hmade, fun r hr => ?_⟩
  obtain ⟨hfrom, hto, hdata⟩ := hread r hr
  exact ⟨hfrom, hto, hdata.trans (State.hostRead_congr rfl r.addr).symm⟩

/-- Settles O15: the hold ends in the reset values (`AtRelease`), and what the host does in it is what `Held` leaves. -/
theorem resetValues : Obligations.ResetValues := by
  refine ⟨rfl, fun s held rest h => step_due h, fun s held => ?_, fun s held tick first op rest hs hin => ?_,
    fun c s held t ht => ?_⟩
  · refine ⟨rfl, s.underReset_lasts held, fun hq => ?_, (State.GoesOn.resetPin s held).pins,
      fun τ => State.pinsDuring_resetPin, (s.underReset_held held).acts, s.resetPin_reads_made held⟩
    rw [State.resetPin_quiet hq]
    exact ⟨rfl, rfl, rfl⟩
  · exact State.resetPin_acts hs hin
  · have h : t.AtRelease := by
      rcases ht with rfl | rfl
      · exact State.atRelease_blank c
      · exact State.atRelease_resetPin s held
    obtain ⟨hA, hB, harg, hres, hstatus, hlen, hrx, hkind, hctx, herr, ho, hoe, hirq, htcur⟩ := h.registers
    refine ⟨hA, hB, harg, hres, hstatus, hlen, hrx, hkind, hctx, herr, ho, hoe, hirq, htcur, h.qlive, ?_, fun q hq => ?_,
      h.stored⟩
    · rw [h.slots, List.length_replicate]
    · rw [h.slots] at hq
      obtain rfl := List.eq_of_mem_replicate hq
      exact ⟨rfl, rfl, rfl, rfl, rfl, rfl⟩

end Sys2Proof.Machine

/-! SUPPORT. The command interface: which command a step runs, and which buffers and registers each command leaves alone
(spec/20_memory.md R61, R62, R65, R78). -/

namespace Sys2Proof.Machine

/-! ### Commands -/

/-- Settles O5: a due write of `CMD` decodes its word, and the bits of a whole word lose nothing. -/
theorem stepRunsCommand : Obligations.StepRunsCommand := by
  intro s w rest i hw
  have due {u : State} {rest : List HostAct} (h : u.dueNext (.wr cmdAddr w) rest) :
      step u = exec i { u with host := rest } := by
    rw [step_due h]
    simp only [perform, if_true, command, hw]
  refine ⟨fun h => due (.inl h), fun tick first h hle => due (.inr ⟨tick, first, h, hle⟩), ?_⟩
  have word : BitVec.ofNat 32 (w.toNat % 2 ^ 32) = w := by
    rw [Nat.mod_eq_of_lt w.isLt, BitVec.ofNat_toNat, BitVec.setWidth_eq]
  exact due (u := s.withFetchWord 32 w.toNat) (.inl (by rw [State.withFetchWord, word]; rfl))

/-! ### Which commands write what -/

/-- A command that no reset cuts off keeps what acceptance, its writes, its end and a refusal all leave alone. -/
theorem exec_keeps {β : Type} {f : State → β} {i : Instr} {s t : State}
    (h : ∀ b, FreeFor (.of i) fun u => f u = b) (accept : f (s.accept i) = f s) (refuse : f s.refuse = f s)
    (finish : ∀ (u : State) (r : Word), f (u.finish r) = f u) (he : exec i s = .next t) (hr : t.resets = s.resets) :
    f t = f s := by
  have both := (h (f s)).and (FreeFor.resets (.of i) s.resets)
  rcases both.exec (fun _ _ => ⟨accept, rfl⟩) he with ⟨-, rfl⟩ | ⟨-, -, u, ⟨hu, hres⟩, ⟨r, rfl⟩ | ⟨held, rfl⟩⟩
  · exact refuse
  · exact (finish u r).trans hu
  · rw [State.resetPin_resets, hres] at hr
    omega

/-- The registers of the receive event. -/
def State.rxRegs (s : State) : Byte × Word := (s.rxLen, s.rxCount)

/-- The registers of the error event. -/
def State.errRegs (s : State) : BitVec 2 × Byte × Word := (s.errKind, s.errCtx, s.errCount)

theorem FreeFor.rxRegs {W : Writes} (he : ¬ W.event) (b : Byte × Word) : FreeFor W fun u => u.rxRegs = b :=
  .of_eq (fun _ _ => rfl) (fun _ _ => rfl) (fun _ _ => rfl) (fun _ => rfl) (fun _ _ => rfl) (fun _ _ => rfl) (fun _ _ => rfl)
    (fun _ _ => rfl) (fun _ _ _ _ => by simp [State.rxRegs]) (fun _ _ _ _ => rfl) (fun _ _ hw => absurd hw he)
    (fun _ _ _ _ => rfl) b

theorem FreeFor.errRegs {W : Writes} (he : ¬ W.error) (b : BitVec 2 × Byte × Word) : FreeFor W fun u => u.errRegs = b :=
  .of_eq (fun _ _ => rfl) (fun _ _ => rfl) (fun _ _ => rfl) (fun _ => rfl) (fun _ _ => rfl) (fun _ _ => rfl) (fun _ _ => rfl)
    (fun _ _ => rfl) (fun _ _ _ _ => by simp [State.errRegs]) (fun _ _ _ _ => rfl) (fun _ _ _ => rfl)
    (fun _ _ _ hw => absurd hw he) b

/-- A byte that is not in a slot's payload store is written without touching the slot file. -/
theorem State.setByte_slots {l : Loc} (h : ∀ k j, l ≠ .pay k j) (v : Byte) (s : State) : (s.setByte l v).slots = s.slots := by
  cases l with
  | pay k j => exact absurd rfl (h k j)
  | _ => rfl

theorem FreeFor.slots {W : Writes} (hb : ∀ k j, ¬ W.byte (.pay k j)) (hs : ¬ W.slot) (b : List Slot) :
    FreeFor W fun u => u.slots = b :=
  .of_eq (fun _ _ => rfl) (fun _ _ => rfl) (fun _ _ => rfl) (fun _ => rfl) (fun _ _ => rfl) (fun _ _ => rfl) (fun _ _ => rfl)
    (fun _ _ => rfl) (fun s _ v hw => s.setByte_slots (by rintro k j rfl; exact hb k j hw) v) (fun _ _ _ hw => absurd hw hs)
    (fun _ _ _ => rfl) (fun _ _ _ _ => rfl) b

/-- Of the commands only `CRYPT` writes `TXBUF`. -/
theorem Writes.of_tx {i : Instr} (h : ∀ ivf side len, i ≠ .crypt ivf side len) (k : Nat) : ¬ (Writes.of i).byte (.tx k) := by
  cases i with
  | crypt ivf side len => exact absurd rfl (h ivf side len)
  | _ => simp [Writes.of, Writes.none, Writes.sending, Writes.receiving]

/-- Only the commands that receive a frame write `RXBUF` and make the receive event. -/
theorem Writes.of_rx {i : Instr} (h : ∀ a b, i ≠ .receiveFrame a b) (hT : ∀ a b, i ≠ .receiveFrameT a b) :
    (∀ k, ¬ (Writes.of i).byte (.rx k)) ∧ ¬ (Writes.of i).event := by
  cases i with
  | receiveFrame a b => exact absurd rfl (h a b)
  | receiveFrameT a b => exact absurd rfl (hT a b)
  | _ => simp [Writes.of, Writes.none, Writes.sending]

/-- Only the queue commands write slots and make the error event. -/
theorem Writes.of_queue {i : Instr} (he : ∀ d n, i ≠ .enqueue d n) (ht : ∀ a b, i ≠ .tick a b)
    (hr : ∀ k b, i ≠ .remove k b) :
    (∀ k j, ¬ (Writes.of i).byte (.pay k j)) ∧ ¬ (Writes.of i).slot ∧ ¬ (Writes.of i).error := by
  cases i with
  | enqueue d n => exact absurd rfl (he d n)
  | tick a b => exact absurd rfl (ht a b)
  | remove k b => exact absurd rfl (hr k b)
  | _ => simp [Writes.of, Writes.none, Writes.sending, Writes.receiving]

/-- A command keeps a byte that it does not write. -/
theorem exec_keeps_byteAt {i : Instr} {s t : State} {l : Loc} (hb : ¬ (Writes.of i).byte l)
    (hs : (∃ k j, l = .pay k j) → ¬ (Writes.of i).slot) (he : exec i s = .next t) (hr : t.resets = s.resets) :
    t.byteAt l = s.byteAt l :=
  exec_keeps (f := fun u => u.byteAt l) (FreeFor.byteAt l hb hs) (by simp) (by simp) (by simp) he hr

/-- Settles O14: each command makes the writes of `Writes.of` only. -/
theorem whoWritesWhat : Obligations.WhoWritesWhat := by
  intro i s t he hr
  refine ⟨fun hc k => ?_, fun hf hT => ?_, fun hq ht hrm => ?_⟩
  · exact exec_keeps_byteAt (Writes.of_tx hc k) nofun he hr
  · obtain ⟨noByte, noEvent⟩ := Writes.of_rx hf hT
    have regs : t.rxRegs = s.rxRegs := exec_keeps (.rxRegs noEvent) rfl rfl (fun _ _ => rfl) he hr
    exact ⟨fun k => exec_keeps_byteAt (noByte k) nofun he hr, Prod.mk.inj regs⟩
  · obtain ⟨noByte, noSlot, noError⟩ := Writes.of_queue hq ht hrm
    have regs : t.errRegs = s.errRegs := exec_keeps (.errRegs noError) rfl rfl (fun _ _ => rfl) he hr
    simp only [State.errRegs, Prod.mk.injEq] at regs
    exact ⟨exec_keeps (.slots noByte noSlot) rfl rfl (fun _ _ => rfl) he hr,
      fun k j => exec_keeps_byteAt (noByte k j) (fun _ => noSlot) he hr, regs⟩

end Sys2Proof.Machine

/-! SUPPORT. What one host action does inside a running command (spec/20_memory.md R65 to R67): for every command beside the run
without the action, and for `SEND_BIT` in full. -/

namespace Sys2Proof.Machine

/-! ### A host action inside a command -/

/-- `u` stands inside a command accepted in `s`, before the host did anything: what no write of a command changes, and `CMD_ERR`
with its fresh mark, which a tick clears. -/
structure State.Inside (s u : State) : Prop where
  busy : u.busy = true
  done : u.done = false
  result : u.result = s.result
  arg : u.arg = s.arg
  cfg : u.cfg = s.cfg
  clock0 : u.clock0 = s.clock0
  reads : u.reads = s.reads
  time : s.time ≤ u.time
  cmdErr : u.cmdErr = s.cmdErr
  freshCmd : u.freshCmd = (s.freshCmd && decide (u.time = s.time))

theorem State.Inside.accept (s : State) (i : Instr) : s.Inside (s.accept i) where
  busy := rfl
  done := rfl
  result := rfl
  arg := rfl
  cfg := rfl
  clock0 := rfl
  reads := rfl
  time := le_rfl
  cmdErr := rfl
  freshCmd := by simp

theorem State.Inside.pass {s u : State} (h : s.Inside u) (d : Nat) : s.Inside (u.pass d) :=
  { h with
    time := h.time.trans (Nat.le_add_right _ _)
    freshCmd := by
      have htime := h.time
      have both : (u.time + d = s.time) ↔ (u.time = s.time ∧ d = 0) := by omega
      simp only [State.pass_freshCmd, State.pass_time, h.freshCmd, both, Bool.decide_and, Bool.and_assoc] }

theorem State.Inside.setByte {s u : State} (h : s.Inside u) (l : Loc) (v : Byte) : s.Inside (u.setByte l v) := by
  cases l <;> exact { h with }

/-- How a run `w` with an action made at `tick` stands to the run `u` without it. Its reads satisfy `A`. `RX_DONE` and `ERR` are
set in `w` only where they are in `u`, and are the same unless the action clears them. `CMD_ERR` is `c`, and its fresh mark is as
in `u` once a tick has passed. Nothing else differs. -/
structure Acted (tick : Nat) (A : List BusRead → Prop) (clearsRx clearsErr c : Bool) (u w : State) : Prop where
  eq : w = { u with reads := w.reads, rxDone := w.rxDone, err := w.err, cmdErr := w.cmdErr, freshCmd := w.freshCmd }
  reads : A w.reads
  cmdErr : w.cmdErr = c
  freshCmd : tick < u.time → w.freshCmd = u.freshCmd
  rx : w.rxDone = true → u.rxDone = true
  rxKept : clearsRx = false → w.rxDone = u.rxDone
  er : w.err = true → u.err = true
  erKept : clearsErr = false → w.err = u.err

section

variable {tick : Nat} {op : BusOp} {A : List BusRead → Prop} {clearsRx clearsErr c : Bool}

theorem Acted.pass {u w : State} (h : Acted tick A clearsRx clearsErr c u w) (d : Nat) :
    Acted tick A clearsRx clearsErr c (u.pass d) (w.pass d) := by
  refine { h with eq := congrArg (State.pass d) h.eq, freshCmd := fun hlt => ?_ }
  rw [State.pass_freshCmd, State.pass_freshCmd]
  obtain rfl | hd := Nat.eq_zero_or_pos d
  · rw [h.freshCmd hlt]
  · simp [hd.ne']

theorem Acted.setByte {u w : State} (h : Acted tick A clearsRx clearsErr c u w) (l : Loc) (v : Byte) :
    Acted tick A clearsRx clearsErr c (u.setByte l v) (w.setByte l v) := by
  have eq := congrArg (State.setByte l v) h.eq
  cases l <;> exact { h with eq := eq }

/-- A host action that a busy block answers as `Acted` says lands in a command. -/
theorem Acted.landing (s : State) (noReset : ∀ held, op ≠ .rst held)
    (made : ∀ u, s.Inside u → u.time = tick → Acted tick A clearsRx clearsErr c u (actBusy op u)) :
    Landing tick op s.Inside fun u w => s.Inside u ∧ Acted tick A clearsRx clearsErr c u w where
  noReset := noReset
  beside u w h := ⟨by rw [h.2.eq]⟩
  host u w h := by rw [h.2.eq]
  made u hu ht := ⟨hu, made u hu ht⟩
  passF u d h := h.pass d
  lineOF _ _ h := { h with }
  lineOeF _ _ h := { h with }
  worksF _ _ h := { h with }
  byteF _ l v h := h.setByte l v
  slotF _ _ _ h := { h with }
  eventF _ _ h := { h with }
  errorF _ _ _ h := { h with }
  pass _ _ d h := ⟨h.1.pass d, h.2.pass d⟩
  lineO _ _ b h := ⟨{ h.1 with }, { h.2 with eq := congrArg (State.withLineO b) h.2.eq }⟩
  lineOe _ _ b h := ⟨{ h.1 with }, { h.2 with eq := congrArg (State.withLineOe b) h.2.eq }⟩
  works _ _ f h := ⟨{ h.1 with }, { h.2 with eq := congrArg (State.withWork f) h.2.eq }⟩
  byte _ _ l v h := ⟨h.1.setByte l v, h.2.setByte l v⟩
  slot _ _ k q h := ⟨{ h.1 with }, { h.2 with eq := congrArg (State.setSlot k q) h.2.eq }⟩
  event _ _ n h := ⟨{ h.1 with }, { h.2 with
    eq := congrArg (State.rxEvent n) h.2.eq, rx := fun _ => rfl, rxKept := fun _ => rfl }⟩
  error _ _ e n h := ⟨{ h.1 with }, { h.2 with
    eq := congrArg (State.errorEvent e n) h.2.eq, er := fun _ => rfl, erKept := fun _ => rfl }⟩

/-- Once a tick has passed after the action the mark of `CMD_ERR` is as it is without it. -/
theorem Acted.eq_after {u w : State} (h : Acted tick A clearsRx clearsErr c u w) (hlt : tick < u.time) :
    w = { u with reads := w.reads, rxDone := w.rxDone, err := w.err, cmdErr := c } := by
  calc w = { u with reads := w.reads, rxDone := w.rxDone, err := w.err, cmdErr := w.cmdErr, freshCmd := w.freshCmd } := h.eq
    _ = _ := by rw [h.freshCmd hlt, h.cmdErr]

/-- An action that clears no flag of the events leaves them as they are without it. -/
theorem Acted.eq_kept {u w : State} (h : Acted tick A false false c u w) (hlt : tick < u.time) :
    w = { u with reads := w.reads, cmdErr := c } := by
  calc w = { u with reads := w.reads, rxDone := w.rxDone, err := w.err, cmdErr := c } := h.eq_after hlt
    _ = _ := by rw [h.rxKept rfl, h.erKept rfl]

/-- A command that takes time was accepted. -/
theorem legal_of_exec {i : Instr} {s t : State} (he : exec i s = .next t) (hlt : s.time < t.time) :
    legalOperands s.cfg.val i = true := by
  by_contra hl
  rw [exec_refused (.inr (Bool.eq_false_of_not_eq_true hl))] at he
  cases he
  exact lt_irrefl _ hlt

/-- One host action that lands inside a command, whichever it is: the command ends, and its end differs from the one without the
action as what a busy block makes of the action does. -/
theorem exec_acted {i : Instr} {s t : State} {first : Bool} (hready : s.ready = true) (he : exec i s = .next t)
    (hle : s.time ≤ tick) (hlt : tick < t.time) (noReset : ∀ held, op ≠ .rst held)
    (made : ∀ u, s.Inside u → u.time = tick → Acted tick A clearsRx clearsErr c u (actBusy op u)) :
    ∃ w, exec i { s with host := ⟨.atTick tick first, op⟩ :: s.host } = .next w
      ∧ Acted tick A clearsRx clearsErr c t w ∧ t.reads = s.reads ∧ t.cmdErr = s.cmdErr := by
  obtain ⟨idle, undisturbed⟩ := State.ready_iff.1 hready
  obtain ⟨v, w, r, ⟨hv, hw⟩, rfl, hexec⟩ := (Acted.landing s noReset made).exec (first := first) idle
    (legal_of_exec he (hle.trans_lt hlt)) undisturbed (.accept s i) hle he hlt
  exact ⟨w.finish r, hexec, { hw with eq := congrArg (State.finish r) hw.eq }, hv.reads, hv.cmdErr⟩

/-- A read is recorded with its answer. -/
theorem State.Inside.acted_read {s u : State} (h : s.Inside u) (ht : u.time = tick) (a : BusAddr) :
    Acted tick (fun l => ∃ v, s.Inside v ∧ v.time = tick ∧ l = s.reads ++ [⟨tick, a, v.hostRead a⟩]) false false s.cmdErr
      u (actBusy (.rd a) u) where
  eq := rfl
  reads := ⟨u, h, ht, by rw [← ht, ← h.reads]; rfl⟩
  cmdErr := h.cmdErr
  freshCmd _ := rfl
  rx := id
  rxKept _ := rfl
  er := id
  erKept _ := rfl

/-- A write of `CMD` is refused (R66). -/
theorem State.Inside.acted_cmd {s u : State} (h : s.Inside u) (ht : u.time = tick) (w : Word) :
    Acted tick (· = s.reads) false false true u (actBusy (.wr 0x00000 w) u) where
  eq := rfl
  reads := h.reads
  cmdErr := rfl
  freshCmd hlt := absurd ht hlt.ne'
  rx := id
  rxKept _ := rfl
  er := id
  erKept _ := rfl

theorem clearFlag_imp {flag fresh one : Bool} (h : clearFlag flag fresh one = true) : flag = true :=
  (Bool.and_eq_true_iff.1 h).1

@[simp] theorem clearFlag_zero (flag fresh : Bool) : clearFlag flag fresh false = flag := by simp [clearFlag]

/-- A write of `STATUS` clears flags (R31); `DONE` is clear during a command (R29). -/
theorem State.Inside.acted_status {s u : State} (h : s.Inside u) (ht : u.time = tick) (v : Word) :
    Acted tick (· = s.reads) (v.getLsbD 2) (v.getLsbD 3)
      (s.cmdErr && (!v.getLsbD 4 || (s.freshCmd && decide (tick = s.time)))) u (actBusy (.wr 0x00008 v) u) where
  eq := by
    have hdone : clearFlag u.done u.freshDone (v.getLsbD 1) = u.done := by rw [h.done]; rfl
    calc u.writeStatus v
      _ = { u.writeStatus v with done := u.done } := by rw [← hdone]; rfl
      _ = _ := rfl
  reads := h.reads
  cmdErr := by
    show clearFlag u.cmdErr u.freshCmd (v.getLsbD 4) = _
    rw [h.cmdErr, h.freshCmd, ht]
    rfl
  freshCmd _ := rfl
  rx := clearFlag_imp
  rxKept hv := (congrArg (clearFlag u.rxDone u.freshRx) hv).trans (clearFlag_zero _ _)
  er := clearFlag_imp
  erKept hv := (congrArg (clearFlag u.err u.freshErr) hv).trans (clearFlag_zero _ _)

/-- A busy block ignores a write to any other address (R66). -/
theorem State.busyWrite_ignored {a : BusAddr} (hc : a ≠ 0x00000) (hs : a ≠ 0x00008) (v : Word) (s : State) :
    s.busyWrite a v = s := by
  unfold State.busyWrite
  split
  · next hr => exact absurd ((regOf_writable _ hr).2.2 rfl) hs
  · next hr => exact absurd ((regOf_writable _ hr).1 rfl) hc
  · rfl

theorem State.Inside.acted_ignored {s u : State} (h : s.Inside u) {a : BusAddr} (hc : a ≠ 0x00000) (hs : a ≠ 0x00008)
    (v : Word) : Acted tick (· = s.reads) false false s.cmdErr u (actBusy (.wr a v) u) := by
  rw [actBusy, State.busyWrite_ignored hc hs]
  exact ⟨rfl, h.reads, h.cmdErr, fun _ => rfl, id, fun _ => rfl, id, fun _ => rfl⟩

end

/-- Settles O13: the two runs stay beside each other (`Landing`), and after the action they differ as `Acted` says. -/
theorem hostCannotDisturb : Obligations.HostCannotDisturb := by
  intro i s t tick first hready he hle hlt
  refine ⟨fun a => ?_, fun w => ?_, fun v => ?_, fun a v hc hs => ?_⟩
  · obtain ⟨w, hw, acted, -, hcmd⟩ :=
      exec_acted (first := first) hready he hle hlt (by nofun) fun u hu ht => hu.acted_read ht a
    obtain ⟨u, hu, htime, hreads⟩ := acted.reads
    have hend : w = { t with reads := s.reads ++ [⟨tick, a, u.hostRead a⟩] } :=
      (acted.eq_kept hlt).trans (by rw [hreads, ← hcmd])
    exact ⟨u, hw.trans (congrArg _ hend), htime, hu.busy, hu.cfg, hu.clock0, hu.result, hu.arg⟩
  · obtain ⟨w, hw, acted, hreads, -⟩ :=
      exec_acted (first := first) hready he hle hlt (by nofun) fun u hu ht => hu.acted_cmd ht w
    exact hw.trans (congrArg _ ((acted.eq_kept hlt).trans (by rw [acted.reads, ← hreads])))
  · obtain ⟨w, hw, acted, hreads, -⟩ :=
      exec_acted (first := first) hready he hle hlt (by nofun) fun u hu ht => hu.acted_status ht v
    have hend := (acted.eq_after hlt).trans (by rw [acted.reads, ← hreads])
    exact ⟨w.rxDone, w.err, hw.trans (congrArg _ hend), acted.rx, acted.rxKept, acted.er, acted.erKept⟩
  · obtain ⟨w, hw, acted, hreads, hcmd⟩ :=
      exec_acted (first := first) hready he hle hlt (by nofun) fun u hu _ => hu.acted_ignored hc hs v
    exact hw.trans (congrArg _ ((acted.eq_kept hlt).trans (by rw [acted.reads, ← hreads, ← hcmd])))

/-! ### A host action inside a `SEND_BIT` -/

section

variable {tick : Nat} {op : BusOp}

/-- One host action that lands inside a `hold`. -/
theorem hold_acts {first : Bool} (noReset : ∀ held, op ≠ .rst held) {s : State} (undisturbed : s.undisturbed = true) {d : Nat}
    (hle : s.time ≤ tick) (hlt : tick < s.time + d) :
    hold d (s.withHost (⟨.atTick tick first, op⟩ :: s.host))
      = .ok ((), (actBusy op (s.pass (tick - s.time))).pass (s.time + d - tick)) := by
  have hd : d ≠ 0 := by omega
  have left : d - (tick - s.time) = s.time + d - tick := by omega
  have due : dueWithin s.time d tick first = true := by simp [dueWithin, hlt]
  rw [hold, if_neg hd, State.withHost_host, advanceOver_act noReset undisturbed d due, left]

/-- The block during the ticks of an accepted `SEND_BIT`. -/
def State.sendingBit (level : Bool) (b : Byte) (s : State) : State :=
  ((s.accept (.sendBit level b)).withLineO level).withWork fun w => { w with k := BitVec.ofNat 32 s.arg.toNat }

theorem State.opLevel_accept (level : Bool) (b : Byte) (s : State) : (s.accept (.sendBit level b)).opLevel = level := by
  cases level <;> simp [State.opLevel, State.accept, fieldA]

/-- A `SEND_BIT` with one host action in it: the ticks before the action, the action, and the ticks that are left. -/
theorem exec_sendBit_acts (level : Bool) (b : Byte) {first : Bool} (noReset : ∀ held, op ≠ .rst held) {s : State}
    (idle : s.busy = false) (undisturbed : s.undisturbed = true) (hle : s.time ≤ tick) (hlt : tick < s.time + s.arg.toNat) :
    ∃ w, exec (.sendBit level b) (s.withHost (⟨.atTick tick first, op⟩ :: s.host))
      = .next { ((actBusy op ((s.sendingBit level b).pass (tick - s.time))).pass (s.time + s.arg.toNat - tick)).finish 0 with
          work := w } := by
  have held : hold s.arg.toNat ((s.sendingBit level b).withHost (⟨.atTick tick first, op⟩ :: s.host)) = .ok ((),
      (actBusy op ((s.sendingBit level b).pass (tick - s.time))).pass (s.time + s.arg.toNat - tick)) :=
    hold_acts noReset (s := s.sendingBit level b) undisturbed hle hlt
  refine ⟨_, issue_as 0 (State.withWork (fun w => { w with k := 0 }) _) idle rfl ?_ rfl⟩
  simp only [Cmd.bind_apply, look_apply, Cmd.andThen_ok, sendBit, setLineO_apply, setWork_apply, State.opLevel_accept]
  show Cmd.andThen (Cmd.andThen (hold s.arg.toNat
    ((s.sendingBit level b).withHost (⟨.atTick tick first, op⟩ :: s.host))) _) _ = _
  rw [held]
  rfl

end

/-- The answer of a read inside a `SEND_BIT`: no register that can be read shows more of the command than `BUSY`, `DONE`, the
level on the pin and the time. -/
theorem State.sendingBit_hostRead (level : Bool) (b : Byte) (s : State) (d : Nat) (a : BusAddr) :
    ((s.sendingBit level b).pass d).hostRead a
      = ({ s with busy := true, done := false, lineO := level, time := s.time + d } : State).hostRead a := by
  unfold State.hostRead
  simp only [State.pass_cfg, show (s.sendingBit level b).cfg = s.cfg from rfl]
  cases regOf s.cfg.val a with
  | none => rfl
  | some r => cases r <;> rfl

/-- A read between two stretches of ticks. -/
theorem State.pass_busRead_pass (s : State) (d e : Nat) (a : BusAddr) :
    ((s.pass d).busRead a).pass e
      = { s.pass (d + e) with reads := s.reads ++ [⟨s.time + d, a, (s.pass d).hostRead a⟩] } := by
  rw [← State.pass_pass]
  rfl

/-- A write of `CMD` between two stretches of ticks, the second not empty. -/
theorem State.pass_refuse_pass (s : State) (d : Nat) {e : Nat} (he : 0 < e) :
    (s.pass d).refuse.pass e = { s.pass (d + e) with cmdErr := true } := by
  rw [← State.pass_pass, State.pass_pos _ he, State.pass_pos _ he]
  rfl

/-- A write of `STATUS` between two stretches of ticks. -/
theorem State.pass_writeStatus_pass (s : State) (d e : Nat) (v : Word) :
    ((s.pass d).writeStatus v).pass e = { s.pass (d + e) with
      done := clearFlag s.done (s.freshDone && decide (d = 0)) (v.getLsbD 1)
      rxDone := clearFlag s.rxDone (s.freshRx && decide (d = 0)) (v.getLsbD 2)
      err := clearFlag s.err (s.freshErr && decide (d = 0)) (v.getLsbD 3)
      cmdErr := clearFlag s.cmdErr (s.freshCmd && decide (d = 0)) (v.getLsbD 4) } := by
  rw [← State.pass_pass]
  rfl

/-- Settles O12: the ticks before the action, the action of a busy block, and the ticks after it, which make one stretch. -/
theorem hostDuringSendBit : Obligations.HostDuringSendBit := by
  intro s level b tick first op rest idle hhost hu hle hlt t
  have hs : s = ({ s with host := rest } : State).withHost (⟨.atTick tick first, op⟩ :: rest) := by rw [← hhost]; rfl
  have ticks : tick - s.time + (s.time + s.arg.toNat - tick) = s.arg.toNat := by omega
  have at_tick : s.time + (tick - s.time) = tick := by omega
  have no_tick : decide (tick - s.time = 0) = decide (tick = s.time) := decide_eq_decide.2 (by omega)
  have left : 0 < s.time + s.arg.toNat - tick := by omega
  have ends (noReset : ∀ held, op ≠ .rst held) :
      ∃ w, exec (.sendBit level b) s = .next { ((actBusy op ((({ s with host := rest } : State).sendingBit level b).pass
        (tick - s.time))).pass (s.time + s.arg.toNat - tick)).finish 0 with work := w } := by
    rw [congrArg (exec (.sendBit level b)) hs]
    exact exec_sendBit_acts level b noReset (s := { s with host := rest }) idle hu hle hlt
  refine ⟨?_, ?_, ?_, ?_⟩
  · rintro a rfl
    obtain ⟨w, hw⟩ := ends nofun
    refine ⟨w, hw.trans ?_⟩
    rw [actBusy, State.pass_busRead_pass, State.sendingBit_hostRead, ticks,
      show (({ s with host := rest } : State).sendingBit level b).time + (tick - s.time) = tick from at_tick,
      show ({ s with host := rest } : State).time + (tick - s.time) = tick from at_tick]
    rfl
  · rintro v rfl
    obtain ⟨w, hw⟩ := ends nofun
    refine ⟨w, hw.trans ?_⟩
    show Host.Outcome.next ({ ((State.refuse _).pass _).finish 0 with work := w } : State) = _
    rw [State.pass_refuse_pass _ _ left, ticks]
    rfl
  · rintro v rfl
    obtain ⟨w, hw⟩ := ends nofun
    refine ⟨w, hw.trans ?_⟩
    show Host.Outcome.next ({ ((State.writeStatus v _).pass _).finish 0 with work := w } : State) = _
    rw [State.pass_writeStatus_pass, ticks, no_tick]
    rfl
  · rintro a v rfl hc hv
    obtain ⟨w, hw⟩ := ends nofun
    refine ⟨w, hw.trans ?_⟩
    rw [actBusy, State.busyWrite_ignored hc hv, State.pass_pass, ticks]
    rfl

end Sys2Proof.Machine

/-! SUPPORT. The address map as host writes and host reads see it (spec/20_memory.md R65 to R72). -/

namespace Sys2Proof.Machine

/-! ### Host writes -/

/-- The window of `TXBUF` is the only place of its bytes. -/
theorem regOf_txbuf_window {c : Config} {a : BusAddr} {i : Nat} (h : regOf c a = some (.txbuf i)) :
    a.toNat % 4 = 0 ∧ 0x400 ≤ a.toNat ∧ a.toNat < 0x800 := by
  by_cases aligned : a.toNat % 4 = 0
  swap
  · rw [regOf_misaligned c aligned] at h
    cases h
  refine ⟨aligned, ?_, ?_⟩ <;> by_contra outside
  · rw [regOf_fixed c aligned (by omega)] at h
    exact (fixedReg_single h).1 i rfl
  · by_cases h3 : a.toNat < 0x1000
    · rw [regOf_rx c aligned (by omega) h3] at h
      split at h <;> cases h
    by_cases h4 : a.toNat < 0x10000
    · rw [regOf_slot c aligned (by omega) h4] at h
      split at h
      · exact slotReg_slot h i rfl
      · cases h
    · rw [regOf_payload c aligned (by omega)] at h
      split at h <;> cases h

/-- A write of an idle block reaches the location of its address. -/
theorem State.hostWrite_idle {s : State} (idle : s.busy = false) {a : BusAddr} {r : Reg} (h : regOf s.cfg.val a = some r)
    (v : Word) : s.hostWrite a v = s.writeReg r v := by
  simp only [State.hostWrite, idle, Bool.false_eq_true, if_false, h]

theorem State.hostWrite_busy {s : State} (busy : s.busy = true) (a : BusAddr) (v : Word) :
    s.hostWrite a v = s.busyWrite a v := by
  simp only [State.hostWrite, busy, if_true]

/-- A write of an idle block to another address than those of `ARG`, `STATUS` and the bytes of `TXBUF` is ignored (R70). -/
theorem State.hostWrite_ignored {s : State} (idle : s.busy = false) {a : BusAddr} (harg : a ≠ 0x00004) (hstatus : a ≠ 0x00008)
    (htx : a.toNat % 4 ≠ 0 ∨ a.toNat < 0x00400 ∨ 0x00800 ≤ a.toNat) (v : Word) : s.hostWrite a v = s := by
  cases hr : regOf s.cfg.val a with
  | none => simp only [State.hostWrite, idle, Bool.false_eq_true, if_false, hr]
  | some r =>
    rw [State.hostWrite_idle idle hr]
    cases r with
    | arg => exact absurd ((regOf_writable _ hr).2.1 rfl) harg
    | status => exact absurd ((regOf_writable _ hr).2.2 rfl) hstatus
    | txbuf i =>
      have window := regOf_txbuf_window hr
      omega
    | _ => rfl

/-- A write of an idle block to a byte of `TXBUF`. -/
theorem State.hostWrite_tx {s : State} (idle : s.busy = false) {a : BusAddr} {i : Nat} (hi : i < 256)
    (ha : a.toNat = 0x00400 + 4 * i) (v : Word) : s.hostWrite a v = s.setByte (.tx i) (v.setWidth 8) := by
  have index : (a.toNat - 0x400) / 4 = i := by omega
  rw [State.hostWrite_idle idle (regOf_tx _ (by omega) (by omega) (by omega)), index]
  rfl

/-- Settles O20: the address map sends each address to the one location the write can act on. -/
theorem hostWrites : Obligations.HostWrites := by
  intro s a v
  refine ⟨fun rest hdue hcmd => ?_, fun idle => ⟨?_, ?_, fun i hi ha => ?_, fun _ harg hstatus htx => ?_⟩,
    fun busy => ⟨?_, ?_, fun hcmd hstatus => ?_⟩⟩
  · rw [step_due hdue]
    exact if_neg hcmd
  · rintro rfl
    exact State.hostWrite_idle idle (regOf_arg _) v
  · rintro rfl
    exact State.hostWrite_idle idle (regOf_status _) v
  · rw [State.hostWrite_tx idle hi ha]
    exact ⟨rfl, s.byteAt_setByte_same (.tx i) _ trivial, fun l hl => s.byteAt_setByte_other _ hl⟩
  · exact State.hostWrite_ignored idle harg hstatus htx v
  · rintro rfl
    exact State.hostWrite_busy busy _ v
  · rintro rfl
    exact State.hostWrite_busy busy _ v
  · rw [State.hostWrite_busy busy, State.busyWrite_ignored hcmd hstatus]

/-! ### Host reads -/

/-- A read of a location of the address map. -/
theorem State.hostRead_reg {s : State} {a : BusAddr} {r : Reg} (h : regOf s.cfg.val a = some r) :
    s.hostRead a = s.readReg r := by rw [State.hostRead, h]

/-- A void read is 0 (R69). -/
theorem State.hostRead_void {s : State} {a : BusAddr} (h : regOf s.cfg.val a = none) : s.hostRead a = 0 := by
  rw [State.hostRead, h]

theorem cfgFlags_eq : ∀ whiten simplex enc ca : Bool,
    (0#28 ++ (BitVec.ofBool whiten ++ (BitVec.ofBool simplex ++ (BitVec.ofBool enc ++ BitVec.ofBool ca))) : Word)
      = BitVec.ofNat 32 (ca.toNat + 2 * enc.toNat + 4 * simplex.toNat + 8 * whiten.toNat) := by
  decide

theorem busAddr_toNat {n : Nat} (h : n < 2 ^ 19) : (BitVec.ofNat 19 n : BusAddr).toNat = n := by
  rw [BitVec.toNat_ofNat, Nat.mod_eq_of_lt h]

/-- Byte `i` of the window of `TXBUF`. -/
theorem regOf_tx_at (c : Config) {i : Nat} (hi : i < 256) :
    regOf c (BitVec.ofNat 19 (0x00400 + 4 * i)) = some (.txbuf i) := by
  have addr := busAddr_toNat (n := 0x400 + 4 * i) (by omega)
  have index : (0x400 + 4 * i - 0x400) / 4 = i := by omega
  rw [regOf_tx c (by omega) (by omega) (by omega), addr, index]

/-- Byte `i` of the window of `RXBUF`. -/
theorem regOf_rx_at (c : Cfg) {i : Nat} (hi : i < c.val.maxFrameLen) :
    regOf c.val (BitVec.ofNat 19 (0x00800 + 4 * i)) = some (.rxbuf i) := by
  obtain ⟨-, -, -, -, -, -, -, -, -, frame, -⟩ := Cfg.bounds c
  have addr := busAddr_toNat (n := 0x800 + 4 * i) (by omega)
  have index : (0x800 + 4 * i - 0x800) / 4 = i := by omega
  rw [regOf_rx c.val (by omega) (by omega) (by omega), addr, index, if_pos hi]

/-- The word at offset `off` of the window of slot `k`. -/
theorem regOf_slot_at (c : Cfg) {n k off : Nat} (hn : n = 0x1000 + 0x20 * k + off) (hk : k < c.val.maxPackets)
    (hoff : off < 0x20) (aligned : off % 4 = 0) : regOf c.val (BitVec.ofNat 19 n) = slotReg k off := by
  obtain ⟨-, -, -, -, -, -, -, packets, -⟩ := Cfg.bounds c
  have addr := busAddr_toNat (n := n) (by omega)
  have slot : (n - 0x1000) / 0x20 = k := by omega
  have offset : (n - 0x1000) % 0x20 = off := by omega
  rw [regOf_slot c.val (by omega) (by omega) (by omega), addr, slot, offset, if_pos hk]

/-- Byte `i` of the payload window of slot `k`. -/
theorem regOf_payload_at (c : Cfg) {k i : Nat} (hk : k < c.val.maxPackets) (hi : i < maxPayload c.val) :
    regOf c.val (BitVec.ofNat 19 (0x10000 + 0x400 * k + 4 * i)) = some (.payload k i) := by
  obtain ⟨-, -, -, -, -, -, -, packets, -⟩ := Cfg.bounds c
  have payload := Cfg.maxPayload_le c
  have addr := busAddr_toNat (n := 0x10000 + 0x400 * k + 4 * i) (by omega)
  have slot : (0x10000 + 0x400 * k + 4 * i - 0x10000) / 0x400 = k := by omega
  have index : (0x10000 + 0x400 * k + 4 * i - 0x10000) % 0x400 / 4 = i := by omega
  rw [regOf_payload c.val (by omega) (by omega), addr, slot, index, if_pos ⟨hk, hi⟩]

/-- The void addresses (R69, R71): misaligned, between the single registers, behind each window. -/
theorem regOf_void {c : Config} {a : BusAddr} (h : a.toNat % 4 ≠ 0
      ∨ (0x0002C ≤ a.toNat ∧ a.toNat < 0x00040) ∨ (0x00064 ≤ a.toNat ∧ a.toNat < 0x00400)
      ∨ (0x00800 + 4 * c.maxFrameLen ≤ a.toNat ∧ a.toNat < 0x01000)
      ∨ (0x01000 + 0x20 * c.maxPackets ≤ a.toNat ∧ a.toNat < 0x10000)
      ∨ (0x10000 ≤ a.toNat ∧ (c.maxPackets ≤ (a.toNat - 0x10000) / 0x400
          ∨ maxPayload c ≤ (a.toNat - 0x10000) % 0x400 / 4))) : regOf c a = none := by
  by_cases aligned : a.toNat % 4 = 0
  swap
  · exact regOf_misaligned c aligned
  rcases h with h | ⟨lo, hi⟩ | ⟨lo, hi⟩ | ⟨lo, hi⟩ | ⟨lo, hi⟩ | ⟨lo, beyond⟩
  · exact absurd aligned h
  · rw [regOf_fixed c aligned (by omega)]
    exact fixedReg_none (.inl ⟨lo, hi⟩)
  · rw [regOf_fixed c aligned hi]
    exact fixedReg_none (.inr lo)
  · rw [regOf_rx c aligned (by omega) hi, if_neg (by omega)]
  · rw [regOf_slot c aligned (by omega) hi, if_neg (by omega)]
  · rw [regOf_payload c aligned lo, if_neg (by omega)]

/-- Settles O19: each address is that of one location, whose word the read answers, or void. -/
theorem readMap : Obligations.ReadMap := by
  refine ⟨fun s a rest hdue => step_due hdue, fun s => ?_⟩
  refine ⟨rfl, rfl, rfl, rfl, rfl, rfl, rfl, rfl, rfl, rfl, rfl, rfl, cfgFlags_eq _ _ _ _, rfl, rfl, rfl, rfl, rfl, rfl, rfl,
    fun i hi => State.hostRead_reg (regOf_tx_at _ hi), fun i hi => State.hostRead_reg (regOf_rx_at _ hi), fun k hk => ?_,
    fun a ha => State.hostRead_void (regOf_void ha)⟩
  have window {n off : Nat} (hn : n = 0x1000 + 0x20 * k + off) (hoff : off < 0x20) (aligned : off % 4 = 0) :=
    regOf_slot_at s.cfg hn hk hoff aligned
  refine ⟨?_, ?_, ?_, ?_, ?_, ?_, ?_, ?_, fun i hi => State.hostRead_reg (regOf_payload_at _ hk hi)⟩
  · refine (State.hostRead_reg (window (off := 0x00) rfl (by decide) rfl)).trans ?_
    show (s.slot k).state.code.setWidth 32 = _
    cases (s.slot k).state <;> rfl
  · exact State.hostRead_reg (window (off := 0x04) (by omega) (by decide) rfl)
  · exact State.hostRead_reg (window (off := 0x08) (by omega) (by decide) rfl)
  · exact State.hostRead_reg (window (off := 0x0C) (by omega) (by decide) rfl)
  · exact State.hostRead_reg (window (off := 0x10) (by omega) (by decide) rfl)
  · exact State.hostRead_reg (window (off := 0x14) (by omega) (by decide) rfl)
  · exact State.hostRead_void (window (off := 0x18) (by omega) (by decide) rfl)
  · exact State.hostRead_void (window (off := 0x1C) (by omega) (by decide) rfl)

end Sys2Proof.Machine

/-! SUPPORT. The words of the command interface (spec/30_encoding.md R90 to R95): the fields of a word as numbers, which fields
decode to which command, and which words are refused by which check. -/

namespace Sys2Proof

open Machine

/-! ### The fields of a word as numbers -/

theorem wordOp_toNat (w : Word) : (wordOp w).toNat = w.toNat % 16 := by
  simp [wordOp]

theorem wordRsv0_toNat (w : Word) : (wordRsv0 w).toNat = w.toNat / 16 % 16 := by
  simp [wordRsv0, Nat.shiftRight_eq_div_pow]

theorem wordA_toNat (w : Word) : (wordA w).toNat = w.toNat / 2 ^ 8 % 2 ^ 8 := by
  simp [wordA, Nat.shiftRight_eq_div_pow]

theorem wordB_toNat (w : Word) : (wordB w).toNat = w.toNat / 2 ^ 16 % 2 ^ 8 := by
  simp [wordB, Nat.shiftRight_eq_div_pow]

/-- Nothing stands above bit 31, so the top field needs no remainder. -/
theorem wordRsv1_toNat (w : Word) : (wordRsv1 w).toNat = w.toNat / 2 ^ 24 := by
  have top : w.toNat / 2 ^ 24 < 2 ^ 8 := by omega
  simpa [wordRsv1, Nat.shiftRight_eq_div_pow] using top

/-- The bits of `a` that `SEND_BIT` fixes at 0. -/
theorem wordA_high7 (w : Word) : (wordA w).extractLsb' 1 7 = 0 ↔ w.toNat / 2 ^ 9 % 2 ^ 7 = 0 := by
  rw [← BitVec.toNat_inj, BitVec.extractLsb'_toNat, wordA_toNat, Nat.shiftRight_eq_div_pow]
  simp only [BitVec.ofNat_eq_ofNat, BitVec.toNat_ofNat]
  omega

/-- The bits of `a` that `CRYPT` fixes at 0. -/
theorem wordA_high6 (w : Word) : (wordA w).extractLsb' 2 6 = 0 ↔ w.toNat / 2 ^ 10 % 2 ^ 6 = 0 := by
  rw [← BitVec.toNat_inj, BitVec.extractLsb'_toNat, wordA_toNat, Nat.shiftRight_eq_div_pow]
  simp only [BitVec.ofNat_eq_ofNat, BitVec.toNat_ofNat]
  omega

/-! ### The opcode map

`decodeFields` has one branch per opcode: `h_1` is `SEND_BIT` and `h_10` is `CRYPT`, the two that test must-be-zero bits, and
`h_15` is every opcode without a command. -/

/-- Every command is what the opcode map makes of its own fields. -/
theorem decodeFields_fields (i : Instr) : decodeFields (opcodeOf i) (fieldA i) (fieldB i) = .ok i := by
  cases i with
  | sendBit level b => cases level <;> simp [decodeFields, opcodeOf, fieldA, fieldB]
  | crypt ivf side len => cases ivf <;> cases side <;> simp [decodeFields, opcodeOf, fieldA, fieldB]
  | _ => rfl

/-- A byte whose bits above bit 0 are 0 is its bit 0. -/
theorem byte_of_bit : ∀ a : Byte, a.extractLsb' 1 7 = 0 → (0#7 ++ BitVec.ofBool (a.getLsbD 0) : Byte) = a := by decide

/-- A byte whose bits above bit 1 are 0 is its two low bits. -/
theorem byte_of_two_bits : ∀ a : Byte, a.extractLsb' 2 6 = 0 →
    (0#6 ++ (BitVec.ofBool (a.getLsbD 1) ++ BitVec.ofBool (a.getLsbD 0)) : Byte) = a := by decide

/-- The opcode map loses no bit: what it answers has the fields it was given. -/
theorem fields_of_decodeFields {op : BitVec 4} {a b : Byte} {i : Instr} (h : decodeFields op a b = .ok i) :
    opcodeOf i = op ∧ fieldA i = a ∧ fieldB i = b := by
  unfold decodeFields at h
  split at h
  case h_1 hop =>
    split at h
    case isTrue zero => cases h; exact ⟨BitVec.eq_of_toNat_eq hop.symm, byte_of_bit a zero, rfl⟩
    case isFalse => cases h
  case h_10 hop =>
    split at h
    case isTrue zero => cases h; exact ⟨BitVec.eq_of_toNat_eq hop.symm, byte_of_two_bits a zero, rfl⟩
    case isFalse => cases h
  case h_15 => cases h
  all_goals
    next hop => cases h; exact ⟨BitVec.eq_of_toNat_eq hop.symm, rfl, rfl⟩

/-- The opcodes without a command (R92). -/
theorem decodeFields_reservedOpcode_iff (op : BitVec 4) (a b : Byte) :
    decodeFields op a b = .error .reservedOpcode ↔ op.toNat = 0 ∨ op.toNat = 15 := by
  have hlt := op.isLt
  unfold decodeFields
  split
  case h_1 | h_10 => split <;> simp [*]
  case h_15 =>
    simp only [imp_false, true_iff] at *
    omega
  all_goals simp [*]

/-- The opcodes with bits that must be 0 (R93). -/
theorem decodeFields_mustBeZero_iff (op : BitVec 4) (a b : Byte) :
    decodeFields op a b = .error .mustBeZero ↔
      (op.toNat = 1 ∧ a.extractLsb' 1 7 ≠ 0) ∨ (op.toNat = 10 ∧ a.extractLsb' 2 6 ≠ 0) := by
  unfold decodeFields
  split
  case h_1 | h_10 => split <;> simp_all
  all_goals simp_all

/-- The opcode map does not see the reserved bits. -/
theorem decodeFields_ne_reservedBits (op : BitVec 4) (a b : Byte) : decodeFields op a b ≠ .error .reservedBits := by
  unfold decodeFields
  split
  case h_1 | h_10 => split <;> simp
  all_goals simp

/-! ### The decoder -/

theorem decode_of_reserved {w : Word} (h : wordRsv0 w ≠ 0 ∨ wordRsv1 w ≠ 0) : decode w = .error .reservedBits := if_pos h

theorem decode_of_clear {w : Word} (h0 : wordRsv0 w = 0) (h1 : wordRsv1 w = 0) :
    decode w = decodeFields (wordOp w) (wordA w) (wordB w) := if_neg (by simp [h0, h1])

/-- Settles O1: the fields of the word are the fields of the command, which the opcode map turns back into it. -/
theorem decodeEncode : Obligations.DecodeEncode := by
  intro i
  rw [decode_of_clear (wordRsv0_encode i) (wordRsv1_encode i), wordOp_encode, wordA_encode, wordB_encode]
  exact decodeFields_fields i

/-- Settles O2: a word that decodes has clear reserved bits and the command's own fields, and a word is its five fields. -/
theorem encodeDecode : Obligations.EncodeDecode := by
  intro w i h
  by_cases reserved : wordRsv0 w ≠ 0 ∨ wordRsv1 w ≠ 0
  · rw [decode_of_reserved reserved] at h
    cases h
  obtain ⟨h0, h1⟩ : wordRsv0 w = 0 ∧ wordRsv1 w = 0 := by simpa using reserved
  rw [decode_of_clear h0 h1] at h
  obtain ⟨hop, ha, hb⟩ := fields_of_decodeFields h
  rw [word_eq_fields w, h0, h1, encode, hop, ha, hb]
  rfl

/-- Check 2 of R95 as arithmetic. -/
theorem reserved_clear_iff (w : Word) :
    (wordRsv0 w = 0 ∧ wordRsv1 w = 0) ↔ (w.toNat / 16 % 16 = 0 ∧ w.toNat / 2 ^ 24 = 0) := by
  rw [← wordRsv0_toNat, ← wordRsv1_toNat]
  simp [← BitVec.toNat_inj]

/-- Settles O3: set reserved bits end the decoding at the first check, clear ones leave it to the opcode map. -/
theorem decodeRefusals : Obligations.DecodeRefusals := by
  intro w
  have clear_iff := reserved_clear_iff w
  by_cases clear : wordRsv0 w = 0 ∧ wordRsv1 w = 0
  · have numbers := clear_iff.1 clear
    have zero7 := wordA_high7 w
    have zero6 := wordA_high6 w
    rw [decode_of_clear clear.1 clear.2, decodeFields_reservedOpcode_iff, decodeFields_mustBeZero_iff, wordOp_toNat]
    simp only [ne_eq, zero7, zero6, decodeFields_ne_reservedBits, numbers, and_self, true_and, not_true_eq_false, or_self]
  · have numbers := mt clear_iff.2 clear
    rw [decode_of_reserved (by tauto)]
    simp only [Except.error.injEq, reduceCtorEq, true_iff, numbers, false_and, and_true]
    tauto

/-- Settles O4: each word is the word of its command. -/
theorem decodeWords : Obligations.DecodeWords :=
  ⟨decodeEncode (.sendBit true 0), decodeEncode (.sampleBit 0 0), decodeEncode (.sendByte 0x06 0), decodeEncode (.canStart 0 0),
    decodeEncode (.sendFrame 12 2), decodeEncode (.receiveFrameT 0 0), decodeEncode (.crypt true true 4),
    decodeEncode (.genIv 0 3), decodeEncode (.enqueue 12 2), decodeEncode (.remove 1 0)⟩

end Sys2Proof

/-! SUPPORT. Refused commands (spec/30_encoding.md R95): the illegal operands as numbers, and the one effect of every refusal. -/

namespace Sys2Proof.Machine

/-- The operands that check 5 of R95 refuses, in the fields of the command as numbers. -/
theorem legalOperands_eq_false_iff (c : Config) (i : Instr) :
    legalOperands c i = false ↔
      ((opcodeOf i).toNat = 7 ∧ maxPayload c < (fieldB i).toNat)
      ∨ ((opcodeOf i).toNat = 10 ∧ (fieldA i).toNat = 1 ∧ 253 < (fieldB i).toNat)
      ∨ ((opcodeOf i).toNat = 10 ∧ (fieldA i).toNat = 3 ∧ (fieldB i).toNat = 0)
      ∨ ((opcodeOf i).toNat = 11 ∧ 253 < (fieldB i).toNat)
      ∨ ((opcodeOf i).toNat = 14 ∧ c.maxPackets ≤ (fieldA i).toNat) := by
  cases i with
  | crypt ivf side len => cases ivf <;> cases side <;> simp [legalOperands, opcodeOf, fieldA, fieldB]
  | _ => simp [legalOperands, opcodeOf, fieldA, fieldB]

/-- A word is refused while the block is busy, and when it decodes to no command with legal operands. -/
theorem command_refused {w : Word} {s : State}
    (h : s.busy = true ∨ ∀ i, decode w = .ok i → legalOperands s.cfg.val i = false) : command w s = .next s.refuse := by
  unfold command
  split
  case h_1 i hi => exact exec_refused (h.imp_right fun illegal => illegal i hi)
  case h_2 => rfl

/-- The fields of a command, read off the word it was decoded from. -/
theorem numbers_of_decode {w : Word} {i : Instr} (h : decode w = .ok i) :
    (opcodeOf i).toNat = w.toNat % 16 ∧ (fieldA i).toNat = w.toNat / 2 ^ 8 % 2 ^ 8
      ∧ (fieldB i).toNat = w.toNat / 2 ^ 16 % 2 ^ 8 := by
  rw [← encodeDecode w i h, ← wordOp_toNat, ← wordA_toNat, ← wordB_toNat, wordOp_encode, wordA_encode, wordB_encode]
  exact ⟨rfl, rfl, rfl⟩

/-- The reasons of R95 to refuse the word `w`, in the arithmetic of the word. -/
def Refusable (s : State) (w : Word) : Prop :=
  s.busy = true
    ∨ w.toNat / 16 % 16 ≠ 0 ∨ w.toNat / 2 ^ 24 ≠ 0
    ∨ w.toNat % 16 = 0 ∨ w.toNat % 16 = 15
    ∨ (w.toNat % 16 = 1 ∧ w.toNat / 2 ^ 9 % 2 ^ 7 ≠ 0)
    ∨ (w.toNat % 16 = 10 ∧ w.toNat / 2 ^ 10 % 2 ^ 6 ≠ 0)
    ∨ (w.toNat % 16 = 7 ∧ maxPayload s.cfg.val < w.toNat / 2 ^ 16 % 2 ^ 8)
    ∨ (w.toNat % 16 = 10 ∧ w.toNat / 2 ^ 8 % 2 ^ 8 = 1 ∧ 253 < w.toNat / 2 ^ 16 % 2 ^ 8)
    ∨ (w.toNat % 16 = 10 ∧ w.toNat / 2 ^ 8 % 2 ^ 8 = 3 ∧ w.toNat / 2 ^ 16 % 2 ^ 8 = 0)
    ∨ (w.toNat % 16 = 11 ∧ 253 < w.toNat / 2 ^ 16 % 2 ^ 8)
    ∨ (w.toNat % 16 = 14 ∧ s.cfg.val.maxPackets ≤ w.toNat / 2 ^ 8 % 2 ^ 8)

/-- Checks 2 to 4 leave no command, so that a refusable word of a command has an illegal operand. -/
theorem Refusable.command {s : State} {w : Word} (h : Refusable s w) : command w s = .next s.refuse := by
  refine command_refused (h.imp_right fun h i hi => ?_)
  obtain ⟨bits, opcode, zero⟩ := decodeRefusals w
  simp only [hi, reduceCtorEq, false_iff] at bits opcode zero
  have clear : w.toNat / 16 % 16 = 0 ∧ w.toNat / 2 ^ 24 = 0 := by simpa using bits
  obtain ⟨hop, ha, hb⟩ := numbers_of_decode hi
  rw [legalOperands_eq_false_iff, hop, ha, hb]
  rcases h with h | h | h | h | h | h | illegal
  · exact absurd (.inl h) bits
  · exact absurd (.inr h) bits
  · exact absurd ⟨clear, .inl h⟩ opcode
  · exact absurd ⟨clear, .inr h⟩ opcode
  · exact absurd ⟨clear, .inl h⟩ zero
  · exact absurd ⟨clear, .inr h⟩ zero
  · exact illegal

/-- Settles O7: a refusable word is refused as a command, and the step of its due write is that command. -/
theorem refusedCommand : Obligations.RefusedCommand := by
  refine ⟨fun s w h => ⟨Refusable.command h, fun rest hdue => ?_⟩, fun s w => rfl, fun s => rfl⟩
  rw [step_due hdue]
  exact Refusable.command (s := { s with host := rest }) h

end Sys2Proof.Machine

/-! SUPPORT. One symbol and one frame on the line (spec/30_encoding.md R101, R103 to R105). -/

namespace Sys2Proof.Machine

/-! ### A symbol from node to node -/

/-- `SEND_BYTE` alone: the levels of its symbol are driven, and the pin stays at bit 7 (R101, R141). -/
theorem exec_sendByte_alone {s : State} (x b : Byte) (ready : s.ready = true) :
    ∃ w, exec (.sendByte x b) s = .next { s.after (.sendByte x b) (tByte s.cfg.val) 0 with
      lineOe := true, lineO := x.getLsbD 7, trace := driveRuns (symbolRuns s.cfg.val x) s.trace, work := w } := by
  obtain ⟨idle, undisturbed⟩ := State.ready_iff.1 ready
  obtain ⟨w, sent, -⟩ := sendByte_alone x (s := s.accept (.sendByte x b)) undisturbed
  rw [State.drive_eq _ _ rfl, symbolRuns_getLast, symbolRuns_ticks] at sent
  exact ⟨w, issue_as (i := .sendByte x b) 0 _ idle rfl (by
    rw [Cmd.bind_apply, look_apply, Cmd.andThen_ok, Cmd.bind_apply, State.accept_regA, fieldA, sent]; rfl) rfl⟩

/-- Tick by tick the pins of a `SEND_BYTE` show the levels of its symbol (R101). -/
theorem exec_sendByte_pins {s t : State} {x b : Byte} (ready : s.ready = true) (sent : exec (.sendByte x b) s = .next t) {j : Nat}
    (hj : j < tByte s.cfg.val) : t.pinsDuring (s.time + j) = some ⟨true, levelIn false (symbolRuns s.cfg.val x) j⟩ := by
  obtain ⟨w, he⟩ := exec_sendByte_alone x b ready
  cases he.symm.trans sent
  have back : s.time + tByte s.cfg.val - 1 - (s.time + j) = tByte s.cfg.val - 1 - j := by omega
  have shown := pinsBack_driveRuns (symbolRuns s.cfg.val x) s.trace j
  rw [symbolRuns_ticks, ← back] at shown
  exact (if_pos (Nat.add_lt_add_left hj _)).trans (shown hj)

/-- `RECEIVE_BYTE` at the start of a symbol (R145): its byte, after the ticks of a symbol. -/
theorem exec_receiveByte_symbol {r : State} (a b x : Byte) (ready : r.ready = true)
    (carried : r.carries r.time (symbolRuns r.cfg.val x)) :
    ∃ w, exec (.receiveByte a b) r = .next { r.after (.receiveByte a b) (tByte r.cfg.val) (x.setWidth 32) with
      lineOe := false, trace := pushRun ⟨false, r.lineO⟩ (tByte r.cfg.val) r.trace, work := w } := by
  obtain ⟨idle, undisturbed⟩ := State.ready_iff.1 ready
  obtain ⟨w, received, -⟩ := receiveByte_symbol (s := r.accept (.receiveByte a b)) undisturbed x carried
  exact ⟨w, issue_as (i := .receiveByte a b) (x.setWidth 32) _ idle rfl (by rw [Cmd.bind_apply, received]; rfl) rfl⟩

/-- Two nodes with the same bit width and spacer have the same symbols. -/
theorem symbolRuns_congr {c d : Config} (width : c.bitWidth = d.bitWidth) (spacer : c.bitSpacer = d.bitSpacer) (x : Byte) :
    symbolRuns c x = symbolRuns d x := by
  simp only [symbolRuns, width, spacer]

/-- Settles O31: the line carries the symbol that the sender drives, and the receiver enters at its first tick. -/
theorem symbolRoundTrip : Obligations.SymbolRoundTrip := by
  intro s t r x b a b' sender receiver width spacer hsend hline
  have ticks : tByte s.cfg.val = tByte r.cfg.val := by simp only [tByte, width, spacer]
  rw [ticks] at hline ⊢
  refine exec_receiveByte_symbol a b' x receiver fun j hj => ?_
  rw [symbolRuns_ticks] at hj
  have level := hline j hj
  rw [exec_sendByte_pins sender hsend (ticks ▸ hj)] at level
  rw [symbolRuns_congr width spacer]
  simpa [Pins.drives] using level

/-! ### The frame -/

/-- The exclusive-or of bytes, put behind them, makes the whole 0 (R105). -/
theorem xorAll_closed (bytes : List Byte) : xorAll (bytes ++ [xorAll bytes]) = 0 := by
  rw [xorAll_append, xorAll_cons (xorAll bytes), xorAll_nil]
  simp

/-- Settles O36: the CRC byte is the exclusive-or of the bytes before it, which cancels it. -/
theorem frameFormat : Obligations.FrameFormat := by
  intro dest body
  refine ⟨frameBytes_length dest body, xorAll_closed _, rfl, fun fits => ?_, fun i hi => ?_, ?_⟩
  · simp [frameBytes, Nat.mod_eq_of_lt fits]
  · simp [frameBytes, Nat.add_comm 2 i, List.getElem?_append_left hi]
  · simp [frameBytes]

end Sys2Proof.Machine

/-! SUPPORT. The bit layer (spec/40_bit_layer.md R131 to R135): the two commands alone, and the filter in its three forms. -/

namespace Sys2Proof.Machine

/-! ### The integer form, sample by sample -/

/-- What a sample votes (R133): +1 for HIGH, −1 for LOW. -/
def vote (sample : Bool) : Int := 2 * sample.toNat - 1

theorem vote_not (b : Bool) : vote (!b) = -vote b := by cases b <;> rfl

theorem vote_mul_self (b : Bool) : vote b * vote b = 1 := by cases b <;> rfl

theorem Filter.step_e (v : Filter) (sample : Bool) : (v.step sample).e = 999 * v.e + vote sample * v.p := by
  cases sample <;> simp [Filter.step, vote]

theorem Filter.step_p (v : Filter) (sample : Bool) : (v.step sample).p = 1000 * v.p := rfl

theorem Filter.run_concat (v : Filter) (samples : List Bool) (sample : Bool) :
    v.run (samples ++ [sample]) = (v.run samples).step sample := v.run_append samples [sample]

theorem Filter.run_p (v : Filter) (samples : List Bool) : (v.run samples).p = 1000 ^ samples.length * v.p := by
  induction samples using List.reverseRecOn with
  | nil => simp [Filter.run]
  | append_singleton samples sample ih =>
    rw [Filter.run_concat, Filter.step_p, ih, List.length_append, List.length_singleton, pow_succ]
    ring

theorem Filter.half_run_p (samples : List Bool) : (Filter.half.run samples).p = 1000 ^ samples.length := by
  rw [Filter.run_p, Filter.half, Nat.mul_one]

theorem majority_iff (samples : List Bool) : majority samples = true ↔ 0 < (Filter.half.run samples).e := decide_eq_true_iff

/-! ### No ties -/

theorem Filter.half_run_p_mod (samples : List Bool) : (Filter.half.run samples).p % 999 = 1 := by
  simp [Filter.half_run_p, Nat.pow_mod]

/-- Modulo 999 only the last sample's vote is left (R134). -/
theorem Filter.half_run_e_mod {samples : List Bool} (nonempty : samples ≠ []) :
    (Filter.half.run samples).e % 999 = 1 ∨ (Filter.half.run samples).e % 999 = 998 := by
  cases samples using List.reverseRecOn with
  | nil => exact absurd rfl nonempty
  | append_singleton samples sample =>
    have one := Filter.half_run_p_mod samples
    rw [Filter.run_concat, Filter.step_e]
    cases sample <;> simp only [vote, Bool.toNat_true, Bool.toNat_false] <;> omega

theorem Filter.half_run_e_ne_zero {samples : List Bool} (nonempty : samples ≠ []) : (Filter.half.run samples).e ≠ 0 := by
  have := Filter.half_run_e_mod nonempty
  omega

/-- A window with a sample in it reads the level that the votes are for. -/
theorem majority_eq_iff {samples : List Bool} (nonempty : samples ≠ []) (b : Bool) :
    majority samples = b ↔ 0 < vote b * (Filter.half.run samples).e := by
  have := Filter.half_run_e_ne_zero nonempty
  cases b
  · rw [← Bool.not_eq_true, majority_iff, vote, Bool.toNat_false]; omega
  · rw [majority_iff, vote, Bool.toNat_true]; omega

/-! ### The average and the weighted vote -/

theorem average_concat (samples : List Bool) (sample : Bool) :
    average (samples ++ [sample]) = average samples * (999 / 1000) + (if sample then 1 else 0) * (1 / 1000) := by
  simp [average]

/-- The average is the integer form, scaled (R133). -/
theorem average_eq (samples : List Bool) :
    average samples - 1 / 2 = (Filter.half.run samples).e / (2 * 1000 ^ samples.length) := by
  induction samples using List.reverseRecOn with
  | nil => simp [average, Filter.run, Filter.half]
  | append_singleton samples sample ih =>
    have scaled : average (samples ++ [sample]) - 1 / 2 = 999 / 1000 * (average samples - 1 / 2) + vote sample / 2000 := by
      rw [average_concat]
      cases sample <;> simp [vote] <;> ring
    rw [scaled, ih, Filter.run_concat, Filter.step_e, Filter.half_run_p, List.length_append, List.length_singleton]
    push_cast
    field_simp
    ring

theorem average_gt_half_iff (samples : List Bool) : (1 / 2 : ℚ) < average samples ↔ 0 < (Filter.half.run samples).e := by
  rw [← sub_pos, average_eq, div_pos_iff_of_pos_right (by positivity), Int.cast_pos]

theorem majority_iff_average (samples : List Bool) : majority samples = true ↔ (1 / 2 : ℚ) < average samples :=
  (majority_iff samples).trans (average_gt_half_iff samples).symm

/-- The weighted vote of R133: the sample taken `j` ticks before the last one has weight `0.999 ^ j`. -/
def weightedVote (samples : List Bool) : ℚ :=
  ((List.range samples.length).map fun k =>
    (999 / 1000) ^ (samples.length - 1 - k) * (if samples.getD k false then 1 else -1)).sum

/-- A further sample ages the votes before it by one tick. -/
theorem weightedVote_concat (samples : List Bool) (sample : Bool) :
    weightedVote (samples ++ [sample]) = 999 / 1000 * weightedVote samples + vote sample := by
  have aged : ∀ k ∈ List.range samples.length,
      (999 / 1000 : ℚ) ^ (samples.length - k) * (if (samples ++ [sample]).getD k false then 1 else -1)
        = 999 / 1000 * ((999 / 1000) ^ (samples.length - 1 - k) * (if samples.getD k false then 1 else -1)) := by
    intro k hk
    have hlt := List.mem_range.1 hk
    rw [List.getD_append _ _ _ _ hlt, show samples.length - k = samples.length - 1 - k + 1 by omega, pow_succ']
    ring
  have last : (if sample then 1 else -1 : ℚ) = vote sample := by cases sample <;> simp [vote]
  simp only [weightedVote, List.length_append, List.length_singleton, Nat.add_sub_cancel, List.range_succ, List.map_append,
    List.sum_append, List.map_congr_left aged, List.sum_map_mul_left, List.map_cons, List.map_nil, List.sum_singleton]
  simp [last]

theorem weightedVote_eq (samples : List Bool) : weightedVote samples = 2000 * (average samples - 1 / 2) := by
  induction samples using List.reverseRecOn with
  | nil => simp [weightedVote, average]
  | append_singleton samples sample ih =>
    rw [weightedVote_concat, ih, average_concat]
    cases sample <;> simp [vote] <;> ring

theorem weightedVote_pos_iff (samples : List Bool) : 0 < weightedVote samples ↔ (1 / 2 : ℚ) < average samples := by
  rw [weightedVote_eq, mul_pos_iff_of_pos_left (by norm_num), sub_pos]

/-- Settles O25: the integer form and the weighted vote are the average's distance from 1/2, scaled. -/
theorem filterIntegerForm : Obligations.FilterIntegerForm := fun samples =>
  ⟨⟨rfl, rfl⟩,
    fun sample => ⟨by rw [Filter.run_concat, Filter.step_e, vote], by rw [Filter.run_concat, Filter.step_p]⟩,
    Filter.half_run_p samples, average_eq samples, majority_iff samples, majority_iff_average samples,
    (majority_iff_average samples).trans (weightedVote_pos_iff samples).symm⟩

/-- Settles O26: `E` is not 0 modulo 999, and the average is 1/2 only where `E` is 0. -/
theorem noTies : Obligations.NoTies := by
  intro samples nonempty
  have untied := Filter.half_run_e_ne_zero nonempty
  have off : average samples ≠ 1 / 2 := by
    rw [← sub_ne_zero, average_eq]
    exact div_ne_zero (Int.cast_ne_zero.2 untied) (by positivity)
  exact ⟨Filter.half_run_e_mod nonempty, Filter.half_run_p_mod samples, untied, off, le_of_lt,
    fun le => lt_of_le_of_ne le off.symm⟩

/-! ### Runs of equal samples -/

/-- A run of equal samples leaves `0.999 ^ n` of the distance from the level of the run. -/
theorem Filter.run_replicate_e (v : Filter) (n : Nat) (b : Bool) :
    (v.run (List.replicate n b)).e = vote b * (1000 ^ n * v.p) + 999 ^ n * (v.e - vote b * v.p) := by
  induction n with
  | zero => simp [Filter.run]
  | succ n ih =>
    rw [List.replicate_succ', Filter.run_concat, Filter.step_e, ih, Filter.run_p, List.length_replicate]
    push_cast
    ring

/-- A run of `n` samples `b` after `m` of the other level, in the integer form. -/
theorem Filter.half_run_two_runs (m n : Nat) (b : Bool) :
    (Filter.half.run (List.replicate m (!b) ++ List.replicate n b)).e
      = vote b * (1000 ^ (m + n) + 999 ^ (m + n) - 2 * (999 ^ n * 1000 ^ m)) := by
  rw [Filter.run_append, Filter.run_replicate_e, Filter.run_replicate_e, Filter.run_p, List.length_replicate, vote_not]
  simp only [Filter.half]
  push_cast
  ring

/-- When a run at the end decides its window, in numbers. -/
theorem majority_two_runs {m n : Nat} (nonempty : 0 < m + n) (b : Bool) :
    majority (List.replicate m (!b) ++ List.replicate n b) = b
      ↔ 2 * (999 ^ n * 1000 ^ m) < 1000 ^ (m + n) + 999 ^ (m + n) := by
  have samples : List.replicate m (!b) ++ List.replicate n b ≠ [] := by
    rw [← List.length_pos_iff]; simpa using nonempty
  rw [majority_eq_iff samples, Filter.half_run_two_runs, ← mul_assoc, vote_mul_self, one_mul, sub_pos]
  exact_mod_cast Iff.rfl

/-- A longer run at the end leaves less weight to the samples before it. -/
theorem two_runs_weight_anti {N n n' : Nat} (longer : n ≤ n') (fits : n' ≤ N) :
    999 ^ n' * 1000 ^ (N - n') ≤ 999 ^ n * 1000 ^ (N - n) := by
  obtain ⟨k, rfl⟩ := Nat.exists_eq_add_of_le longer
  rw [show N - n = k + (N - (n + k)) by omega, pow_add, pow_add, mul_assoc]
  gcongr
  norm_num

/-- In a window of `N` samples `t` is the least length at which a run at the end decides it. -/
def Decides (N t : Nat) : Prop :=
  0 < t ∧ t ≤ N ∧ 1000 ^ N + 999 ^ N ≤ 2 * (999 ^ (t - 1) * 1000 ^ (N - (t - 1)))
    ∧ 2 * (999 ^ t * 1000 ^ (N - t)) < 1000 ^ N + 999 ^ N

theorem Decides.at_end {N t n : Nat} (h : Decides N t) (hn : n ≤ N) (b : Bool) :
    majority (List.replicate (N - n) (!b) ++ List.replicate n b) = b ↔ t ≤ n := by
  obtain ⟨pos, fits, below, reached⟩ := h
  rw [majority_two_runs (by omega), Nat.sub_add_cancel hn]
  refine ⟨fun decided => ?_, fun long => ?_⟩
  · by_contra short
    have := two_runs_weight_anti (show n ≤ t - 1 by omega) (show t - 1 ≤ N by omega)
    omega
  · have := two_runs_weight_anti long hn
    omega

/-- A run at the start decides the window when the rest, a run at the end, does not. -/
theorem Decides.at_start {N t n : Nat} (h : Decides N t) (hn : n ≤ N) (b : Bool) :
    majority (List.replicate n b ++ List.replicate (N - n) (!b)) = b ↔ N - t + 1 ≤ n := by
  have rest := h.at_end (Nat.sub_le N n) (!b)
  rw [Bool.not_not, Nat.sub_sub_self hn, Bool.eq_not] at rest
  obtain ⟨pos, fits, -⟩ := h
  exact not_iff_not.1 (rest.trans (by omega))

theorem decides_350 : Decides 350 160 := by unfold Decides; decide +kernel
theorem decides_750 : Decides 750 307 := by unfold Decides; decide +kernel
theorem decides_10 : Decides 10 5 := by unfold Decides; decide +kernel

/-- Settles O27: the three thresholds at the end of a window, which give those at its start. -/
theorem filterThresholds : Obligations.FilterThresholds := fun b =>
  ⟨fun _ hn => decides_350.at_end hn b, fun _ hn => decides_350.at_start hn b,
    fun _ hn => decides_750.at_end hn b, fun _ hn => decides_750.at_start hn b,
    fun _ hn => decides_10.at_end hn b, fun _ hn => decides_10.at_start hn b⟩

/-! ### The two commands -/

/-- The result of `SAMPLE_BIT`, by the average of the window. -/
theorem ofFlag_majority (samples : List Bool) :
    Word.ofFlag (majority samples) = if 1 / 2 < average samples then 1 else 0 := by
  simp only [← majority_iff_average]
  cases majority samples <;> rfl

namespace BitLayer

/-- Settles O23: the command is `sendBit` of its operands. -/
theorem sendBit : Obligations.SendBit := by
  intro s level b ready
  obtain ⟨idle, undisturbed⟩ := State.ready_iff.1 ready
  refine ⟨_, issue_as (i := .sendBit level b) 0
    ((((s.accept (.sendBit level b)).withLineO level).pass s.arg.toNat).withWork fun w => { w with k := 0 }) idle rfl ?_ rfl⟩
  rw [Cmd.bind_apply, look_apply, Cmd.andThen_ok, State.opLevel_accept, Cmd.bind_apply, look_apply, Cmd.andThen_ok,
    Cmd.bind_apply, sendBit_alone level _ (s := s.accept (.sendBit level b)) undisturbed]
  rfl

/-- Settles O24: the command is `sampleBit` of its operand, whose reading is the average's. -/
theorem sampleBit : Obligations.SampleBit := by
  intro s a b ready
  obtain ⟨idle, undisturbed⟩ := State.ready_iff.1 ready
  rw [← ofFlag_majority]
  refine ⟨_, issue_as (i := .sampleBit a b) (Word.ofFlag (majority (s.samples s.arg.toNat)))
    (((s.accept (.sampleBit a b)).pass s.arg.toNat).withWork fun w =>
      { w with k := 0, v := Filter.half.run (s.samples s.arg.toNat) }) idle rfl ?_ rfl⟩
  rw [Cmd.bind_apply, look_apply, Cmd.andThen_ok, Cmd.bind_apply,
    sampleBit_alone _ (s := s.accept (.sampleBit a b)) undisturbed]
  rfl

end BitLayer

end Sys2Proof.Machine

/-! SUPPORT. The byte layer (spec/41_byte_layer.md R141 to R145): its three commands alone. -/

namespace Sys2Proof.Machine

/-! ### `SEND_BYTE` -/

/-- The level of a symbol `j` ticks after its start: the sync pulse, the gap, the data bits (R101). -/
theorem levelIn_symbolRuns {c : Config} (width : 0 < c.bitWidth) (x : Byte) {j : Nat} (hj : j < tByte c) :
    levelIn false (symbolRuns c x) j =
      if j < c.bitSpacer then true
      else if j < c.bitSpacer + c.bitWidth then false
      else x.getLsbD ((j - c.bitSpacer - c.bitWidth) / c.bitWidth) := by
  rw [tByte] at hj
  simp only [symbolRuns, levelIn, List.range_eq_range']
  split
  · rfl
  · by_cases gap : j < c.bitSpacer + c.bitWidth
    · rw [if_pos gap, if_pos (by omega)]
    · rw [if_neg gap, if_neg (by omega), levelIn_equal _ _ _ width _ _ (by omega), Nat.zero_add]

/-! ### `RECEIVE_BYTE` -/

/-- The run of HIGH samples is the one that fills its bound or ends at a LOW sample. -/
theorem State.highRun_eq {s : State} {n h τ : Nat} (fits : h ≤ n) (high : ∀ j, j < h → s.lineAt (τ + j) = true)
    (ended : h = n ∨ s.lineAt (τ + h) = false) : s.highRun n τ = h := by
  apply le_antisymm
  · rcases ended with rfl | low
    · exact s.highRun_le h τ
    · by_contra longer
      exact absurd (s.highRun_high (not_le.1 longer)) (by simp [low])
  · by_contra shorter
    exact absurd (high _ (not_le.1 shorter)) (by simp [s.highRun_end (show s.highRun n τ < n by omega)])

/-- Stage 1 passed after `h` HIGH samples, and one LOW sample when `c` is 1 (R145). -/
theorem receiveByte_pulse {s : State} {h c : Nat} (undisturbed : s.undisturbed = true) (some_high : 1 ≤ h)
    (fits : h ≤ s.cfg.val.bitSpacer) (high : ∀ j, j < h → s.line.level (s.time + j) = true)
    (ended : (h = s.cfg.val.bitSpacer ∧ c = 0)
      ∨ (h < s.cfg.val.bitSpacer ∧ s.line.level (s.time + h) = false ∧ c = 1)) :
    ∃ f, receiveByte s = gapAndData (((s.withLineOe false).pass (h + c)).withWork f) := by
  obtain ⟨n, -, -, counted, passed⟩ := receiveByte_sync undisturbed (high 0 some_high)
  have input : ∀ τ, (s.withLineOe false).lineAt τ = s.line.level τ := State.lineAt_input rfl
  have run : n = h := counted.symm.trans <|
    State.highRun_eq fits (fun j hj => (input _).trans (high j hj)) <|
      ended.imp And.left fun ⟨_, low, _⟩ => (input _).trans low
  have ticks : syncTicks s.cfg.val n = h + c := by
    rw [run, syncTicks]
    split <;> omega
  exact ⟨_, ticks ▸ passed⟩

/-- `RECEIVE_BYTE` whose `receiveByte` takes `d` ticks and drives nothing. -/
theorem exec_receiveByte_of {s : State} {a b : Byte} {r : ByteResult} {d : Nat} {w : Work} (idle : s.busy = false)
    (received : receiveByte (s.accept (.receiveByte a b)) =
      .ok (r, (((s.accept (.receiveByte a b)).withLineOe false).pass d).withWork fun _ => w)) :
    exec (.receiveByte a b) s = .next { s.after (.receiveByte a b) d (resultByteResult r) with
      lineOe := false, trace := pushRun ⟨false, s.lineO⟩ d s.trace, work := w } :=
  issue_as (i := .receiveByte a b) _ _ idle rfl (by rw [Cmd.bind_apply, received]; rfl) rfl

/-! ### The three commands -/

namespace ByteLayer

/-- Settles O28: the pins show the levels of the byte's symbol, and the ticks before go on in the trace. -/
theorem sendByte : Obligations.SendByte := by
  intro s x b ready
  obtain ⟨w, sent⟩ := exec_sendByte_alone x b ready
  refine ⟨_, sent, rfl, (State.GoesOn.of_exec sent).pins, fun j hj => ?_⟩
  rw [exec_sendByte_pins ready sent hj, levelIn_symbolRuns (Cfg.bitWidth_pos s.cfg) x hj]

/-- Settles O29: the command is `readByte`. -/
theorem readByte : Obligations.ReadByte := by
  intro s a b ready
  obtain ⟨idle, undisturbed⟩ := State.ready_iff.1 ready
  obtain ⟨r, w, read, -, bits⟩ := readByte_alone (s := s.accept (.readByte a b)) undisturbed
  exact ⟨r, w, issue_as (i := .readByte a b) (resultByte r) _ idle rfl (by rw [Cmd.bind_apply, read]; rfl) rfl, bits⟩

/-- Settles O30: stage 1 sees no pulse, or it passes and the gap window decides. -/
theorem receiveByte : Obligations.ReceiveByte := by
  intro s a b ready
  obtain ⟨idle, undisturbed⟩ := State.ready_iff.1 ready
  refine ⟨fun low => ?_, fun h c some_high fits high ended => ?_⟩
  · obtain ⟨w, received, -⟩ := receiveByte_low (s := s.accept (.receiveByte a b)) undisturbed low
    exact ⟨w, exec_receiveByte_of idle received⟩
  obtain ⟨f, passed⟩ := receiveByte_pulse (s := s.accept (.receiveByte a b)) undisturbed some_high fits high ended
  rw [Nat.add_assoc s.time h c]
  obtain ⟨gap_high, gap_low⟩ := gapAndData_alone
    (s := (((s.accept (.receiveByte a b)).withLineOe false).pass (h + c)).withWork f) undisturbed rfl
  refine ⟨fun window => ?_, fun window => ?_⟩
  · obtain ⟨w, ended_high, -⟩ := gap_high window
    rw [← passed, State.withWork_pass, State.pass_pass] at ended_high
    exact ⟨w, exec_receiveByte_of idle ended_high⟩
  · obtain ⟨r, w, read, -, bits⟩ := gap_low window
    rw [← passed, State.withWork_pass, State.pass_pass] at read
    exact ⟨r, w, exec_receiveByte_of idle read, bits⟩

end ByteLayer

end Sys2Proof.Machine

/-! SUPPORT. The channel sensor (spec/42_channel_sensor.md R161): `CAN_START` alone. -/

namespace Sys2Proof.Machine

/-- The word of a flag, by its two values. -/
theorem ofFlag_eq_ite (flag : Bool) : Word.ofFlag flag = if flag then 1 else 0 := by cases flag <;> rfl

namespace ChannelSensor

/-- Settles O32: the command is `canStart`, which is idle exactly when its eight windows read LOW. -/
theorem canStart : Obligations.CanStart := by
  intro s a b ready
  obtain ⟨idle, undisturbed⟩ := State.ready_iff.1 ready
  obtain ⟨clear, w, sensed, -, windows⟩ := canStart_alone (s := s.accept (.canStart a b)) undisturbed
  refine ⟨clear, w, ?_, windows⟩
  rw [← ofFlag_eq_ite]
  exact issue_as (i := .canStart a b) (Word.ofFlag clear) _ idle rfl
    (by rw [Cmd.bind_apply, sensed]; rfl) rfl

end ChannelSensor

end Sys2Proof.Machine

/-! SUPPORT. `SEND_FRAME` (spec/43_packet_codec.md R171 to R179): the command alone, up to the end of the frame's last symbol, and
its three ends. -/

namespace Sys2Proof.Machine

/-! ### The command and its body -/

/-- What a command leaves that took at least one tick: no flag that it did not set itself is fresh. -/
theorem State.after_pos {i : Instr} {d : Nat} {r : Word} {s : State} (pos : 0 < d) :
    s.after i d r = { s with
      regA := fieldA i, regB := fieldB i, result := r, busy := false, done := true, time := s.time + d
      freshDone := true, freshRx := false, freshErr := false, freshCmd := false } := by
  simp [State.after, Nat.ne_of_gt pos]

/-- `SEND_FRAME` is `sendFrame` of its operands, with the payload in `TXBUF` (R171). -/
theorem exec_sendFrame_of {s t : State} {dest len : Byte} {o : TxOutcome} (idle : s.busy = false)
    (fits : len.toNat ≤ maxPayload s.cfg.val)
    (sent : sendFrame dest .tx len.toNat (s.accept (.sendFrame dest len)) = .ok (o, t)) :
    exec (.sendFrame dest len) s = .next (t.finish (resultOutcome o)) := by
  refine issue_ok (i := .sendFrame dest len) idle (decide_eq_true fits) ?_
  simp only [Cmd.bind_apply, look_apply, Cmd.andThen_ok]
  exact (congrArg (Cmd.andThen · _) sent).trans rfl

/-! ### The frame on the line -/

theorem frameBytes_ne_nil (dest : Byte) (body : List Byte) : frameBytes dest body ≠ [] := by simp [frameBytes]

/-- Driving the symbols of a frame and releasing the level (R174, R178). -/
theorem State.transmit_frame {frame : List Byte} (nonempty : frame ≠ []) (u : State) :
    (u.transmit (symbolsRuns u.cfg.val frame)).withLineO false =
      { u with
        lineOe := true, lineO := false, time := u.time + frame.length * tByte u.cfg.val
        trace := driveRuns (symbolsRuns u.cfg.val frame) u.trace
        freshDone := false, freshRx := false, freshErr := false, freshCmd := false } := by
  have ticks : frame.length * tByte u.cfg.val ≠ 0 :=
    Nat.mul_ne_zero (by simpa using nonempty) (Nat.ne_of_gt (tByte_pos u))
  rw [State.transmit, State.drive_eq _ _ rfl, symbolsRuns_ticks]
  simp [State.withLineO, State.withLineOe, ticks]

/-- Step 1 of `sendFrame` lets its ticks pass with nothing driven, when there are any (R172). -/
theorem State.afterSense_eq (s : State) : s.afterSense = { s with
    lineOe := s.afterSense.lineOe, lineO := s.afterSense.lineO, time := s.time + caTicks s.cfg.val
    trace := pushRun ⟨false, false⟩ (caTicks s.cfg.val) s.trace
    freshDone := s.afterSense.freshDone, freshRx := s.afterSense.freshRx, freshErr := s.afterSense.freshErr
    freshCmd := s.afterSense.freshCmd } := by
  unfold State.afterSense
  split
  · rfl
  · next off => simp [caTicks, off]

theorem State.afterSense_outBody (s : State) (src : Nat → Loc) (n : Nat) :
    s.afterSense.outBody src n = s.bodyFor (s.readBytes src n) := by
  simp only [State.outBody, State.bodyFor, State.readBytes, State.afterSense_cfg, State.afterSense_byteAt, State.afterSense_now]

theorem State.afterSense_outFrame (s : State) (dest : Byte) (src : Nat → Loc) (n : Nat) :
    s.afterSense.outFrame dest src n = s.frameFor dest (s.readBytes src n) :=
  congrArg (frameBytes dest) (s.afterSense_outBody src n)

/-- `v` is the block when a `sendFrame` begun in `s` has driven the frame around `body` and released the level (R171 to R178). -/
structure State.SentFrame (s : State) (dest : Byte) (body : List Byte) (v : State) : Prop where
  eq : v = { s with
    lineOe := true, lineO := false, time := s.time + frameTicks s.cfg.val (frameBytes dest body)
    trace := s.sentTrace (frameBytes dest body), fbuf := v.fbuf, sbox := v.sbox, work := v.work
    freshDone := false, freshRx := false, freshErr := false, freshCmd := false }
  stores : s.storesBody v body
  sbox : s.cfg.val.encEn = false → v.sbox = s.sbox

/-- `sendFrame` on a clear channel: the frame is sent; then step 6 decides whether a response is awaited (R178, R179). -/
theorem sendFrame_sent (dest : Byte) (src : Nat → Loc) (n : Nat) {s : State} (undisturbed : s.undisturbed = true)
    (clear : s.channelClear) :
    ∃ v, s.SentFrame dest (s.bodyFor (s.readBytes src n)) v
      ∧ sendFrame dest src n s =
        (if dest = broadcastAddr ∨ s.cfg.val.simplex = true then (pure .ack : Cmd TxOutcome) else awaitResponse) v := by
  obtain ⟨u, w, hidden, sbox, -, stores, sent⟩ := sendFrame_clear dest src n undisturbed clear
  rw [State.afterSense_outBody] at stores
  rw [State.afterSense_outFrame] at sent
  have cfg : u.cfg = s.cfg := hidden.cfg.trans s.afterSense_cfg
  have driven := State.transmit_frame (frameBytes_ne_nil dest (s.bodyFor (s.readBytes src n))) u
  rw [cfg] at driven
  refine ⟨((u.transmit (symbolsRuns s.cfg.val (s.frameFor dest (s.readBytes src n)))).withLineO false).withWork fun _ => w,
    ⟨?_, ⟨fun j hj => ?_, fun l h1 h2 => ?_⟩, fun off => ?_⟩, sent⟩ <;> rw [State.frameFor, driven]
  · generalize hfb : u.fbuf = fb, hsb : u.sbox = sb
    have eq := hidden.eq
    rw [s.afterSense_eq, hfb, hsb] at eq
    rw [eq]
    simp [State.withWork, frameTicks, State.sentTrace, Nat.add_assoc]
  · exact stores.1 j hj
  · exact stores.2 l h1 h2
  · exact sbox off

/-- `SEND_FRAME` on a clear channel: the frame is sent; then step 6 decides whether a response is awaited. -/
theorem exec_sendFrame_sent {s : State} {dest len : Byte} (ready : s.ready = true) (clear : s.channelClear) :
    ∃ v, (s.accept (.sendFrame dest len)).SentFrame dest (s.bodyFor (s.readBytes .tx len.toNat)) v
      ∧ sendFrame dest .tx len.toNat (s.accept (.sendFrame dest len)) =
        (if dest = broadcastAddr ∨ s.cfg.val.simplex = true then (pure .ack : Cmd TxOutcome) else awaitResponse) v := by
  obtain ⟨v, sent, run⟩ := sendFrame_sent dest .tx len.toNat (s := s.accept (.sendFrame dest len))
    (State.ready_iff.1 ready).2 clear
  rw [State.readBytes_accept] at sent
  exact ⟨v, sent, run⟩

theorem frameTicks_pos (s : State) (dest : Byte) (body : List Byte) : 0 < frameTicks s.cfg.val (frameBytes dest body) := by
  have := tByte_pos s
  rw [frameTicks, frameBytes_length]
  positivity

namespace State.SentFrame

variable {s v : State} {dest : Byte} {body : List Byte}

theorem cfg {i : Instr} (h : (s.accept i).SentFrame dest body v) : v.cfg = s.cfg := by rw [h.eq]; rfl

theorem line {i : Instr} (h : (s.accept i).SentFrame dest body v) : v.line = s.line := by rw [h.eq]; rfl

theorem time {i : Instr} (h : (s.accept i).SentFrame dest body v) :
    v.time = s.time + frameTicks s.cfg.val (frameBytes dest body) := by rw [h.eq]; rfl

theorem undisturbed {i : Instr} (h : (s.accept i).SentFrame dest body v) : v.undisturbed = s.undisturbed := by
  rw [h.eq]; rfl

/-- The end of `SEND_FRAME` with no response awaited (R178). -/
theorem finish {i : Instr} (h : (s.accept i).SentFrame dest body v) {r : Word} {t : State} (ended : t = v.finish r) :
    t = { s.after i (frameTicks s.cfg.val (frameBytes dest body)) r with
      lineOe := true, lineO := false, trace := s.sentTrace (frameBytes dest body)
      fbuf := t.fbuf, sbox := t.sbox, work := t.work } := by
  subst ended
  rw [State.after_pos (frameTicks_pos s dest body)]
  exact congrArg (State.finish r) h.eq

/-- The end of `SEND_FRAME` after `d` ticks of listening (R179). -/
theorem finish_listened {i : Instr} (h : (s.accept i).SentFrame dest body v) {d : Nat} {w : Work} {r : Word}
    {t : State} (ended : t = (((v.withLineOe false).pass d).withWork fun _ => w).finish r) :
    t = { s.after i (frameTicks s.cfg.val (frameBytes dest body) + d) r with
        lineOe := false, lineO := false, trace := pushRun ⟨false, false⟩ d (s.sentTrace (frameBytes dest body))
        fbuf := t.fbuf, sbox := t.sbox, work := t.work } := by
  subst ended
  rw [State.after_pos (Nat.add_pos_left (frameTicks_pos s dest body) d), Nat.add_assoc s.time _ d |>.symm]
  exact congrArg (fun u => (((State.withLineOe false u).pass d).withWork fun _ => w).finish r) h.eq

end State.SentFrame

/-! ### The three ends -/

/-- Settles O33: `sendFrame` ends with step 1, the only thing that took ticks. -/
theorem sendFrameBusy : Obligations.SendFrameBusy := by
  intro s dest len ready fits busy
  obtain ⟨idle, undisturbed⟩ := State.ready_iff.1 ready
  have on : s.cfg.val.caEn = true := by
    by_contra off
    exact busy fun on => absurd on off
  obtain ⟨w, run, -⟩ := sendFrame_busy dest .tx len.toNat (s := s.accept (.sendFrame dest len)) undisturbed busy
  rw [State.afterSense, if_pos (by exact on), State.accept_cfg, caTicks, if_pos on] at run
  exact ⟨w, exec_sendFrame_of idle fits run⟩

/-- Settles O34: the frame is sent, and step 6 asks for no response. -/
theorem sendFrameUnanswered : Obligations.SendFrameUnanswered := by
  intro s dest len ready fits clear unanswered
  obtain ⟨v, sent, run⟩ := exec_sendFrame_sent (dest := dest) (len := len) ready clear
  rw [if_pos (by exact unanswered)] at run
  refine ⟨_, exec_sendFrame_of (State.ready_iff.1 ready).1 fits run, sent.finish rfl, sent.stores, sent.sbox, ?_⟩
  rw [State.frameFor, frameBytes_length, State.bodyFor, frameBody_length, State.readBytes_length]
  omega

/-- The response decides the end of `SEND_FRAME` to a node on a bidirectional link (R179). -/
theorem exec_sendFrame_awaiting {s : State} {dest len : Byte} (ready : s.ready = true) (fits : len.toNat ≤ maxPayload s.cfg.val)
    (clear : s.channelClear) (node : dest ≠ 124) (bidirectional : s.cfg.val.simplex = false) :
    ∃ v, (s.accept (.sendFrame dest len)).SentFrame dest (s.bodyFor (s.readBytes .tx len.toNat)) v
      ∧ ∀ o d w, awaitResponse v = .ok (o, ((v.withLineOe false).pass d).withWork fun _ => w) →
        ∃ t, exec (.sendFrame dest len) s = .next t
          ∧ t = { s.after (.sendFrame dest len)
                (frameTicks s.cfg.val (s.frameFor dest (s.readBytes .tx len.toNat)) + d) (resultOutcome o) with
              lineOe := false, lineO := false
              trace := pushRun ⟨false, false⟩ d (s.sentTrace (s.frameFor dest (s.readBytes .tx len.toNat)))
              fbuf := t.fbuf, sbox := t.sbox, work := t.work }
          ∧ s.storesBody t (s.bodyFor (s.readBytes .tx len.toNat)) := by
  obtain ⟨v, sent, run⟩ := exec_sendFrame_sent (dest := dest) (len := len) ready clear
  rw [if_neg (by rintro (h | h); exacts [node h, by simp [bidirectional] at h])] at run
  refine ⟨v, sent, fun o d w response => ⟨_, exec_sendFrame_of (State.ready_iff.1 ready).1 fits (run.trans response), ?_, ?_⟩⟩
  · exact sent.finish_listened rfl
  · simpa only [State.storesBody, State.byteAt_finish, State.byteAt_withWork, State.byteAt_pass, State.byteAt_withLineOe,
      State.byteAt_accept, State.accept_cfg] using sent.stores

/-- Settles O35: the response is awaited from the end of the frame on. -/
theorem sendFrameAnswered : Obligations.SendFrameAnswered := by
  intro s dest len ready fits clear node bidirectional body frame listen
  obtain ⟨v, sent, ends⟩ := exec_sendFrame_awaiting ready fits clear node bidirectional
  have undisturbed := sent.undisturbed.trans (State.ready_iff.1 ready).2
  have begins : v.time = listen := sent.time
  refine ⟨fun quiet => ?_, fun x e inside quiet carried => ?_⟩
  · obtain ⟨w, silence, -⟩ := awaitResponse_quiet undisturbed (by rw [State.quietLine, sent.line, sent.cfg, begins]; exact quiet)
    rw [sent.cfg] at silence
    exact ends _ _ w silence
  · obtain ⟨w, response, -⟩ := awaitResponse_symbol x e undisturbed (by rw [sent.cfg]; exact inside)
      (by rw [State.quietLine, sent.line, begins]; exact quiet)
      (by rw [State.carries, sent.line, sent.cfg, begins]; exact carried)
    rw [sent.cfg] at response
    have code : resultOutcome (outcomeOfResponse (.byte x)) = if x = 6 then 2 else if x = 21 then 3 else 4 := by
      simp only [outcomeOfResponse, ByteResult.byte.injEq, ackByte, nakByte]
      split
      · rfl
      · split <;> rfl
    rw [← code]
    exact ends _ _ w response

end Sys2Proof.Machine

/-! SUPPORT. `RECEIVE_FRAME` without an `Ack` (spec/43_packet_codec.md R180, R181, R184, R186): the command that meets one of the
attempts that `Attempt` lists, and what it leaves. -/

namespace Sys2Proof.Machine

/-! ### The command and its body -/

/-- `RECEIVE_FRAME` is `receiveFrame` (R180). -/
theorem exec_receiveFrame_of {s t : State} {a b : Byte} {o : TxOutcome} (idle : s.busy = false)
    (run : receiveFrame (s.accept (.receiveFrame a b)) = .ok (o, t)) :
    exec (.receiveFrame a b) s = .next (t.finish (resultOutcome o)) :=
  issue_ok (i := .receiveFrame a b) idle rfl (by rw [Cmd.bind_apply, run]; rfl)

/-- The end of a command that met attempts: whatever the working registers held, the whole next state. -/
theorem State.Met.finish {s t : State} {i : Instr} {f : Work → Work} {as : List Attempt}
    (h : ((s.accept i).withWork f).Met as t) {r : Word} {u : State} (ended : u = t.finish r) :
    u = { s.after i (attemptsTicks s.cfg.val as) r with
      lineOe := (attemptsPins s.cfg.val as (⟨s.lineOe, s.lineO⟩, s.trace)).1.oe
      lineO := (attemptsPins s.cfg.val as (⟨s.lineOe, s.lineO⟩, s.trace)).1.o
      trace := (attemptsPins s.cfg.val as (⟨s.lineOe, s.lineO⟩, s.trace)).2
      rxbuf := attemptsBytes as s.rxbuf, work := u.work } := by
  subst ended
  exact congrArg (State.finish r) h.eq

/-- Of the storage, attempts write `RXBUF`. -/
theorem State.Met.byteAt {s t : State} {as : List Attempt} (h : s.Met as t) :
    t.byteAt = ({ s with rxbuf := attemptsBytes as s.rxbuf } : State).byteAt := by
  funext l
  rw [h.eq]
  cases l <;> rfl

/-- `RXBUF[0 ..]` of `t` holds the bytes, and every other byte of storage reads as in `s`. -/
def State.storesRead (s t : State) (bytes : List Byte) : Prop :=
  (∀ i, i < bytes.length → some (t.byteAt (.rx i)) = bytes[i]?)
    ∧ ∀ l, (∀ i, i < bytes.length → l ≠ .rx i) → t.byteAt l = s.byteAt l

theorem State.storesRead_writeBytes (s : State) (bytes : List Byte) : s.storesRead (s.writeBytes .rx 0 bytes) bytes := by
  refine ⟨fun i hi => ?_, fun l other => State.byteAt_writeBytes_other _ _ _ _ _ fun j _ hj => other j (by omega)⟩
  have written := State.byteAt_writeBytes_same region_rx 0 bytes s (fun _ => trivial) i hi
  rw [Nat.zero_add] at written
  rw [written, List.getElem?_eq_getElem hi]

theorem State.storesRead_congr {s t t' : State} {bytes : List Byte} (same : t'.byteAt = t.byteAt)
    (h : s.storesRead t bytes) : s.storesRead t' bytes := by
  simpa only [State.storesRead, same] using h

/-- An attempt stores the symbols that it reads. -/
theorem State.Met.storesRead {s t : State} {a : Attempt} (h : s.Met [a] t) : s.storesRead t a.bytes := by
  refine State.storesRead_congr ?_ (s.storesRead_writeBytes a.bytes)
  rw [h.byteAt, State.writeBytes_rx_eq, State.writeBytes_rxbuf]
  rfl

/-! ### One attempt -/

theorem Attempt.runs_other (c : Config) (x : Byte) : (Attempt.other x).runs c = symbolRuns c x := by
  simp [Attempt.runs, Attempt.bytes, Attempt.tail, symbolsRuns]

theorem Attempt.runs_badLength (c : Config) (x n : Byte) : (Attempt.badLength x n).runs c = symbolsRuns c [x, n] :=
  List.append_nil _

theorem Attempt.runs_bad (c : Config) (x n : Byte) (xs : List Byte) :
    (Attempt.bad x n xs).runs c = symbolsRuns c (x :: n :: xs) := List.append_nil _

/-- `RECEIVE_FRAME` that meets an attempt: its outcome, its ticks and its symbols. -/
theorem exec_receiveFrame_attempt {s : State} (att : Attempt) (a b : Byte) (ready : s.ready = true) (legal : att.legal s)
    (carried : s.carries s.time (att.runs s.cfg.val)) :
    ∃ t, exec (.receiveFrame a b) s = .next t
      ∧ t = { s.after (.receiveFrame a b) (att.ticks s.cfg.val) att.code with
          lineOe := (att.drives s.cfg.val (⟨s.lineOe, s.lineO⟩, s.trace)).1.oe
          lineO := (att.drives s.cfg.val (⟨s.lineOe, s.lineO⟩, s.trace)).1.o
          trace := (att.drives s.cfg.val (⟨s.lineOe, s.lineO⟩, s.trace)).2
          rxbuf := t.rxbuf, work := t.work }
      ∧ s.storesRead t att.bytes := by
  obtain ⟨idle, undisturbed⟩ := State.ready_iff.1 ready
  obtain ⟨t, run, met⟩ := receiveFrame_attempt att (s := s.accept (.receiveFrame a b)) undisturbed
    (by cases att <;> exact legal) carried
  have stores := State.storesRead_congr (State.byteAt_finish att.code t) met.storesRead
  rw [← att.code_outcome.1] at stores ⊢
  refine ⟨_, exec_receiveFrame_of idle run, ?_, by simpa only [State.storesRead, State.byteAt_accept] using stores⟩
  have eq := State.Met.finish (s := s) (i := .receiveFrame a b) (f := id) met (r := resultOutcome att.outcome) rfl
  rw [show (t.finish (resultOutcome att.outcome)).rxbuf = _ from met.rxbuf]
  exact eq

/-- An attempt that is not answered drives nothing. -/
theorem exec_receiveFrame_unanswered {s : State} (att : Attempt) (a b : Byte) {d : Nat} (ready : s.ready = true)
    (legal : att.legal s) (carried : s.carries s.time (att.runs s.cfg.val)) (unanswered : att.answered s.cfg.val = false)
    (heard : att.heard s.cfg.val = d) :
    ∃ t, exec (.receiveFrame a b) s = .next t
      ∧ t = { s.after (.receiveFrame a b) d att.code with
          lineOe := false, trace := pushRun ⟨false, s.lineO⟩ d s.trace, rxbuf := t.rxbuf, work := t.work }
      ∧ s.storesRead t att.bytes := by
  obtain ⟨t, run, eq, stores⟩ := exec_receiveFrame_attempt att a b ready legal carried
  refine ⟨t, run, ?_, stores⟩
  simpa [Attempt.drives, Attempt.ticks, unanswered, heard, State.after] using eq

/-- An attempt that is answered drives the symbol of 21 and releases the level (R184, R178). -/
theorem exec_receiveFrame_answered {s : State} (att : Attempt) (a b : Byte) {d : Nat} (ready : s.ready = true)
    (legal : att.legal s) (carried : s.carries s.time (att.runs s.cfg.val)) (answered : att.answered s.cfg.val = true)
    (heard : att.heard s.cfg.val = d) :
    ∃ t, exec (.receiveFrame a b) s = .next t
      ∧ t = { s.after (.receiveFrame a b) (d + tByte s.cfg.val) att.code with
          lineOe := true, lineO := false
          trace := driveRuns (symbolRuns s.cfg.val 21) (pushRun ⟨false, s.lineO⟩ d s.trace)
          rxbuf := t.rxbuf, work := t.work }
      ∧ s.storesRead t att.bytes := by
  obtain ⟨t, run, eq, stores⟩ := exec_receiveFrame_attempt att a b ready legal carried
  refine ⟨t, run, ?_, stores⟩
  simpa [Attempt.drives, Attempt.ticks, answered, heard, State.after] using eq

/-! ### No frame for this node, or a part of one -/

/-- Settles O38: a LOW line, and the two attempts that a check of the header ends. -/
theorem receiveFrameAbort : Obligations.ReceiveFrameAbort := by
  intro s a b ready
  refine ⟨fun low => ?_, fun x carried own broadcast => ?_, fun x n carried address bad => ?_⟩
  · obtain ⟨idle, undisturbed⟩ := State.ready_iff.1 ready
    obtain ⟨w, run, -⟩ := receiveFrame_low (s := s.accept (.receiveFrame a b)) undisturbed low
    exact ⟨w, exec_receiveFrame_of idle run⟩
  · obtain ⟨t, run, eq, stored, others⟩ := exec_receiveFrame_unanswered (.other x) a b ready ⟨own, broadcast⟩
      (by rw [Attempt.runs_other]; exact carried) rfl (Nat.one_mul _)
    exact ⟨t, run, eq, Option.some.inj (stored 0 Nat.one_pos), fun l h0 => others l fun i hi => by
      obtain rfl : i = 0 := Nat.lt_one_iff.1 hi
      exact h0⟩
  · obtain ⟨t, run, eq, stored, others⟩ := exec_receiveFrame_unanswered (.badLength x n) a b ready ⟨address, bad⟩
      (by rw [Attempt.runs_badLength]; exact carried) rfl rfl
    refine ⟨t, run, eq, Option.some.inj (stored 0 Nat.two_pos), Option.some.inj (stored 1 Nat.one_lt_two),
      fun l h0 h1 => others l fun i hi => ?_⟩
    obtain rfl | rfl : i = 0 ∨ i = 1 := by simp [Attempt.bytes] at hi; omega
    · exact h0
    · exact h1

/-- Settles O39: the attempt that breaks off. -/
theorem receiveFrameCutOff : Obligations.ReceiveFrameCutOff := by
  intro s a b read how ready address length legal carried ticks
  exact exec_receiveFrame_unanswered (.broken read how) a b ready ⟨⟨address, length⟩, legal⟩ carried rfl rfl

/-! ### A frame that fails its check -/

/-- Settles O40: the attempt of a complete frame, answered or not. -/
theorem receiveFrameNak : Obligations.ReceiveFrameNak := by
  intro s a b x n xs ready address least most complete carried wrong
  have legal : (Attempt.bad x n xs).legal s := ⟨address, least, most, complete, wrong⟩
  have runs : s.carries s.time ((Attempt.bad x n xs).runs s.cfg.val) := by
    rw [Attempt.runs_bad]; exact carried
  have length : (Attempt.bad x n xs).bytes.length = n.toNat := by rw [← complete, Nat.add_comm]; rfl
  have heard : (Attempt.bad x n xs).heard s.cfg.val = n.toNat * tByte s.cfg.val := by rw [← length]; rfl
  by_cases answered : x ≠ 124 ∧ s.cfg.val.simplex = false
  · obtain ⟨t, run, eq, stored, others⟩ :=
      exec_receiveFrame_answered _ a b ready legal runs (decide_eq_true answered) heard
    rw [length] at stored others
    refine ⟨t, run, fun _ _ => by rw [Nat.succ_mul]; exact eq, fun silent => ?_, stored, others⟩
    rcases silent with h | h
    · exact absurd h answered.1
    · exact absurd h (by simp [answered.2])
  · obtain ⟨t, run, eq, stored, others⟩ :=
      exec_receiveFrame_unanswered _ a b ready legal runs (decide_eq_false answered) heard
    rw [length] at stored others
    exact ⟨t, run, fun node bidirectional => absurd ⟨node, bidirectional⟩ answered, fun _ => eq, stored, others⟩

/-! ### One flipped bit -/

/-- Changing one byte by `y` changes the exclusive-or by `y`. -/
theorem xorAll_set (y : Byte) (bytes : List Byte) : ∀ k, k < bytes.length →
    xorAll (bytes.set k (bytes.getD k 0 ^^^ y)) = xorAll bytes ^^^ y := by
  induction bytes with
  | nil => intro k hk; simp at hk
  | cons b bytes ih =>
    intro k hk
    cases k with
    | zero => simp [xorAll_cons, BitVec.xor_assoc, BitVec.xor_comm]
    | succ k =>
      rw [List.set_cons_succ, List.getD_cons_succ, xorAll_cons, ih k (Nat.lt_of_succ_lt_succ hk), xorAll_cons,
        BitVec.xor_assoc]

theorem xorAll_frameBytes (dest : Byte) (body : List Byte) : xorAll (frameBytes dest body) = 0 := xorAll_closed _

theorem Cfg.maxFrameLen_le (c : Cfg) : c.val.maxFrameLen ≤ 256 := by
  obtain ⟨-, -, -, -, -, -, -, -, -, le, -⟩ := Cfg.bounds c
  exact le

/-- The length byte of a frame that the node can hold (R104). -/
theorem frameLength_toNat {c : Cfg} {body : List Byte} (most : body.length + 3 < c.val.maxFrameLen) :
    (BitVec.ofNat 8 (body.length + 3)).toNat = body.length + 3 := by
  rw [BitVec.toNat_ofNat, Nat.mod_eq_of_lt (Nat.lt_of_lt_of_le most (Cfg.maxFrameLen_le c))]

/-- One flipped bit is all that is left of an exclusive-or that was 0 (R325). -/
theorem xorAll_flip {bytes : List Byte} {k j : Nat} (zero : xorAll bytes = 0) (hk : k < bytes.length) (hj : j < 8) :
    xorAll (bytes.set k (bytes.getD k 0 ^^^ BitVec.twoPow 8 j)) = BitVec.twoPow 8 j
      ∧ xorAll (bytes.set k (bytes.getD k 0 ^^^ BitVec.twoPow 8 j)) ≠ 0 := by
  rw [xorAll_set _ _ _ hk, zero, show (0 : Byte) ^^^ BitVec.twoPow 8 j = BitVec.twoPow 8 j from BitVec.zero_xor]
  refine ⟨rfl, fun h => ?_⟩
  have bit := congrArg (BitVec.getLsbD · j) h
  simp [hj] at bit

/-- A change behind the header leaves the header. -/
theorem frameBytes_set (dest : Byte) (body : List Byte) (k : Nat) (v : Byte) :
    (frameBytes dest body).set (k + 2) v = dest :: BitVec.ofNat 8 (body.length + 3)
      :: (body ++ [xorAll (dest :: BitVec.ofNat 8 (body.length + 3) :: body)]).set k v := rfl

/-- Settles O37: the flipped frame is complete, and its exclusive-or is the flipped bit. -/
theorem singleBitError : Obligations.SingleBitError := by
  refine ⟨fun bytes k j zero hk hj => xorAll_flip zero hk hj, ?_⟩
  intro s a b x body k j ready address least most behind inside hj carried
  have nonzero := (xorAll_flip (xorAll_frameBytes x body) (by rw [frameBytes_length]; exact inside) hj).2
  obtain ⟨k, rfl⟩ := Nat.exists_eq_add_of_le' behind
  have length := frameLength_toNat most
  rw [frameBytes_set] at carried nonzero
  obtain ⟨t, run, eq, -⟩ := exec_receiveFrame_attempt (.bad x _ _) a b ready
    ⟨address, by omega, by omega, by simp [length]; omega, nonzero⟩
    (by rw [Attempt.runs_bad]; exact carried)
  exact ⟨t, run, by rw [eq]; rfl, by rw [eq]; rfl, by rw [eq]; rfl, by rw [eq]; rfl, by rw [eq]; rfl⟩

end Sys2Proof.Machine

/-! SUPPORT. `RECEIVE_FRAME` of a valid frame (spec/43_packet_codec.md R180, R183 to R185; spec/60_exceptions.md R262): what one
invocation of `receiveFrame()` leaves, in the storage and elsewhere. -/

namespace Sys2Proof.Machine

/-! ### The storage -/

/-- The storage of `t` after a valid frame around `body` was received in `s`: the payload stands in `RXBUF[2 ..]`, decoded when
the cipher is on, the other bytes of the frame as received, and every other byte but those of `SBOX` reads as in `s`. -/
structure State.HoldsFrame (s : State) (x : Byte) (body : List Byte) (t : State) : Prop where
  payload : t.readBytes (fun i => .rx (2 + i)) (body.length - s.cfg.val.encEn.toNat) =
    if s.cfg.val.encEn then (decodeBytes s.cfg.val true body).bytes else body
  frame : ∀ i, i < 2 ∨ (2 + (body.length - s.cfg.val.encEn.toNat) ≤ i ∧ i < body.length + 3) →
    some (t.byteAt (.rx i)) = (frameBytes x body)[i]?
  sbox : s.cfg.val.encEn = false → t.sbox = s.sbox
  others : ∀ l, (∀ i, i < body.length + 3 → l ≠ .rx i) →
    (s.cfg.val.encEn = true → ∀ i, i < s.cfg.val.encStrength → l ≠ .sb i) → t.byteAt l = s.byteAt l

/-- Only the configuration, the storage before and the storage after count. -/
theorem State.HoldsFrame.congr {s s' t t' : State} {x : Byte} {body : List Byte} (h : s.HoldsFrame x body t)
    (cfg : s'.cfg = s.cfg) (before : s'.byteAt = s.byteAt) (sbox_before : s'.sbox = s.sbox) (after : t'.byteAt = t.byteAt)
    (sbox_after : t'.sbox = t.sbox) : s'.HoldsFrame x body t' where
  payload := by simpa only [State.readBytes, cfg, after] using h.payload
  frame := by simpa only [cfg, after] using h.frame
  sbox off := by rw [sbox_after, sbox_before]; exact h.sbox (by rwa [← cfg])
  others := by simpa only [cfg, before, after] using h.others

theorem frameBytes_body (dest : Byte) (body : List Byte) {i : Nat} (hi : i < body.length) :
    (frameBytes dest body)[2 + i]? = body[i]? := by
  obtain ⟨-, -, -, -, same, -⟩ := frameFormat dest body
  exact same i hi

/-- The body of a frame that stands in `RXBUF` as received. -/
theorem State.storesRead.body {s t : State} {x : Byte} {body : List Byte} (h : s.storesRead t (frameBytes x body)) :
    t.readBytes (fun i => .rx (2 + i)) body.length = body := by
  refine List.ext_getElem (by simp) fun i _ hi => ?_
  have stored := h.1 (2 + i) (by rw [frameBytes_length]; omega)
  rw [frameBytes_body x body hi, List.getElem?_eq_getElem hi] at stored
  simpa [State.readBytes] using Option.some.inj stored

/-- Taking the payload out of a frame that stands in `RXBUF` (R180, R183). -/
theorem State.storesRead.unwrapped {s t : State} {x : Byte} {body : List Byte} (h : s.storesRead t (frameBytes x body))
    (cfg : t.cfg = s.cfg) (sbox : t.sbox = s.sbox) (length : t.work.L.toNat = body.length + 3)
    (least : s.cfg.val.encEn.toNat ≤ body.length) :
    ∃ u, unwrapPayload t = .ok (body.length - s.cfg.val.encEn.toNat, u)
      ∧ u = { t with rxbuf := u.rxbuf, sbox := u.sbox, work := u.work } ∧ s.HoldsFrame x body u := by
  obtain ⟨u, run, eq, -, off, on, others⟩ := unwrapPayload_apply t (by rw [length, cfg, minFrame]; omega)
  have received := h.body
  obtain ⟨stored, kept⟩ := h
  rw [length, cfg] at run on others
  rw [cfg] at off
  rw [frameBytes_length] at stored kept
  refine ⟨u, run, eq, ?_⟩
  cases enc : s.cfg.val.encEn
  · obtain ⟨rx, sb⟩ := off enc
    have same : u.byteAt = t.byteAt := by
      funext l
      rw [eq, rx, sb]
      cases l <;> rfl
    refine State.HoldsFrame.congr ⟨?_, fun i hi => stored i (by omega), fun _ => sbox, fun l hl _ => kept l hl⟩
      rfl rfl rfl same sb
    simpa [enc] using received
  · rw [enc, Bool.toNat_true] at least
    refine ⟨?_, fun i hi => ?_, fun off => absurd (enc.symm.trans off) (by decide), fun l hl hs => ?_⟩
    · simpa [enc, received] using on enc
    · rw [enc, Bool.toNat_true] at hi
      have header_or_rest : ∀ j, j < body.length + 3 - 4 → Loc.rx i ≠ .rx (2 + j) := fun j hj e => by
        injection e with e
        omega
      rw [others _ header_or_rest fun j _ => by simp, stored i (by omega)]
    · rw [others l (fun j hj => hl _ (by omega)) (hs enc), kept l hl]

/-! ### One invocation -/

/-- `u` is the block when `receiveFrame()`, begun in `s`, has read a valid frame around `body` and taken its payload out. -/
structure State.Unwrapped (s : State) (x : Byte) (body : List Byte) (u : State) : Prop where
  eq : u = { (s.withLineOe false).pass ((body.length + 3) * tByte s.cfg.val) with
    rxbuf := u.rxbuf, sbox := u.sbox, work := u.work }
  holds : s.HoldsFrame x body u

/-- Up to the response, and on: the symbol of 6, unless the frame was a broadcast or the link is simplex; then the event (R184,
R185). -/
theorem receiveFrame_unwrapped {s : State} {x : Byte} {body : List Byte} (undisturbed : s.undisturbed = true)
    (address : x = s.cfg.val.ownAddr ∨ x = 124) (least : s.cfg.val.encEn.toNat ≤ body.length)
    (most : body.length + 3 < s.cfg.val.maxFrameLen) (carried : s.carries s.time (symbolsRuns s.cfg.val (frameBytes x body))) :
    ∃ u w, s.Unwrapped x body u
      ∧ (x ≠ 124 ∧ s.cfg.val.simplex = false → receiveFrame s =
          .ok (.ack, (((u.transmit (symbolRuns s.cfg.val ackByte)).withLineO false).rxEvent
            (BitVec.ofNat 8 (body.length - s.cfg.val.encEn.toNat))).withWork fun _ => w))
      ∧ (¬ (x ≠ 124 ∧ s.cfg.val.simplex = false) → receiveFrame s =
          .ok (.ack, (u.rxEvent (BitVec.ofNat 8 (body.length - s.cfg.val.encEn.toNat))).withWork fun _ => w)) := by
  have length := frameLength_toNat most
  obtain ⟨w, run, -, crc, L⟩ := receiveFrame_complete undisturbed x _ _ carried address
    (by rw [length, minFrame]; omega) (by rw [length]; simp; omega)
  rw [length] at run L
  set read := (((s.withLineOe false).pass ((body.length + 3) * tByte s.cfg.val)).writeBytes .rx 0
    (frameBytes x body)).withWork fun _ => w with hread
  have L : read.work.L.toNat = body.length + 3 := L
  have cfg : read.cfg = s.cfg := by simp [hread]
  have stores : s.storesRead read (frameBytes x body) := by
    have written := ((s.withLineOe false).pass ((body.length + 3) * tByte s.cfg.val)).storesRead_writeBytes (frameBytes x body)
    simpa only [hread, State.storesRead, State.byteAt_withWork, State.byteAt_pass, State.byteAt_withLineOe] using written
  obtain ⟨u, unwrapped, eq, holds⟩ := stores.unwrapped cfg (by rw [hread, State.writeBytes_rx_eq]; rfl) L least
  obtain ⟨u', w', unwrapped', -, ack, ack_silent⟩ := concludeFrame_good (s := read) (by simpa [hread] using undisturbed)
    (crc.trans (xorAll_frameBytes x body)) (by rw [cfg, minFrame, L]; omega)
  obtain rfl : u = u' := by
    have same := unwrapped.symm.trans unwrapped'
    injection same with same
    injection same
  rw [cfg, L, Nat.add_sub_cancel] at ack ack_silent
  have answers : read.answers ↔ x ≠ 124 ∧ s.cfg.val.simplex = false := answers_written s _ x _ w
  refine ⟨u, w', ⟨?_, holds⟩, fun h => run.trans (ack (answers.2 h)), fun h => run.trans (ack_silent (mt answers.1 h))⟩
  rw [hread, State.writeBytes_rx_eq] at eq
  exact eq

/-- The receive event for `m` bytes, `d` ticks later (R262). -/
def State.received (s : State) (d : Nat) (m : Byte) : State :=
  { s with
    time := s.time + d, rxLen := m, rxCount := s.rxCount + 1, rxDone := true
    freshDone := false, freshRx := true, freshErr := false, freshCmd := false
    events := s.events ++ [(s.time + d - s.released, .rxFrame m)] }

/-- What one invocation of `receiveFrame()` that meets a valid frame in `s` leaves (R180 to R185). -/
structure State.Delivered (s : State) (x : Byte) (body : List Byte) (t : State) : Prop where
  answered : x ≠ 124 → s.cfg.val.simplex = false →
    t = { s.received ((body.length + 3) * tByte s.cfg.val + tByte s.cfg.val)
            (BitVec.ofNat 8 (body.length - s.cfg.val.encEn.toNat)) with
      lineOe := true, lineO := false
      trace := driveRuns (symbolRuns s.cfg.val 6) (pushRun ⟨false, s.lineO⟩ ((body.length + 3) * tByte s.cfg.val) s.trace)
      rxbuf := t.rxbuf, sbox := t.sbox, work := t.work }
  silent : x = 124 ∨ s.cfg.val.simplex = true →
    t = { s.received ((body.length + 3) * tByte s.cfg.val) (BitVec.ofNat 8 (body.length - s.cfg.val.encEn.toNat)) with
      lineOe := false, lineO := s.lineO, trace := pushRun ⟨false, s.lineO⟩ ((body.length + 3) * tByte s.cfg.val) s.trace
      rxbuf := t.rxbuf, sbox := t.sbox, work := t.work }
  holds : s.HoldsFrame x body t

theorem State.Unwrapped.delivered {s u : State} {x : Byte} {body : List Byte} (h : s.Unwrapped x body u) (w : Work)
    (answered : x ≠ 124 ∧ s.cfg.val.simplex = false) :
    s.Delivered x body ((((u.transmit (symbolRuns s.cfg.val ackByte)).withLineO false).rxEvent
      (BitVec.ofNat 8 (body.length - s.cfg.val.encEn.toNat))).withWork fun _ => w) := by
  rw [State.transmit_symbol ackByte u s.cfg (by rw [h.eq]; rfl)]
  refine ⟨fun _ _ => ?_, fun silent => ?_, h.holds.congr rfl rfl rfl (by funext l; cases l <;> rfl) rfl⟩
  · have eq := h.eq
    generalize u.rxbuf = rx, u.sbox = sb, u.work = wk at eq
    rw [eq]
    simp [State.received, State.withWork, State.rxEvent, State.setRxDone, State.tcur, Nat.add_assoc, State.pins, ackByte]
  · rcases silent with broadcast | simplex
    · exact absurd broadcast answered.1
    · exact absurd simplex (by simp [answered.2])

theorem State.Unwrapped.delivered_silent {s u : State} {x : Byte} {body : List Byte} (h : s.Unwrapped x body u) (w : Work)
    (silent : ¬ (x ≠ 124 ∧ s.cfg.val.simplex = false)) :
    s.Delivered x body ((u.rxEvent (BitVec.ofNat 8 (body.length - s.cfg.val.encEn.toNat))).withWork fun _ => w) := by
  refine ⟨fun node bidirectional => absurd ⟨node, bidirectional⟩ silent, fun _ => ?_,
    h.holds.congr rfl rfl rfl (by funext l; cases l <;> rfl) rfl⟩
  have pos : (body.length + 3) * tByte s.cfg.val ≠ 0 := Nat.mul_ne_zero (by omega) (Nat.ne_of_gt (tByte_pos s))
  have eq := h.eq
  generalize u.rxbuf = rx, u.sbox = sb, u.work = wk at eq
  rw [eq]
  simp [State.received, State.withWork, State.rxEvent, State.setRxDone, State.tcur, State.pins, State.pass, pos,
    State.withLineOe]

/-- One invocation of `receiveFrame()` that meets a valid frame. -/
theorem receiveFrame_valid {s : State} {x : Byte} {body : List Byte} (undisturbed : s.undisturbed = true)
    (address : x = s.cfg.val.ownAddr ∨ x = 124) (least : s.cfg.val.encEn.toNat ≤ body.length)
    (most : body.length + 3 < s.cfg.val.maxFrameLen) (carried : s.carries s.time (symbolsRuns s.cfg.val (frameBytes x body))) :
    ∃ t, receiveFrame s = .ok (.ack, t) ∧ s.Delivered x body t := by
  obtain ⟨u, w, h, ack, ack_silent⟩ := receiveFrame_unwrapped undisturbed address least most carried
  by_cases answered : x ≠ 124 ∧ s.cfg.val.simplex = false
  · exact ⟨_, ack answered, h.delivered w answered⟩
  · exact ⟨_, ack_silent answered, h.delivered_silent w answered⟩

/-! ### The command -/

/-- `RECEIVE_FRAME` that meets a valid frame. -/
theorem exec_receiveFrame_valid {s : State} {a b x : Byte} {body : List Byte} (ready : s.ready = true)
    (address : x = s.cfg.val.ownAddr ∨ x = 124) (least : s.cfg.val.encEn.toNat ≤ body.length)
    (most : body.length + 3 < s.cfg.val.maxFrameLen) (carried : s.carries s.time (symbolsRuns s.cfg.val (frameBytes x body))) :
    ∃ t, exec (.receiveFrame a b) s = .next (t.finish 2) ∧ (s.accept (.receiveFrame a b)).Delivered x body t
      ∧ s.HoldsFrame x body (t.finish 2) := by
  obtain ⟨idle, undisturbed⟩ := State.ready_iff.1 ready
  obtain ⟨t, run, delivered⟩ := receiveFrame_valid (s := s.accept (.receiveFrame a b)) undisturbed address least most carried
  exact ⟨t, exec_receiveFrame_of idle run, delivered, delivered.holds.congr rfl (State.byteAt_accept _ s).symm rfl
    (State.byteAt_finish 2 t) rfl⟩

/-- Settles O41: one invocation of `receiveFrame()` that meets a valid frame. -/
theorem receiveFrameAck : Obligations.ReceiveFrameAck := by
  intro s a b x body ready address least most carried ticks m
  obtain ⟨t, run, delivered, holds⟩ := exec_receiveFrame_valid (a := a) (b := b) ready address least most carried
  have pos : 0 < ticks := Nat.mul_pos (Nat.succ_pos _) (tByte_pos s)
  refine ⟨_, run, fun node bidirectional => ?_, fun silent => ?_, holds.payload, holds.frame, holds.sbox, holds.others⟩
  · rw [State.after_pos (Nat.add_pos_left pos _)]
    exact congrArg (State.finish 2) (delivered.answered node bidirectional)
  · rw [State.after_pos pos]
    exact congrArg (State.finish 2) (delivered.silent silent)

/-! ### The cipher's round trip on bytes (spec/44_cipher.md R203, R204, R209) -/

/-- The keystream does not depend on the bytes: done twice the exclusive-or restores them. -/
theorem xorStream_xorStream (N : Nat) (bs : List Byte) : ∀ g, (xorStream N g (xorStream N g bs).1).1 = bs := by
  induction bs with
  | nil => exact fun _ => rfl
  | cons b bs ih =>
    intro g
    simp only [xorStream, ih]
    rw [BitVec.xor_assoc, BitVec.xor_self, BitVec.xor_zero]

/-- Exclusive-or of every byte with one byte, done twice. -/
theorem map_xor_map_xor (c : Byte) (bs : List Byte) : (bs.map (· ^^^ c)).map (· ^^^ c) = bs := by
  simp [Function.comp_def]

theorem whitenBytes_concat (bs : List Byte) (last : Byte) :
    whitenBytes (bs ++ [last]) = bs.map (· ^^^ last) ++ [last] := by simp [whitenBytes]

/-- Whitening is its own inverse (R204). -/
theorem whitenBytes_whitenBytes (bs : List Byte) : whitenBytes (whitenBytes bs) = bs := by
  cases bs using List.reverseRecOn with
  | nil => rfl
  | append_singleton bs last => rw [whitenBytes_concat, whitenBytes_concat, map_xor_map_xor]

/-- Decoding with an IV undoes encoding with one (R209). -/
theorem decodeBytes_encodeBytes (c : Config) (now : Word) (bs : List Byte) :
    (decodeBytes c true (encodeBytes c now true bs).bytes).bytes = bs := by
  simp only [decodeBytes, encodeBytes, if_true, Bool.true_and, List.getLastD_concat, List.dropLast_concat, map_xor_map_xor,
    xorStream_xorStream]
  cases c.whiten
  · rfl
  · exact whitenBytes_whitenBytes bs

/-- Of a configuration the cipher uses the table size, the key and the whitening. -/
theorem decodeBytes_congr {c d : Config} (strength : c.encStrength = d.encStrength) (key : c.key = d.key)
    (whiten : c.whiten = d.whiten) (ivf : Bool) (bs : List Byte) : decodeBytes c ivf bs = decodeBytes d ivf bs := by
  simp only [decodeBytes, strength, key, whiten]

/-! ### From node to node -/

/-- Two nodes with the same bit timing have the same symbols. -/
theorem symbolsRuns_congr {c d : Config} (width : c.bitWidth = d.bitWidth) (spacer : c.bitSpacer = d.bitSpacer)
    (bytes : List Byte) : symbolsRuns c bytes = symbolsRuns d bytes := by
  simp only [symbolsRuns, show symbolRuns c = symbolRuns d from funext (symbolRuns_congr width spacer)]

/-- Tick by tick the pins of a `SEND_FRAME` with no response show the levels of its frame (R174). -/
theorem pinsDuring_sentTrace {s t : State} {frame : List Byte} (time : t.time = s.time + frameTicks s.cfg.val frame)
    (trace : t.trace = s.sentTrace frame) {j : Nat} (hj : j < frame.length * tByte s.cfg.val) :
    t.pinsDuring (s.time + caTicks s.cfg.val + j) = some ⟨true, levelIn false (symbolsRuns s.cfg.val frame) j⟩ := by
  have shown := pinsBack_driveRuns (symbolsRuns s.cfg.val frame) (pushRun ⟨false, false⟩ (caTicks s.cfg.val) s.trace) j
  rw [symbolsRuns_ticks] at shown
  rw [frameTicks] at time
  rw [State.pinsDuring, if_pos (by omega), trace, State.sentTrace, ← shown hj]
  congr 1
  omega

/-- Settles O42: the line carries the frame that the sender drives, and decoding its body gives the payload. -/
theorem frameRoundTrip : Obligations.FrameRoundTrip := by
  intro s t r dest len a b sender fits clear unanswered hsend receiver address width spacer enc strength key whiten room hline
  obtain ⟨t', sent, eq, -, -, frame_length⟩ := sendFrameUnanswered s dest len sender fits clear unanswered
  cases sent.symm.trans hsend
  set payload := s.readBytes .tx len.toNat with hpayload
  have body_length : (s.bodyFor payload).length = len.toNat + s.cfg.val.encEn.toNat := by
    rw [State.bodyFor, frameBody_length, hpayload, State.readBytes_length]
  have carried : r.carries r.time (symbolsRuns r.cfg.val (s.frameFor dest payload)) := by
    intro j hj
    rw [symbolsRuns_congr width spacer, symbolsRuns_ticks] at hj
    have level := hline j (by rwa [← frame_length])
    rw [pinsDuring_sentTrace (by rw [eq]; rfl) (by rw [eq]) hj] at level
    rw [symbolsRuns_congr width spacer]
    simpa [Pins.drives] using level
  obtain ⟨u, run, answered, silent, held, -⟩ := receiveFrameAck r a b dest (s.bodyFor payload) receiver address
    (by rw [body_length, enc]; omega) (by rw [body_length]; omega) carried
  have decoded : (if r.cfg.val.encEn then (decodeBytes r.cfg.val true (s.bodyFor payload)).bytes else s.bodyFor payload)
      = payload := by
    rw [State.bodyFor, frameBody, enc, decodeBytes_congr strength key whiten]
    split
    · exact decodeBytes_encodeBytes _ _ _
    · rfl
  rw [body_length, enc, Nat.add_sub_cancel] at answered silent held
  rw [← enc, decoded] at held
  rw [BitVec.ofNat_toNat, BitVec.setWidth_eq] at answered silent
  refine ⟨u, run, ?_⟩
  by_cases quiet : dest = 124 ∨ r.cfg.val.simplex = true
  · have eq := silent quiet
    exact ⟨by rw [eq]; rfl, by rw [eq], by rw [eq], by rw [eq], held⟩
  · obtain ⟨node, bidirectional⟩ := not_or.1 quiet
    have eq := answered node (Bool.eq_false_iff.2 bidirectional)
    exact ⟨by rw [eq]; rfl, by rw [eq], by rw [eq], by rw [eq], held⟩

end Sys2Proof.Machine

/-! SUPPORT. `RECEIVE_FRAME_T` (spec/43_packet_codec.md R187; spec/70_reset_and_hazards.md R318, R319): the loop on any line
invocation by invocation, on a line of attempts, and on a line that stays LOW. -/

namespace Sys2Proof.Machine

/-! ### The command and its loop -/

/-- `RECEIVE_FRAME_T` is the loop of `receiveFrame(d)`, run from its start time on (R187). -/
theorem exec_receiveFrameT_eq {s : State} (a b : Byte) (idle : s.busy = false) :
    exec (.receiveFrameT a b) s =
      match receiveUntil s.arg.toNat s.receiveBound ((s.accept (.receiveFrameT a b)).withT0 s.now) with
      | .ok (o, t) => .next (t.finish (resultOutcome o))
      | .error (.cut t) => .next t
      | .error .neverEnds => .fault .neverEnds := by
  have body := receiveFrameT_apply s.arg.toNat (s.accept (.receiveFrameT a b))
  refine (issue_accepted (i := .receiveFrameT a b) _ idle rfl).trans ?_
  rw [Cmd.bind_apply, look_apply, Cmd.andThen_ok, Cmd.bind_apply]
  rw [show (s.accept (.receiveFrameT a b)).opDur = s.arg.toNat from rfl, body]
  rw [show (s.accept (.receiveFrameT a b)).receiveBound = s.receiveBound from rfl,
    show (s.accept (.receiveFrameT a b)).now = s.now from rfl]
  cases receiveUntil s.arg.toNat s.receiveBound ((s.accept (.receiveFrameT a b)).withT0 s.now) with
  | ok r => rfl
  | error e => cases e <;> rfl

/-- `RECEIVE_FRAME_T` whose loop ends. -/
theorem exec_receiveFrameT_of {s t : State} {a b : Byte} {o : TxOutcome} (idle : s.busy = false)
    (run : receiveUntil s.arg.toNat s.receiveBound ((s.accept (.receiveFrameT a b)).withT0 s.now) = .ok (o, t)) :
    exec (.receiveFrameT a b) s = .next (t.finish (resultOutcome o)) := by
  rw [exec_receiveFrameT_eq a b idle, run]

/-- The bound on the invocations lets `2 ^ 32` of them and one more happen. -/
theorem State.receiveBound_split (s : State) {n : Nat} (h : n < 2 ^ 32) : ∃ fuel, s.receiveBound = n + fuel + 1 :=
  ⟨2 ^ 32 + lastHostTick s.host + s.line.length + 1 - n, by rw [State.receiveBound_succ]; omega⟩

/-- Any line, any host: the first invocation that yields `Ack` or ends too late is the last (R187). -/
theorem exec_receiveFrameT_invokes {s : State} {a b : Byte} {n : Nat} {u : Nat → State} {o : Nat → TxOutcome}
    (idle : s.busy = false) (hn : n < 2 ^ 32) (invoked : s.invokes (.receiveFrameT a b) n u o)
    (last : o n = .ack ∨ s.arg.toNat < (u (n + 1)).elapsed s.now) :
    exec (.receiveFrameT a b) s = .next ((u (n + 1)).finish (resultOutcome (o n))) := by
  obtain ⟨start, runs, early⟩ := invoked
  obtain ⟨fuel, bound⟩ := s.receiveBound_split hn
  have loop := receiveUntil_invocations s.arg.toNat s.now n fuel u o (by rw [start]; rfl) runs early last
  rw [start, ← bound] at loop
  exact exec_receiveFrameT_of idle loop

/-! ### A line of attempts -/

theorem attemptsTicks_append (c : Config) (as bs : List Attempt) :
    attemptsTicks c (as ++ bs) = attemptsTicks c as + attemptsTicks c bs := by simp [attemptsTicks]

/-- Attempts after attempts. -/
theorem State.Met.append {s t u : State} {as bs : List Attempt} (h : s.Met as t) (k : t.Met bs u) : s.Met (as ++ bs) u := by
  have fresh : ∀ (b : Bool) (m n : Nat), ((b && decide (m = 0)) && decide (n = 0)) = (b && decide (m + n = 0)) := by
    intro b m n
    simp [Bool.and_assoc]
  have eq := k.eq
  rw [h.pins, h.rxbuf, h.cfg, h.time, h.eq] at eq
  simp only [fresh, Nat.add_assoc, ← attemptsTicks_append] at eq
  refine ⟨?_, k.t0.trans h.t0⟩
  simpa only [attemptsPins, attemptsBytes, List.foldl_append] using eq

theorem State.meets_append {s : State} (as bs : List Attempt) : ∀ T,
    s.meets T (as ++ bs) ↔ s.meets T as ∧ s.meets (T + attemptsTicks s.cfg.val as) bs := by
  induction as with
  | nil => intro T; simp [State.meets, attemptsTicks]
  | cons a as ih =>
    intro T
    rw [List.cons_append, State.meets, State.meets, ih, attemptsTicks_cons, Nat.add_assoc, and_assoc, and_assoc]

/-- Every attempt takes a tick. -/
theorem length_le_attemptsTicks (s : State) (as : List Attempt) : as.length ≤ attemptsTicks s.cfg.val as := by
  induction as with
  | nil => exact Nat.zero_le _
  | cons a as ih =>
    have := a.ticks_pos s
    rw [attemptsTicks_cons, List.length_cons]
    omega

/-- `RECEIVE_FRAME_T` goes through the attempts that end in time; the invocation after them begins in `t`. -/
theorem receiveUntil_met {s : State} {a b : Byte} (ready : s.ready = true) {as : List Attempt} (met : s.meets s.time as)
    (intime : attemptsTicks s.cfg.val as ≤ s.arg.toNat) :
    ∃ t fuel, ((s.accept (.receiveFrameT a b)).withT0 s.now).Met as t
      ∧ t.now = t.work.t0 + BitVec.ofNat 32 (attemptsTicks s.cfg.val as)
      ∧ receiveUntil s.arg.toNat s.receiveBound ((s.accept (.receiveFrameT a b)).withT0 s.now)
        = receiveUntil s.arg.toNat (fuel + 1) t := by
  have length := length_le_attemptsTicks s as
  obtain ⟨fuel, bound⟩ := s.receiveBound_split (n := as.length) (by have := s.arg.isLt; omega)
  obtain ⟨t, run, h, now⟩ := receiveUntil_attempts s.arg.toNat as (fuel + 1) 0
    (s := (s.accept (.receiveFrameT a b)).withT0 s.now) (State.ready_iff.1 ready).2 (BitVec.add_zero _).symm
    ((Nat.zero_add _).trans_le intime) s.arg.isLt
    ((State.meets_congr (s := s) (t := (s.accept (.receiveFrameT a b)).withT0 s.now) rfl rfl as _).2 met)
  rw [Nat.zero_add] at now
  exact ⟨t, fuel, h, now, bound ▸ run⟩

/-- `RECEIVE_FRAME_T` on a line of attempts of which the last, and no other, ends too late (R187). -/
theorem exec_receiveFrameT_attempts {s : State} {a b : Byte} (ready : s.ready = true) {as : List Attempt} {last : Attempt}
    (met : s.meets s.time (as ++ [last])) (intime : attemptsTicks s.cfg.val as ≤ s.arg.toNat)
    (late : s.arg.toNat < attemptsTicks s.cfg.val (as ++ [last])) (nowrap : attemptsTicks s.cfg.val (as ++ [last]) < 2 ^ 32) :
    ∃ w, exec (.receiveFrameT a b) s = .next
      { s.after (.receiveFrameT a b) (attemptsTicks s.cfg.val (as ++ [last])) last.code with
      lineOe := (attemptsPins s.cfg.val (as ++ [last]) (⟨s.lineOe, s.lineO⟩, s.trace)).1.oe
      lineO := (attemptsPins s.cfg.val (as ++ [last]) (⟨s.lineOe, s.lineO⟩, s.trace)).1.o
      trace := (attemptsPins s.cfg.val (as ++ [last]) (⟨s.lineOe, s.lineO⟩, s.trace)).2
      rxbuf := attemptsBytes (as ++ [last]) s.rxbuf, work := w } := by
  obtain ⟨idle, undisturbed⟩ := State.ready_iff.1 ready
  obtain ⟨met_as, met_last⟩ := (State.meets_append as [last] _).1 met
  obtain ⟨t, fuel, h, now, loop⟩ := receiveUntil_met (a := a) (b := b) ready met_as intime
  obtain ⟨legal, carried, -⟩ := (State.meets_congr (s := s) (t := t) h.cfg h.line [last] _).2 met_last
  obtain ⟨v, run, k⟩ := receiveFrame_attempt last (h.undisturbed.trans undisturbed) legal (by rw [h.time]; exact carried)
  have later : v.now = v.work.t0 + BitVec.ofNat 32 (attemptsTicks s.cfg.val (as ++ [last])) := by
    rw [k.now, k.t0, now, attemptsTicks_append, BitVec.ofNat_add, BitVec.add_assoc, h.cfg]
    rfl
  rw [receiveUntil_succ, run, Cmd.andThen_ok, if_pos (.inr (by rw [State.elapsed_eq later nowrap]; exact late))] at loop
  refine ⟨v.work, (exec_receiveFrameT_of idle loop).trans (congrArg _ ?_)⟩
  rw [last.code_outcome.1]
  exact State.Met.finish (s := s) (i := .receiveFrameT a b) (h.append k) rfl

/-! ### A line that stays LOW -/

/-- One invocation on a LOW line: no symbol, and one LOW tick (R145, R318). -/
def Attempt.low : Attempt := .broken [] .low

theorem Attempt.low_legal (s : State) : Attempt.low.legal s :=
  ⟨⟨fun _ h => by simp at h, fun _ h => by simp at h⟩, trivial⟩

theorem Attempt.low_ticks (c : Config) : Attempt.low.ticks c = 1 := by
  simp [Attempt.low, Attempt.ticks, Attempt.heard, Attempt.bytes, Attempt.answered, SymbolFail.ticks]

theorem Attempt.low_drives (c : Config) (p : Pins × List PinRun) :
    Attempt.low.drives c p = (⟨false, p.1.o⟩, pushRun ⟨false, p.1.o⟩ 1 p.2) := by
  simp [Attempt.low, Attempt.drives, Attempt.heard, Attempt.bytes, Attempt.answered, SymbolFail.ticks]

theorem attemptsTicks_low (c : Config) (n : Nat) : attemptsTicks c (List.replicate n Attempt.low) = n := by
  simp [attemptsTicks, Attempt.low_ticks]

theorem attemptsBytes_low (n : Nat) (m : Memory) : attemptsBytes (List.replicate n Attempt.low) m = m := by
  induction n with
  | zero => rfl
  | succ n ih => exact ih

theorem attemptsPins_low (c : Config) (n : Nat) : ∀ p : Pins × List PinRun,
    attemptsPins c (List.replicate (n + 1) Attempt.low) p = (⟨false, p.1.o⟩, pushRun ⟨false, p.1.o⟩ (n + 1) p.2) := by
  induction n with
  | zero => exact Attempt.low_drives c
  | succ n ih =>
    intro p
    have first : attemptsPins c (List.replicate (n + 1 + 1) Attempt.low) p
        = attemptsPins c (List.replicate (n + 1) Attempt.low) (Attempt.low.drives c p) := rfl
    rw [first, ih, Attempt.low_drives, pushRun_add, Nat.add_comm 1]

/-- A line that stays LOW is one of such attempts. -/
theorem State.meets_low {s : State} (n : Nat) : ∀ T, s.quietLine T n → s.meets T (List.replicate n Attempt.low) := by
  induction n with
  | zero => exact fun _ _ => trivial
  | succ n ih =>
    intro T quiet
    refine ⟨Attempt.low_legal s, fun j hj => ?_, ih _ fun j hj => ?_⟩
    · obtain rfl : j = 0 := by
        simpa [Attempt.low, Attempt.runs, Attempt.bytes, Attempt.tail, symbolsRuns, SymbolFail.runs] using hj
      exact quiet 0 (Nat.succ_pos n)
    · rw [Attempt.low_ticks, Nat.add_assoc, Nat.add_comm 1]
      exact quiet (j + 1) (Nat.succ_lt_succ hj)

/-- The elapsed time never exceeds `2^32 − 1`: on a line that stays LOW the loop goes on for ever (R318). -/
theorem receiveUntil_low_forever (d : Nat) (never : 2 ^ 32 - 1 ≤ d) (fuel : Nat) : ∀ {s : State}, s.undisturbed = true →
    (∀ τ, s.time ≤ τ → s.line.level τ = false) → receiveUntil d fuel s = .error .neverEnds := by
  induction fuel with
  | zero => exact fun _ _ => rfl
  | succ fuel ih =>
    intro s undisturbed low
    obtain ⟨w, run, -⟩ := receiveFrame_low undisturbed (low _ (Nat.le_refl _))
    have early : ∀ (t : State) t0, ¬ d < t.elapsed t0 := fun t t0 h => by
      have := (t.now - t0).isLt
      rw [State.elapsed] at h
      omega
    rw [receiveUntil_succ, run, Cmd.andThen_ok, if_neg (not_or.2 ⟨by simp, early _ _⟩)]
    exact ih undisturbed fun τ later => low τ (Nat.le_of_succ_le later)

/-! ### No `Ack` -/

/-- Settles O43: a LOW line is a line of attempts, the last of which is the first that ends too late; when none can, the loop goes on
for ever; and on any line the loop is its invocations. -/
theorem receiveFrameTIdle : Obligations.ReceiveFrameTIdle := by
  refine ⟨fun s a b ready => ⟨fun small quiet => ?_, fun greatest low => ?_, ?_⟩, ?_⟩
  · have lows : List.replicate s.arg.toNat Attempt.low ++ [Attempt.low] = List.replicate (s.arg.toNat + 1) Attempt.low :=
      List.replicate_succ'.symm
    obtain ⟨w, run⟩ := exec_receiveFrameT_attempts (a := a) (b := b) (as := List.replicate s.arg.toNat .low) (last := .low)
      ready (by rw [lows]; exact State.meets_low _ _ quiet) (Nat.le_of_eq (attemptsTicks_low _ _))
      (by rw [lows, attemptsTicks_low]; exact Nat.lt_succ_self _) (by rw [lows, attemptsTicks_low]; omega)
    rw [lows, attemptsTicks_low, attemptsBytes_low, attemptsPins_low] at run
    exact ⟨w, run⟩
  · obtain ⟨idle, undisturbed⟩ := State.ready_iff.1 ready
    rw [exec_receiveFrameT_eq a b idle, receiveUntil_low_forever _ greatest.ge _ (by exact undisturbed) (by exact low)]
  · intro as last ticks pins met intime late nowrap
    have total : attemptsTicks s.cfg.val (as ++ [last]) = ticks := by
      simp [ticks, attemptsTicks]
    rw [← total] at late nowrap ⊢
    exact exec_receiveFrameT_attempts ready met intime late nowrap
  · intro s a b n u o idle hn invoked noAck late
    rw [exec_receiveFrameT_invokes idle hn invoked (.inr late)]
    cases outcome : o n with
    | ack => exact absurd outcome noAck
    | _ => rfl

end Sys2Proof.Machine

/-! SUPPORT. `RECEIVE_FRAME_T` with an `Ack` (spec/43_packet_codec.md R187, R183 to R185): at once, after attempts, and on any
line invocation by invocation. -/

namespace Sys2Proof.Machine

/-! ### An `Ack` at once -/

/-- One invocation of `receiveFrame()` ends, or a reset cuts it off. -/
theorem receiveFrame_exits (s : State) :
    (∃ o t, receiveFrame s = .ok (o, t)) ∨ ∃ u held, receiveFrame s = .error (.cut (State.resetPin held u)) := by
  have keeps : Keeps False (fun u => u.operands = s.operands) receiveFrame :=
    ((Free.operands s.operands).free .all).receiveFrame (fun _ => trivial) (fun _ => trivial) trivial
  have ends := keeps s rfl
  cases run : receiveFrame s with
  | ok r => exact .inl ⟨r.1, r.2, rfl⟩
  | error e =>
    rw [run] at ends
    cases e with
    | cut t =>
      obtain ⟨u, held, -, rfl⟩ := ends
      exact .inr ⟨u, held, rfl⟩
    | neverEnds => exact ends.elim

/-- `RECEIVE_FRAME` whose result is `Ack` ran to the end of its one invocation; a reset leaves no result. -/
theorem exec_receiveFrame_ack {s t : State} {a b : Byte} (idle : s.busy = false) (run : exec (.receiveFrame a b) s = .next t)
    (ack : t.result = 2) : ∃ u, receiveFrame (s.accept (.receiveFrame a b)) = .ok (.ack, u) ∧ t = u.finish 2 := by
  rcases receiveFrame_exits (s.accept (.receiveFrame a b)) with ⟨o, u, ended⟩ | ⟨u, held, cut⟩
  · cases (exec_receiveFrame_of idle ended).symm.trans run
    rw [State.finish_result] at ack
    cases o with
    | ack => exact ⟨u, ended, rfl⟩
    | _ => exact absurd ack (by decide)
  · have reset : exec (.receiveFrame a b) s = .next (u.resetPin held) :=
      (issue_accepted (i := .receiveFrame a b) _ idle rfl).trans (by rw [Cmd.bind_apply, cut]; rfl)
    cases reset.symm.trans run
    rw [State.resetPin_result] at ack
    exact absurd ack (by decide)

/-- When the first invocation yields `Ack`, `RECEIVE_FRAME_T` is `RECEIVE_FRAME`, but for the start time that it keeps. -/
theorem exec_receiveFrameT_of_ack {s t : State} {a b : Byte} (idle : s.busy = false) (run : exec (.receiveFrame a b) s = .next t)
    (ack : t.result = 2) : ∃ w, exec (.receiveFrameT a b) s = .next { t with work := w } := by
  obtain ⟨u, ended, rfl⟩ := exec_receiveFrame_ack idle run ack
  have first := receiveFrame_ignoresT0 s.now (s.accept (.receiveFrameT a b))
  rw [show receiveFrame (s.accept (.receiveFrameT a b)) = _ from ended, mapT0] at first
  refine ⟨(u.withT0 s.now).work, exec_receiveFrameT_of (o := .ack) (t := u.withT0 s.now) idle ?_⟩
  rw [State.receiveBound_succ, receiveUntil_succ, first, Cmd.andThen_ok, if_pos (.inl rfl)]

/-! ### An `Ack` after attempts -/

/-- The end of a command whose receive event comes `d` ticks after attempts, whatever the pins, the trace and the storage are. -/
theorem State.Met.finish_received {s t : State} {i : Instr} {f : Work → Work} {as : List Attempt}
    (h : ((s.accept i).withWork f).Met as t) {d : Nat} (pos : 0 < d) (m : Byte) (oe o : Bool) (tr : List PinRun) (rx sb : Memory)
    (w : Work) :
    ({ t.received d m with lineOe := oe, lineO := o, trace := tr, rxbuf := rx, sbox := sb, work := w } : State).finish 2 =
      { s.after i (attemptsTicks s.cfg.val as + d) 2 with
        rxLen := m, rxCount := s.rxCount + 1, rxDone := true, freshRx := true
        events := s.events ++ [(s.time + (attemptsTicks s.cfg.val as + d) - s.released, .rxFrame m)]
        lineOe := oe, lineO := o, trace := tr, rxbuf := rx, sbox := sb, work := w } := by
  rw [State.after_pos (Nat.add_pos_right _ pos), h.eq, ← Nat.add_assoc]
  rfl

/-- A valid frame after attempts that end in time ends the loop with `Ack`. -/
theorem exec_receiveFrameT_valid {s : State} {a b x : Byte} {body : List Byte} {as : List Attempt} (ready : s.ready = true)
    (met : s.meets s.time as) (intime : attemptsTicks s.cfg.val as ≤ s.arg.toNat) (address : x = s.cfg.val.ownAddr ∨ x = 124)
    (least : s.cfg.val.encEn.toNat ≤ body.length) (most : body.length + 3 < s.cfg.val.maxFrameLen)
    (carried : s.carries (s.time + attemptsTicks s.cfg.val as) (symbolsRuns s.cfg.val (frameBytes x body))) :
    ∃ t v, ((s.accept (.receiveFrameT a b)).withT0 s.now).Met as t ∧ t.Delivered x body v
      ∧ exec (.receiveFrameT a b) s = .next (v.finish 2)
      ∧ ({ s with rxbuf := attemptsBytes as s.rxbuf } : State).HoldsFrame x body (v.finish 2) := by
  obtain ⟨idle, undisturbed⟩ := State.ready_iff.1 ready
  obtain ⟨t, fuel, h, -, loop⟩ := receiveUntil_met (a := a) (b := b) ready met intime
  have cfg : t.cfg = s.cfg := h.cfg
  have line : t.line = s.line := h.line
  obtain ⟨v, run, delivered⟩ := receiveFrame_valid (s := t) (x := x) (body := body) (h.undisturbed.trans undisturbed)
    (by rwa [cfg]) (by rwa [cfg]) (by rwa [cfg]) (by rw [State.carries, line, cfg, h.time]; exact carried)
  rw [receiveUntil_succ, run, Cmd.andThen_ok, if_pos (.inl rfl)] at loop
  refine ⟨t, v, h, delivered, exec_receiveFrameT_of idle loop, delivered.holds.congr cfg.symm ?_ ?_ (State.byteAt_finish 2 v) rfl⟩
  · rw [h.byteAt]
    funext l
    cases l <;> rfl
  · rw [h.eq]
    rfl

/-- Settles O44: the loop ends with the first `Ack`, and leaves what that invocation leaves. -/
theorem receiveFrameTAck : Obligations.ReceiveFrameTAck := by
  refine ⟨fun s a b ready => ⟨fun t run ack => exec_receiveFrameT_of_ack (State.ready_iff.1 ready).1 run ack, ?_⟩, ?_⟩
  · intro as x body met intime address least most carried ticks m pins read
    obtain ⟨t, v, h, delivered, run, holds⟩ :=
      exec_receiveFrameT_valid (a := a) (b := b) ready met intime address least most carried
    have cfg : t.cfg = s.cfg := h.cfg
    have before : (t.pins, t.trace) = pins := h.pins
    have lineO : t.lineO = pins.1.o := congrArg (·.1.o) before
    have trace : t.trace = pins.2 := congrArg Prod.snd before
    have pos : 0 < (body.length + 3) * tByte s.cfg.val := Nat.mul_pos (Nat.succ_pos _) (tByte_pos s)
    refine ⟨_, _, run, rfl, fun node bidirectional => ?_, fun silent => ?_, holds.payload, holds.frame, holds.sbox, holds.others⟩
    · have total : ticks = attemptsTicks s.cfg.val as + ((body.length + 3) * tByte s.cfg.val + tByte s.cfg.val) := by
        simp only [ticks, if_pos (And.intro node bidirectional)]
      have eq := delivered.answered node (by rwa [cfg])
      rw [cfg, lineO, trace] at eq
      rw [total]
      exact (congrArg (State.finish 2) eq).trans (h.finish_received (Nat.add_pos_left pos _) _ _ _ _ _ _ _)
    · have total : ticks = attemptsTicks s.cfg.val as + (body.length + 3) * tByte s.cfg.val := by
        rw [← Bool.not_eq_false, ← not_ne_iff, ← not_and_or] at silent
        simp only [ticks, if_neg silent, Nat.add_zero]
      have eq := delivered.silent (by rwa [cfg])
      rw [cfg, lineO, trace] at eq
      rw [total]
      exact (congrArg (State.finish 2) eq).trans (h.finish_received pos _ _ _ _ _ _ _)
  · intro s a b n u o idle hn invoked ack
    rw [exec_receiveFrameT_invokes idle hn invoked (.inl ack), ack]
    rfl

end Sys2Proof.Machine

/-! SUPPORT. The cipher on bytes (spec/44_cipher.md R202 to R207): the table stays a permutation, the keystream and the
whitening byte by byte, and the search for an IV. -/

namespace Sys2Proof.Machine

/-! ### The table (R202, R203) -/

/-- A swap of two entries of the table permutes it. -/
theorem swapEntries_perm {table : List Byte} {i j : Nat} (hi : i < table.length) (hj : j < table.length) :
    (swapEntries table i j).Perm table := by
  rw [swapEntries, List.getD_eq_getElem table 0 hi, List.getD_eq_getElem table 0 hj]
  exact List.set_set_perm hi hj

/-- The mixing loop permutes the table as long as its indices stay inside it. -/
theorem mixKey_perm {N : Nat} (key : List Byte) (left i j : Nat) (table : List Byte) (length : table.length = N)
    (inside : i + left ≤ N) : (mixKey N key left i j table).Perm table := by
  induction left generalizing i j table with
  | zero => exact .rfl
  | succ left ih =>
    rw [mixKey]
    exact (ih _ _ _ (by rw [swapEntries_length, length]) (by omega)).trans
      (swapEntries_perm (by omega) (by rw [length]; exact Nat.mod_lt _ (by omega)))

theorem keySchedule_perm (N : Nat) (key : List Byte) : (keySchedule N key).Perm ((List.range N).map (BitVec.ofNat 8)) :=
  mixKey_perm key N 0 0 _ (by simp) (by omega)

/-- A round of the generator permutes its table. -/
theorem Keystream.next_perm {N : Nat} {g : Keystream} (pos : 0 < N) (length : g.table.length = N) :
    (g.next N).table.Perm g.table :=
  swapEntries_perm (by rw [length]; exact Nat.mod_lt _ pos) (by rw [length]; exact Nat.mod_lt _ pos)

/-- Settles O45: the key schedule makes a permutation, and every round keeps one. -/
theorem tableIsPermutation : Obligations.TableIsPermutation := by
  intro N key rounds pos _
  induction rounds with
  | zero => exact keySchedule_perm N key
  | succ rounds ih =>
    rw [Function.iterate_succ_apply']
    exact (Keystream.next_perm pos (by simpa using ih.length_eq)).trans ih

/-! ### The keystream (R203) -/

/-- Byte `k` meets the output of round `k + 1`. -/
theorem xorStream_getElem? (N : Nat) (g : Keystream) (bs : List Byte) (k : Nat) (hk : k < bs.length) :
    (xorStream N g bs).1[k]? = some (bs[k] ^^^ ((Keystream.next N)^[k + 1] g).output N) := by
  induction bs generalizing g k with
  | nil => simp at hk
  | cons b bs ih =>
    cases k with
    | zero => rfl
    | succ k =>
      simp only [xorStream, List.getElem?_cons_succ, List.getElem_cons_succ, Function.iterate_succ_apply _ (k + 1)]
      exact ih (g.next N) k (by simpa using hk)

/-- Settles O46: the generator's round, not the bytes, decides each keystream byte. -/
theorem keystreamXor : Obligations.KeystreamXor := by
  intro c bs
  refine ⟨fun k hk => ?_, xorStream_xorStream _ bs _⟩
  rw [xorStream_getElem? _ _ bs k hk, List.getD_eq_getElem bs 0 hk, keystreamByte]

/-- The keystream XOR of bytes given by their index. -/
theorem xorStream_map_range (c : Config) (f : Nat → Byte) (n : Nat) :
    (xorStream c.encStrength (Keystream.start c.encStrength c.key) ((List.range n).map f)).1 =
      (List.range n).map fun j => f j ^^^ keystreamByte c j := by
  refine List.ext_getElem (by simp) fun k hk _ => Option.some.inj ?_
  rw [← List.getElem?_eq_getElem hk, xorStream_getElem? _ _ _ k (by simpa using hk)]
  simp [keystreamByte]

/-! ### The whitening (R204) -/

/-- The whitening of bytes given by their index. -/
theorem whitenBytes_map_range (f : Nat → Byte) (n : Nat) :
    whitenBytes ((List.range n).map f) = (List.range n).map fun j => if j + 1 < n then f j ^^^ f (n - 1) else f j := by
  cases n with
  | zero => rfl
  | succ n =>
    simp only [List.range_succ, List.map_append, List.map_singleton, whitenBytes_concat, List.map_map, Nat.add_sub_cancel,
      Nat.lt_irrefl, if_false]
    congr 1
    refine List.map_congr_left fun j hj => ?_
    rw [if_pos (Nat.succ_lt_succ (List.mem_range.1 hj)), Function.comp_apply]

/-- The bytes, whitened when `on`. -/
theorem ite_whitenBytes_map_range (on : Bool) (f : Nat → Byte) (n : Nat) :
    (if on then whitenBytes ((List.range n).map f) else (List.range n).map f) =
      (List.range n).map fun j => if on = true ∧ j + 1 < n then f j ^^^ f (n - 1) else f j := by
  cases on
  · simp
  · simpa using whitenBytes_map_range f n

/-! ### The IV (R207) -/

/-- Candidate `k` of the cyclic order 1, 2, ..., 254, 1. -/
def ivCandidate (k : Nat) : Byte := BitVec.ofNat 8 (k % 254 + 1)

theorem ivCandidate_toNat (k : Nat) : (ivCandidate k).toNat = k % 254 + 1 := by
  rw [ivCandidate, BitVec.toNat_ofNat]
  omega

theorem nextIv_ivCandidate (k : Nat) : nextIv (ivCandidate k) = ivCandidate (k + 1) := by
  rw [nextIv, ivCandidate_toNat, ivCandidate, Nat.mod_add_mod]

/-- Some candidate is unused: the 254 candidates are different, and there are fewer bytes. -/
theorem exists_ivCandidate_notMem (d : Nat) {bs : List Byte} (few : bs.length ≤ 253) :
    ∃ k, k < 254 ∧ ivCandidate (d + k) ∉ bs := by
  by_contra! all
  have different : ((List.range 254).map fun k => ivCandidate (d + k)).Nodup := by
    refine List.nodup_range.map_on fun i hi j hj same => ?_
    have := congrArg BitVec.toNat same
    simp only [ivCandidate_toNat] at this
    rw [List.mem_range] at hi hj
    omega
  have used : ((List.range 254).map fun k => ivCandidate (d + k)) ⊆ bs := by
    simpa [List.subset_def] using all
  have := (List.subperm_of_subset different used).length_le
  simp only [List.length_map, List.length_range] at this
  omega

/-- The search from candidate `d` on finds the first unused one, when one is within its tests. -/
theorem searchIv_first (bs : List Byte) (tests d : Nat) (unused : ∃ k, k < tests ∧ ivCandidate (d + k) ∉ bs) :
    ∃ k, k < tests ∧ searchIv bs tests (ivCandidate d) = ivCandidate (d + k) ∧ ivCandidate (d + k) ∉ bs
      ∧ ∀ j, j < k → ivCandidate (d + j) ∈ bs := by
  induction tests generalizing d with
  | zero => simp at unused
  | succ tests ih =>
    rw [searchIv]
    by_cases used : ivCandidate d ∈ bs
    · obtain ⟨k, hk, free⟩ := unused
      cases k with
      | zero => exact absurd used free
      | succ k =>
        obtain ⟨k', hk', found, free', before⟩ := ih (d + 1) ⟨k, by omega, by rwa [Nat.add_assoc, Nat.add_comm 1]⟩
        rw [if_pos used, nextIv_ivCandidate, found]
        refine ⟨k' + 1, by omega, by rw [Nat.add_assoc, Nat.add_comm 1], by rwa [← Nat.add_assoc, Nat.add_right_comm], ?_⟩
        intro j hj
        cases j with
        | zero => exact used
        | succ j => rw [← Nat.add_assoc, Nat.add_right_comm]; exact before j (by omega)
    · exact ⟨0, Nat.succ_pos _, if_neg used, used, fun j hj => absurd hj (Nat.not_lt_zero j)⟩

/-- `generateIV` answers the first unused candidate. -/
theorem generateIv_firstUnused (now : Word) {bs : List Byte} (few : bs.length ≤ 253) :
    firstUnused now bs (generateIv now bs) := by
  have start : BitVec.ofNat 8 (now.toNat % 254 + 1) = ivCandidate (now.toNat % 254) := by rw [ivCandidate, Nat.mod_mod]
  rw [generateIv, start]
  obtain ⟨k, hk, found, free, before⟩ := searchIv_first bs 254 _ (exists_ivCandidate_notMem _ few)
  exact ⟨k, hk, found, found ▸ free, before⟩

/-- Every candidate is in 1 to 254. -/
theorem firstUnused_range {now : Word} {bs : List Byte} {c : Byte} (h : firstUnused now bs c) :
    1 ≤ c.toNat ∧ c.toNat ≤ 254 := by
  obtain ⟨k, -, rfl, -⟩ := h
  rw [BitVec.toNat_ofNat]
  omega

/-! ### The two sides of the transform, byte by byte (R201) -/

/-- Byte `j` of `n` bytes after the whitening and the keystream, on the encoding side. -/
def encodeStream (c : Config) (ivf : Bool) (n : Nat) (f : Nat → Byte) (j : Nat) : Byte :=
  (if ivf = true ∧ c.whiten = true ∧ j + 1 < n then f j ^^^ f (n - 1) else f j) ^^^ keystreamByte c j

/-- Byte `j` of the `m` bytes before the IV byte, after the IV and the keystream, on the decoding side. -/
def decodeStream (c : Config) (ivf : Bool) (m : Nat) (f : Nat → Byte) (j : Nat) : Byte :=
  f j ^^^ (if ivf = true then f m else 0) ^^^ keystreamByte c j

/-- Encoding up to the IV. -/
theorem xorStream_whitened (c : Config) (ivf : Bool) (f : Nat → Byte) (n : Nat) :
    (xorStream c.encStrength (Keystream.start c.encStrength c.key)
      (if ivf && c.whiten then whitenBytes ((List.range n).map f) else (List.range n).map f)).1 =
      (List.range n).map (encodeStream c ivf n f) := by
  rw [ite_whitenBytes_map_range, xorStream_map_range]
  simp only [Bool.and_eq_true, and_assoc]
  rfl

theorem decodeBytes_bytes_noIv (c : Config) (bs : List Byte) :
    (decodeBytes c false bs).bytes = (xorStream c.encStrength (Keystream.start c.encStrength c.key) bs).1 := rfl

/-- Encoding with an IV: the stream XORed with the IV byte, and the IV byte. -/
theorem encodeBytes_bytes_iv (c : Config) (now : Word) (f : Nat → Byte) (n : Nat) :
    (encodeBytes c now true ((List.range n).map f)).bytes =
      ((List.range n).map fun j => encodeStream c true n f j ^^^ generateIv now ((List.range n).map (encodeStream c true n f)))
        ++ [generateIv now ((List.range n).map (encodeStream c true n f))] := by
  simp only [encodeBytes, xorStream_whitened, if_true, List.map_map, Function.comp_def]

/-- Decoding, with the last byte as the IV when there is one. -/
theorem decodeBytes_bytes (c : Config) (ivf : Bool) (f : Nat → Byte) (m : Nat) :
    (decodeBytes c ivf ((List.range (m + ivf.toNat)).map f)).bytes = (List.range m).map fun j =>
      if ivf = true ∧ c.whiten = true ∧ j + 1 < m then decodeStream c ivf m f j ^^^ decodeStream c ivf m f (m - 1)
      else decodeStream c ivf m f j := by
  cases ivf with
  | false => simp [decodeBytes_bytes_noIv, xorStream_map_range, decodeStream]
  | true =>
    have stream : (xorStream c.encStrength (Keystream.start c.encStrength c.key) ((List.range m).map fun j => f j ^^^ f m)).1 =
        (List.range m).map (decodeStream c true m f) := xorStream_map_range c _ m
    simp only [decodeBytes, if_true, Bool.toNat_true, List.range_succ, List.map_append, List.map_singleton,
      List.getLastD_concat, List.dropLast_concat, List.map_map, Function.comp_def, stream, ite_whitenBytes_map_range, true_and]

end Sys2Proof.Machine

/-! SUPPORT. `CRYPT` and `GEN_IV` (spec/44_cipher.md R201, R207, R209): what the commands leave, and the round trip by the
commands. -/

namespace Sys2Proof.Machine

/-! ### The end of a command that takes no tick -/

theorem State.after_zero (i : Instr) (r : Word) (s : State) : s.after i 0 r = (s.accept i).finish r := by
  simp [State.after, State.finish, State.setDone, State.accept]

/-! ### Bytes of a region -/

theorem State.readBytes_succ (s : State) (g : Nat → Loc) (n : Nat) :
    s.readBytes g (n + 1) = s.readBytes g n ++ [s.byteAt (g n)] := by
  simp [State.readBytes, List.range_succ]

/-- A region's bytes, known as a list by index, one by one. -/
theorem State.byteAt_of_readBytes {s : State} {g f} {n : Nat} (h : s.readBytes g n = (List.range n).map f) {j : Nat}
    (hj : j < n) : s.byteAt (g j) = f j :=
  List.map_inj_left.1 h j (List.mem_range.2 hj)

/-! ### `CRYPT` -/

/-- The length that `CRYPT` leaves of `n` bytes (R201). -/
def cryptLength (ivf side : Bool) (n : Nat) : Nat := if side then n - ivf.toNat else n + ivf.toNat

theorem State.cryptOut_len (s : State) (g : Nat → Loc) (n : Nat) (ivf side : Bool) :
    (s.cryptOut g n ivf side).len = cryptLength ivf side n := by
  cases side <;> simp [State.cryptOut, cryptLength]

theorem State.cryptOut_length (s : State) (g : Nat → Loc) (n : Nat) (ivf side : Bool) :
    (s.cryptOut g n ivf side).bytes.length = cryptLength ivf side n := by
  cases side <;> simp [State.cryptOut, cryptLength]

theorem State.cryptOut_table_length (s : State) (g : Nat → Loc) (n : Nat) (ivf side : Bool) :
    (s.cryptOut g n ivf side).gen.table.length = s.cfg.val.encStrength := by
  cases side <;> simp [State.cryptOut]

theorem State.cryptOut_accept (i : Instr) (s : State) (g : Nat → Loc) (n : Nat) (ivf side : Bool) :
    (s.accept i).cryptOut g n ivf side = s.cryptOut g n ivf side := by
  simp only [State.cryptOut, State.readBytes_accept, State.accept_cfg, State.accept_now]

/-- `t` is the block after an accepted `CRYPT` begun in `s` (R201): the transformed bytes stand in `TXBUF[0 ..]`, and nothing but
`TXBUF`, `SBOX` and the working registers has changed. -/
structure State.Crypted (s : State) (ivf side : Bool) (len : Byte) (t : State) : Prop where
  eq : t = { s.after (.crypt ivf side len) 0 (BitVec.ofNat 32 (cryptLength ivf side len.toNat)) with
    txbuf := t.txbuf, sbox := t.sbox, work := t.work }
  bytes : t.readBytes .tx (cryptLength ivf side len.toNat) = (s.cryptOut .tx len.toNat ivf side).bytes
  others : ∀ l, (∀ j, j < cryptLength ivf side len.toNat → l ≠ .tx j) → (∀ j, j < s.cfg.val.encStrength → l ≠ .sb j) →
    t.byteAt l = s.byteAt l

/-- The bits of `A` that `CRYPT` reads (R93). -/
theorem fieldA_crypt_bits (len : Byte) : ∀ ivf side,
    (fieldA (.crypt ivf side len)).getLsbD 0 = ivf ∧ (fieldA (.crypt ivf side len)).getLsbD 1 = side := by
  show ∀ ivf side : Bool, (0#6 ++ (BitVec.ofBool side ++ BitVec.ofBool ivf)).getLsbD 0 = ivf ∧
    (0#6 ++ (BitVec.ofBool side ++ BitVec.ofBool ivf)).getLsbD 1 = side
  decide

theorem legalOperands_crypt {c : Config} {ivf side : Bool} {len : Byte}
    (encode : ivf = true → side = false → len.toNat ≤ 253) (decode : ivf = true → side = true → 1 ≤ len.toNat) :
    legalOperands c (.crypt ivf side len) = true := by
  cases ivf with
  | false => rfl
  | true =>
    cases side with
    | false => exact decide_eq_true (encode rfl rfl)
    | true => exact decide_eq_true (decode rfl rfl)

theorem resultLength_eq {n : Nat} (hn : n < 512) : resultLength n = BitVec.ofNat 32 n := by
  apply BitVec.eq_of_toNat_eq
  simp only [resultLength, BitVec.toNat_setWidth, BitVec.toNat_ofNat]
  omega

theorem cryptLength_lt (ivf side : Bool) (len : Byte) : cryptLength ivf side len.toNat < 512 := by
  have := Bool.toNat_le ivf
  unfold cryptLength
  split <;> omega

/-- The state of an accepted `CRYPT` when its run of the cipher on `TXBUF` is done. -/
def State.crypted (ivf side : Bool) (len : Byte) (s : State) : State :=
  (((s.accept (.crypt ivf side len)).writeBytes .tx 0 (s.cryptOut .tx len.toNat ivf side).bytes).writeBytes .sb 0
    (s.cryptOut .tx len.toNat ivf side).gen.table).withWork ((s.cryptOut .tx len.toNat ivf side).work len.toNat)

/-- An accepted `CRYPT` is one run of the cipher on `TXBUF` (R201). -/
theorem exec_crypt_eq {s : State} {ivf side : Bool} {len : Byte} (idle : s.busy = false)
    (legal : legalOperands s.cfg.val (.crypt ivf side len) = true) :
    exec (.crypt ivf side len) s =
      .next ((s.crypted ivf side len).finish (BitVec.ofNat 32 (cryptLength ivf side len.toNat))) := by
  obtain ⟨opIvf, opSide⟩ : (s.accept (.crypt ivf side len)).opIvf = ivf ∧ (s.accept (.crypt ivf side len)).opSide = side :=
    fieldA_crypt_bits len ivf side
  rw [show exec (.crypt ivf side len) s = execCrypt ivf side len s from rfl, execCrypt]
  refine issue_ok idle legal ?_
  simp only [Cmd.bind_apply, look_apply, Cmd.andThen_ok, opIvf, opSide, crypt_apply, State.cryptOut_accept]
  rw [show (s.accept (.crypt ivf side len)).opLen = len.toNat from rfl, State.cryptOut_len,
    resultLength_eq (cryptLength_lt ivf side len)]
  rfl

/-- That run writes its bytes to `TXBUF`, then the table to `SBOX`; neither write reaches the other's places. -/
theorem State.crypted_finish (s : State) (ivf side : Bool) (len : Byte) :
    s.Crypted ivf side len ((s.crypted ivf side len).finish (BitVec.ofNat 32 (cryptLength ivf side len.toNat))) := by
  have length := s.cryptOut_length .tx len.toNat ivf side
  have table_length := s.cryptOut_table_length .tx len.toNat ivf side
  refine ⟨?_, ?_, fun l notTx notSb => ?_⟩
  · rw [State.after_zero, State.crypted, State.writeBytes_sb_eq, State.writeBytes_tx_eq]
    rfl
  · have read (j : Nat) : (s.crypted ivf side len).byteAt (.tx j) =
        ((s.accept (.crypt ivf side len)).writeBytes .tx 0 (s.cryptOut .tx len.toNat ivf side).bytes).byteAt (.tx j) := by
      rw [State.crypted, State.byteAt_withWork, State.byteAt_writeBytes_other _ _ _ _ _ fun _ _ _ => Loc.noConfusion]
    rw [State.readBytes_finish, State.readBytes_congr fun j _ => read j,
      State.readBytes_writeBytes region_tx _ _ (fun _ => trivial) _ length.ge, List.take_of_length_le length.le]
  · rw [State.byteAt_finish, State.crypted, State.byteAt_withWork, State.byteAt_writeBytes_other,
      State.byteAt_writeBytes_other, State.byteAt_accept]
    · exact fun j _ hj => notTx j (by omega)
    · exact fun j _ hj => notSb j (by omega)

/-- What an accepted `CRYPT` leaves. -/
theorem exec_crypt {s : State} {ivf side : Bool} {len : Byte} (idle : s.busy = false)
    (legal : legalOperands s.cfg.val (.crypt ivf side len) = true) :
    ∃ t, exec (.crypt ivf side len) s = .next t ∧ s.Crypted ivf side len t :=
  ⟨_, exec_crypt_eq idle legal, s.crypted_finish ivf side len⟩

namespace State.Crypted

variable {s t : State} {ivf side : Bool} {len : Byte}

theorem cfg (h : s.Crypted ivf side len t) : t.cfg = s.cfg := by rw [h.eq]; rfl

theorem idle (h : s.Crypted ivf side len t) : t.busy = false := by rw [h.eq]; rfl

theorem result_toNat (h : s.Crypted ivf side len t) : t.result.toNat = cryptLength ivf side len.toNat := by
  have := cryptLength_lt ivf side len
  rw [h.eq]
  exact (BitVec.toNat_ofNat _ 32).trans (Nat.mod_eq_of_lt (by omega))

/-- Without an IV both sides are the keystream XOR (R201). -/
theorem bytes_noIv (h : s.Crypted false side len t) : t.readBytes .tx len.toNat =
    (xorStream s.cfg.val.encStrength (Keystream.start s.cfg.val.encStrength s.cfg.val.key) (s.readBytes .tx len.toNat)).1 := by
  cases side <;> exact h.bytes

theorem beyond_noIv (h : s.Crypted false side len t) {j : Nat} (hj : len.toNat ≤ j) : t.byteAt (.tx j) = s.byteAt (.tx j) := by
  refine h.others _ (fun k hk => ?_) fun _ _ => Loc.noConfusion
  have inside : k < len.toNat := by cases side <;> exact hk
  rintro ⟨⟩
  omega

end State.Crypted

/-- Settles O47: the encoding side of the transform, byte by byte. -/
theorem cryptEncode : Obligations.CryptEncode := by
  intro s ivf len idle fits n stream
  obtain ⟨t, run, crypted⟩ := exec_crypt (ivf := ivf) (side := false) idle (legalOperands_crypt (fun iv _ => fits iv) nofun)
  have bytes := crypted.bytes
  refine ⟨t, run, crypted.eq, ?_, ?_, crypted.others⟩ <;> rintro rfl
  · exact fun j hj => State.byteAt_of_readBytes (bytes.trans (xorStream_whitened s.cfg.val false _ n)) hj
  · replace bytes := bytes.trans (encodeBytes_bytes_iv s.cfg.val s.now _ n)
    rw [show cryptLength true false len.toNat = n + 1 from rfl, State.readBytes_succ] at bytes
    obtain ⟨message, iv⟩ := List.append_inj' bytes rfl
    replace iv := List.singleton_inj.1 iv
    rw [iv]
    exact ⟨generateIv_firstUnused s.now (by simpa using fits rfl), fun j hj => State.byteAt_of_readBytes message hj⟩

/-- Settles O48: the decoding side of the transform, byte by byte. -/
theorem cryptDecode : Obligations.CryptDecode := by
  intro s ivf len idle fits m stream
  obtain ⟨t, run, crypted⟩ := exec_crypt (ivf := ivf) (side := true) idle (legalOperands_crypt nofun fun iv _ => fits iv)
  have total : len.toNat = m + ivf.toNat := by
    cases ivf
    · rfl
    · exact (Nat.sub_add_cancel (fits rfl)).symm
  have bytes : t.readBytes .tx m = (decodeBytes s.cfg.val ivf (s.readBytes .tx (m + ivf.toNat))).bytes :=
    total ▸ crypted.bytes
  exact ⟨t, run, crypted.eq, fun j hj => State.byteAt_of_readBytes (bytes.trans (decodeBytes_bytes s.cfg.val ivf _ m)) hj,
    crypted.others⟩

/-! ### The round trip (R209) -/

/-- Settles O49: the second command reads what the first one left, and undoes it. -/
theorem cipherRoundTrip : Obligations.CipherRoundTrip := by
  intro s t len idle
  refine ⟨fun fits encode => ?_, fun side side' first => ?_⟩
  · obtain ⟨t', run, encoded⟩ := exec_crypt (ivf := true) (side := false) (len := len) idle
      (legalOperands_crypt (fun _ _ => fits) nofun)
    cases run.symm.trans encode
    have longer : (len + 1).toNat = len.toNat + 1 := by bv_omega
    obtain ⟨u, decode, decoded⟩ := exec_crypt (ivf := true) (side := true) (len := len + 1) encoded.idle
      (legalOperands_crypt nofun fun _ _ => by omega)
    have ciphertext : t.readBytes .tx (len.toNat + 1) =
        (encodeBytes s.cfg.val s.now true (s.readBytes .tx len.toNat)).bytes := encoded.bytes
    have restored := decoded.bytes
    rw [longer, State.cryptOut, if_pos rfl, encoded.cfg, ciphertext, decodeBytes_encodeBytes] at restored
    refine ⟨u, decode, ?_, ?_, fun j hj => State.byteAt_of_readBytes restored hj⟩
    · rw [encoded.result_toNat, cryptLength]; rfl
    · rw [decoded.result_toNat, longer, cryptLength]; rfl
  · obtain ⟨t', run, once⟩ := exec_crypt (ivf := false) (side := side) (len := len) idle (legalOperands_crypt nofun nofun)
    cases run.symm.trans first
    obtain ⟨u, second, twice⟩ := exec_crypt (ivf := false) (side := side') (len := len) once.idle
      (legalOperands_crypt nofun nofun)
    have restored : u.readBytes .tx len.toNat = s.readBytes .tx len.toNat := by
      rw [twice.bytes_noIv, once.bytes_noIv, once.cfg, xorStream_xorStream]
    refine ⟨u, second, fun j => ?_⟩
    by_cases hj : j < len.toNat
    · exact State.byteAt_of_readBytes restored hj
    · rw [twice.beyond_noIv (Nat.le_of_not_lt hj), once.beyond_noIv (Nat.le_of_not_lt hj)]

/-! ### `GEN_IV` -/

/-- An accepted `GEN_IV` writes `RESULT` and a working register (R207). -/
theorem exec_genIv_eq {s : State} (a : Byte) {len : Byte} (idle : s.busy = false) (fits : len.toNat ≤ 253) :
    exec (.genIv a len) s =
      .next { s.after (.genIv a len) 0 ((generateIv s.now (s.readBytes .tx len.toNat)).setWidth 32) with
        work := { s.work with iv := generateIv s.now (s.readBytes .tx len.toNat) } } := by
  rw [show exec (.genIv a len) s = execGenIv a len s from rfl, State.after_zero]
  exact issue_as (resultByte _) ((s.accept (.genIv a len)).withWork _) idle (decide_eq_true fits) rfl rfl

/-- Settles O50: the search over the bytes of `TXBUF`, which finds an unused candidate. -/
theorem genIv : Obligations.GenIv := by
  intro s a len idle fits
  have found := generateIv_firstUnused s.now (bs := s.readBytes .tx len.toNat) (by rwa [State.readBytes_length])
  exact ⟨_, _, exec_genIv_eq a idle fits, found, firstUnused_range found⟩

end Sys2Proof.Machine

/-! SUPPORT. The slots of the queue (spec/45_queue_scheduler.md R223, R227, R229 to R235): the due test, the free slot, what `REMOVE`
and the outcome of a send make of a slot, and the commands `ENQUEUE` and `REMOVE`. -/

namespace Sys2Proof.Machine

/-! ### The configuration's ranges (R10) -/

theorem Cfg.maxPackets_le (c : Cfg) : c.val.maxPackets ≤ 255 := by
  obtain ⟨-, -, -, -, -, -, -, slots, -⟩ := Cfg.bounds c
  exact slots

theorem Cfg.maxAttempts_le (c : Cfg) : c.val.maxAttempts ≤ 254 := by
  obtain ⟨-, -, -, -, -, -, -, -, -, -, attempts, -⟩ := Cfg.bounds c
  exact attempts

/-! ### The due test (R227) -/

/-- Settles O54: `elapsed` is a difference modulo 2^32, so it never exceeds `2^32 - 1`. -/
theorem dueTest : Obligations.DueTest := by
  intro s q
  have elapsed : s.elapsed q.registeredAt = (s.now.toNat + 2 ^ 32 - q.registeredAt.toNat) % 2 ^ 32 := by
    rw [State.elapsed, BitVec.toNat_sub]
    congr 1
    omega
  refine ⟨?_, fun large => ?_, fun reachable => ?_⟩
  · rw [State.due, decide_eq_true_eq, elapsed]
  · refine decide_eq_false fun due => ?_
    omega
  · have square : q.attempts.toNat ^ 2 ≤ 254 ^ 2 := Nat.pow_le_pow_left reachable 2
    have interval := q.repeatInterval.isLt
    omega

/-- The due test reads the clock and the slot only. -/
theorem State.due_congr {s t : State} (clock0 : t.clock0 = s.clock0) (time : t.time = s.time) : t.due = s.due := by
  have now : t.now = s.now := by rw [State.now, State.now, clock0, time]
  funext q
  rw [State.due, State.due, State.elapsed, State.elapsed, now]

/-! ### The storage of a slot -/

/-- A slot that takes other fields with the same payload leaves every byte of storage as it was. -/
theorem State.byteAt_setSlot {s : State} {k : Nat} {q : Slot} (payload : q.payload = (s.slot k).payload) :
    (s.setSlot k q).byteAt = s.byteAt := by
  funext l
  cases l with
  | pay j i =>
    have kept : ((s.setSlot k q).slot j).payload = (s.slot j).payload := by
      by_cases hk : k < s.slots.length
      · rw [State.slot_setSlot s k j q hk]
        split
        · next same => rw [same, payload]
        · rfl
      · simp only [State.setSlot, State.slot, List.set_eq_of_length_le (Nat.le_of_not_lt hk)]
    simp only [State.byteAt, State.stored, kept, State.setSlot_resets]
  | _ => rfl

/-! ### The outcome of a send (R229, R231 to R233) -/

/-- The entry after its last send: freed when it is one-shot, armed again when it repeats (R231, R232). -/
def Slot.retired (now : Word) (q : Slot) : Slot := if q.repeatInterval = 0 then q.clear else q.rearm now

/-- The block after the outcome of its send is handled in slot `k`. -/
def State.record (k : Nat) (s : State) : TxOutcome → State
  | .ack => s.setSlot k ((s.slot k).retired s.now)
  | .nak => s.setSlot k { s.slot k with state := .rejected }
  | .busy => s.setSlot k { s.slot k with state := .busy }
  | .fail =>
      if s.cfg.val.maxAttempts < ((s.slot k).attempts + 1).toNat then
        (s.setSlot k ((s.slot k).retired s.now)).errorEvent .connectionLost (s.slot k).destination
      else s.setSlot k { s.slot k with state := .failed, attempts := (s.slot k).attempts + 1 }

/-- An entry whose slot was written before is retired as it then is. -/
theorem retire_setSlot {k : Nat} {s : State} (hk : k < s.slots.length) (q : Slot) :
    retire k (s.setSlot k q) = .ok ((), s.setSlot k (q.retired s.now)) := by
  rw [retire_apply, State.slot_setSlot_self s k q hk, State.setSlot_setSlot]
  rfl

/-- `handleFail` of an entry whose slot was written before (R232). -/
theorem handleFail_setSlot {k : Nat} {s : State} (hk : k < s.slots.length) (q : Slot) :
    handleFail k (s.setSlot k q) = .ok ((),
      if s.cfg.val.maxAttempts < (q.attempts + 1).toNat then
        (s.setSlot k ({ q with attempts := q.attempts + 1 }.retired s.now)).errorEvent .connectionLost q.destination
      else s.setSlot k { q with attempts := q.attempts + 1 }) := by
  simp only [handleFail, Cmd.bind_apply, updateSlot_apply, Cmd.andThen_ok, look_apply, State.slot_setSlot_self _ _ _ hk,
    State.setSlot_setSlot, State.setSlot_cfg, ite_apply_state, decide_eq_true_eq]
  split
  · have inside : k < (s.errorEvent .connectionLost q.destination).slots.length := hk
    exact retire_setSlot inside _
  · rfl

theorem recordOutcome_apply {k : Nat} {s : State} (hk : k < s.slots.length) (o : TxOutcome) :
    recordOutcome k o s = .ok ((), s.record k o) := by
  unfold recordOutcome
  rw [Cmd.bind_apply, updateSlot_apply, Cmd.andThen_ok]
  cases o with
  | ack => exact retire_setSlot hk _
  | nak => rfl
  | busy => rfl
  | fail => exact handleFail_setSlot hk _

/-- Handling an outcome leaves the payload in the slot (R235). -/
theorem State.byteAt_record (k : Nat) (s : State) (o : TxOutcome) : (s.record k o).byteAt = s.byteAt := by
  have retired : ((s.slot k).retired s.now).payload = (s.slot k).payload := by unfold Slot.retired; split <;> rfl
  cases o with
  | ack => exact State.byteAt_setSlot retired
  | nak => exact State.byteAt_setSlot rfl
  | busy => exact State.byteAt_setSlot rfl
  | fail =>
    rw [State.record]
    split
    · rw [State.byteAt_errorEvent, State.byteAt_setSlot retired]
    · exact State.byteAt_setSlot rfl

theorem Byte.toNat_succ {b : Byte} (h : b.toNat < 255) : (b + 1).toNat = b.toNat + 1 := by bv_omega

/-- A failure of an entry whose `attempts` does not wrap as it is counted up (R232, R241). -/
theorem State.record_fail {s : State} {k : Nat} (countable : (s.slot k).attempts.toNat < 255) :
    s.record k .fail =
      if s.cfg.val.maxAttempts < (s.slot k).attempts.toNat + 1 then
        (s.setSlot k ((s.slot k).retired s.now)).errorEvent .connectionLost (s.slot k).destination
      else s.setSlot k { s.slot k with state := .failed, attempts := (s.slot k).attempts + 1 } := by
  rw [State.record, Byte.toNat_succ countable]

/-- Settles O55: each outcome's case of `record`. -/
theorem outcomeTable : Obligations.OutcomeTable := by
  intro s k hk countable q freed rearmed
  have failed := recordOutcome_apply hk .fail
  rw [State.record_fail countable] at failed
  refine ⟨recordOutcome_apply hk .ack, recordOutcome_apply hk .nak, recordOutcome_apply hk .busy, fun below => ?_,
    fun past => ?_⟩
  · rw [failed, if_neg (Nat.not_lt.2 below)]
  · rw [failed, if_pos past]
    rfl

/-! ### `REMOVE` (R235) -/

theorem exec_remove {s : State} {k : Byte} (b : Byte) (idle : s.busy = false) (inside : k.toNat < s.cfg.val.maxPackets) :
    exec (.remove k b) s =
      .next (((s.accept (.remove k b)).setSlot k.toNat (s.slot k.toNat).clear).finish 0) := by
  rw [show exec (.remove k b) s = execRemove k b s from rfl, execRemove]
  exact issue_ok idle (decide_eq_true inside) rfl

/-- Settles O53: the slot is cleared, with its payload left in place. -/
theorem remove : Obligations.Remove := by
  intro s k b idle inside slots
  have hk : k.toNat < s.slots.length := by rwa [slots]
  refine ⟨_, exec_remove b idle inside, ?_, State.slots_length_setSlot s _ _,
    fun j hj => (State.slot_setSlot s _ j _ hk).trans (if_neg hj), State.slot_setSlot_self s _ _ hk, fun l => ?_⟩
  · rw [State.after_zero]
    rfl
  · have kept : ((s.accept (.remove k b)).setSlot k.toNat (s.slot k.toNat).clear).byteAt = _ := State.byteAt_setSlot rfl
    rw [State.byteAt_finish, kept, State.byteAt_accept]

/-! ### `ENQUEUE` (R221 to R224) -/

theorem State.freeSlot_eq_some {s : State} {k : Nat} (hk : k < s.slots.length) (free : (s.slot k).state = .empty)
    (least : ∀ j, j < k → (s.slot j).state ≠ .empty) : s.freeSlot = some k := by
  rw [State.freeSlot, List.findIdx?_eq_some_iff_getElem]
  refine ⟨hk, ?_, fun j hj => ?_⟩
  · simpa [State.slot, hk] using free
  · simpa [State.slot, Nat.lt_trans hj hk] using least j hj

theorem State.freeSlot_eq_none {s : State} (full : ∀ q ∈ s.slots, q.state ≠ .empty) : s.freeSlot = none := by
  rw [State.freeSlot, List.findIdx?_eq_none_iff]
  exact fun q hq => decide_eq_false (full q hq)

/-- An accepted `ENQUEUE` runs `enqueue` on its operands. -/
theorem exec_enqueue_of {s t : State} {dest len : Byte} {r : Word} (idle : s.busy = false)
    (run : enqueue dest len s.arg (s.accept (.enqueue dest len)) = .ok (r, t)) :
    exec (.enqueue dest len) s = .next (t.finish r) :=
  issue_ok (i := .enqueue dest len) idle rfl run

/-- Settles O52: the length is tested first, the search for a free slot comes second. -/
theorem enqueueFails : Obligations.EnqueueFails := by
  intro s dest len idle
  refine ⟨fun long => ?_, fun fits full => ?_⟩ <;> rw [State.after_zero]
  · refine exec_enqueue_of (r := resultFailure .allocationFailed)
      (t := (s.accept (.enqueue dest len)).errorEvent .allocationFailed len) idle ?_
    rw [enqueue, Cmd.bind_apply, look_apply, Cmd.andThen_ok, if_pos (by exact long)]
    rfl
  · have none_free : (s.accept (.enqueue dest len)).freeSlot = none := State.freeSlot_eq_none full
    refine exec_enqueue_of (r := resultFailure .bufferExhausted)
      (t := (s.accept (.enqueue dest len)).errorEvent .bufferExhausted (BitVec.ofNat 8 s.cfg.val.maxPackets)) idle ?_
    rw [enqueue, Cmd.bind_apply, look_apply, Cmd.andThen_ok, if_neg (by exact Nat.not_lt.2 fits), Cmd.bind_apply, look_apply,
      Cmd.andThen_ok, none_free]
    rfl

theorem resultByte_ofNat {n : Nat} (hn : n < 256) : resultByte (BitVec.ofNat 8 n) = BitVec.ofNat 32 n := by
  apply BitVec.eq_of_toNat_eq
  simp only [resultByte, BitVec.toNat_setWidth, BitVec.toNat_ofNat]
  omega

/-- The accepted block when the payload of the new entry stands in slot `k`. -/
def State.copied (k : Nat) (dest len : Byte) (s : State) : State :=
  (s.accept (.enqueue dest len)).writeBytes (.pay k) 0 (s.readBytes .tx len.toNat)

/-- `ENQUEUE` into the free slot of least index: the payload is copied, then the fields are filled in (R223, R224). -/
theorem exec_enqueue_free {s : State} {dest len : Byte} {k : Nat} (idle : s.busy = false)
    (fits : len.toNat ≤ maxPayload s.cfg.val) (free : s.freeSlot = some k) :
    exec (.enqueue dest len) s =
      .next (((s.copied k dest len).setSlot k (((s.copied k dest len).slot k).fill dest len s.arg s.now)).finish
        (resultByte (BitVec.ofNat 8 k))) := by
  refine exec_enqueue_of idle ?_
  have found : (s.accept (.enqueue dest len)).freeSlot = some k := free
  rw [enqueue, Cmd.bind_apply, look_apply, Cmd.andThen_ok, if_neg (by exact Nat.not_lt.2 fits), Cmd.bind_apply, look_apply,
    Cmd.andThen_ok, found]
  simp only [Cmd.bind_apply, look_apply, modify_apply, Cmd.andThen_ok, updateSlot_apply, Cmd.pure_apply,
    State.readBytes_accept, State.writeBytes_now, State.accept_now, State.copied]

/-- Copying the payload leaves the fields of every slot, and the payload of the other slots, as they were. -/
theorem State.copied_slot {s : State} {k : Nat} {dest len : Byte} (j : Nat) :
    (s.copied k dest len).slot j = { s.slot j with payload := ((s.copied k dest len).slot j).payload } :=
  State.slot_writeBytes_pay k 0 _ _ j

theorem State.writeBytes_pay_slot_other {k j : Nat} (other : j ≠ k) (bs : List Byte) : ∀ (i : Nat) (s : State),
    (s.writeBytes (.pay k) i bs).slot j = s.slot j := by
  induction bs with
  | nil => exact fun _ _ => rfl
  | cons b bs ih =>
    intro i s
    rw [State.writeBytes, ih]
    simp [State.setByte, State.setSlot, State.slot, List.getD_eq_getElem?_getD, List.getElem?_set_ne other.symm]

/-- The new entry takes the present time exactly when it has an interval (R224). -/
theorem Slot.fill_eq (dest len : Byte) (interval now : Word) (q : Slot) : q.fill dest len interval now =
    { q with
      state := .pendingSend, destination := dest, length := len, repeatInterval := interval
      registeredAt := if interval = 0 then q.registeredAt else now } := by
  have zero : interval.toNat = 0 ↔ interval = 0 := BitVec.toNat_inj (y := 0)
  simp only [Slot.fill, zero]

/-- Settles O51: the least free slot is filled in around the copied payload. -/
theorem Queue.enqueue : Obligations.Enqueue := by
  intro s dest len k idle fits slots hk free least
  have byte : k < 256 := by have := Cfg.maxPackets_le s.cfg; omega
  have run := exec_enqueue_free (dest := dest) idle fits (State.freeSlot_eq_some hk free least)
  rw [resultByte_ofNat byte] at run
  have length : (s.copied k dest len).slots.length = s.slots.length := State.slots_length_writeBytes _ _ _ _
  have inside : k < (s.copied k dest len).slots.length := by rwa [length]
  have kept : ((s.copied k dest len).setSlot k (((s.copied k dest len).slot k).fill dest len s.arg s.now)).byteAt =
      (s.copied k dest len).byteAt := State.byteAt_setSlot rfl
  refine ⟨_, run, ?_, ?_, fun j other => ?_, ?_, fun j hj => ?_, fun l others => ?_⟩
  · rw [State.after_zero, State.copied, State.writeBytes_pay_eq]
    rfl
  · exact (State.slots_length_setSlot _ _ _).trans length
  · exact ((State.slot_setSlot _ k j _ inside).trans (if_neg other)).trans (State.writeBytes_pay_slot_other other _ _ _)
  · have filled : (((s.copied k dest len).setSlot k (((s.copied k dest len).slot k).fill dest len s.arg s.now)).finish
        (BitVec.ofNat 32 k)).slot k = ((s.copied k dest len).slot k).fill dest len s.arg s.now :=
      State.slot_setSlot_self _ _ _ inside
    rw [filled, Slot.fill_eq, State.copied_slot k]
  · have copied := State.byteAt_writeBytes_same (region_pay k) 0 (s.readBytes .tx len.toNat) (s.accept (.enqueue dest len))
      (fun _ => hk) j (by rwa [State.readBytes_length])
    rw [Nat.zero_add] at copied
    rw [State.byteAt_finish, kept]
    refine copied.trans ?_
    simp [State.readBytes]
  · rw [State.byteAt_finish, kept, State.copied, State.byteAt_writeBytes_other, State.byteAt_accept]
    exact fun j _ hj => others j (by simpa using hj)

end Sys2Proof.Machine

/-! SUPPORT. `TICK` (spec/45_queue_scheduler.md R226 to R233): the scan visit by visit whatever the queue holds, and the scan of a
queue in which one entry is due. -/

namespace Sys2Proof.Machine

/-! ### The command -/

/-- An accepted `TICK` is one scan (R226). -/
theorem exec_tick_of {s t : State} {a b n : Byte} (idle : s.busy = false) (run : tick (s.accept (.tick a b)) = .ok (n, t)) :
    exec (.tick a b) s = .next (t.finish (resultByte n)) := by
  rw [show exec (.tick a b) s = execTick a b s from rfl, execTick]
  refine issue_ok idle rfl ?_
  rw [Cmd.bind_apply, run]
  rfl

/-- Settles O56: a scan without a due entry writes working registers only. -/
theorem tickNothingDue : Obligations.TickNothingDue := by
  intro s a b idle nothing
  obtain ⟨w, run⟩ := tick_idle (s := s.accept (.tick a b)) nothing
  refine ⟨w, ?_⟩
  rw [exec_tick_of idle run, State.after_zero]
  rfl

/-! ### The scan, visit by visit -/

/-- The visit of slot `k` in this state sends it (R226). -/
def State.sends (s : State) (k : Nat) : Bool := decide ((s.slot k).state ≠ .empty) && s.due (s.slot k)

theorem visitSlot_unsent {s : State} {k : Nat} (unsent : s.sends k = false) :
    visitSlot k s = .ok ((), s.withWork fun w => { w with cur := BitVec.ofNat 8 k }) := by
  refine visitSlot_idle k s ?_
  by_contra! live
  simp [State.sends, live] at unsent

theorem State.Recorded.undisturbed {s t : State} (h : s.Recorded t) : t.undisturbed = s.undisturbed :=
  (congrArg State.undisturbed h.eq).trans rfl

theorem State.Recorded.work {s t : State} (h : s.Recorded t) : t.work = s.work := (congrArg State.work h.eq).trans rfl

/-- The visit of a slot that it sends: what the send leaves is counted, and its outcome is handled in the slot. -/
theorem visitSlot_sent {s : State} {k : Nat} (undisturbed : s.undisturbed = true) (sends : s.sends k = true) :
    ∃ o v t, sendFrame (s.slot k).destination (.pay k) (s.slot k).length.toNat
          (s.withWork fun w => { w with cur := BitVec.ofNat 8 k }) = .ok (o, v)
      ∧ recordOutcome k o (v.withWork fun w => { w with cnt := w.cnt + 1 }) = .ok ((), t)
      ∧ visitSlot k s = .ok ((), t) ∧ t.undisturbed = true ∧ t.work.cnt = s.work.cnt + 1 := by
  obtain ⟨live, due⟩ : (s.slot k).state ≠ .empty ∧ s.due (s.slot k) = true := by simpa [State.sends] using sends
  obtain ⟨o, v, sent, alone, count⟩ := sendFrame_alone (s.slot k).destination (.pay k) (s.slot k).length.toNat
    (s := s.withWork fun w => { w with cur := BitVec.ofNat 8 k }) undisturbed
  obtain ⟨t, recorded, frame⟩ := Records.outcome k o (v.withWork fun w => { w with cnt := w.cnt + 1 })
  refine ⟨o, v, t, sent, recorded, ?_, ?_, ?_⟩
  · rw [visitSlot_due k s live due, Cmd.bind_apply, sent, Cmd.andThen_ok, Cmd.bind_apply, setWork_apply, Cmd.andThen_ok,
      recorded]
  · exact frame.undisturbed.trans alone
  · exact (congrArg Work.cnt frame.work).trans (congrArg (· + 1) count)

/-- The state that the visit of slot `k` leaves, when it ends. -/
def State.visited (s : State) (k : Nat) : State :=
  match visitSlot k s with
  | .ok ((), t) => t
  | .error _ => s

theorem State.visited_eq {s t : State} {k : Nat} (run : visitSlot k s = .ok ((), t)) : s.visited k = t := by
  rw [State.visited, run]

/-- Nothing disturbs a visit, nor what it leaves. -/
theorem visitSlot_visited {s : State} (undisturbed : s.undisturbed = true) (k : Nat) :
    visitSlot k s = .ok ((), s.visited k) ∧ (s.visited k).undisturbed = true := by
  obtain ⟨t, run, alone⟩ : ∃ t, visitSlot k s = .ok ((), t) ∧ t.undisturbed = true := by
    cases sends : s.sends k with
    | false => exact ⟨_, visitSlot_unsent sends, undisturbed⟩
    | true =>
      obtain ⟨_, _, t, -, -, run, alone, -⟩ := visitSlot_sent undisturbed sends
      exact ⟨t, run, alone⟩
  rw [State.visited_eq run]
  exact ⟨run, alone⟩

theorem State.visited_cnt {s : State} (undisturbed : s.undisturbed = true) (k : Nat) :
    (s.visited k).work.cnt = s.work.cnt + BitVec.ofNat 8 (s.sends k).toNat := by
  cases sends : s.sends k with
  | false =>
    rw [State.visited_eq (visitSlot_unsent sends)]
    exact (BitVec.add_zero _).symm
  | true =>
    obtain ⟨_, _, t, -, -, run, -, count⟩ := visitSlot_sent undisturbed sends
    rw [State.visited_eq run, count]
    rfl

/-- The state in which a scan begun in `s` visits slot `k`. -/
def State.scanned (s : State) : Nat → State
  | 0 => s
  | k + 1 => (s.scanned k).visited k

theorem State.scanned_undisturbed {s : State} (undisturbed : s.undisturbed = true) (k : Nat) :
    (s.scanned k).undisturbed = true := by
  induction k with
  | zero => exact undisturbed
  | succ k ih => exact (visitSlot_visited ih k).2

theorem scanSlots_append (ks js : List Nat) (s : State) :
    scanSlots (ks ++ js) s = Cmd.andThen (scanSlots ks s) fun _ => scanSlots js := by
  induction ks generalizing s with
  | nil => rfl
  | cons k ks ih =>
    simp only [List.cons_append, scanSlots, Cmd.bind_apply]
    cases visitSlot k s with
    | ok r => exact ih r.2
    | error e => rfl

theorem scanSlots_scanned {s : State} (undisturbed : s.undisturbed = true) (n : Nat) :
    scanSlots (List.range n) s = .ok ((), s.scanned n) := by
  induction n with
  | zero => rfl
  | succ n ih =>
    rw [List.range_succ, scanSlots_append, ih, Cmd.andThen_ok, scanSlots, Cmd.bind_apply,
      (visitSlot_visited (State.scanned_undisturbed undisturbed n) n).1]
    rfl

/-- The scan counts its sends (R226). -/
theorem State.scanned_cnt {s : State} (undisturbed : s.undisturbed = true) (n : Nat) :
    (s.scanned n).work.cnt =
      s.work.cnt + BitVec.ofNat 8 ((List.range n).filter fun k => (s.scanned k).sends k).length := by
  induction n with
  | zero => exact (BitVec.add_zero _).symm
  | succ n ih =>
    rw [State.scanned, State.visited_cnt (State.scanned_undisturbed undisturbed n), ih, List.range_succ, List.filter_append,
      List.length_append, BitVec.ofNat_add, BitVec.add_assoc]
    cases sends : (s.scanned n).sends n <;> simp [sends]

/-- The accepted block when a `TICK` begins its scan. -/
def State.ticking (s : State) (a b : Byte) : State := (s.accept (.tick a b)).withWork fun w => { w with cnt := 0 }

theorem tick_scanned {s : State} (undisturbed : s.undisturbed = true) (a b : Byte) :
    tick (s.accept (.tick a b)) = .ok (((s.ticking a b).scanned s.cfg.val.maxPackets).work.cnt,
      (s.ticking a b).scanned s.cfg.val.maxPackets) := by
  have scan := scanSlots_scanned (s := s.ticking a b) undisturbed s.cfg.val.maxPackets
  rw [tick, Cmd.bind_apply, setWork_apply, Cmd.andThen_ok, Cmd.bind_apply, look_apply, Cmd.andThen_ok, Cmd.bind_apply]
  exact (congrArg (Cmd.andThen · _) scan).trans rfl

/-- Settles O57: `u k` is the state in which the scan visits slot `k`. -/
theorem tickScan : Obligations.TickScan := by
  intro s a b ready
  obtain ⟨idle, undisturbed⟩ := State.ready_iff.1 ready
  have alone (k : Nat) : ((s.ticking a b).scanned k).undisturbed = true :=
    State.scanned_undisturbed (s := s.ticking a b) undisturbed k
  refine ⟨(s.ticking a b).scanned, ((s.ticking a b).scanned s.cfg.val.maxPackets).work, ?_, rfl, fun k _ => ⟨fun unsent => ?_,
    fun sends => ?_⟩⟩
  · have few : ((List.range s.cfg.val.maxPackets).filter fun k => ((s.ticking a b).scanned k).sends k).length < 256 := by
      have slots := Cfg.maxPackets_le s.cfg
      have filtered := List.length_filter_le (fun k => ((s.ticking a b).scanned k).sends k) (List.range s.cfg.val.maxPackets)
      rw [List.length_range] at filtered
      omega
    have count := State.scanned_cnt (s := s.ticking a b) undisturbed s.cfg.val.maxPackets
    rw [show (s.ticking a b).work.cnt = 0#8 from rfl, BitVec.zero_add] at count
    rw [exec_tick_of idle (tick_scanned undisturbed a b), count, resultByte_ofNat few]
    rfl
  · exact ⟨_, State.visited_eq (visitSlot_unsent unsent)⟩
  · obtain ⟨o, v, t, sent, recorded, run, -⟩ := visitSlot_sent (alone k) sends
    exact ⟨o, v, _, _, sent, recorded.trans (by rw [State.scanned, State.visited_eq run])⟩

end Sys2Proof.Machine

/-! SUPPORT. `TICK` of a queue in which one entry is due (spec/45_queue_scheduler.md R226, R231 to R233): the scan is the send of that
entry, whose outcome decides what the command leaves. -/

namespace Sys2Proof.Machine

/-! ### The scan with one due entry -/

/-- `v` has the configuration, the clock input and the slots of `s`, `ticks` ticks later. -/
structure State.Later (s : State) (ticks : Nat) (v : State) : Prop where
  cfg : v.cfg = s.cfg
  clock0 : v.clock0 = s.clock0
  time : v.time = s.time + ticks
  slots : v.slots = s.slots

theorem State.Recorded.due {s t : State} (h : s.Recorded t) : t.due = s.due :=
  State.due_congr ((congrArg State.clock0 h.eq).trans rfl) ((congrArg State.time h.eq).trans rfl)

theorem State.record_recorded {s : State} {k : Nat} (hk : k < s.slots.length) (o : TxOutcome) : s.Recorded (s.record k o) := by
  obtain ⟨t, run, recorded⟩ := Records.outcome k o s
  cases (recordOutcome_apply hk o).symm.trans run
  exact recorded

/-- Handling an outcome in slot `k` leaves the other slots as they were. -/
theorem State.record_slot_other {s : State} {k j : Nat} (hk : k < s.slots.length) (other : j ≠ k) (o : TxOutcome) :
    (s.record k o).slot j = s.slot j := by
  have set_other (q : Slot) : (s.setSlot k q).slot j = s.slot j := (State.slot_setSlot s k j q hk).trans (if_neg other)
  cases o with
  | ack => exact set_other _
  | nak => exact set_other _
  | busy => exact set_other _
  | fail =>
    rw [State.record]
    split
    · exact set_other _
    · exact set_other _

/-- Handling an outcome neither reads nor writes the working registers. -/
theorem State.record_withWork (k : Nat) (f : Work → Work) (s : State) (o : TxOutcome) :
    (s.withWork f).record k o = (s.record k o).withWork f := by
  cases o with
  | fail =>
    rw [State.record, State.record, apply_ite (State.withWork f)]
    rfl
  | _ => rfl

/-- Handling an outcome neither reads nor writes what the end of a command writes. -/
theorem State.record_finish (k : Nat) (r : Word) (s : State) (o : TxOutcome) :
    (s.finish r).record k o = (s.record k o).finish r := by
  cases o with
  | fail =>
    rw [State.record, State.record, apply_ite (State.finish r)]
    rfl
  | _ => rfl

/-- No entry behind slot `k` is due once the outcome of its send is handled. -/
theorem State.onlyDue_behind {s v : State} {k ticks j : Nat} {o : TxOutcome} (only : s.onlyDue k ticks)
    (later : s.Later ticks v) (standing : k < v.slots.length) (behind : k < j) :
    ((v.record k o).slot j).state = .empty ∨ (v.record k o).due ((v.record k o).slot j) = false := by
  have slot : (v.record k o).slot j = s.slot j := by
    rw [State.record_slot_other standing (Nat.ne_of_gt behind), State.slot, later.slots, State.slot]
  have due : (v.record k o).due = ({ s with time := s.time + ticks } : State).due :=
    (State.record_recorded standing o).due.trans (State.due_congr later.clock0 later.time)
  obtain ⟨-, -, -, after⟩ := only
  rw [slot, due]
  exact after j behind

/-- The slots before, at and after slot `k`. -/
theorem range_split {k n : Nat} (hk : k < n) : List.range n = List.range k ++ k :: List.range' (k + 1) (n - k - 1) := by
  have split : List.range' 0 k ++ List.range' (0 + k) (n - k - 1 + 1) = List.range' 0 (k + (n - k - 1 + 1)) :=
    List.range'_append_1
  rw [Nat.zero_add, show k + (n - k - 1 + 1) = n by omega] at split
  rw [List.range_eq_range', List.range_eq_range', ← split, List.range'_succ]

/-- A scan in which slot `k` alone is due makes one send, from a state that differs in the working registers at most. -/
theorem tick_onlyDue {s : State} {k ticks : Nat} (undisturbed : s.undisturbed = true) (inside : k < s.cfg.val.maxPackets)
    (stands : k < s.slots.length) (only : s.onlyDue k ticks) :
    ∃ w₀, ∀ o v,
      sendFrame (s.slot k).destination (.pay k) (s.slot k).length.toNat (s.withWork fun _ => w₀) = .ok (o, v) →
      s.Later ticks v →
      ∃ w, tick s = .ok (1, (v.record k o).withWork fun _ => w) := by
  have ⟨live, due, before, _⟩ := only
  obtain ⟨w₁, first, none_sent⟩ := scanSlots_idle (List.range k) (s := s.withWork fun w => { w with cnt := 0 })
    fun j hj => before j (List.mem_range.1 hj)
  refine ⟨{ w₁ with cur := BitVec.ofNat 8 k }, fun o v sent later => ?_⟩
  have standing : k < v.slots.length := by rwa [later.slots]
  obtain ⟨_, _, sent', -, count⟩ := sendFrame_alone (s.slot k).destination (.pay k) (s.slot k).length.toNat
    (s := s.withWork fun _ => { w₁ with cur := BitVec.ofNat 8 k }) undisturbed
  cases sent.symm.trans sent'
  have visit : visitSlot k (s.withWork fun _ => w₁) =
      .ok ((), (v.record k o).withWork fun w => { w with cnt := w.cnt + 1 }) := by
    rw [visitSlot_due k (s.withWork fun _ => w₁) live due, Cmd.bind_apply]
    refine (congrArg (Cmd.andThen · _) sent).trans ?_
    rw [Cmd.andThen_ok, Cmd.bind_apply, setWork_apply, Cmd.andThen_ok]
    exact (recordOutcome_apply (by exact standing) o).trans (by rw [State.record_withWork])
  obtain ⟨w₂, rest, one_sent⟩ := scanSlots_idle (List.range' (k + 1) (s.cfg.val.maxPackets - k - 1))
    (s := (v.record k o).withWork fun w => { w with cnt := w.cnt + 1 })
    fun j hj => State.onlyDue_behind only later standing (List.mem_range'_1.1 hj).1
  have one : w₂.cnt = 1 := by
    rw [one_sent, State.withWork_work, (State.record_recorded standing o).work, count, State.withWork_work, none_sent]
    rfl
  refine ⟨w₂, ?_⟩
  simp only [tick, Cmd.bind_apply, setWork_apply, Cmd.andThen_ok, look_apply, State.withWork_cfg, range_split inside,
    scanSlots_append, first, State.withWork_withWork, scanSlots, visit, rest, State.withWork_work, one]

/-! ### The command with one due entry -/

/-- The end of a `TICK` that did nothing but one send of `ticks` ticks: the pins and the trace as given, the level released, the
hidden buffers and the working registers those of `h`. -/
def State.afterSend (s : State) (a b : Byte) (ticks : Nat) (oe : Bool) (trace : List PinRun) (h : State) : State :=
  { s.after (.tick a b) ticks 1 with
    lineOe := oe, lineO := false, trace := trace, fbuf := h.fbuf, sbox := h.sbox, work := h.work }

/-- The body of the frame that a `TICK` begun now makes of the entry in slot `k`. -/
def State.slotBody (s : State) (k : Nat) : List Byte := s.bodyFor (s.readBytes (.pay k) (s.slot k).length.toNat)

/-- That frame. -/
def State.slotFrame (s : State) (k : Nat) : List Byte := frameBytes (s.slot k).destination (s.slotBody k)

section

variable {s : State} {a b : Byte} {k ticks : Nat} {oe : Bool} {trace : List PinRun}

theorem State.afterSend_later (h : State) : s.Later ticks (s.afterSend a b ticks oe trace h) := ⟨rfl, rfl, rfl, rfl⟩

theorem State.afterSend_now (h : State) : (s.afterSend a b ticks oe trace h).now = s.now + BitVec.ofNat 32 ticks := by
  rw [State.now, State.now, BitVec.add_assoc, ← BitVec.ofNat_add]
  rfl

/-- A `TICK` in which slot `k` alone is due leaves what the handling of its outcome makes of the end of that one send. -/
theorem exec_tick_onlyDue (ready : s.ready = true) (slots : s.slots.length = s.cfg.val.maxPackets) (hk : k < s.slots.length)
    (only : s.onlyDue k ticks) :
    ∃ w₀, ∀ o v h,
      sendFrame (s.slot k).destination (.pay k) (s.slot k).length.toNat
        ((s.accept (.tick a b)).withWork fun _ => w₀) = .ok (o, v) →
      v.finish 1 = s.afterSend a b ticks oe trace h →
      ∃ w, exec (.tick a b) s = .next ((s.afterSend a b ticks oe trace { h with work := w }).record k o) := by
  obtain ⟨idle, undisturbed⟩ := State.ready_iff.1 ready
  obtain ⟨w₀, run⟩ := tick_onlyDue (s := s.accept (.tick a b)) undisturbed (by rwa [State.accept_cfg, ← slots]) hk only
  refine ⟨w₀, fun o v h sent ended => ?_⟩
  have later : s.Later ticks (v.finish 1) := ended ▸ State.afterSend_later h
  obtain ⟨w, run⟩ := run o v sent ⟨later.cfg, later.clock0, later.time, later.slots⟩
  refine ⟨w, ?_⟩
  calc exec (.tick a b) s
      = .next (((v.record k o).withWork fun _ => w).finish 1) := exec_tick_of idle run
    _ = .next (((v.finish 1).withWork fun _ => w).record k o) := by
        rw [State.record_withWork, State.record_finish]
        rfl
    _ = .next ((s.afterSend a b ticks oe trace { h with work := w }).record k o) := by
        rw [ended]
        rfl

theorem State.SentFrame.of_withWork {v : State} {f : Work → Work} {dest : Byte} {body : List Byte}
    (sent : (s.withWork f).SentFrame dest body v) : s.SentFrame dest body v where
  eq := sent.eq
  stores := by simpa only [State.storesBody, State.byteAt_withWork, State.withWork_cfg] using sent.stores
  sbox := sent.sbox

/-- A `TICK` in which slot `k` alone is due, on a clear channel: the frame around its payload is sent, and step 6 of `sendFrame`
decides whether a response is awaited (R178, R179). -/
theorem exec_tick_sent (ready : s.ready = true) (slots : s.slots.length = s.cfg.val.maxPackets) (hk : k < s.slots.length)
    (clear : s.channelClear) (only : s.onlyDue k ticks) :
    ∃ v, (s.accept (.tick a b)).SentFrame (s.slot k).destination (s.slotBody k) v
      ∧ ∀ o v', (if (s.slot k).destination = broadcastAddr ∨ s.cfg.val.simplex = true then (pure .ack : Cmd TxOutcome)
            else awaitResponse) v = .ok (o, v') → v'.byteAt = v.byteAt →
          v'.finish 1 = s.afterSend a b ticks oe trace (v'.finish 1) →
          ∃ h, exec (.tick a b) s = .next ((s.afterSend a b ticks oe trace h).record k o)
            ∧ s.storesBody ((s.afterSend a b ticks oe trace h).record k o) (s.slotBody k) := by
  obtain ⟨w₀, run⟩ := exec_tick_onlyDue (a := a) (b := b) (oe := oe) (trace := trace) ready slots hk only
  obtain ⟨v, sent, send⟩ := sendFrame_sent (s.slot k).destination (.pay k) (s.slot k).length.toNat
    (s := (s.accept (.tick a b)).withWork fun _ => w₀) (State.ready_iff.1 ready).2 clear
  have payload : ((s.accept (.tick a b)).withWork fun _ => w₀).readBytes (.pay k) (s.slot k).length.toNat =
      s.readBytes (.pay k) (s.slot k).length.toNat := by
    simp only [State.readBytes, State.byteAt_withWork, State.byteAt_accept]
  rw [payload] at sent
  replace sent : (s.accept (.tick a b)).SentFrame (s.slot k).destination (s.slotBody k) v := sent.of_withWork
  refine ⟨v, sent, fun o v' response storage ended => ?_⟩
  obtain ⟨w, run⟩ := run o v' _ (send.trans response) ended
  refine ⟨_, run, ?_⟩
  have bytes : ((s.afterSend a b ticks oe trace { v'.finish 1 with work := w }).record k o).byteAt = v.byteAt :=
    calc ((s.afterSend a b ticks oe trace { v'.finish 1 with work := w }).record k o).byteAt
        = ((s.afterSend a b ticks oe trace (v'.finish 1)).withWork fun _ => w).byteAt := State.byteAt_record k _ o
      _ = v.byteAt := by rw [State.byteAt_withWork, ← ended, State.byteAt_finish, storage]
  rw [State.storesBody, bytes]
  simpa only [State.storesBody, State.byteAt_accept, State.accept_cfg] using sent.stores

/-- The end of a `TICK` that sent the frame of slot `k`, then listened for `d` ticks. -/
def State.afterListen (s : State) (a b : Byte) (k d : Nat) (h : State) : State :=
  s.afterSend a b (frameTicks s.cfg.val (s.slotFrame k) + d) false (pushRun ⟨false, false⟩ d (s.sentTrace (s.slotFrame k))) h

/-- The same when a response is awaited. -/
theorem exec_tick_listened (ready : s.ready = true) (slots : s.slots.length = s.cfg.val.maxPackets) (hk : k < s.slots.length)
    (clear : s.channelClear) (node : (s.slot k).destination ≠ 124) (bidirectional : s.cfg.val.simplex = false) {d : Nat}
    (only : s.onlyDue k (frameTicks s.cfg.val (s.slotFrame k) + d)) :
    ∃ v, (s.accept (.tick a b)).SentFrame (s.slot k).destination (s.slotBody k) v
      ∧ ∀ o w, awaitResponse v = .ok (o, ((v.withLineOe false).pass d).withWork fun _ => w) →
          ∃ h, exec (.tick a b) s = .next ((s.afterListen a b k d h).record k o)
            ∧ s.storesBody ((s.afterListen a b k d h).record k o) (s.slotBody k) := by
  obtain ⟨v, sent, ends⟩ := exec_tick_sent (a := a) (b := b) (oe := false) ready slots hk clear only
  rw [if_neg (by rintro (h | h); exacts [node h, by simp [bidirectional] at h])] at ends
  refine ⟨v, sent, fun o w response => ends o _ response ?_ (sent.finish_listened rfl)⟩
  rw [State.byteAt_withWork, State.byteAt_pass, State.byteAt_withLineOe]

end

/-! ### Its four ends -/

/-- Settles O58: the one send asks for no response. -/
theorem tickDelivers : Obligations.TickDelivers := by
  intro s a b k ready slots hk clear unanswered q body frame ticks only
  obtain ⟨v, sent, ends⟩ := exec_tick_sent (a := a) (b := b) (oe := true) (trace := s.sentTrace frame) ready slots hk clear only
  rw [if_pos (by exact unanswered)] at ends
  obtain ⟨h, run, stores⟩ := ends .ack v rfl rfl (sent.finish rfl)
  refine ⟨_, run, ?_, stores⟩
  rw [State.record, State.afterSend_now]
  rfl

/-- Settles O59: nobody answers in the listen window; the handling of the failure counts it. -/
theorem tickFails : Obligations.TickFails := by
  intro s a b k ready slots hk clear node bidirectional attempts q body frame ticks only quiet
  obtain ⟨v, sent, ends⟩ := exec_tick_listened (a := a) (b := b) (d := listenTicks s.cfg.val) ready slots hk clear node
    bidirectional only
  have undisturbed := sent.undisturbed.trans (State.ready_iff.1 ready).2
  obtain ⟨w, silence, -⟩ := awaitResponse_quiet undisturbed (by
    rw [State.quietLine, sent.line, sent.cfg, sent.time]
    exact quiet)
  rw [sent.cfg] at silence
  obtain ⟨h, run, stores⟩ := ends .fail w silence
  have countable : q.attempts.toNat < 255 := Nat.lt_of_le_of_lt attempts (Nat.lt_succ_of_le (Cfg.maxAttempts_le s.cfg))
  have recorded := State.record_recorded (s := s.afterListen a b k (listenTicks s.cfg.val) h) hk .fail
  have failed := State.record_fail (s := s.afterListen a b k (listenTicks s.cfg.val) h) (k := k) countable
  refine ⟨_, s.afterListen a b k (listenTicks s.cfg.val) h, run, ?_, stores, fun below => ?_, fun past => ?_⟩
  · rw [recorded.eq]
    rfl
  · rw [failed, if_neg (by exact Nat.not_lt.2 below)]
    rfl
  · rw [failed, if_pos (by exact past), State.afterListen, State.afterSend_now]
    rfl

/-- Settles O60: a busy channel ends the send at once, and an answer of 21 is `Nak`. -/
theorem tickLeavesArmed : Obligations.TickLeavesArmed := by
  intro s a b k ready slots hk q body frame
  refine ⟨fun busy only => ?_, fun clear node bidirectional only answer => ?_⟩
  · have on : s.cfg.val.caEn = true := by
      by_contra off
      exact busy fun on => absurd on off
    obtain ⟨w₀, run⟩ := exec_tick_onlyDue (a := a) (b := b) (oe := false)
      (trace := pushRun ⟨false, false⟩ (s.cfg.val.flushUs + 8 * s.cfg.val.bitWidth) s.trace) ready slots hk only
    obtain ⟨w, sent, -⟩ := sendFrame_busy q.destination (.pay k) q.length.toNat
      (s := (s.accept (.tick a b)).withWork fun _ => w₀) (State.ready_iff.1 ready).2 busy
    rw [State.afterSense, if_pos (by exact on), State.withWork_cfg, State.accept_cfg, caTicks, if_pos on] at sent
    obtain ⟨w, run⟩ := run _ _ { s with work := w } sent rfl
    exact ⟨w, run⟩
  · obtain ⟨v, sent, ends⟩ := exec_tick_listened (a := a) (b := b) ready slots hk clear node bidirectional only
    have undisturbed := sent.undisturbed.trans (State.ready_iff.1 ready).2
    obtain ⟨w, response, -⟩ := awaitResponse_symbol 21 0 undisturbed
      (by have := listenTicks_bounds v.cfg; omega) (fun j hj => absurd hj (Nat.not_lt_zero j))
      (by rw [State.carries, sent.line, sent.cfg, sent.time]; exact answer)
    rw [sent.cfg, Nat.zero_add] at response
    obtain ⟨h, run, stores⟩ := ends _ w response
    exact ⟨_, run, rfl, stores⟩

end Sys2Proof.Machine

/-! SUPPORT. What stands in the place of exceptions (spec/60_exceptions.md R255, R262 to R264, R268): no command stops the block,
but `RECEIVE_FRAME_T` may go on for ever (R318), and the flags of the two events against a host write to `STATUS`. -/

namespace Sys2Proof.Machine

/-! ### Every command comes to a next state -/

/-- A command whose body keeps a property comes to a next state, or never ends where its body has the licence. -/
theorem issue_next_or_neverEnds {i : Instr} {body : Cmd Word} {P : State → Prop} {E : Prop} {s : State}
    (keeps : Keeps E P body) (accepted : P (s.accept i)) :
    (∃ t, issue i body s = .next t) ∨ (issue i body s = .fault .neverEnds ∧ E) := by
  by_cases refused : s.busy = true ∨ legalOperands s.cfg.val i = false
  · exact .inl ⟨_, issue_refused body refused⟩
  · obtain ⟨idle, legal⟩ : s.busy = false ∧ legalOperands s.cfg.val i = true := by simpa using refused
    rw [issue_accepted body idle legal]
    have ends := keeps _ accepted
    cases run : body (s.accept i) with
    | ok r => exact .inl ⟨_, rfl⟩
    | error e =>
      rw [run] at ends
      cases e with
      | cut t => exact .inl ⟨_, rfl⟩
      | neverEnds => exact .inr ⟨rfl, ends⟩

/-- The body of every command keeps what all writes keep, and that of `RECEIVE_FRAME_T` alone needs the licence never to end. -/
theorem Free.exec_next_or_neverEnds {P : State → Prop} (h : Free P) {i : Instr} {s : State} (accepted : P (s.accept i)) :
    (∃ t, Machine.exec i s = .next t) ∨ (Machine.exec i s = .fault .neverEnds ∧ ∃ a b, i = .receiveFrameT a b) := by
  have free := h.free .all
  have bytes (region : Nat → Loc) (k : Nat) : Writes.all.byte (region k) := trivial
  cases i <;> simp only [Machine.exec] <;> refine issue_next_or_neverEnds ?_ accepted
  case sendBit => exact .bind (.look _) fun _ => .bind (.look _) fun _ => .bind (free.bit.sendBit _ _) fun _ => .pure _
  case sampleBit => exact .bind (.look _) fun _ => .bind (free.bit.sampleBit _) fun _ => .pure _
  case sendByte => exact .bind (.look _) fun _ => .bind (free.bit.sendByte _) fun _ => .pure _
  case readByte => exact .bind free.bit.readByte fun _ => .pure _
  case receiveByte => exact .bind free.bit.receiveByte fun _ => .pure _
  case canStart => exact .bind free.bit.canStart fun _ => .pure _
  case sendFrame =>
    exact .bind (.look _) fun _ => .bind (.look _) fun _ => .bind (free.sendFrame (bytes _) (bytes _) _ _ _) fun _ => .pure _
  case receiveFrame => exact .bind (free.receiveFrame (bytes _) (bytes _) trivial) fun _ => .pure _
  case receiveFrameT a b =>
    exact .bind (.look _) fun _ => .bind (free.receiveFrameT (bytes _) (bytes _) trivial ⟨a, b, rfl⟩ _) fun _ => .pure _
  case crypt =>
    exact .bind (.look _) fun _ => .bind (.look _) fun _ => .bind (.look _) fun _ =>
      .bind (free.crypt _ (bytes _) (bytes _) _ _ _) fun _ => .pure _
  case genIv => exact .bind (.look _) fun _ => .bind (.look _) fun _ => .bind (free.setWork _) fun _ => .pure _
  case enqueue =>
    exact .bind (.look _) fun _ => .bind (.look _) fun _ => .bind (.look _) fun _ =>
      free.enqueue (fun k => bytes (.pay k)) trivial trivial _ _ _
  case tick => exact .bind (free.tick (bytes _) (bytes _) trivial trivial) fun _ => .pure _
  case remove => exact .bind (.look _) fun _ => .bind (free.updateSlot trivial _ _) fun _ => .pure _

/-- Settles O8: the loop of `RECEIVE_FRAME_T` is the only procedure that can fail to end, and no arm of `exec` refuses. -/
theorem commandsEnd : Obligations.CommandsEnd := fun i s =>
  (State.GoesOn.free s).exec_next_or_neverEnds (.accept s i)

/-! ### The flags of the two events -/

/-- Between the same two ticks as its set, no write to `STATUS` clears `RX_DONE` (R31, R268). -/
theorem State.writeStatus_rxDone_of_fresh {s : State} (fresh : s.freshRx = true) (v : Word) :
    (s.writeStatus v).rxDone = s.rxDone := by
  rw [State.writeStatus_rxDone, fresh, clearFlag_fresh]

/-- Between the same two ticks as its set, no write to `STATUS` clears `ERR` (R31, R268). -/
theorem State.writeStatus_err_of_fresh {s : State} (fresh : s.freshErr = true) (v : Word) :
    (s.writeStatus v).err = s.err := by
  rw [State.writeStatus_err, fresh, clearFlag_fresh]

/-- After a tick a 1 in bit 2 clears `RX_DONE`. -/
theorem State.writeStatus_rxDone_of_tick (s : State) (d : Nat) {v : Word} (one : v.getLsbD 2 = true) :
    ((s.pass (d + 1)).writeStatus v).rxDone = false := by
  rw [State.writeStatus_rxDone, State.pass_pos _ d.succ_pos, one]
  exact clearFlag_stale _

/-- After a tick a 1 in bit 3 clears `ERR`. -/
theorem State.writeStatus_err_of_tick (s : State) (d : Nat) {v : Word} (one : v.getLsbD 3 = true) :
    ((s.pass (d + 1)).writeStatus v).err = false := by
  rw [State.writeStatus_err, State.pass_pos _ d.succ_pos, one]
  exact clearFlag_stale _

/-- Settles O22: an event marks its flag as fresh, and the first tick takes the mark away. -/
theorem events : Obligations.Events := by
  intro s len kind ctx v d
  have rx_set_wins := State.writeStatus_rxDone_of_fresh (s.rxEvent_freshRx len) v
  have err_set_wins := State.writeStatus_err_of_fresh (s.errorEvent_freshErr kind ctx) v
  exact ⟨rfl, rfl, rx_set_wins, err_set_wins, State.writeStatus_rxDone_of_tick _ d rfl, State.writeStatus_err_of_tick _ d rfl⟩

end Sys2Proof.Machine

/-! SUPPORT. A reset inside a command (spec/70_reset_and_hazards.md R290, R291): what every command leaves that a reset cuts off, and
a reset in the ticks of a `SEND_BIT`. -/

namespace Sys2Proof.Machine

/-! ### Any command -/

/-- A reset of a state that went on from `s` without one leaves the reset values, in the environment of `s`. -/
theorem State.GoesOn.resetPin_eq {s u : State} (on : s.GoesOn u) (uncut : u.resets = s.resets) (held : Nat) :
    u.resetPin held = { State.blank s.cfg with
      clock0 := s.clock0, time := (u.resetPin held).time, released := (u.resetPin held).time, resets := s.resets + 1
      line := s.line, hearsSelf := s.hearsSelf, host := (u.resetPin held).host, trace := (u.resetPin held).trace
      events := (u.resetPin held).events, reads := (u.resetPin held).reads } := by
  rw [← on.cfg, ← on.clock0, ← on.line, ← on.hearsSelf, ← uncut]
  rfl

/-- Settles O10: a refusal and the end of a command are no reset, and the reset that cuts a command off is its first. -/
theorem resetCutsCommand : Obligations.ResetCutsCommand := by
  intro i s t ends reset
  have keeps := ((State.GoesOn.free s).free (.of i)).and (FreeFor.resets (.of i) s.resets)
  rcases keeps.exec (fun _ _ => ⟨.accept s i, rfl⟩) ends with ⟨-, rfl⟩ | ⟨-, -, u, ⟨on, uncut⟩, ⟨r, rfl⟩ | ⟨held, rfl⟩⟩
  · exact absurd s.refuse_resets reset
  · exact absurd ((u.finish_resets r).trans uncut) reset
  · exact on.resetPin_eq uncut held

/-- A command whose body a reset cuts off. -/
theorem issue_cut {i : Instr} {body : Cmd Word} {s t : State} (idle : s.busy = false)
    (legal : legalOperands s.cfg.val i = true) (cut : body (s.accept i) = .error (.cut t)) : issue i body s = .next t := by
  rw [issue_accepted body idle legal, cut]

/-! ### `SEND_BIT` -/

section

variable {s : State} {tick held : Nat} {first : Bool} {rest : List HostAct}

/-- A reset that lands inside a `hold`: the ticks before it pass, and the command is abandoned. -/
theorem hold_reset {d : Nat} (pending : s.host = ⟨.atTick tick first, .rst held⟩ :: rest) (hle : s.time ≤ tick)
    (hlt : tick < s.time + d) :
    hold d s = .error (.cut (((s.withHost rest).pass (tick - s.time)).resetPin held)) := by
  have hd : d ≠ 0 := by omega
  have due : dueWithin s.time d tick first = true := by simp [dueWithin, hlt]
  rw [hold, if_neg hd, pending, advanceOver]
  exact if_pos due

/-- A `SEND_BIT` with a reset in it. -/
theorem exec_sendBit_reset (level : Bool) (b : Byte) (idle : s.busy = false)
    (pending : s.host = ⟨.atTick tick first, .rst held⟩ :: rest) (hle : s.time ≤ tick) (hlt : tick < s.time + s.arg.toNat) :
    exec (.sendBit level b) s
      = .next ((((s.sendingBit level b).withHost rest).pass (tick - s.time)).resetPin held) := by
  have cut : hold s.arg.toNat (s.sendingBit level b)
      = .error (.cut ((((s.sendingBit level b).withHost rest).pass (tick - s.time)).resetPin held)) :=
    hold_reset (s := s.sendingBit level b) pending hle hlt
  refine issue_cut idle rfl ?_
  simp only [Cmd.bind_apply, look_apply, Cmd.andThen_ok, sendBit, setLineO_apply, setWork_apply, State.opLevel_accept]
  show Cmd.andThen (Cmd.andThen (hold s.arg.toNat (s.sendingBit level b)) _) _ = _
  rw [cut]
  rfl

end

/-- Settles O11: the level stands on the pin for the ticks before the reset, and the host lets the hold pass. -/
theorem resetDuringSendBit : Obligations.ResetDuringSendBit := by
  intro s level b tick held first rest idle pending hle hlt quiet
  have at_tick : s.time + (tick - s.time) = tick := by omega
  have lets_pass : (((s.sendingBit level b).withHost rest).pass (tick - s.time)).quietUnderReset held := by
    rw [← at_tick] at quiet
    exact quiet
  rw [exec_sendBit_reset level b idle pending hle hlt, State.resetPin_quiet lets_pass,
    show (((s.sendingBit level b).withHost rest).pass (tick - s.time)).time = tick from at_tick]
  rfl

end Sys2Proof.Machine
